-- ==== Sys2Proof/Word.lean ====
section
/-! DEFINITION. The word types of the block (00_scope.md R8): `u8`, `u16` and `u32`. -/

namespace Sys2Proof

/-- `u8`, one byte of a buffer or of the wire (00_scope.md R8). -/
abbrev Byte := BitVec 8

/-- `u16`, the width of a CRC16 and of a Message ID on the wire (00_scope.md R8). -/
abbrev Half := BitVec 16

/-- `u32`, the width of an operand register; an `s32` is the same word read with `BitVec.toInt` (00_scope.md R8). -/
abbrev Word := BitVec 32

end Sys2Proof
end

