-- ==== Sys2Proof/Syntax.lean ====
section
/-! DEFINITION. The commands of the block: one constructor per row of the opcode table (30_encoding.md R91). A
command has no fields (R90): its operands are registers and buffers, named by its rule (R93). -/

namespace Sys2Proof

/-- The 44 commands. -/
inductive Instr where
  /-- CRC.INIT (R135). -/
  | crcInit
  /-- CRC.UPD (R136). -/
  | crcUpd
  /-- CRC.FRM (R137). -/
  | crcFrm
  /-- CRC.PAY (R138). -/
  | crcPay
  /-- SUM.INIT (R139). -/
  | sumInit
  /-- SUM.UPD (R140). -/
  | sumUpd
  /-- SUM.FRM (R141). -/
  | sumFrm
  /-- SUM.PATCH (R142). -/
  | sumPatch
  /-- VLU.LEN (R154). -/
  | vluLen
  /-- VLU.PUT (R155). -/
  | vluPut
  /-- VLU.GET (R156). -/
  | vluGet
  /-- VAL.TYPE (R158). -/
  | valType
  /-- VAL.MID (R159). -/
  | valMid
  /-- VAL.EID (R160). -/
  | valEid
  /-- VAL.ETP (R161). -/
  | valEtp
  /-- VAL.VER (R162). -/
  | valVer
  /-- BF.EXT (R172). -/
  | bfExt
  /-- BF.INS (R173). -/
  | bfIns
  /-- REG.LOOKUP (R187). -/
  | regLookup
  /-- REG.CHECK (R188). -/
  | regCheck
  /-- OPT.BEGIN (R208). -/
  | optBegin
  /-- OPT.SIZE (R209). -/
  | optSize
  /-- OPT.PUT (R210). -/
  | optPut
  /-- OPT.GET (R211). -/
  | optGet
  /-- OPTS.SIZE (R212). -/
  | optsSize
  /-- OPTS.ENC (R213). -/
  | optsEnc
  /-- OPTS.DEC (R214). -/
  | optsDec
  /-- MSG.RESET (R240). -/
  | msgReset
  /-- CT.MAP (R191). -/
  | ctMap
  /-- HDR0.PACK (R243). -/
  | hdr0Pack
  /-- HDR0.UNPACK (R244). -/
  | hdr0Unpack
  /-- HDR1.PACK (R247). -/
  | hdr1Pack
  /-- HDR1.UNPACK (R248). -/
  | hdr1Unpack
  /-- HDR2.PACK (R251). -/
  | hdr2Pack
  /-- HDR2.UNPACK (R252). -/
  | hdr2Unpack
  /-- SIZE.V0 (R272). -/
  | sizeV0
  /-- ENC.V0 (R273). -/
  | encV0
  /-- DEC.V0 (R274). -/
  | decV0
  /-- SIZE.V1 (R278). -/
  | sizeV1
  /-- ENC.V1 (R279). -/
  | encV1
  /-- DEC.V1 (R280). -/
  | decV1
  /-- SIZE.V2 (R284). -/
  | sizeV2
  /-- ENC.V2 (R285). -/
  | encV2
  /-- DEC.V2 (R286). -/
  | decV2
deriving DecidableEq, Repr

end Sys2Proof
end

