-- ==== Sys2Proof/Decode.lean ====
section
/-! DEFINITION. The command word (30_encoding.md R90 to R92): the opcode map, the decoder, the encoder. -/

namespace Sys2Proof

/-- One row of the opcode map. -/
structure OpcodeRow where
  opcode : Byte
  instr  : Instr
deriving DecidableEq, Repr

/-- The opcode map (30_encoding.md R91), in the table's order: checksums, varuint, validators and slicer. -/
def opcodeMapLow : List OpcodeRow := [
  ⟨0x10#8, .crcInit⟩,
  ⟨0x11#8, .crcUpd⟩,
  ⟨0x12#8, .crcFrm⟩,
  ⟨0x13#8, .crcPay⟩,
  ⟨0x14#8, .sumInit⟩,
  ⟨0x15#8, .sumUpd⟩,
  ⟨0x16#8, .sumFrm⟩,
  ⟨0x17#8, .sumPatch⟩,
  ⟨0x20#8, .vluLen⟩,
  ⟨0x21#8, .vluPut⟩,
  ⟨0x22#8, .vluGet⟩,
  ⟨0x24#8, .valType⟩,
  ⟨0x25#8, .valMid⟩,
  ⟨0x26#8, .valEid⟩,
  ⟨0x27#8, .valEtp⟩,
  ⟨0x28#8, .valVer⟩,
  ⟨0x2A#8, .bfExt⟩,
  ⟨0x2B#8, .bfIns⟩ ]

/-- The opcode map, continued: registry and options. -/
def opcodeMapOptions : List OpcodeRow := [
  ⟨0x30#8, .regLookup⟩,
  ⟨0x31#8, .regCheck⟩,
  ⟨0x32#8, .optBegin⟩,
  ⟨0x33#8, .optSize⟩,
  ⟨0x34#8, .optPut⟩,
  ⟨0x35#8, .optGet⟩,
  ⟨0x36#8, .optsSize⟩,
  ⟨0x37#8, .optsEnc⟩,
  ⟨0x38#8, .optsDec⟩ ]

/-- The opcode map, continued: message, content type, headers and frames. -/
def opcodeMapFrames : List OpcodeRow := [
  ⟨0x40#8, .msgReset⟩,
  ⟨0x41#8, .ctMap⟩,
  ⟨0x44#8, .hdr0Pack⟩,
  ⟨0x45#8, .hdr0Unpack⟩,
  ⟨0x46#8, .hdr1Pack⟩,
  ⟨0x47#8, .hdr1Unpack⟩,
  ⟨0x48#8, .hdr2Pack⟩,
  ⟨0x49#8, .hdr2Unpack⟩,
  ⟨0x50#8, .sizeV0⟩,
  ⟨0x51#8, .encV0⟩,
  ⟨0x52#8, .decV0⟩,
  ⟨0x54#8, .sizeV1⟩,
  ⟨0x55#8, .encV1⟩,
  ⟨0x56#8, .decV1⟩,
  ⟨0x58#8, .sizeV2⟩,
  ⟨0x59#8, .encV2⟩,
  ⟨0x5A#8, .decV2⟩ ]

/-- The whole opcode map (30_encoding.md R91). -/
def opcodeMap : List OpcodeRow := opcodeMapLow ++ opcodeMapOptions ++ opcodeMapFrames

/-- Why a byte sequence is no command. -/
inductive DecodeRefusal where
  /-- There is no byte to read. -/
  | empty
  /-- The byte is none of the 44 opcodes (30_encoding.md R92). -/
  | illegalOpcode (op : Byte)
deriving DecidableEq, Repr

/-- The command an opcode stands for; `none` for the 212 illegal opcodes (30_encoding.md R91, R92). -/
def decodeOpcode (op : Byte) : Option Instr :=
  (opcodeMap.find? fun r => r.opcode == op).map OpcodeRow.instr

/-- Reads one command from the front of a byte sequence: a command is one byte, the opcode (30_encoding.md R90). -/
def decode : List Byte → Except DecodeRefusal (Instr × List Byte)
  | [] => .error .empty
  | op :: rest =>
    match decodeOpcode op with
    | some i => .ok (i, rest)
    | none => .error (.illegalOpcode op)

/-- The opcode byte of a command (30_encoding.md R91). -/
def opcodeOf : Instr → Byte
  | .crcInit => 0x10#8
  | .crcUpd => 0x11#8
  | .crcFrm => 0x12#8
  | .crcPay => 0x13#8
  | .sumInit => 0x14#8
  | .sumUpd => 0x15#8
  | .sumFrm => 0x16#8
  | .sumPatch => 0x17#8
  | .vluLen => 0x20#8
  | .vluPut => 0x21#8
  | .vluGet => 0x22#8
  | .valType => 0x24#8
  | .valMid => 0x25#8
  | .valEid => 0x26#8
  | .valEtp => 0x27#8
  | .valVer => 0x28#8
  | .bfExt => 0x2A#8
  | .bfIns => 0x2B#8
  | .regLookup => 0x30#8
  | .regCheck => 0x31#8
  | .optBegin => 0x32#8
  | .optSize => 0x33#8
  | .optPut => 0x34#8
  | .optGet => 0x35#8
  | .optsSize => 0x36#8
  | .optsEnc => 0x37#8
  | .optsDec => 0x38#8
  | .msgReset => 0x40#8
  | .ctMap => 0x41#8
  | .hdr0Pack => 0x44#8
  | .hdr0Unpack => 0x45#8
  | .hdr1Pack => 0x46#8
  | .hdr1Unpack => 0x47#8
  | .hdr2Pack => 0x48#8
  | .hdr2Unpack => 0x49#8
  | .sizeV0 => 0x50#8
  | .encV0 => 0x51#8
  | .decV0 => 0x52#8
  | .sizeV1 => 0x54#8
  | .encV1 => 0x55#8
  | .decV1 => 0x56#8
  | .sizeV2 => 0x58#8
  | .encV2 => 0x59#8
  | .decV2 => 0x5A#8

/-- The words of a command: its opcode byte and nothing else (30_encoding.md R90). -/
def encode (i : Instr) : List Byte := [opcodeOf i]

/-- The bytes of a word of `n` bytes numbered as the opcode table numbers it: bit 0 is the least significant bit of
the first byte. -/
def tableBytes : Nat → Nat → List Byte
  | 0, _ => []
  | n + 1, w => BitVec.ofNat 8 w :: tableBytes n (w / 256)

/-- The command the decoder reads from a word of the opcode table of `nbits` bits; a row with fewer bits than a byte
has zeros above them. -/
def decodeTableWord (nbits w : Nat) : Option Instr :=
  match decode (tableBytes (max 1 ((nbits + 7) / 8)) (w % 2 ^ nbits)) with
  | .ok (i, _) => some i
  | .error _ => none

end Sys2Proof
end

