-- ==== Sys2Proof/Config.lean ====
section
/-! DEFINITION. What an implementation fixes (00_scope.md R6) and the free values. -/

namespace Sys2Proof

/-- The two capacities of an instance, `BUF_BYTES` and `OPT_CAP` (00_scope.md R6). The machine holds them in its
read-only registers BUFBYTES and OPTCAP (10_state.md R32), so that a statement about every state is a statement
about every instance. -/
structure Params where
  bufBytes : Word
  optCap   : Word
deriving DecidableEq, Repr

/-- The two formats a vendor option may have (43_option_registry.md R183). -/
inductive VendorFmt where
  | string
  | uint
deriving DecidableEq, Repr, Inhabited

/-- `VENDOR_FMT`: the format of each of the option IDs 65000 to 65006, by its offset from 65000. OPEN in the spec
(00_scope.md R6, 43_option_registry.md R183): a constant with no body, so that no proof can see it (log 4). -/
opaque Config.vendorFmt : Fin 7 → VendorFmt

/-- Free value: what REQSIZE holds when the size to be recorded is 2^32 or more, for the value of the machine's
counter of free values. No rule gives it, so it is a constant with no body (log 5). -/
opaque Config.freeReqSize : Nat → Word

/-- The capacities `State.reset` holds. DESIGN CHOICE (log 2): the spec leaves both OPEN; 131072 bytes hold every
representable option value. -/
def Config.resetParams : Params := { bufBytes := 131072#32, optCap := 64#32 }

end Sys2Proof
end

