-- ==== Sys2Proof/Machine/Memory.lean ====
section
/-! DEFINITION. Memories as plain data: a list of (address, cell) pairs with strictly rising addresses and no entry
equal to what an unlisted address reads as. The byte buffers and TOKEN hold bytes (10_state.md R37, R42), the option
table holds entries (10_state.md R40). -/

namespace Sys2Proof.Machine

/-! ### Cells of any type -/

/-- Reads the cell at `a`; an unlisted address reads as `d`. -/
def Sparse.get {α : Type} (d : α) : List (Nat × α) → Nat → α
  | [], _ => d
  | (k, v) :: rest, a => if k = a then v else Sparse.get d rest a

/-- Writes `v` at `a`, keeping the addresses rising; writing what an unlisted address reads as removes the entry. -/
def Sparse.set {α : Type} [DecidableEq α] (d : α) : List (Nat × α) → Nat → α → List (Nat × α)
  | [], a, v => if v = d then [] else [(a, v)]
  | (k, w) :: rest, a, v =>
    if a < k then (if v = d then (k, w) :: rest else (a, v) :: (k, w) :: rest)
    else if a = k then (if v = d then rest else (a, v) :: rest)
    else (k, w) :: Sparse.set d rest a v

/-- Reads the `n` cells from `a` up. -/
def Sparse.read {α : Type} (d : α) (m : List (Nat × α)) : Nat → Nat → List α
  | _, 0 => []
  | a, n + 1 => Sparse.get d m a :: Sparse.read d m (a + 1) n

/-- Writes consecutive cells from `a` up. -/
def Sparse.write {α : Type} [DecidableEq α] (d : α) : List (Nat × α) → Nat → List α → List (Nat × α)
  | m, _, [] => m
  | m, a, v :: vs => Sparse.write d (Sparse.set d m a v) (a + 1) vs

/-- The canonical form: addresses strictly rising, no entry equal to what an unlisted address reads as. -/
abbrev Sparse.wf {α : Type} (d : α) (m : List (Nat × α)) : Prop :=
  m.Pairwise (fun x y => x.1 < y.1) ∧ ∀ x ∈ m, x.2 ≠ d

/-- Every listed address is below `size`. -/
abbrev Sparse.within {α : Type} (m : List (Nat × α)) (size : Nat) : Prop := ∀ x ∈ m, x.1 < size

/-! ### Byte memories -/

/-- A byte memory. -/
abbrev Memory := List Host.Cell

/-- What an unlisted byte reads as. DESIGN CHOICE (log 3): the spec leaves the contents after reset unspecified
(10_state.md R44). -/
def Memory.unlisted : Byte := 0#8

/-- Reads one byte. -/
def Memory.get (m : Memory) (a : Nat) : Byte := Sparse.get Memory.unlisted m a

/-- Writes one byte. -/
def Memory.set (m : Memory) (a : Nat) (v : Byte) : Memory := Sparse.set Memory.unlisted m a v

/-- The `n` bytes from `a` up. -/
def Memory.read (m : Memory) (a n : Nat) : List Byte := Sparse.read Memory.unlisted m a n

/-- Writes a byte sequence from `a` up. -/
def Memory.write (m : Memory) (a : Nat) (bs : List Byte) : Memory := Sparse.write Memory.unlisted m a bs

/-- The canonical form of a byte memory. -/
abbrev Memory.wf (m : Memory) : Prop := Sparse.wf Memory.unlisted m

/-! ### Option tables -/

/-- One entry of the option table (10_state.md R40). KIND stays a bit vector: the host may write its reserved codes
5 to 7 (10_state.md R41). -/
structure OptEntry where
  id   : Word
  kind : BitVec 3
  voff : Word
  vlen : Word
  uval : Word
deriving DecidableEq, Repr

/-- What an unlisted entry reads as. DESIGN CHOICE (log 3), as for the bytes. -/
def OptEntry.unlisted : OptEntry := { id := 0#32, kind := 0#3, voff := 0#32, vlen := 0#32, uval := 0#32 }

/-- The option table: entries by index. -/
abbrev OptTable := List (Nat × OptEntry)

/-- Reads one entry. -/
def OptTable.get (t : OptTable) (i : Nat) : OptEntry := Sparse.get OptEntry.unlisted t i

/-- Writes one entry. -/
def OptTable.set (t : OptTable) (i : Nat) (e : OptEntry) : OptTable := Sparse.set OptEntry.unlisted t i e

/-- The `n` entries from `i` up. -/
def OptTable.read (t : OptTable) (i n : Nat) : List OptEntry := Sparse.read OptEntry.unlisted t i n

/-- Writes consecutive entries from `i` up. -/
def OptTable.write (t : OptTable) (i : Nat) (es : List OptEntry) : OptTable := Sparse.write OptEntry.unlisted t i es

/-- The canonical form of an option table. -/
abbrev OptTable.wf (t : OptTable) : Prop := Sparse.wf OptEntry.unlisted t

end Sys2Proof.Machine
end

