-- ==== Sys2Proof/WellFormed.lean ====
section
/-! DEFINITION. Well-formedness of the model's terms. A command carries no operand, so every command is well formed;
what can be ill formed is an instance's pair of capacities (00_scope.md R6). -/

namespace Sys2Proof

/-- Every command is well formed: it has no register field, no immediate and no mode bit (30_encoding.md R90). -/
def Instr.wellFormed (_ : Instr) : Bool := true

/-- `8 ≤ BUF_BYTES` (00_scope.md R6). -/
abbrev Params.bufBytesAtLeast (p : Params) : Prop := 8 ≤ p.bufBytes.toNat

/-- `BUF_BYTES ≤ 2^24` (00_scope.md R6). -/
abbrev Params.bufBytesAtMost (p : Params) : Prop := p.bufBytes.toNat ≤ 2 ^ 24

/-- `OPT_CAP ≤ 2^15` (00_scope.md R6). -/
abbrev Params.optCapAtMost (p : Params) : Prop := p.optCap.toNat ≤ 2 ^ 15

/-- `17 + OPT_CAP × (5 + BUF_BYTES) + BUF_BYTES < 2^32` (00_scope.md R6). -/
abbrev Params.sizesFit (p : Params) : Prop :=
  17 + p.optCap.toNat * (5 + p.bufBytes.toNat) + p.bufBytes.toNat < 2 ^ 32

/-- The constraints an instance's capacities satisfy together (00_scope.md R6). -/
abbrev Params.wellFormed (p : Params) : Prop :=
  p.bufBytesAtLeast ∧ p.bufBytesAtMost ∧ p.optCapAtMost ∧ p.sizesFit

end Sys2Proof
end

