-- ==== Sys2Proof/Machine/State.lean ====
section
/-! DEFINITION. The state of the block (10_state.md R20), the statuses (60_exceptions.md R301), the host's actions
(20_memory.md R70), the reasons a step can stop, and reset (10_state.md R44). -/

namespace Sys2Proof.Machine

/-- The outcome of a command (60_exceptions.md R301). -/
inductive Status where
  | ok
  | errTooSmall
  | errMessageTruncated
  | errMessageInvalidVersion
  | errInvalidTokenLen
  | errOptionTruncated
  | errOptionUnexpectedExtendMarker
  | errOptionsTooSmall
  | errInvalidValueLength
  | errInvalidRCRC16
  | errMessageInvalidRSUM8
  /-- Reserved: the block never raises it. -/
  | errMessageNil
  | errInvalidField
  | errUnrepresentable
  | errBadOperand
  | errIllegalCommand
deriving DecidableEq, Repr

/-- What a command raises when it does not end OK (60_exceptions.md R300, R302): only ErrTooSmall records something,
the required end. ErrMessageNil is missing because the block never raises it (R301). -/
inductive Raise where
  /-- ErrTooSmall, with the required end offset. -/
  | tooSmall (need : Nat)
  | messageTruncated
  | messageInvalidVersion
  | invalidTokenLen
  | optionTruncated
  | optionUnexpectedExtendMarker
  | optionsTooSmall
  | invalidValueLength
  | invalidRCRC16
  | messageInvalidRSUM8
  | invalidField
  | unrepresentable
  | badOperand
  | illegalCommand
deriving DecidableEq, Repr

/-- What is arbitrary in the state after reset (10_state.md R44): the contents of TOKEN, of the option table and of
the three buffers, from offset 0 up; what lies beyond a list holds the value an unlisted cell reads as. -/
structure ResetContents where
  token : List Byte
  opt   : List OptEntry
  fbuf  : List Byte
  pbuf  : List Byte
  vbuf  : List Byte
deriving DecidableEq, Repr

/-- What the outside can do to the block (20_memory.md R70, R74; 70_reset_and_hazards.md R330). -/
inductive HostAction where
  /-- Reads the register or buffer byte at a byte offset of the register window. -/
  | read (offset : Nat)
  /-- Writes the register or buffer byte at a byte offset; a write to CMD runs a command. -/
  | write (offset : Nat) (value : Word)
  /-- Power-on reset, with the unspecified contents it leaves. -/
  | powerOn (contents : ResetContents)
deriving DecidableEq, Repr

/-- The state of the block. -/
structure State where
  /-- Operand register A0 (10_state.md R22). -/
  a0 : Word
  /-- Operand register A1. -/
  a1 : Word
  /-- Operand register A2. -/
  a2 : Word
  /-- Operand register A3. -/
  a3 : Word
  /-- STATUS, the outcome of the last command (10_state.md R26). -/
  status : Status
  /-- REQSIZE, the required size last reported (10_state.md R27). -/
  reqSize : Word
  /-- POS, the cursor into FBUF (10_state.md R24). -/
  pos : Word
  /-- OCAP, the capacity granted to commands that write FBUF (10_state.md R28). -/
  ocap : Word
  /-- FLEN, the number of valid bytes in FBUF (10_state.md R29). -/
  flen : Word
  /-- PLEN, the payload length (10_state.md R30). -/
  plen : Word
  /-- OPTCNT, the number of valid entries of the option table (10_state.md R31). -/
  optCnt : Word
  /-- CRCACC, the running CRC16 (10_state.md R33). -/
  crcAcc : Half
  /-- SUMACC, the running RSUM8 (10_state.md R34). -/
  sumAcc : Byte
  /-- PREVID, the previous option ID (10_state.md R35). -/
  prevId : Word
  /-- M_VER, an `s32` (10_state.md R36). -/
  mVer : Word
  /-- M_TYPE, an `s32`. -/
  mType : Word
  /-- M_MID, an `s32`. -/
  mMid : Word
  /-- M_EID, an `s32`. -/
  mEid : Word
  /-- M_ETP, an `s32`. -/
  mEtp : Word
  /-- M_CODE. -/
  mCode : Byte
  /-- M_CRC16. -/
  mCrc16 : Half
  /-- M_RSUM8. -/
  mRsum8 : Byte
  /-- M_TKL, the token length (10_state.md R37). -/
  mTkl : BitVec 4
  /-- TOKEN, 8 bytes (10_state.md R37). -/
  token : Memory
  /-- The option table (10_state.md R40). -/
  opt : OptTable
  /-- FBUF, the frame buffer (10_state.md R42). -/
  fbuf : Memory
  /-- PBUF, the payload buffer. -/
  pbuf : Memory
  /-- VBUF, the option value buffer. -/
  vbuf : Memory
  /-- BUFBYTES, read-only: the parameter `BUF_BYTES` (10_state.md R32). -/
  bufBytes : Word
  /-- OPTCAP, read-only: the parameter `OPT_CAP` (10_state.md R32). -/
  optCap : Word
  /-- The model's own: the host's actions not served yet, oldest first (log 1). -/
  host : List HostAction
  /-- The model's own: the value the last host read returned (log 6). -/
  rdata : Word
  /-- The model's own: how many free values have been drawn (log 5). -/
  freeCount : Nat
deriving DecidableEq, Repr

/-- No step of the block stops with a fault: every command ends with a status and the machine goes on
(60_exceptions.md R300, R305), and an offset that is not in the map reads 0 and ignores writes (20_memory.md R71).
So there is no constructor. Safe. -/
inductive Fault where
deriving DecidableEq, Repr

/-- Why a step may have no meaning. -/
inductive Refusal where
  /-- Raised by `exec` for a command that has no meaning in this model yet: none. Safe. -/
  | notModelled (mnemonic : String)
deriving DecidableEq, Repr

/-- The state after power-on reset of an instance with capacities `p`, for the unspecified contents `c`
(10_state.md R44, 70_reset_and_hazards.md R330). -/
def State.resetWith (p : Params) (c : ResetContents) : State :=
  { a0 := 0#32, a1 := 0#32, a2 := 0#32, a3 := 0#32
    status := .ok, reqSize := 0#32
    pos := 0#32, ocap := 0#32, flen := 0#32, plen := 0#32, optCnt := 0#32
    crcAcc := 0xFFFF#16, sumAcc := 0#8, prevId := 0#32
    mVer := 0#32, mType := 0#32, mMid := 0#32, mEid := 0#32, mEtp := 0#32
    mCode := 0#8, mCrc16 := 0#16, mRsum8 := 0#8, mTkl := 0#4
    token := Memory.write [] 0 (c.token.take 8)
    opt := OptTable.write [] 0 (c.opt.take p.optCap.toNat)
    fbuf := Memory.write [] 0 (c.fbuf.take p.bufBytes.toNat)
    pbuf := Memory.write [] 0 (c.pbuf.take p.bufBytes.toNat)
    vbuf := Memory.write [] 0 (c.vbuf.take p.bufBytes.toNat)
    bufBytes := p.bufBytes, optCap := p.optCap
    host := [], rdata := 0#32, freeCount := 0 }

/-- The contents `State.reset` takes: nothing listed. DESIGN CHOICE (log 3). -/
def ResetContents.none : ResetContents := { token := [], opt := [], fbuf := [], pbuf := [], vbuf := [] }

/-- The machine right after power-on reset: `State.resetWith` at the capacities (log 2) and contents (log 3) the
model chose. -/
def State.reset : State := State.resetWith Config.resetParams ResetContents.none

end Sys2Proof.Machine
end

