-- ==== Sys2Proof/Machine/Ops.lean ====
section
/-! DEFINITION. The named operations over memory and registers: MemRead and MemWrite (00_scope.md R9), byte order
(20_memory.md R61, R62), recording a size in REQSIZE (10_state.md R27), and taking an exception (60_exceptions.md
R305). There is no return from an exception (R306): the next command overwrites STATUS. -/

namespace Sys2Proof.Machine

/-! ### Byte order and bit fields -/

/-- `BE16(b0, b1) = b0 × 256 + b1` (00_scope.md R8). -/
def be16 (b0 b1 : Byte) : Half := b0 ++ b1

/-- `LE16(b0, b1) = b1 × 256 + b0` (00_scope.md R8). -/
def le16 (b0 b1 : Byte) : Half := b1 ++ b0

/-- `v[15:8]`. -/
def hiByte (v : Half) : Byte := v.extractLsb' 8 8

/-- `v[7:0]`. -/
def loByte (v : Half) : Byte := v.extractLsb' 0 8

/-- `b[7:4]`. -/
def hiNibble (b : Byte) : BitVec 4 := b.extractLsb' 4 4

/-- `b[3:0]`. -/
def loNibble (b : Byte) : BitVec 4 := b.extractLsb' 0 4

/-- The version bits of a frame's byte 0, `b[7:6]` (30_encoding.md R96). -/
def versionBits (b : Byte) : BitVec 2 := b.extractLsb' 6 2

/-- `zext_32` (00_scope.md R9). -/
def zext {n : Nat} (v : BitVec n) : Word := v.setWidth 32

/-- A natural number below 2^32 as a register value. -/
def word (n : Nat) : Word := BitVec.ofNat 32 n

/-- Byte `i` of a byte sequence (00_scope.md R8); every use is within the sequence. -/
def byteAt (bs : List Byte) (i : Nat) : Byte := bs.getD i 0#8

/-! ### The byte spaces -/

/-- The byte spaces of MemRead and MemWrite (00_scope.md R9). -/
inductive Space where
  | fbuf
  | pbuf
  | vbuf
  | token
deriving DecidableEq, Repr

/-- The memory of a byte space. -/
def State.space (s : State) : Space → Memory
  | .fbuf => s.fbuf
  | .pbuf => s.pbuf
  | .vbuf => s.vbuf
  | .token => s.token

/-- The size of a byte space (10_state.md R37, R42). -/
def State.spaceSize (s : State) : Space → Nat
  | .fbuf => s.bufBytes.toNat
  | .pbuf => s.bufBytes.toNat
  | .vbuf => s.bufBytes.toNat
  | .token => 8

/-- `MemRead(S, addr, n)` (00_scope.md R9). Every use has checked `addr + n` against the size of the space. -/
def State.memRead (s : State) (sp : Space) (addr n : Nat) : List Byte := (s.space sp).read addr n

/-- `MemWrite(S, addr, n, v)`, with `n` the length of `v` (00_scope.md R9). -/
def State.memWrite (s : State) (sp : Space) (addr : Nat) (v : List Byte) : State :=
  match sp with
  | .fbuf => { s with fbuf := s.fbuf.write addr v }
  | .pbuf => { s with pbuf := s.pbuf.write addr v }
  | .vbuf => { s with vbuf := s.vbuf.write addr v }
  | .token => { s with token := s.token.write addr v }

/-! ### Sizes -/

/-- The value REQSIZE takes for a size of `n` bytes. A size of 2^32 or more has no 32-bit value in the spec: REQSIZE
then holds a free value (log 5). -/
def sizeValue (freeCount n : Nat) : Word := if n < 2 ^ 32 then word n else Config.freeReqSize freeCount

/-- `REQSIZE <- n` (10_state.md R27); the counter advances when a free value is drawn (log 5). -/
def State.recordSize (s : State) (n : Nat) : State :=
  { s with
    reqSize := sizeValue s.freeCount n
    freeCount := if n < 2 ^ 32 then s.freeCount else s.freeCount + 1 }

/-! ### Taking an exception -/

/-- The status a raised condition is reported as (60_exceptions.md R301). -/
def Raise.status : Raise → Status
  | .tooSmall _ => .errTooSmall
  | .messageTruncated => .errMessageTruncated
  | .messageInvalidVersion => .errMessageInvalidVersion
  | .invalidTokenLen => .errInvalidTokenLen
  | .optionTruncated => .errOptionTruncated
  | .optionUnexpectedExtendMarker => .errOptionUnexpectedExtendMarker
  | .optionsTooSmall => .errOptionsTooSmall
  | .invalidValueLength => .errInvalidValueLength
  | .invalidRCRC16 => .errInvalidRCRC16
  | .messageInvalidRSUM8 => .errMessageInvalidRSUM8
  | .invalidField => .errInvalidField
  | .unrepresentable => .errUnrepresentable
  | .badOperand => .errBadOperand
  | .illegalCommand => .errIllegalCommand

/-- The code of a status, the value the host reads from STATUS (60_exceptions.md R301). -/
def Status.code : Status → Byte
  | .ok => 0#8
  | .errTooSmall => 1#8
  | .errMessageTruncated => 2#8
  | .errMessageInvalidVersion => 3#8
  | .errInvalidTokenLen => 4#8
  | .errOptionTruncated => 5#8
  | .errOptionUnexpectedExtendMarker => 6#8
  | .errOptionsTooSmall => 7#8
  | .errInvalidValueLength => 8#8
  | .errInvalidRCRC16 => 9#8
  | .errMessageInvalidRSUM8 => 10#8
  | .errMessageNil => 11#8
  | .errInvalidField => 12#8
  | .errUnrepresentable => 13#8
  | .errBadOperand => 14#8
  | .errIllegalCommand => 15#8

/-- Taking an exception (60_exceptions.md R305): STATUS gets the code, REQSIZE the required end when the status is
ErrTooSmall, and nothing else changes. There is no vector, no mode change and no transfer of control. -/
def State.takeException (s : State) (r : Raise) : State :=
  match r with
  | .tooSmall need => { s.recordSize need with status := .errTooSmall }
  | r => { s with status := r.status }

/-! ### Writing FBUF -/

/-- What a stream PUT does once its bound is checked: the bytes go to FBUF at POS, POS moves past them, FLEN is raised
to POS, REQSIZE is the new POS (10_state.md R24, R29; 41_varuint_validators.md R155). -/
def State.putAtCursor (s : State) (bs : List Byte) : State :=
  let p := s.pos.toNat + bs.length
  ({ s.memWrite .fbuf s.pos.toNat bs with
      pos := word p
      flen := word (max s.flen.toNat p) }).recordSize p

/-- What a header packer does once its checks pass: the header goes to FBUF at 0, POS is the header length, FLEN is
raised to it, REQSIZE records it (45_message_headers.md R243, R247, R251). -/
def State.packHeader (s : State) (hdr : List Byte) : State :=
  ({ s.memWrite .fbuf 0 hdr with
      pos := word hdr.length
      flen := word (max s.flen.toNat hdr.length) }).recordSize hdr.length

/-- What a frame encoder does once its checks pass: the frame goes to FBUF at 0; FLEN, POS and REQSIZE are its size
(46_frames.md R273, R279, R285). -/
def State.emitFrame (s : State) (size : Nat) (frame : List Byte) : State :=
  ({ s.memWrite .fbuf 0 frame with
      flen := word size
      pos := word size }).recordSize size

end Sys2Proof.Machine
end

