-- ==== Sys2Proof/Machine/Operands.lean ====
section
/-! DEFINITION. Every operand form of the commands (30_encoding.md R93): operand registers (10_state.md R22), clamped
lengths (R28 to R30), the bounds primitives (20_memory.md R73), and the option table as a list (44_option_tlv.md
R215). -/

namespace Sys2Proof.Machine

/-- `x[i]` as a natural number: offsets and lengths are summed without wrap (20_memory.md R73). -/
abbrev State.x0 (s : State) : Nat := s.a0.toNat

/-- `x[1]` as a natural number. -/
abbrev State.x1 (s : State) : Nat := s.a1.toNat

/-- `x[2]` as a natural number. -/
abbrev State.x2 (s : State) : Nat := s.a2.toNat

/-- `x[0][7:0]`, the byte operand; the rest of A0 is ignored (10_state.md R22). -/
abbrev State.byteOperand (s : State) : Byte := s.a0.setWidth 8

/-- `x[0]` read as an `s32` (10_state.md R22). -/
abbrev State.signedOperand (s : State) : Int := s.a0.toInt

/-- `flen = min(FLEN, BUF_BYTES)` (10_state.md R29). -/
def State.flenEff (s : State) : Nat := min s.flen.toNat s.bufBytes.toNat

/-- `ocap = min(OCAP, BUF_BYTES)` (10_state.md R28). -/
def State.ocapEff (s : State) : Nat := min s.ocap.toNat s.bufBytes.toNat

/-- `plen = min(PLEN, BUF_BYTES)` (10_state.md R30). -/
def State.plenEff (s : State) : Nat := min s.plen.toNat s.bufBytes.toNat

/-- The cursor as a natural number (10_state.md R24). -/
abbrev State.cursor (s : State) : Nat := s.pos.toNat

/-- `need_in(pos, n)`: the bytes to be read end at or below `flen` (20_memory.md R73). -/
abbrev State.needIn (s : State) (pos n : Nat) : Prop := pos + n ≤ s.flenEff

/-- `need_out(pos, n)`: the bytes to be written end at or below `ocap` (20_memory.md R73). -/
abbrev State.needOut (s : State) (pos n : Nat) : Prop := pos + n ≤ s.ocapEff

/-- The frame a decoder parses, `FBUF[0 .. flen)` (10_state.md R29). -/
def State.frame (s : State) : List Byte := s.memRead .fbuf 0 s.flenEff

/-- The payload, `PBUF[0 .. plen)` (10_state.md R30). -/
def State.payload (s : State) : List Byte := s.memRead .pbuf 0 s.plenEff

/-- The token, `TOKEN[0 .. M_TKL)` (10_state.md R37). -/
def State.tokenBytes (s : State) : List Byte := s.memRead .token 0 s.mTkl.toNat

/-- The options of the message in insertion order, `OPT[0]` to `OPT[OPTCNT-1]` (10_state.md R31). -/
def State.options (s : State) : List OptEntry := s.opt.read 0 s.optCnt.toNat

end Sys2Proof.Machine
end

