-- ==== Sys2Proof/Machine/Flags.lean ====
section
/-! DEFINITION. The flags a command writes: STATUS always, REQSIZE where its rule says so (10_state.md R26, R27); the
block has no other (00_scope.md §5). A meaning computes either the state its rule leaves or what it raises, and
`complete` makes the outcome of it. -/

namespace Sys2Proof.Machine

/-- The end of a command: STATUS <- OK on the state its rule leaves, or an exception taken on the state it began with,
so that a command that does not end OK has no other effect (00_scope.md R10, 60_exceptions.md R305). -/
def complete (s : State) (r : Except Raise State) : Host.Outcome State Fault Refusal :=
  match r with
  | .ok t => .next { t with status := .ok }
  | .error e => .next (s.takeException e)

/-- Whether a command with a required end `n` has room for it; the status is raised exactly when the end is greater
than the capacity (20_memory.md R73). -/
def roomFor (s : State) (n : Nat) : Except Raise Unit :=
  if n ≤ s.ocapEff then .ok () else .error (.tooSmall n)

end Sys2Proof.Machine
end

