-- ==== Sys2Proof/Machine/Checksums.lean ====
section
/-! DEFINITION. The CRC16-MODBUS generator and the RSUM8 unit (40_checksums.md). -/

namespace Sys2Proof.Machine

/-! ### Functions -/

/-- One of the eight shifts of `crc16_step` (40_checksums.md R130). PRESUMED by the spec itself (log 8). -/
def crc16Shift (c : Half) : Half := if c.getLsbD 0 then (c >>> 1) ^^^ 0xA001#16 else c >>> 1

/-- `crc16_step(c, b)` (40_checksums.md R130). -/
def crc16Step (c : Half) (b : Byte) : Half := Nat.repeat crc16Shift 8 (c ^^^ b.setWidth 16)

/-- `crc16(bytes)`: from 0xFFFF, no final inversion (40_checksums.md R131). -/
def crc16 (bytes : List Byte) : Half := bytes.foldl crc16Step 0xFFFF#16

/-- `crc_be(c)`, the wire form of V2 (40_checksums.md R132). -/
def crcBe (c : Half) : List Byte := [hiByte c, loByte c]

/-- `crc_le(c)`, the wire form of V0 (40_checksums.md R132). -/
def crcLe (c : Half) : List Byte := [loByte c, hiByte c]

/-- One byte of the running RSUM8 (40_checksums.md R133). -/
def rsum8Step (s : Byte) (b : Byte) : Byte := s + ~~~b

/-- `rsum8(bytes)`: the sum of the complements modulo 256, from 0 (40_checksums.md R133). -/
def rsum8 (bytes : List Byte) : Byte := bytes.foldl rsum8Step 0#8

/-! ### Commands -/

/-- CRC.INIT (40_checksums.md R135). -/
def execCrcInit (s : State) : Host.Outcome State Fault Refusal :=
  complete s (.ok { s with crcAcc := 0xFFFF#16 })

/-- CRC.UPD (40_checksums.md R136). -/
def execCrcUpd (s : State) : Host.Outcome State Fault Refusal :=
  complete s (.ok { s with crcAcc := crc16Step s.crcAcc s.byteOperand })

/-- CRC.FRM (40_checksums.md R137). -/
def execCrcFrm (s : State) : Host.Outcome State Fault Refusal :=
  complete s <|
    if s.needIn s.x0 s.x1 then .ok { s with crcAcc := crc16 (s.memRead .fbuf s.x0 s.x1) }
    else .error .badOperand

/-- CRC.PAY (40_checksums.md R138). -/
def execCrcPay (s : State) : Host.Outcome State Fault Refusal :=
  complete s (.ok { s with crcAcc := crc16 s.payload })

/-- SUM.INIT (40_checksums.md R139). -/
def execSumInit (s : State) : Host.Outcome State Fault Refusal :=
  complete s (.ok { s with sumAcc := 0#8 })

/-- SUM.UPD (40_checksums.md R140). -/
def execSumUpd (s : State) : Host.Outcome State Fault Refusal :=
  complete s (.ok { s with sumAcc := rsum8Step s.sumAcc s.byteOperand })

/-- SUM.FRM (40_checksums.md R141). -/
def execSumFrm (s : State) : Host.Outcome State Fault Refusal :=
  complete s <|
    if s.needIn s.x0 s.x1 then .ok { s with sumAcc := rsum8 (s.memRead .fbuf s.x0 s.x1) }
    else .error .badOperand

/-- The byte SUM.PATCH stores: the RSUM8 of the frame with byte 7 replaced by 0 (40_checksums.md R142). -/
def patchByte (frame : List Byte) : Byte := rsum8 (frame.set 7 0#8)

/-- SUM.PATCH (40_checksums.md R142). -/
def execSumPatch (s : State) : Host.Outcome State Fault Refusal :=
  complete s <|
    if s.flenEff < 8 then .error .messageTruncated
    else if s.ocapEff < 8 then .error (.tooSmall 8)
    else
      let r := patchByte s.frame
      .ok { s.memWrite .fbuf 7 [r] with mRsum8 := r }

end Sys2Proof.Machine
end

