-- ==== Sys2Proof/Machine/Varuint.lean ====
section
/-! DEFINITION. Variable-length unsigned integers and the field validators (41_varuint_validators.md). -/

namespace Sys2Proof.Machine

/-! ### The varuint functions -/

/-- `vlu_len(v)` (41_varuint_validators.md R150). -/
def vluLen (v : Word) : Nat :=
  if v.toNat = 0 then 0
  else if v.toNat ≤ 255 then 1
  else if v.toNat ≤ 65535 then 2
  else if v.toNat ≤ 16777215 then 3
  else 4

/-- `[ v[31:24], v[23:16], v[15:8], v[7:0] ]`. -/
def wordBytesBe (v : Word) : List Byte :=
  [v.extractLsb' 24 8, v.extractLsb' 16 8, v.extractLsb' 8 8, v.extractLsb' 0 8]

/-- `vlu_enc(v)`: the last `vlu_len(v)` of the four bytes (41_varuint_validators.md R151). -/
def vluEnc (v : Word) : List Byte := (wordBytesBe v).drop (4 - vluLen v)

/-- The number a byte sequence spells big-endian. -/
def beNat (bs : List Byte) : Nat := bs.foldl (fun acc b => acc * 256 + b.toNat) 0

/-- `vlu_dec(b)`, for at most 4 bytes (41_varuint_validators.md R152). -/
def vluDec (bs : List Byte) : Word := word (beNat bs)

/-! ### Varuint commands -/

/-- VLU.LEN (41_varuint_validators.md R154). -/
def execVluLen (s : State) : Host.Outcome State Fault Refusal :=
  complete s (.ok { s with a1 := word (vluLen s.a0) })

/-- VLU.PUT (41_varuint_validators.md R155). -/
def execVluPut (s : State) : Host.Outcome State Fault Refusal :=
  complete s <|
    match roomFor s (s.cursor + vluLen s.a0) with
    | .error e => .error e
    | .ok () => .ok { s.putAtCursor (vluEnc s.a0) with a1 := word (vluLen s.a0) }

/-- VLU.GET (41_varuint_validators.md R156). -/
def execVluGet (s : State) : Host.Outcome State Fault Refusal :=
  complete s <|
    if s.x1 > 4 then .error .badOperand
    else if s.needIn s.cursor s.x1 then
      .ok { s with
        a0 := vluDec (s.memRead .fbuf s.cursor s.x1)
        pos := word (s.cursor + s.x1) }
    else .error .messageTruncated

/-! ### Validators -/

/-- `ValidateType(t)` (41_varuint_validators.md R157). -/
abbrev validateType (t : Int) : Prop := 0 ≤ t ∧ t ≤ 255

/-- `ValidateMID(t)` (41_varuint_validators.md R157). -/
abbrev validateMid (t : Int) : Prop := 0 ≤ t ∧ t ≤ 65535

/-- `ValidateEID(t)` (41_varuint_validators.md R157). -/
abbrev validateEid (t : Int) : Prop := 0 ≤ t ∧ t ≤ 15

/-- `ValidateETP(t)` (41_varuint_validators.md R157). -/
abbrev validateEtp (t : Int) : Prop := 0 ≤ t ∧ t ≤ 15

/-- `ValidateVer(t)` (41_varuint_validators.md R157). -/
abbrev validateVer (t : Int) : Prop := 0 ≤ t ∧ t ≤ 3

/-- A validator command: nothing but STATUS changes (41_varuint_validators.md R158). -/
def validated (s : State) (ok : Bool) : Host.Outcome State Fault Refusal :=
  complete s (if ok then .ok s else .error .invalidField)

/-- VAL.TYPE (41_varuint_validators.md R158). -/
def execValType (s : State) : Host.Outcome State Fault Refusal :=
  validated s (decide (validateType s.signedOperand))

/-- VAL.MID (41_varuint_validators.md R159). -/
def execValMid (s : State) : Host.Outcome State Fault Refusal :=
  validated s (decide (validateMid s.signedOperand))

/-- VAL.EID (41_varuint_validators.md R160). -/
def execValEid (s : State) : Host.Outcome State Fault Refusal :=
  validated s (decide (validateEid s.signedOperand))

/-- VAL.ETP (41_varuint_validators.md R161). -/
def execValEtp (s : State) : Host.Outcome State Fault Refusal :=
  validated s (decide (validateEtp s.signedOperand))

/-- VAL.VER (41_varuint_validators.md R162). -/
def execValVer (s : State) : Host.Outcome State Fault Refusal :=
  validated s (decide (validateVer s.signedOperand))

end Sys2Proof.Machine
end

