-- ==== Sys2Proof/Machine/Headers.lean ====
section
/-! DEFINITION. Message reset and the V0, V1, V2 header packers and unpackers (45_message_headers.md), with the
header layouts of 30_encoding.md R97 to R99. -/

namespace Sys2Proof.Machine

/-- MSG.RESET (45_message_headers.md R240). -/
def execMsgReset (s : State) : Host.Outcome State Fault Refusal :=
  complete s <| .ok { s with
    mVer := 0#32, mType := 0#32, mMid := 0#32, mEid := 0#32, mEtp := 0#32
    mCode := 0#8, mCrc16 := 0#16, mRsum8 := 0#8, mTkl := 0#4
    optCnt := 0#32
    plen := 0#32 }

/-! ### Field checks -/

/-- `0 ≤ M_TYPE ≤ 3` (45_message_headers.md R253). -/
abbrev State.typeOk (s : State) : Prop := 0 ≤ s.mType.toInt ∧ s.mType.toInt ≤ 3

/-- `fields_ok(0)` (45_message_headers.md R253). -/
abbrev State.fieldsOk0 (s : State) : Prop := s.typeOk ∧ validateEid s.mEid.toInt ∧ validateEtp s.mEtp.toInt

/-- `fields_ok(1)` (45_message_headers.md R253). -/
abbrev State.fieldsOk1 (s : State) : Prop := validateMid s.mMid.toInt ∧ s.typeOk

/-- `fields_ok(2)` (45_message_headers.md R253). -/
abbrev State.fieldsOk2 (s : State) : Prop :=
  validateMid s.mMid.toInt ∧ s.typeOk ∧ validateEid s.mEid.toInt ∧ validateEtp s.mEtp.toInt

/-! ### V0 header -/

/-- `hdr0_bytes(t, eid, etp, crc)` (45_message_headers.md R241). -/
def hdr0Bytes (t : BitVec 2) (eid etp : BitVec 4) (crc : Half) : List Byte :=
  [0b00#2 ++ 0b0000#4 ++ t, eid ++ etp] ++ crcLe crc

/-- The fields of a V0 header (30_encoding.md R97). -/
structure Hdr0 where
  type : BitVec 2
  eid  : BitVec 4
  etp  : BitVec 4
  crc  : Half
deriving DecidableEq, Repr

/-- `hdr0_parse(H)`; the reserved bits are not looked at (45_message_headers.md R242). -/
def hdr0Parse (h : List Byte) : Hdr0 :=
  { type := (byteAt h 0).extractLsb' 0 2
    eid := hiNibble (byteAt h 1)
    etp := loNibble (byteAt h 1)
    crc := le16 (byteAt h 2) (byteAt h 3) }

/-- The message registers a V0 header is loaded into (45_message_headers.md R244). -/
def State.loadHdr0 (s : State) (h : Hdr0) : State :=
  { s with mVer := 0#32, mType := zext h.type, mEid := zext h.eid, mEtp := zext h.etp, mCrc16 := h.crc }

/-- The V0 header of the message with the CRC `crc`. -/
def State.hdr0 (s : State) (crc : Half) : List Byte :=
  hdr0Bytes (s.mType.setWidth 2) (s.mEid.setWidth 4) (s.mEtp.setWidth 4) crc

/-- HDR0.PACK (45_message_headers.md R243). -/
def execHdr0Pack (s : State) : Host.Outcome State Fault Refusal :=
  complete s <|
    if ¬ s.fieldsOk0 then .error .invalidField
    else if s.ocapEff < 4 then .error (.tooSmall 4)
    else .ok (s.packHeader (s.hdr0 s.mCrc16))

/-- HDR0.UNPACK (45_message_headers.md R244). -/
def execHdr0Unpack (s : State) : Host.Outcome State Fault Refusal :=
  complete s <|
    if s.flenEff < 4 then .error .messageTruncated
    else if versionBits (s.fbuf.get 0) ≠ 0b00#2 then .error .messageInvalidVersion
    else .ok { s.loadHdr0 (hdr0Parse (s.memRead .fbuf 0 4)) with pos := 4#32 }

/-! ### V1 header -/

/-- `hdr1_bytes(t, tkl, code, mid)` (45_message_headers.md R245). -/
def hdr1Bytes (t : BitVec 2) (tkl : BitVec 4) (code : Byte) (mid : Half) : List Byte :=
  [0b01#2 ++ t ++ tkl, code, hiByte mid, loByte mid]

/-- The fields of a V1 header (30_encoding.md R98). -/
structure Hdr1 where
  type : BitVec 2
  tkl  : BitVec 4
  code : Byte
  mid  : Half
deriving DecidableEq, Repr

/-- `hdr1_parse(H)` (45_message_headers.md R246). -/
def hdr1Parse (h : List Byte) : Hdr1 :=
  { type := (byteAt h 0).extractLsb' 4 2
    tkl := loNibble (byteAt h 0)
    code := byteAt h 1
    mid := be16 (byteAt h 2) (byteAt h 3) }

/-- The message registers a V1 header is loaded into (45_message_headers.md R248). -/
def State.loadHdr1 (s : State) (h : Hdr1) : State :=
  { s with mVer := 1#32, mType := zext h.type, mTkl := h.tkl, mCode := h.code, mMid := zext h.mid }

/-- The V1 header of the message. -/
def State.hdr1 (s : State) : List Byte :=
  hdr1Bytes (s.mType.setWidth 2) s.mTkl s.mCode (s.mMid.setWidth 16)

/-- HDR1.PACK (45_message_headers.md R247). -/
def execHdr1Pack (s : State) : Host.Outcome State Fault Refusal :=
  complete s <|
    if ¬ s.fieldsOk1 then .error .invalidField
    else if s.mTkl.toNat > 8 then .error .invalidTokenLen
    else if s.ocapEff < 4 then .error (.tooSmall 4)
    else .ok (s.packHeader s.hdr1)

/-- HDR1.UNPACK (45_message_headers.md R248). -/
def execHdr1Unpack (s : State) : Host.Outcome State Fault Refusal :=
  complete s <|
    if s.flenEff < 4 then .error .messageTruncated
    else if versionBits (s.fbuf.get 0) ≠ 0b01#2 then .error .messageInvalidVersion
    else
      let h := hdr1Parse (s.memRead .fbuf 0 4)
      if h.tkl.toNat > 8 then .error .invalidTokenLen
      else .ok { s.loadHdr1 h with pos := 4#32 }

/-! ### V2 header -/

/-- `hdr2_bytes(t, tkl, eid, etp, crc, mid, code)`, byte 7 zero (45_message_headers.md R249). -/
def hdr2Bytes (t : BitVec 2) (tkl eid etp : BitVec 4) (crc mid : Half) (code : Byte) : List Byte :=
  [0b10#2 ++ tkl ++ t, eid ++ etp] ++ crcBe crc ++ [hiByte mid, loByte mid, code, 0x00#8]

/-- The fields of a V2 header (30_encoding.md R99). -/
structure Hdr2 where
  tkl  : BitVec 4
  type : BitVec 2
  eid  : BitVec 4
  etp  : BitVec 4
  crc  : Half
  mid  : Half
  code : Byte
  rsum : Byte
deriving DecidableEq, Repr

/-- `hdr2_parse(H)` (45_message_headers.md R250). -/
def hdr2Parse (h : List Byte) : Hdr2 :=
  { tkl := (byteAt h 0).extractLsb' 2 4
    type := (byteAt h 0).extractLsb' 0 2
    eid := hiNibble (byteAt h 1)
    etp := loNibble (byteAt h 1)
    crc := be16 (byteAt h 2) (byteAt h 3)
    mid := be16 (byteAt h 4) (byteAt h 5)
    code := byteAt h 6
    rsum := byteAt h 7 }

/-- The message registers a V2 header is loaded into (45_message_headers.md R252). -/
def State.loadHdr2 (s : State) (h : Hdr2) : State :=
  { s with
    mVer := 2#32, mType := zext h.type, mTkl := h.tkl, mEid := zext h.eid, mEtp := zext h.etp
    mCrc16 := h.crc, mMid := zext h.mid, mCode := h.code, mRsum8 := h.rsum }

/-- The V2 header of the message with the CRC `crc`. -/
def State.hdr2 (s : State) (crc : Half) : List Byte :=
  hdr2Bytes (s.mType.setWidth 2) s.mTkl (s.mEid.setWidth 4) (s.mEtp.setWidth 4) crc (s.mMid.setWidth 16) s.mCode

/-- HDR2.PACK (45_message_headers.md R251). -/
def execHdr2Pack (s : State) : Host.Outcome State Fault Refusal :=
  complete s <|
    if ¬ s.fieldsOk2 then .error .invalidField
    else if s.mTkl.toNat > 8 then .error .invalidTokenLen
    else if s.ocapEff < 8 then .error (.tooSmall 8)
    else .ok (s.packHeader (s.hdr2 s.mCrc16))

/-- HDR2.UNPACK (45_message_headers.md R252). -/
def execHdr2Unpack (s : State) : Host.Outcome State Fault Refusal :=
  complete s <|
    if s.flenEff < 8 then .error .messageTruncated
    else if versionBits (s.fbuf.get 0) ≠ 0b10#2 then .error .messageInvalidVersion
    else
      let h := hdr2Parse (s.memRead .fbuf 0 8)
      if h.tkl.toNat > 8 then .error .invalidTokenLen
      else .ok { s.loadHdr2 h with pos := 8#32 }

/-! ### Codes -/

/-- `class(c) = c[7:5]` (10_state.md R39); no command reads it. -/
def codeClass (c : Byte) : BitVec 3 := c.extractLsb' 5 3

/-- `detail(c) = c[4:0]` (10_state.md R39); no command reads it. -/
def codeDetail (c : Byte) : BitVec 5 := c.extractLsb' 0 5

end Sys2Proof.Machine
end

