-- ==== Sys2Proof/Machine/Registry.lean ====
section
/-! DEFINITION. The option registry, value conversion and the content-type table (43_option_registry.md). -/

namespace Sys2Proof.Machine

/-! ### The registry -/

/-- The four semantic formats of an option value (43_option_registry.md R180). -/
inductive Fmt where
  | empty
  | opaqueBytes
  | string
  | uint
deriving DecidableEq, Repr

/-- One row of the registry: format, inclusive length bounds, and the column "repeatable", which no command reads
(43_option_registry.md R181, R189). -/
structure RegRow where
  id         : Nat
  fmt        : Fmt
  min        : Nat
  max        : Nat
  repeatable : Bool
deriving DecidableEq, Repr

/-- The FMT codes (43_option_registry.md R180). -/
def Fmt.code : Fmt → Word
  | .empty => 0#32
  | .opaqueBytes => 1#32
  | .string => 2#32
  | .uint => 3#32

/-- The FMT code of Unknown (43_option_registry.md R180). -/
def fmtUnknown : Word := 7#32

/-- The rows of the registry but the vendor rows: IfMatch to URIPath (43_option_registry.md R181). -/
def registryLow : List RegRow := [
  ⟨1, .opaqueBytes, 0, 8, true⟩,
  ⟨3, .string, 1, 255, false⟩,
  ⟨4, .opaqueBytes, 1, 8, true⟩,
  ⟨5, .empty, 0, 0, false⟩,
  ⟨6, .uint, 0, 3, false⟩,
  ⟨7, .uint, 0, 2, false⟩,
  ⟨8, .string, 0, 255, true⟩,
  ⟨11, .string, 0, 255, true⟩ ]

/-- The rows of the registry but the vendor rows: ContentFormat to PackageNumber (43_option_registry.md R181). -/
def registryHigh : List RegRow := [
  ⟨12, .uint, 0, 2, false⟩,
  ⟨14, .uint, 0, 4, false⟩,
  ⟨15, .string, 0, 255, true⟩,
  ⟨17, .uint, 0, 2, false⟩,
  ⟨20, .string, 0, 255, true⟩,
  ⟨23, .uint, 0, 3, false⟩,
  ⟨27, .uint, 0, 3, false⟩,
  ⟨28, .uint, 0, 4, false⟩,
  ⟨35, .string, 1, 1034, false⟩,
  ⟨39, .string, 1, 255, false⟩,
  ⟨60, .uint, 0, 4, false⟩,
  ⟨65100, .uint, 0, 2, false⟩ ]

/-- The rows that are the same in every instance (43_option_registry.md R181). -/
def registry : List RegRow := registryLow ++ registryHigh

/-- The row of a vendor option, by the format the instance gives it (43_option_registry.md R183). -/
def vendorRow (id : Nat) : VendorFmt → RegRow
  | .string => ⟨id, .string, 0, 255, false⟩
  | .uint => ⟨id, .uint, 0, 4, false⟩

/-- `reg(id)`; `none` is Unknown (43_option_registry.md R182). -/
def reg (id : Word) : Option RegRow :=
  if h : 65000 ≤ id.toNat ∧ id.toNat ≤ 65006 then
    some (vendorRow id.toNat (Config.vendorFmt ⟨id.toNat - 65000, by omega⟩))
  else registry.find? fun r => r.id == id.toNat

/-- The registry filter (43_option_registry.md R184): the format under which a value of `n` bytes is stored, `none`
when the option is dropped. -/
def regFilter (id : Word) (n : Nat) : Option Fmt :=
  match reg id with
  | none => none
  | some r => if r.min ≤ n ∧ n ≤ r.max then some r.fmt else none

/-- `in_bounds(id, n)` (43_option_registry.md R182). -/
def inBounds (id : Word) (n : Nat) : Bool := (regFilter id n).isSome

/-- REG.LOOKUP (43_option_registry.md R187). -/
def execRegLookup (s : State) : Host.Outcome State Fault Refusal :=
  complete s <|
    match reg s.a0 with
    | none => .ok { s with a1 := fmtUnknown, a2 := 0#32, a3 := 0#32 }
    | some r => .ok { s with a1 := r.fmt.code, a2 := word r.min, a3 := word r.max }

/-- REG.CHECK (43_option_registry.md R188). -/
def execRegCheck (s : State) : Host.Outcome State Fault Refusal :=
  complete s <|
    match reg s.a0 with
    | none => .ok { s with a2 := fmtUnknown }
    | some r =>
      if s.x1 < r.min ∨ s.x1 > r.max then .error .invalidValueLength
      else .ok { s with a2 := r.fmt.code }

/-! ### Value conversion -/

/-- `value_bytes(e)` (43_option_registry.md R185): KIND 3 and 4 are written from UVAL, KIND 0 to 2 from VBUF. -/
def State.valueBytes (s : State) (e : OptEntry) : List Byte :=
  if e.kind = 3#3 ∨ e.kind = 4#3 then vluEnc e.uval
  else s.memRead .vbuf e.voff.toNat e.vlen.toNat

/-- The KIND an option is stored under (43_option_registry.md R186). -/
def storedKind (id : Word) : Fmt → BitVec 3
  | .empty => 0#3
  | .opaqueBytes => 1#3
  | .string => 2#3
  | .uint => if id = 12#32 ∨ id = 17#32 then 4#3 else 3#3

/-- The UVAL an option is stored with (43_option_registry.md R186). -/
def storedUval (bytes : List Byte) : Fmt → Word
  | .uint => vluDec bytes
  | .empty => 0#32
  | .opaqueBytes => 0#32
  | .string => 0#32

/-! ### Content types -/

/-- `ct_map(etp, eid)` (43_option_registry.md R190). -/
def ctMap (etp eid : Word) : Word :=
  if eid.toInt = 0 ∧ 0 ≤ etp.toInt ∧ etp.toInt ≤ 6 then etp else 0#32

/-- CT.MAP (43_option_registry.md R191). -/
def execCtMap (s : State) : Host.Outcome State Fault Refusal :=
  complete s (.ok { s with a0 := ctMap s.mEtp s.mEid })

end Sys2Proof.Machine
end

