-- ==== Sys2Proof/Machine/Options.lean ====
section
/-! DEFINITION. The option delta-compression and extended-length TLV engine (44_option_tlv.md), with the wire format
of one option (30_encoding.md R103 to R106). -/

namespace Sys2Proof.Machine

/-! ### Extension coding (30_encoding.md R104) -/

/-- The largest delta or length the wire format has an encoding for (30_encoding.md R104). -/
abbrev maxRepresentable : Nat := 65804

/-- The nibble of `ext_split(a)`, for `a` at most 65804 (30_encoding.md R104). -/
def extNibble (a : Nat) : BitVec 4 :=
  if a ≤ 12 then BitVec.ofNat 4 a else if a ≤ 268 then 13#4 else 14#4

/-- The extension bytes of `ext_split(a)`, for `a` at most 65804 (30_encoding.md R104). -/
def extBytes (a : Nat) : List Byte :=
  if a ≤ 12 then []
  else if a ≤ 268 then [BitVec.ofNat 8 (a - 13)]
  else [hiByte (BitVec.ofNat 16 (a - 269)), loByte (BitVec.ofNat 16 (a - 269))]

/-- `ext_len(nibble)`; nibble 15 is refused before it is used (30_encoding.md R104). -/
def extLen (nibble : BitVec 4) : Nat :=
  if nibble = 13#4 then 1 else if nibble = 14#4 then 2 else 0

/-- `ext_join(nibble, ext)`, for a nibble up to 14 and `ext_len(nibble)` bytes (30_encoding.md R104). -/
def extJoin (nibble : BitVec 4) (ext : List Byte) : Nat :=
  if nibble = 13#4 then 13 + (byteAt ext 0).toNat
  else if nibble = 14#4 then 269 + (be16 (byteAt ext 0) (byteAt ext 1)).toNat
  else nibble.toNat

/-! ### One option -/

/-- `ext_bytes(a)`, the number of extension bytes (44_option_tlv.md R200). -/
def extSize (a : Nat) : Nat := if a ≤ 12 then 0 else if a ≤ 268 then 1 else 2

/-- `opt_size(d, n)` (44_option_tlv.md R200). -/
def optSize (d n : Nat) : Nat := 1 + extSize d + extSize n + n

/-- `representable(d, n)` (44_option_tlv.md R200). -/
abbrev representable (d n : Nat) : Prop := d ≤ maxRepresentable ∧ n ≤ maxRepresentable

/-- `id - prev`, for `id ≥ prev` (44_option_tlv.md R201). -/
abbrev delta (prev id : Word) : Nat := id.toNat - prev.toNat

/-- `opt_encode(prev, id, val)`, for `id ≥ prev` and a representable pair (44_option_tlv.md R201). -/
def optEncode (prev id : Word) (val : List Byte) : List Byte :=
  [extNibble (delta prev id) ++ extNibble val.length] ++ extBytes (delta prev id) ++ extBytes val.length ++ val

/-- One item of an option section (44_option_tlv.md R202). A remaining input stands for the position just before it:
`pos = end - len(remaining)`. -/
inductive Item where
  /-- `End`. -/
  | done
  /-- `Marker`: the payload marker, with what follows it. -/
  | marker (rest : List Byte)
  /-- `Option`: its ID, its value, and what follows the value. -/
  | option (id : Word) (val rest : List Byte)
deriving DecidableEq, Repr

/-- Takes `n` bytes of an option from the front of the remaining input (44_option_tlv.md R202). -/
def takeBytes (n : Nat) (rest : List Byte) : Except Raise (List Byte × List Byte) :=
  if rest.length < n then .error .optionTruncated else .ok (rest.take n, rest.drop n)

/-- `opt_decode` on the remaining input `B[pos .. end)` (44_option_tlv.md R202), its checks in the rule's order. -/
def optDecode (prev : Word) : List Byte → Except Raise Item
  | [] => .ok .done
  | h :: rest =>
    if h = 0xFF#8 then .ok (.marker rest)
    else if hiNibble h = 15#4 ∨ loNibble h = 15#4 then .error .optionUnexpectedExtendMarker
    else
      match takeBytes (extLen (hiNibble h)) rest with
      | .error e => .error e
      | .ok (dext, rest1) =>
        match takeBytes (extLen (loNibble h)) rest1 with
        | .error e => .error e
        | .ok (lext, rest2) =>
          match takeBytes (extJoin (loNibble h) lext) rest2 with
          | .error e => .error e
          | .ok (val, rest3) =>
            if prev.toNat + extJoin (hiNibble h) dext > 2 ^ 32 - 1 then .error .unrepresentable
            else .ok (.option (word (prev.toNat + extJoin (hiNibble h) dext)) val rest3)

/-! ### The option list, encode side -/

/-- An option as it goes on the wire: its ID and its value bytes. -/
abbrev WireOption := Word × List Byte

/-- Puts an entry before the first one whose ID is not smaller. -/
def insertById (e : OptEntry) : List OptEntry → List OptEntry
  | [] => [e]
  | x :: xs => if e.id.toNat ≤ x.id.toNat then e :: x :: xs else x :: insertById e xs

/-- `sorted(L)`: the stable sort by ID (44_option_tlv.md R203). -/
def sortById : List OptEntry → List OptEntry
  | [] => []
  | e :: es => insertById e (sortById es)

/-- `opts_size` of a sorted list after the ID `prev` (44_option_tlv.md R204). -/
def optsSize (prev : Word) : List WireOption → Nat
  | [] => 0
  | o :: os => optSize (delta prev o.1) o.2.length + optsSize o.1 os

/-- Whether every delta and length of a sorted list after the ID `prev` is representable (44_option_tlv.md R204). -/
def optsRepresentable (prev : Word) : List WireOption → Bool
  | [] => true
  | o :: os => decide (representable (delta prev o.1) o.2.length) && optsRepresentable o.1 os

/-- `opts_encode` of a sorted list after the ID `prev` (44_option_tlv.md R205). -/
def optsEncode (prev : Word) : List WireOption → List Byte
  | [] => []
  | o :: os => optEncode prev o.1 o.2 ++ optsEncode o.1 os

/-- The ID of the last option of a list, 0 if it is empty (44_option_tlv.md R213). -/
def lastId (l : List WireOption) : Word := (l.getLast?.map Prod.fst).getD 0#32

/-- The options of the message as they go on the wire: `sorted(L)` with the value bytes (44_option_tlv.md R204). The
option table itself stays in insertion order (R203). -/
def State.wireOptions (s : State) : List WireOption :=
  (sortById s.options).map fun e => (e.id, s.valueBytes e)

/-- Whether one entry names a value (44_option_tlv.md R215). -/
def State.entryOk (s : State) (e : OptEntry) : Bool :=
  decide (e.kind.toNat ≤ 4)
    && (decide (2 < e.kind.toNat) || decide (e.voff.toNat + e.vlen.toNat ≤ s.bufBytes.toNat))

/-- `opt_table_ok()` (44_option_tlv.md R215). -/
def State.optTableOk (s : State) : Bool :=
  decide (s.optCnt.toNat ≤ s.optCap.toNat) && s.options.all s.entryOk

/-- `checked_options()`: the two checks every command that reads the table makes (46_frames.md R276). -/
def State.checkedOptions (s : State) : Except Raise (List WireOption) :=
  if s.optTableOk = false then .error .badOperand
  else if optsRepresentable 0#32 s.wireOptions = false then .error .unrepresentable
  else .ok s.wireOptions

/-! ### The option list, decode side -/

/-- An option that passed the registry filter: its ID, its format, its value bytes (43_option_registry.md R184). -/
structure Stored where
  id    : Word
  fmt   : Fmt
  bytes : List Byte
deriving DecidableEq, Repr

/-- Where an option list ended (44_option_tlv.md R206): `stop = 1` or `stop = 2`. -/
inductive Stop where
  | frameEnd
  | marker
deriving DecidableEq, Repr

/-- What `opts_decode` returns (44_option_tlv.md R206); `rest` is what follows the section. -/
structure Parsed where
  stored : List Stored
  last   : Word
  stop   : Stop
  rest   : List Byte
deriving DecidableEq, Repr

/-- The value of `stop` (44_option_tlv.md R214). -/
def Stop.code : Stop → Word
  | .frameEnd => 1#32
  | .marker => 2#32

/-- The result with one more stored option in front. -/
def Parsed.cons (o : Stored) (p : Parsed) : Parsed := { p with stored := o :: p.stored }

/-- The loop of `opts_decode` (44_option_tlv.md R206), with room for `room` more stored options. Each round consumes
at least one byte, so a count of rounds greater than the length of the input never runs out. -/
def optsDecodeLoop : Nat → Nat → Word → List Byte → Except Raise Parsed
  | 0, _, prev, rest => .ok { stored := [], last := prev, stop := .frameEnd, rest := rest }
  | rounds + 1, room, prev, input =>
    match optDecode prev input with
    | .error e => .error e
    | .ok .done => .ok { stored := [], last := prev, stop := .frameEnd, rest := [] }
    | .ok (.marker rest) => .ok { stored := [], last := prev, stop := .marker, rest := rest }
    | .ok (.option id val rest) =>
      match regFilter id val.length with
      | none => optsDecodeLoop rounds room id rest
      | some fmt =>
        match room with
        | 0 => .error .optionsTooSmall
        | room + 1 => (optsDecodeLoop rounds room id rest).map (Parsed.cons { id := id, fmt := fmt, bytes := val })

/-- The loop of `opts_decode` on the input that remains, after the option ID `prev`, with room for `room` more stored
options (44_option_tlv.md R206). -/
def optsDecodeFrom (room : Nat) (prev : Word) (input : List Byte) : Except Raise Parsed :=
  optsDecodeLoop (input.length + 1) room prev input

/-- `opts_decode(B, pos, end, cap)` on the input `B[pos .. end)` (44_option_tlv.md R206). -/
def optsDecode (cap : Nat) (input : List Byte) : Except Raise Parsed := optsDecodeFrom cap 0#32 input

/-- The entry an option is stored as, its value at VBUF offset `o` (43_option_registry.md R186). -/
def Stored.entry (o : Nat) (x : Stored) : OptEntry :=
  { id := x.id, kind := storedKind x.id x.fmt, voff := word o, vlen := word x.bytes.length
    uval := storedUval x.bytes x.fmt }

/-- The entries of the stored options, their values back to back from VBUF offset `vtop` (44_option_tlv.md R206). -/
def storedEntries : Nat → List Stored → List OptEntry
  | _, [] => []
  | vtop, x :: xs => x.entry vtop :: storedEntries (vtop + x.bytes.length) xs

/-- The value bytes of the stored options, back to back (44_option_tlv.md R206). -/
def storedBytes (xs : List Stored) : List Byte := xs.flatMap Stored.bytes

/-- `OPT[i] <- stored[i]` with the value bytes in VBUF, and OPTCNT (44_option_tlv.md R214). -/
def State.storeOptions (s : State) (xs : List Stored) : State :=
  { s.memWrite .vbuf 0 (storedBytes xs) with
    opt := s.opt.write 0 (storedEntries 0 xs)
    optCnt := word xs.length }

/-! ### Commands for one option -/

/-- OPT.BEGIN (44_option_tlv.md R208). -/
def execOptBegin (s : State) : Host.Outcome State Fault Refusal :=
  complete s (.ok { s with prevId := 0#32 })

/-- OPT.SIZE (44_option_tlv.md R209). -/
def execOptSize (s : State) : Host.Outcome State Fault Refusal :=
  complete s <|
    if s.a0.toNat < s.prevId.toNat then .error .unrepresentable
    else if ¬ representable (delta s.prevId s.a0) s.x2 then .error .unrepresentable
    else .ok { s with a3 := word (optSize (delta s.prevId s.a0) s.x2) }

/-- OPT.PUT (44_option_tlv.md R210). -/
def execOptPut (s : State) : Host.Outcome State Fault Refusal :=
  complete s <|
    if s.x1 + s.x2 > s.bufBytes.toNat then .error .badOperand
    else if s.a0.toNat < s.prevId.toNat then .error .unrepresentable
    else if ¬ representable (delta s.prevId s.a0) s.x2 then .error .unrepresentable
    else
      let sz := optSize (delta s.prevId s.a0) s.x2
      match roomFor s (s.cursor + sz) with
      | .error e => .error e
      | .ok () =>
        .ok { s.putAtCursor (optEncode s.prevId s.a0 (s.memRead .vbuf s.x1 s.x2)) with
          a3 := word sz
          prevId := s.a0 }

/-- OPT.GET (44_option_tlv.md R211). -/
def execOptGet (s : State) : Host.Outcome State Fault Refusal :=
  complete s <|
    if s.cursor > s.flenEff then .error .badOperand
    else
      match optDecode s.prevId (s.frame.drop s.cursor) with
      | .error e => .error e
      | .ok .done => .ok { s with a3 := 1#32 }
      | .ok (.marker rest) => .ok { s with a3 := 2#32, pos := word (s.flenEff - rest.length) }
      | .ok (.option id val rest) =>
        .ok { s with
          a3 := 0#32
          a0 := id
          a1 := word (s.flenEff - rest.length - val.length)
          a2 := word val.length
          prevId := id
          pos := word (s.flenEff - rest.length) }

/-! ### Commands for the option table -/

/-- OPTS.SIZE (44_option_tlv.md R212). -/
def execOptsSize (s : State) : Host.Outcome State Fault Refusal :=
  complete s <|
    match s.checkedOptions with
    | .error e => .error e
    | .ok l => .ok { s with a0 := word (optsSize 0#32 l) }

/-- OPTS.ENC (44_option_tlv.md R213). -/
def execOptsEnc (s : State) : Host.Outcome State Fault Refusal :=
  complete s <|
    match s.checkedOptions with
    | .error e => .error e
    | .ok l =>
      let sz := optsSize 0#32 l
      match roomFor s (s.cursor + sz) with
      | .error e => .error e
      | .ok () =>
        .ok { s.putAtCursor (optsEncode 0#32 l) with
          a0 := word sz
          prevId := lastId l }

/-- OPTS.DEC (44_option_tlv.md R214). -/
def execOptsDec (s : State) : Host.Outcome State Fault Refusal :=
  complete s <|
    if s.cursor > s.flenEff then .error .badOperand
    else
      match optsDecode s.optCap.toNat (s.frame.drop s.cursor) with
      | .error e => .error e
      | .ok p =>
        .ok { s.storeOptions p.stored with
          a3 := p.stop.code
          prevId := p.last
          pos := word (s.flenEff - p.rest.length) }

end Sys2Proof.Machine
end

