-- ==== Sys2Proof/Machine/Frames.lean ====
section
/-! DEFINITION. The frame sequencers: size, encode and decode of V0, V1 and V2 frames (46_frames.md). -/

namespace Sys2Proof.Machine

/-! ### The part after the header -/

/-- The separator and the payload, present together when the payload is not empty (46_frames.md R270). -/
def payloadBytes (pay : List Byte) : List Byte := if pay.length > 0 then 0xFF#8 :: pay else []

/-- `body_bytes(tok, L, pay)`, the options sorted (46_frames.md R270). -/
def bodyBytes (tok : List Byte) (l : List WireOption) (pay : List Byte) : List Byte :=
  tok ++ optsEncode 0#32 l ++ payloadBytes pay

/-- `body_size(tkl, L, plen)` (46_frames.md R270). -/
def bodySize (tkl : Nat) (l : List WireOption) (plen : Nat) : Nat :=
  tkl + optsSize 0#32 l + (if plen > 0 then 1 + plen else 0)

/-- What `body_parse` returns (46_frames.md R271). -/
structure Body where
  tok    : List Byte
  stored : List Stored
  pay    : List Byte
deriving DecidableEq, Repr

/-- `body_parse` on the bytes after the header (46_frames.md R271). -/
def bodyParse (cap tkl : Nat) (input : List Byte) : Except Raise Body :=
  if input.length < tkl then .error .messageTruncated
  else
    match optsDecode cap (input.drop tkl) with
    | .error e => .error e
    | .ok p => .ok { tok := input.take tkl, stored := p.stored, pay := p.rest }

/-- `MemWrite(PBUF, 0, len(pay), pay)` and `PLEN <- len(pay)` (46_frames.md R274). -/
def State.storePayload (s : State) (pay : List Byte) : State :=
  { s.memWrite .pbuf 0 pay with plen := word pay.length }

/-- What DEC.V1 and DEC.V2 write from the body: TOKEN, the option table with VBUF, OPTCNT, PBUF, PLEN (46_frames.md
R280). -/
def State.storeBody (s : State) (b : Body) : State :=
  ((s.memWrite .token 0 b.tok).storeOptions b.stored).storePayload b.pay

/-! ### V0 -/

/-- SIZE.V0 (46_frames.md R272). -/
def execSizeV0 (s : State) : Host.Outcome State Fault Refusal :=
  complete s (.ok (s.recordSize (4 + s.plenEff)))

/-- The V0 frame of the message (30_encoding.md R100). -/
def State.frameV0 (s : State) : List Byte := s.hdr0 (crc16 s.payload) ++ s.payload

/-- ENC.V0 (46_frames.md R273). -/
def execEncV0 (s : State) : Host.Outcome State Fault Refusal :=
  complete s <|
    if ¬ s.fieldsOk0 then .error .invalidField
    else
      match roomFor s (4 + s.plenEff) with
      | .error e => .error e
      | .ok () => .ok { s.emitFrame (4 + s.plenEff) s.frameV0 with mCrc16 := crc16 s.payload }

/-- DEC.V0 (46_frames.md R274). -/
def execDecV0 (s : State) : Host.Outcome State Fault Refusal :=
  complete s <|
    if s.flenEff < 4 then .error .messageTruncated
    else if versionBits (s.fbuf.get 0) ≠ 0b00#2 then .error .messageInvalidVersion
    else
      let h := hdr0Parse (s.memRead .fbuf 0 4)
      let pay := s.memRead .fbuf 4 (s.flenEff - 4)
      if crc16 pay ≠ h.crc then .error .invalidRCRC16
      else .ok { (s.loadHdr0 h).storePayload pay with pos := word s.flenEff }

/-! ### V1 -/

/-- SIZE.V1 (46_frames.md R278). -/
def execSizeV1 (s : State) : Host.Outcome State Fault Refusal :=
  complete s <|
    match s.checkedOptions with
    | .error e => .error e
    | .ok l => .ok (s.recordSize (4 + bodySize s.mTkl.toNat l s.plenEff))

/-- The V1 frame of the message with the sorted options `l` (30_encoding.md R101). -/
def State.frameV1 (s : State) (l : List WireOption) : List Byte :=
  s.hdr1 ++ bodyBytes s.tokenBytes l s.payload

/-- ENC.V1 (46_frames.md R279). -/
def execEncV1 (s : State) : Host.Outcome State Fault Refusal :=
  complete s <|
    if ¬ s.fieldsOk1 then .error .invalidField
    else if s.mTkl.toNat > 8 then .error .invalidTokenLen
    else
      match s.checkedOptions with
      | .error e => .error e
      | .ok l =>
        let size := 4 + bodySize s.mTkl.toNat l s.plenEff
        match roomFor s size with
        | .error e => .error e
        | .ok () => .ok (s.emitFrame size (s.frameV1 l))

/-- DEC.V1 (46_frames.md R280). -/
def execDecV1 (s : State) : Host.Outcome State Fault Refusal :=
  complete s <|
    if s.flenEff < 4 then .error .messageTruncated
    else if versionBits (s.fbuf.get 0) ≠ 0b01#2 then .error .messageInvalidVersion
    else
      let h := hdr1Parse (s.memRead .fbuf 0 4)
      if h.tkl.toNat > 8 then .error .invalidTokenLen
      else
        match bodyParse s.optCap.toNat h.tkl.toNat (s.frame.drop 4) with
        | .error e => .error e
        | .ok b => .ok { (s.loadHdr1 h).storeBody b with pos := word s.flenEff }

/-! ### V2 -/

/-- SIZE.V2 (46_frames.md R284). -/
def execSizeV2 (s : State) : Host.Outcome State Fault Refusal :=
  complete s <|
    match s.checkedOptions with
    | .error e => .error e
    | .ok l => .ok (s.recordSize (8 + bodySize s.mTkl.toNat l s.plenEff))

/-- The V2 frame of the message with the sorted options `l`, byte 7 still zero (46_frames.md R283). -/
def State.layoutV2 (s : State) (l : List WireOption) : List Byte :=
  s.hdr2 (crc16 s.payload) ++ bodyBytes s.tokenBytes l s.payload

/-- The finished V2 frame: byte 7 holds the RSUM8 of the frame laid out with zero there (46_frames.md R283). -/
def State.frameV2 (s : State) (l : List WireOption) : List Byte :=
  (s.layoutV2 l).set 7 (rsum8 (s.layoutV2 l))

/-- ENC.V2 (46_frames.md R285). -/
def execEncV2 (s : State) : Host.Outcome State Fault Refusal :=
  complete s <|
    if ¬ s.fieldsOk2 then .error .invalidField
    else if s.mTkl.toNat > 8 then .error .invalidTokenLen
    else
      match s.checkedOptions with
      | .error e => .error e
      | .ok l =>
        let size := 8 + bodySize s.mTkl.toNat l s.plenEff
        match roomFor s size with
        | .error e => .error e
        | .ok () =>
          .ok { s.emitFrame size (s.frameV2 l) with
            mCrc16 := crc16 s.payload
            mRsum8 := rsum8 (s.layoutV2 l) }

/-- DEC.V2 (46_frames.md R286). -/
def execDecV2 (s : State) : Host.Outcome State Fault Refusal :=
  complete s <|
    if s.flenEff < 8 then .error .messageTruncated
    else if rsum8 s.frame ≠ 0#8 then .error .messageInvalidRSUM8
    else if versionBits (s.fbuf.get 0) ≠ 0b10#2 then .error .messageInvalidVersion
    else
      let h := hdr2Parse (s.memRead .fbuf 0 8)
      if h.tkl.toNat > 8 then .error .invalidTokenLen
      else
        match bodyParse s.optCap.toNat h.tkl.toNat (s.frame.drop 8) with
        | .error e => .error e
        | .ok b =>
          if crc16 b.pay ≠ h.crc then .error .invalidRCRC16
          else .ok { (s.loadHdr2 h).storeBody b with pos := word s.flenEff }

end Sys2Proof.Machine
end

