-- ==== Sys2Proof/Machine/Slicer.lean ====
section
/-! DEFINITION. The bit-field slicer (42_bitfield_slicer.md). -/

namespace Sys2Proof.Machine

/-- `bit(B, m) = B[m div 8][7 - (m mod 8)]`, stream bit `m` of a byte sequence (42_bitfield_slicer.md R170). -/
def streamBit (bs : List Byte) (m : Nat) : Bool := (byteAt bs (m / 8)).getLsbD (7 - m % 8)

/-- The number the `w` stream bits from `k` spell, the first the most significant. -/
def bfNat (bs : List Byte) (k w : Nat) : Nat :=
  (List.range w).foldl (fun acc j => acc * 2 + (streamBit bs (k + j)).toNat) 0

/-- `bf_get(B, k, w)` (42_bitfield_slicer.md R170). -/
def bfGet (bs : List Byte) (k w : Nat) : Word := word (bfNat bs k w)

/-- Stream bit `m` of `bf_set(B, k, w, v)`, where `old` is the bit of `B` (42_bitfield_slicer.md R171). -/
def bfSetBit (k w : Nat) (v : Word) (m : Nat) (old : Bool) : Bool :=
  if k ≤ m ∧ m < k + w then v.getLsbD (w - 1 - (m - k)) else old

/-- A byte from its bits, most significant first. -/
def byteOfBits (bit : Nat → Bool) : Byte :=
  (List.range 8).foldl (fun acc q => acc <<< 1 ||| (BitVec.ofBool (bit q)).setWidth 8) 0#8

/-- `bf_set` on the bytes from index `p` on. -/
def bfSetFrom (k w : Nat) (v : Word) : Nat → List Byte → List Byte
  | _, [] => []
  | p, b :: bs =>
    byteOfBits (fun q => bfSetBit k w v (8 * p + q) (b.getLsbD (7 - q))) :: bfSetFrom k w v (p + 1) bs

/-- `bf_set(B, k, w, v)` (42_bitfield_slicer.md R171). -/
def bfSet (bs : List Byte) (k w : Nat) (v : Word) : List Byte := bfSetFrom k w v 0 bs

/-- `(k + w + 7) div 8`, the bytes a field needs (42_bitfield_slicer.md R170). -/
abbrev bfBytes (k w : Nat) : Nat := (k + w + 7) / 8

/-- BF.EXT (42_bitfield_slicer.md R172). -/
def execBfExt (s : State) : Host.Outcome State Fault Refusal :=
  complete s <|
    if s.x1 < 1 ∨ s.x1 > 32 then .error .badOperand
    else if s.flenEff < bfBytes s.x0 s.x1 then .error .badOperand
    else .ok { s with a2 := bfGet s.frame s.x0 s.x1 }

/-- BF.INS (42_bitfield_slicer.md R173). -/
def execBfIns (s : State) : Host.Outcome State Fault Refusal :=
  complete s <|
    if s.x1 < 1 ∨ s.x1 > 32 then .error .badOperand
    else if s.ocapEff < bfBytes s.x0 s.x1 then .error .badOperand
    else
      .ok (s.memWrite .fbuf 0 (bfSet (s.memRead .fbuf 0 (bfBytes s.x0 s.x1)) s.x0 s.x1 s.a2))

end Sys2Proof.Machine
end

