-- ==== Sys2Proof/Machine/Dispatch.lean ====
section
/-! DEFINITION. The meaning of every command: one arm per constructor of `Instr`. -/

namespace Sys2Proof.Machine

/-- What a command does. -/
def exec (i : Instr) (s : State) : Host.Outcome State Fault Refusal :=
  match i with
  | .crcInit => Sys2Proof.Machine.execCrcInit s
  | .crcUpd => Sys2Proof.Machine.execCrcUpd s
  | .crcFrm => Sys2Proof.Machine.execCrcFrm s
  | .crcPay => Sys2Proof.Machine.execCrcPay s
  | .sumInit => Sys2Proof.Machine.execSumInit s
  | .sumUpd => Sys2Proof.Machine.execSumUpd s
  | .sumFrm => Sys2Proof.Machine.execSumFrm s
  | .sumPatch => Sys2Proof.Machine.execSumPatch s
  | .vluLen => Sys2Proof.Machine.execVluLen s
  | .vluPut => Sys2Proof.Machine.execVluPut s
  | .vluGet => Sys2Proof.Machine.execVluGet s
  | .valType => Sys2Proof.Machine.execValType s
  | .valMid => Sys2Proof.Machine.execValMid s
  | .valEid => Sys2Proof.Machine.execValEid s
  | .valEtp => Sys2Proof.Machine.execValEtp s
  | .valVer => Sys2Proof.Machine.execValVer s
  | .bfExt => Sys2Proof.Machine.execBfExt s
  | .bfIns => Sys2Proof.Machine.execBfIns s
  | .regLookup => Sys2Proof.Machine.execRegLookup s
  | .regCheck => Sys2Proof.Machine.execRegCheck s
  | .optBegin => Sys2Proof.Machine.execOptBegin s
  | .optSize => Sys2Proof.Machine.execOptSize s
  | .optPut => Sys2Proof.Machine.execOptPut s
  | .optGet => Sys2Proof.Machine.execOptGet s
  | .optsSize => Sys2Proof.Machine.execOptsSize s
  | .optsEnc => Sys2Proof.Machine.execOptsEnc s
  | .optsDec => Sys2Proof.Machine.execOptsDec s
  | .msgReset => Sys2Proof.Machine.execMsgReset s
  | .ctMap => Sys2Proof.Machine.execCtMap s
  | .hdr0Pack => Sys2Proof.Machine.execHdr0Pack s
  | .hdr0Unpack => Sys2Proof.Machine.execHdr0Unpack s
  | .hdr1Pack => Sys2Proof.Machine.execHdr1Pack s
  | .hdr1Unpack => Sys2Proof.Machine.execHdr1Unpack s
  | .hdr2Pack => Sys2Proof.Machine.execHdr2Pack s
  | .hdr2Unpack => Sys2Proof.Machine.execHdr2Unpack s
  | .sizeV0 => Sys2Proof.Machine.execSizeV0 s
  | .encV0 => Sys2Proof.Machine.execEncV0 s
  | .decV0 => Sys2Proof.Machine.execDecV0 s
  | .sizeV1 => Sys2Proof.Machine.execSizeV1 s
  | .encV1 => Sys2Proof.Machine.execEncV1 s
  | .decV1 => Sys2Proof.Machine.execDecV1 s
  | .sizeV2 => Sys2Proof.Machine.execSizeV2 s
  | .encV2 => Sys2Proof.Machine.execEncV2 s
  | .decV2 => Sys2Proof.Machine.execDecV2 s

end Sys2Proof.Machine
end

