-- ==== Sys2Proof/Machine/HostPort.lean ====
section
/-! DEFINITION. The register window: what the host reads and writes at each byte offset (20_memory.md R70, R71), with
the access rules of 10_state.md R23. -/

namespace Sys2Proof.Machine

/-- The registers of the window (20_memory.md R70). -/
inductive Reg where
  | cmd | status | reqSize | pos
  | a0 | a1 | a2 | a3
  | ocap | flen | plen | optCnt
  | crcAcc | sumAcc | prevId
  | mVer | mType | mMid | mEid | mEtp | mCode | mCrc16 | mRsum8 | mTkl
  | bufBytes | optCap
deriving DecidableEq, Repr

/-- The fields of an option table entry (10_state.md R40). -/
inductive OptField where
  | id | kind | voff | vlen | uval
deriving DecidableEq, Repr

/-- What stands at an offset of the window. -/
inductive Port where
  | reg (r : Reg)
  | token (k : Nat)
  | opt (i : Nat) (f : OptField)
  | fbuf (k : Nat)
  | pbuf (k : Nat)
  | vbuf (k : Nat)
  /-- Reads 0, ignores writes (20_memory.md R71). -/
  | reserved
deriving DecidableEq, Repr

/-- Offsets of the control, operand and length registers and accumulators (20_memory.md R70). -/
def regMapLow : List (Nat × Reg) := [
  (0x000, .cmd), (0x004, .status), (0x008, .reqSize), (0x00C, .pos),
  (0x010, .a0), (0x014, .a1), (0x018, .a2), (0x01C, .a3),
  (0x020, .ocap), (0x024, .flen), (0x028, .plen), (0x02C, .optCnt),
  (0x030, .crcAcc), (0x034, .sumAcc), (0x038, .prevId) ]

/-- Offsets of the message registers and the parameter registers (20_memory.md R70). -/
def regMapHigh : List (Nat × Reg) := [
  (0x040, .mVer), (0x044, .mType), (0x048, .mMid), (0x04C, .mEid),
  (0x050, .mEtp), (0x054, .mCode), (0x058, .mCrc16), (0x05C, .mRsum8),
  (0x060, .mTkl), (0x070, .bufBytes), (0x074, .optCap) ]

/-- The registers of the window by offset (20_memory.md R70). -/
def regMap : List (Nat × Reg) := regMapLow ++ regMapHigh

/-- The fields of an option entry by offset inside the entry (20_memory.md R70). -/
def optFieldAt : Nat → Option OptField
  | 0 => some .id
  | 4 => some .kind
  | 8 => some .voff
  | 12 => some .vlen
  | 16 => some .uval
  | _ => none

/-- The base of the option table in the window (20_memory.md R70). -/
def optBase : Nat := 0x00100000

/-- The base of FBUF in the window. -/
def fbufBase : Nat := 0x01000000

/-- The base of PBUF in the window. -/
def pbufBase : Nat := 0x02000000

/-- The base of VBUF in the window. -/
def vbufBase : Nat := 0x03000000

/-- The option table's part of the window. -/
def optPort (s : State) (k : Nat) : Port :=
  if k / 32 < s.optCap.toNat then
    match optFieldAt (k % 32) with
    | some f => .opt (k / 32) f
    | none => .reserved
  else .reserved

/-- What stands at a byte offset of the window (20_memory.md R70); every other offset is reserved (R71). -/
def portOf (s : State) (off : Nat) : Port :=
  if off < optBase then
    if 0x068 ≤ off ∧ off < 0x070 then .token (off - 0x068)
    else
      match regMap.find? fun r => r.1 == off with
      | some r => .reg r.2
      | none => .reserved
  else if off < fbufBase then optPort s (off - optBase)
  else if off < pbufBase then
    if off - fbufBase < s.bufBytes.toNat then .fbuf (off - fbufBase) else .reserved
  else if off < vbufBase then
    if off - pbufBase < s.bufBytes.toNat then .pbuf (off - pbufBase) else .reserved
  else
    if off - vbufBase < s.bufBytes.toNat then .vbuf (off - vbufBase) else .reserved

/-- What a host read of a register returns, zero-extended; CMD reads 0 (10_state.md R23). -/
def State.readReg (s : State) : Reg → Word
  | .cmd => 0#32
  | .status => zext s.status.code
  | .reqSize => s.reqSize
  | .pos => s.pos
  | .a0 => s.a0
  | .a1 => s.a1
  | .a2 => s.a2
  | .a3 => s.a3
  | .ocap => s.ocap
  | .flen => s.flen
  | .plen => s.plen
  | .optCnt => s.optCnt
  | .crcAcc => zext s.crcAcc
  | .sumAcc => zext s.sumAcc
  | .prevId => s.prevId
  | .mVer => s.mVer
  | .mType => s.mType
  | .mMid => s.mMid
  | .mEid => s.mEid
  | .mEtp => s.mEtp
  | .mCode => zext s.mCode
  | .mCrc16 => zext s.mCrc16
  | .mRsum8 => zext s.mRsum8
  | .mTkl => zext s.mTkl
  | .bufBytes => s.bufBytes
  | .optCap => s.optCap

/-- A host write of a register: the low bits that fit are kept, a read-only register ignores it (10_state.md R23).
CMD holds no value: what its write runs is the step's (10_state.md R25). -/
def State.writeReg (s : State) (r : Reg) (v : Word) : State :=
  match r with
  | .cmd => s
  | .status => s
  | .reqSize => s
  | .pos => { s with pos := v }
  | .a0 => { s with a0 := v }
  | .a1 => { s with a1 := v }
  | .a2 => { s with a2 := v }
  | .a3 => { s with a3 := v }
  | .ocap => { s with ocap := v }
  | .flen => { s with flen := v }
  | .plen => { s with plen := v }
  | .optCnt => { s with optCnt := v }
  | .crcAcc => { s with crcAcc := v.setWidth 16 }
  | .sumAcc => { s with sumAcc := v.setWidth 8 }
  | .prevId => { s with prevId := v }
  | .mVer => { s with mVer := v }
  | .mType => { s with mType := v }
  | .mMid => { s with mMid := v }
  | .mEid => { s with mEid := v }
  | .mEtp => { s with mEtp := v }
  | .mCode => { s with mCode := v.setWidth 8 }
  | .mCrc16 => { s with mCrc16 := v.setWidth 16 }
  | .mRsum8 => { s with mRsum8 := v.setWidth 8 }
  | .mTkl => { s with mTkl := v.setWidth 4 }
  | .bufBytes => s
  | .optCap => s

/-- A field of an option entry as the host reads it, KIND zero-extended (10_state.md R23, R40). -/
def OptEntry.readField (e : OptEntry) : OptField → Word
  | .id => e.id
  | .kind => zext e.kind
  | .voff => e.voff
  | .vlen => e.vlen
  | .uval => e.uval

/-- An option entry with one field as the host writes it, KIND cut to 3 bits (10_state.md R23, R40; DEDUCED, log 10). -/
def OptEntry.writeField (e : OptEntry) (f : OptField) (v : Word) : OptEntry :=
  match f with
  | .id => { e with id := v }
  | .kind => { e with kind := v.setWidth 3 }
  | .voff => { e with voff := v }
  | .vlen => { e with vlen := v }
  | .uval => { e with uval := v }

/-- What a host read at a port returns; it has no side effect (20_memory.md R68). -/
def State.readPort (s : State) : Port → Word
  | .reg r => s.readReg r
  | .token k => zext (s.token.get k)
  | .opt i f => (s.opt.get i).readField f
  | .fbuf k => zext (s.fbuf.get k)
  | .pbuf k => zext (s.pbuf.get k)
  | .vbuf k => zext (s.vbuf.get k)
  | .reserved => 0#32

/-- A host write at a port other than CMD; a byte keeps the low 8 bits (10_state.md R23, 20_memory.md R67;
DEDUCED, log 10). -/
def State.writePort (s : State) (p : Port) (v : Word) : State :=
  match p with
  | .reg r => s.writeReg r v
  | .token k => { s with token := s.token.set k (v.setWidth 8) }
  | .opt i f => { s with opt := s.opt.set i ((s.opt.get i).writeField f v) }
  | .fbuf k => { s with fbuf := s.fbuf.set k (v.setWidth 8) }
  | .pbuf k => { s with pbuf := s.pbuf.set k (v.setWidth 8) }
  | .vbuf k => { s with vbuf := s.vbuf.set k (v.setWidth 8) }
  | .reserved => s

end Sys2Proof.Machine
end

