-- ==== Sys2Proof/Machine/Serve.lean ====
section
/-! DEFINITION. Serving one action of the host: fetching the command a write to CMD names (20_memory.md R77), running
it (10_state.md R25), and the other accesses of the register window. -/

namespace Sys2Proof.Machine

/-- The bytes of the command a write to CMD starts: CMD is 8 bits wide, so the low byte of the value written
(10_state.md R23, R25). -/
def commandBytes (v : Word) : List Byte := [v.setWidth 8]

/-- Runs the command whose bytes are `bs`. An illegal opcode ends with ErrIllegalCommand and changes nothing else
(30_encoding.md R92). -/
def runCommand (bs : List Byte) (s : State) : Host.Outcome State Fault Refusal :=
  match decode bs with
  | .ok (i, _) => exec i s
  | .error _ => .next (s.takeException .illegalCommand)

/-- A host read: the value goes to the host, nothing else changes (20_memory.md R68). -/
def serveRead (off : Nat) (s : State) : State := { s with rdata := s.readPort (portOf s off) }

/-- A host write: a command if it is to CMD, else a register or byte write (20_memory.md R68). -/
def serveWrite (off : Nat) (v : Word) (s : State) : Host.Outcome State Fault Refusal :=
  if portOf s off = .reg .cmd then runCommand (commandBytes v) s
  else .next (s.writePort (portOf s off) v)

/-- Power-on reset of a running instance: its capacities stay, the host's later actions and the count of free values
are the model's own and stay (70_reset_and_hazards.md R330, log 9). -/
def servePowerOn (c : ResetContents) (s : State) : State :=
  { State.resetWith { bufBytes := s.bufBytes, optCap := s.optCap } c with
    host := s.host
    freeCount := s.freeCount }

/-- One action of the host on the block. -/
def serve (a : HostAction) (s : State) : Host.Outcome State Fault Refusal :=
  match a with
  | .read off => .next (serveRead off s)
  | .write off v => serveWrite off v s
  | .powerOn c => .next (servePowerOn c s)

/-- The word the host writes to CMD to start the command of an opcode-table word: its bits below `nbits`. -/
def tableWordWrite (nbits w : Nat) : HostAction := .write 0x000 (BitVec.ofNat 32 (w % 2 ^ nbits))

end Sys2Proof.Machine
end

