-- ==== Sys2Proof/Machine/Step.lean ====
section
/-! DEFINITION. One step of the machine: the block serves the host's next action (20_memory.md R66, R74), or stays idle
when there is none (70_reset_and_hazards.md R330). -/

namespace Sys2Proof.Machine

/-- One step. -/
def step (s : State) : Host.Outcome State Fault Refusal :=
  match s.host with
  | [] => .next s
  | a :: rest => serve a { s with host := rest }

/-- `s` with the write to CMD that starts an opcode-table word's command as the host's next action, so that the very
next step runs it (log 1). -/
def State.withFetchWord (s : State) (nbits w : Nat) : State :=
  { s with host := tableWordWrite nbits w :: s.host }

end Sys2Proof.Machine
end

