-- ==== Sys2Proof/Laws/PerInstr.lean ====
section
/-! SUPPORT. The laws that hold of every command, one lemma per constructor. -/

namespace Sys2Proof.Laws

/-- Decoding the encoding of a command gives it back, and no other opcode decodes to it (30_encoding.md R90, R91). -/
def OpcodeRoundTrip.Statement (i : Instr) : Prop :=
  (∀ rest, decode (encode i ++ rest) = .ok (i, rest)) ∧ ∀ op, decodeOpcode op = some i → op = opcodeOf i

theorem OpcodeRoundTrip.opcode_unique :
    ∀ op : Byte, ∀ i ∈ decodeOpcode op, op = opcodeOf i := by decide +kernel

theorem OpcodeRoundTrip.crcInit : OpcodeRoundTrip.Statement .crcInit :=
  ⟨fun _ => rfl, fun op h => opcode_unique op _ h⟩

theorem OpcodeRoundTrip.crcUpd : OpcodeRoundTrip.Statement .crcUpd :=
  ⟨fun _ => rfl, fun op h => opcode_unique op _ h⟩

theorem OpcodeRoundTrip.crcFrm : OpcodeRoundTrip.Statement .crcFrm :=
  ⟨fun _ => rfl, fun op h => opcode_unique op _ h⟩

theorem OpcodeRoundTrip.crcPay : OpcodeRoundTrip.Statement .crcPay :=
  ⟨fun _ => rfl, fun op h => opcode_unique op _ h⟩

theorem OpcodeRoundTrip.sumInit : OpcodeRoundTrip.Statement .sumInit :=
  ⟨fun _ => rfl, fun op h => opcode_unique op _ h⟩

theorem OpcodeRoundTrip.sumUpd : OpcodeRoundTrip.Statement .sumUpd :=
  ⟨fun _ => rfl, fun op h => opcode_unique op _ h⟩

theorem OpcodeRoundTrip.sumFrm : OpcodeRoundTrip.Statement .sumFrm :=
  ⟨fun _ => rfl, fun op h => opcode_unique op _ h⟩

theorem OpcodeRoundTrip.sumPatch : OpcodeRoundTrip.Statement .sumPatch :=
  ⟨fun _ => rfl, fun op h => opcode_unique op _ h⟩

theorem OpcodeRoundTrip.vluLen : OpcodeRoundTrip.Statement .vluLen :=
  ⟨fun _ => rfl, fun op h => opcode_unique op _ h⟩

theorem OpcodeRoundTrip.vluPut : OpcodeRoundTrip.Statement .vluPut :=
  ⟨fun _ => rfl, fun op h => opcode_unique op _ h⟩

theorem OpcodeRoundTrip.vluGet : OpcodeRoundTrip.Statement .vluGet :=
  ⟨fun _ => rfl, fun op h => opcode_unique op _ h⟩

theorem OpcodeRoundTrip.valType : OpcodeRoundTrip.Statement .valType :=
  ⟨fun _ => rfl, fun op h => opcode_unique op _ h⟩

theorem OpcodeRoundTrip.valMid : OpcodeRoundTrip.Statement .valMid :=
  ⟨fun _ => rfl, fun op h => opcode_unique op _ h⟩

theorem OpcodeRoundTrip.valEid : OpcodeRoundTrip.Statement .valEid :=
  ⟨fun _ => rfl, fun op h => opcode_unique op _ h⟩

theorem OpcodeRoundTrip.valEtp : OpcodeRoundTrip.Statement .valEtp :=
  ⟨fun _ => rfl, fun op h => opcode_unique op _ h⟩

theorem OpcodeRoundTrip.valVer : OpcodeRoundTrip.Statement .valVer :=
  ⟨fun _ => rfl, fun op h => opcode_unique op _ h⟩

theorem OpcodeRoundTrip.bfExt : OpcodeRoundTrip.Statement .bfExt :=
  ⟨fun _ => rfl, fun op h => opcode_unique op _ h⟩

theorem OpcodeRoundTrip.bfIns : OpcodeRoundTrip.Statement .bfIns :=
  ⟨fun _ => rfl, fun op h => opcode_unique op _ h⟩

theorem OpcodeRoundTrip.regLookup : OpcodeRoundTrip.Statement .regLookup :=
  ⟨fun _ => rfl, fun op h => opcode_unique op _ h⟩

theorem OpcodeRoundTrip.regCheck : OpcodeRoundTrip.Statement .regCheck :=
  ⟨fun _ => rfl, fun op h => opcode_unique op _ h⟩

theorem OpcodeRoundTrip.optBegin : OpcodeRoundTrip.Statement .optBegin :=
  ⟨fun _ => rfl, fun op h => opcode_unique op _ h⟩

theorem OpcodeRoundTrip.optSize : OpcodeRoundTrip.Statement .optSize :=
  ⟨fun _ => rfl, fun op h => opcode_unique op _ h⟩

theorem OpcodeRoundTrip.optPut : OpcodeRoundTrip.Statement .optPut :=
  ⟨fun _ => rfl, fun op h => opcode_unique op _ h⟩

theorem OpcodeRoundTrip.optGet : OpcodeRoundTrip.Statement .optGet :=
  ⟨fun _ => rfl, fun op h => opcode_unique op _ h⟩

theorem OpcodeRoundTrip.optsSize : OpcodeRoundTrip.Statement .optsSize :=
  ⟨fun _ => rfl, fun op h => opcode_unique op _ h⟩

theorem OpcodeRoundTrip.optsEnc : OpcodeRoundTrip.Statement .optsEnc :=
  ⟨fun _ => rfl, fun op h => opcode_unique op _ h⟩

theorem OpcodeRoundTrip.optsDec : OpcodeRoundTrip.Statement .optsDec :=
  ⟨fun _ => rfl, fun op h => opcode_unique op _ h⟩

theorem OpcodeRoundTrip.msgReset : OpcodeRoundTrip.Statement .msgReset :=
  ⟨fun _ => rfl, fun op h => opcode_unique op _ h⟩

theorem OpcodeRoundTrip.ctMap : OpcodeRoundTrip.Statement .ctMap :=
  ⟨fun _ => rfl, fun op h => opcode_unique op _ h⟩

theorem OpcodeRoundTrip.hdr0Pack : OpcodeRoundTrip.Statement .hdr0Pack :=
  ⟨fun _ => rfl, fun op h => opcode_unique op _ h⟩

theorem OpcodeRoundTrip.hdr0Unpack : OpcodeRoundTrip.Statement .hdr0Unpack :=
  ⟨fun _ => rfl, fun op h => opcode_unique op _ h⟩

theorem OpcodeRoundTrip.hdr1Pack : OpcodeRoundTrip.Statement .hdr1Pack :=
  ⟨fun _ => rfl, fun op h => opcode_unique op _ h⟩

theorem OpcodeRoundTrip.hdr1Unpack : OpcodeRoundTrip.Statement .hdr1Unpack :=
  ⟨fun _ => rfl, fun op h => opcode_unique op _ h⟩

theorem OpcodeRoundTrip.hdr2Pack : OpcodeRoundTrip.Statement .hdr2Pack :=
  ⟨fun _ => rfl, fun op h => opcode_unique op _ h⟩

theorem OpcodeRoundTrip.hdr2Unpack : OpcodeRoundTrip.Statement .hdr2Unpack :=
  ⟨fun _ => rfl, fun op h => opcode_unique op _ h⟩

theorem OpcodeRoundTrip.sizeV0 : OpcodeRoundTrip.Statement .sizeV0 :=
  ⟨fun _ => rfl, fun op h => opcode_unique op _ h⟩

theorem OpcodeRoundTrip.encV0 : OpcodeRoundTrip.Statement .encV0 :=
  ⟨fun _ => rfl, fun op h => opcode_unique op _ h⟩

theorem OpcodeRoundTrip.decV0 : OpcodeRoundTrip.Statement .decV0 :=
  ⟨fun _ => rfl, fun op h => opcode_unique op _ h⟩

theorem OpcodeRoundTrip.sizeV1 : OpcodeRoundTrip.Statement .sizeV1 :=
  ⟨fun _ => rfl, fun op h => opcode_unique op _ h⟩

theorem OpcodeRoundTrip.encV1 : OpcodeRoundTrip.Statement .encV1 :=
  ⟨fun _ => rfl, fun op h => opcode_unique op _ h⟩

theorem OpcodeRoundTrip.decV1 : OpcodeRoundTrip.Statement .decV1 :=
  ⟨fun _ => rfl, fun op h => opcode_unique op _ h⟩

theorem OpcodeRoundTrip.sizeV2 : OpcodeRoundTrip.Statement .sizeV2 :=
  ⟨fun _ => rfl, fun op h => opcode_unique op _ h⟩

theorem OpcodeRoundTrip.encV2 : OpcodeRoundTrip.Statement .encV2 :=
  ⟨fun _ => rfl, fun op h => opcode_unique op _ h⟩

theorem OpcodeRoundTrip.decV2 : OpcodeRoundTrip.Statement .decV2 :=
  ⟨fun _ => rfl, fun op h => opcode_unique op _ h⟩

end Sys2Proof.Laws
end

