-- ==== Sys2Proof/Safety.lean ====
section
/-! DEFINITION. The terms claims about the machine are stated in: the invariant every step keeps, a valid message, the
table of statuses, and the offsets of the register window. -/

namespace Sys2Proof.Machine

/-- The capacities of the instance (10_state.md R32). -/
def State.params (s : State) : Params := { bufBytes := s.bufBytes, optCap := s.optCap }

/-- The four byte spaces and the option table are in canonical form. -/
abbrev State.memoriesCanonical (s : State) : Prop :=
  s.fbuf.wf ∧ s.pbuf.wf ∧ s.vbuf.wf ∧ s.token.wf ∧ s.opt.wf

/-- Nothing is listed outside a space: the buffers have `BUF_BYTES` bytes, TOKEN 8, the option table `OPT_CAP` entries
(10_state.md R37, R40, R42). -/
abbrev State.memoriesWithin (s : State) : Prop :=
  Sparse.within s.fbuf s.bufBytes.toNat ∧ Sparse.within s.pbuf s.bufBytes.toNat ∧
  Sparse.within s.vbuf s.bufBytes.toNat ∧ Sparse.within s.token 8 ∧ Sparse.within s.opt s.optCap.toNat

/-- The invariant: the capacities meet 00_scope.md R6, the memories are canonical and hold nothing outside their
spaces. -/
abbrev State.Inv (s : State) : Prop :=
  s.params.wellFormed ∧ s.memoriesCanonical ∧ s.memoriesWithin

/-- A step is safe when it answers a next state. -/
def Safe (o : Host.Outcome State Fault Refusal) : Prop := ∃ t, o = .next t

/-- The three wire versions (00_scope.md R3). -/
inductive Version where
  | v0
  | v1
  | v2
deriving DecidableEq, Repr

/-- The range invariants of a message of each version (10_state.md R38), with the bound on the type that R38 gives V0
too. -/
def State.rangesOk (s : State) : Version → Prop
  | .v0 => s.mTkl.toNat ≤ 8 ∧ s.fieldsOk0
  | .v1 => s.mTkl.toNat ≤ 8 ∧ s.fieldsOk1
  | .v2 => s.mTkl.toNat ≤ 8 ∧ s.fieldsOk2

/-- The checksum invariants of a message of each version (10_state.md R38): the encoders establish them, the decoders
check them. -/
def State.checksumsOk (s : State) : Version → Prop
  | .v0 => s.mCrc16 = crc16 s.payload
  | .v1 => True
  | .v2 => s.mCrc16 = crc16 s.payload ∧ rsum8 (s.frameV2 s.wireOptions) = 0#8

/-- `msg_valid(n)` (10_state.md R38). -/
def State.msgValid (s : State) (v : Version) : Prop := s.rangesOk v ∧ s.checksumsOk v

/-- The commands that can end with a status other than OK (60_exceptions.md R303). -/
def commandsEndingWith : Status → List Instr
  | .ok => []
  | .errTooSmall =>
    [.vluPut, .sumPatch, .optPut, .optsEnc, .hdr0Pack, .hdr1Pack, .hdr2Pack, .encV0, .encV1, .encV2]
  | .errMessageTruncated =>
    [.vluGet, .sumPatch, .hdr0Unpack, .hdr1Unpack, .hdr2Unpack, .decV0, .decV1, .decV2]
  | .errMessageInvalidVersion => [.hdr0Unpack, .hdr1Unpack, .hdr2Unpack, .decV0, .decV1, .decV2]
  | .errInvalidTokenLen =>
    [.hdr1Pack, .hdr2Pack, .encV1, .encV2, .hdr1Unpack, .hdr2Unpack, .decV1, .decV2]
  | .errOptionTruncated => [.optGet, .optsDec, .decV1, .decV2]
  | .errOptionUnexpectedExtendMarker => [.optGet, .optsDec, .decV1, .decV2]
  | .errOptionsTooSmall => [.optsDec, .decV1, .decV2]
  | .errInvalidValueLength => [.regCheck]
  | .errInvalidRCRC16 => [.decV0, .decV2]
  | .errMessageInvalidRSUM8 => [.decV2]
  | .errMessageNil => []
  | .errInvalidField =>
    [.valType, .valMid, .valEid, .valEtp, .valVer, .hdr0Pack, .hdr1Pack, .hdr2Pack, .encV0, .encV1, .encV2]
  | .errUnrepresentable =>
    [.optSize, .optPut, .optGet, .optsSize, .optsEnc, .optsDec, .sizeV1, .sizeV2, .encV1, .encV2, .decV1, .decV2]
  | .errBadOperand =>
    [.crcFrm, .sumFrm, .vluGet, .bfExt, .bfIns, .optPut, .optGet, .optsSize, .optsEnc, .optsDec, .sizeV1, .sizeV2,
      .encV1, .encV2]
  | .errIllegalCommand => []

/-- The commands that end OK always (60_exceptions.md R303). -/
def commandsAlwaysOk : List Instr :=
  [.crcInit, .crcUpd, .crcPay, .sumInit, .sumUpd, .vluLen, .regLookup, .optBegin, .msgReset, .ctMap, .sizeV0]

/-- The commands whose rules list REQSIZE under "flags written" (10_state.md R27). -/
def reqSizeWriters : List Instr :=
  [.sumPatch, .vluPut, .optPut, .optsEnc, .hdr0Pack, .hdr1Pack, .hdr2Pack, .sizeV0, .encV0, .sizeV1, .encV1, .sizeV2,
    .encV2]

/-- The required end offset or size a command's rule puts into REQSIZE, on OK (10_state.md R27) and on ErrTooSmall
(60_exceptions.md R305); 0 for a command that has none. -/
def requiredEnd (i : Instr) (s : State) : Nat :=
  match i with
  | .sumPatch | .hdr2Pack => 8
  | .hdr0Pack | .hdr1Pack => 4
  | .vluPut => s.pos.toNat + vluLen s.a0
  | .optPut => s.pos.toNat + optSize (s.a0.toNat - s.prevId.toNat) s.a2.toNat
  | .optsEnc => s.pos.toNat + optsSize 0#32 s.wireOptions
  | .sizeV0 | .encV0 => 4 + s.plenEff
  | .sizeV1 | .encV1 => 4 + bodySize s.mTkl.toNat s.wireOptions s.plenEff
  | .sizeV2 | .encV2 => 8 + bodySize s.mTkl.toNat s.wireOptions s.plenEff
  | .crcInit | .crcUpd | .crcFrm | .crcPay | .sumInit | .sumUpd | .sumFrm | .vluLen | .vluGet | .valType | .valMid
  | .valEid | .valEtp | .valVer | .bfExt | .bfIns | .regLookup | .regCheck | .optBegin | .optSize | .optGet | .optsSize
  | .optsDec | .msgReset | .ctMap | .hdr0Unpack | .hdr1Unpack | .hdr2Unpack | .decV0 | .decV1 | .decV2 => 0

/-- The offsets of the registers in the window (20_memory.md R70). -/
def registerOffsets : List Nat :=
  [0x000, 0x004, 0x008, 0x00C, 0x010, 0x014, 0x018, 0x01C, 0x020, 0x024, 0x028, 0x02C, 0x030, 0x034, 0x038,
    0x040, 0x044, 0x048, 0x04C, 0x050, 0x054, 0x058, 0x05C, 0x060, 0x070, 0x074]

/-- Whether an offset is in the table of 20_memory.md R70. -/
def State.inWindow (s : State) (off : Nat) : Prop :=
  off ∈ registerOffsets
    ∨ (∃ k < 8, off = 0x068 + k)
    ∨ (∃ i < s.optCap.toNat, ∃ f ∈ [0, 4, 8, 12, 16], off = 0x00100000 + 32 * i + f)
    ∨ (∃ k < s.bufBytes.toNat, off = 0x01000000 + k)
    ∨ (∃ k < s.bufBytes.toNat, off = 0x02000000 + k)
    ∨ (∃ k < s.bufBytes.toNat, off = 0x03000000 + k)

end Sys2Proof.Machine
end

