-- ==== Sys2Proof/Certificates/Slice0/Obligations.lean ====
section
/-! DEFINITION. The statements for the provers. Each docstring names the rule of spec/ it formalises. A free value
(log 5) is never assumed: where REQSIZE holds one, the statement says only that it holds some value. -/

open Sys2Proof Sys2Proof.Machine

/-! ## The command word and the host's actions -/

/-- 10_state.md R25: a write of `op` to CMD, offset 0, starts the command whose opcode is `op`: the step is `exec` of
the decoded command, with all its effects, on the state with that action served. CMD holds no value: it reads 0. -/
def Obligations.StepRunsTheCommandWritten : Prop :=
  (∀ (s : State) (v : Word) (rest : List HostAction) (i : Instr),
    s.host = .write 0x000 v :: rest → decode [v.setWidth 8] = .ok (i, []) →
      step s = exec i { s with host := rest }) ∧
  (∀ (s : State) (rest : List HostAction), s.host = .read 0x000 :: rest →
    step s = .next { s with host := rest, rdata := 0#32 })

/-- 30_encoding.md R92: the 212 other bytes end with ErrIllegalCommand and change no other state. -/
def Obligations.IllegalOpcodeChangesOnlyStatus : Prop :=
  ((List.range 256).countP fun n => (decodeOpcode (BitVec.ofNat 8 n)).isNone) = 212 ∧
  decodeOpcode 0x00#8 = none ∧ decodeOpcode 0xFF#8 = none ∧
  ∀ (s : State) (v : Word) (rest : List HostAction),
    s.host = .write 0x000 v :: rest → decodeOpcode (v.setWidth 8) = none →
      step s = .next { s with host := rest, status := .errIllegalCommand }

/-- 30_encoding.md R90, R91: a command is one byte, and the opcode map. Every row's byte, written out, decodes to the
row's command; each command's encoding decodes back to it, and no other byte decodes to it. -/
def Obligations.CommandWordsDecode : Prop :=
  (∀ r ∈
      [(0b00010000#8, Instr.crcInit), (0b00010001#8, .crcUpd), (0b00010010#8, .crcFrm), (0b00010011#8, .crcPay),
        (0b00010100#8, .sumInit), (0b00010101#8, .sumUpd), (0b00010110#8, .sumFrm), (0b00010111#8, .sumPatch),
        (0b00100000#8, .vluLen), (0b00100001#8, .vluPut), (0b00100010#8, .vluGet), (0b00100100#8, .valType),
        (0b00100101#8, .valMid), (0b00100110#8, .valEid), (0b00100111#8, .valEtp), (0b00101000#8, .valVer),
        (0b00101010#8, .bfExt), (0b00101011#8, .bfIns)],
    decode [r.1] = .ok (r.2, []) ∧ encode r.2 = [r.1]) ∧
  (∀ r ∈
      [(0b00110000#8, Instr.regLookup), (0b00110001#8, .regCheck), (0b00110010#8, .optBegin),
        (0b00110011#8, .optSize), (0b00110100#8, .optPut), (0b00110101#8, .optGet), (0b00110110#8, .optsSize),
        (0b00110111#8, .optsEnc), (0b00111000#8, .optsDec), (0b01000000#8, .msgReset), (0b01000001#8, .ctMap),
        (0b01000100#8, .hdr0Pack), (0b01000101#8, .hdr0Unpack), (0b01000110#8, .hdr1Pack),
        (0b01000111#8, .hdr1Unpack), (0b01001000#8, .hdr2Pack), (0b01001001#8, .hdr2Unpack), (0b01010000#8, .sizeV0),
        (0b01010001#8, .encV0), (0b01010010#8, .decV0), (0b01010100#8, .sizeV1), (0b01010101#8, .encV1),
        (0b01010110#8, .decV1), (0b01011000#8, .sizeV2), (0b01011001#8, .encV2), (0b01011010#8, .decV2)],
    decode [r.1] = .ok (r.2, []) ∧ encode r.2 = [r.1]) ∧
  ∀ (i : Instr) (op : Byte) (rest : List Byte), decode (op :: rest) = .ok (i, rest) ↔ op = opcodeOf i

/-- Derived from 20_memory.md R68, R63 and R67 and from 10_state.md R23: only a write to CMD has a side effect. A read
changes nothing but what the host got (the machine's `rdata` and `host` are the model's own, logs 1 and 6), and reading
again gives the same. A write to a register changes that register alone, to the value's low bits; a write to a byte or to
a field of an option entry changes that byte or that field of that entry alone; a write to a read-only register changes
nothing. That a write of a wider value to a byte of TOKEN, FBUF, PBUF or VBUF, or to KIND, stores its low bits is the
model's reading (log 10, DEDUCED): R23 says it of registers. -/
def Obligations.OnlyCommandWritesHaveSideEffects : Prop :=
  (∀ (s : State) (off : Nat) (rest : List HostAction), s.host = .read off :: rest →
    ∃ v, step s = .next { s with host := rest, rdata := v } ∧
      (s.host = .read off :: .read off :: rest.tail → ∀ t, step s = .next t →
        step t = .next { s with host := rest.tail, rdata := v })) ∧
  (∀ r ∈ ([(0x00C, fun s v => { s with pos := v }), (0x010, fun s v => { s with a0 := v }),
      (0x014, fun s v => { s with a1 := v }), (0x018, fun s v => { s with a2 := v }),
      (0x01C, fun s v => { s with a3 := v }), (0x020, fun s v => { s with ocap := v }),
      (0x024, fun s v => { s with flen := v }), (0x028, fun s v => { s with plen := v }),
      (0x02C, fun s v => { s with optCnt := v }), (0x030, fun s v => { s with crcAcc := v.setWidth 16 }),
      (0x034, fun s v => { s with sumAcc := v.setWidth 8 }), (0x038, fun s v => { s with prevId := v }),
      (0x040, fun s v => { s with mVer := v }), (0x044, fun s v => { s with mType := v }),
      (0x048, fun s v => { s with mMid := v }), (0x04C, fun s v => { s with mEid := v }),
      (0x050, fun s v => { s with mEtp := v }), (0x054, fun s v => { s with mCode := v.setWidth 8 }),
      (0x058, fun s v => { s with mCrc16 := v.setWidth 16 }), (0x05C, fun s v => { s with mRsum8 := v.setWidth 8 }),
      (0x060, fun s v => { s with mTkl := v.setWidth 4 })] : List (Nat × (State → Word → State))),
    ∀ (s : State) (v : Word) (rest : List HostAction), s.host = .write r.1 v :: rest →
      step s = .next (r.2 { s with host := rest } v)) ∧
  (∀ (s : State) (off : Nat) (v : Word) (rest : List HostAction), s.Inv → s.host = .write off v :: rest →
    (∀ k < 8, off = 0x068 + k → ∃ m : Memory, step s = .next { s with host := rest, token := m } ∧
      ∀ a, m.get a = if a = k then v.setWidth 8 else s.token.get a) ∧
    (∀ k < s.bufBytes.toNat, off = 0x01000000 + k → ∃ m : Memory, step s = .next { s with host := rest, fbuf := m } ∧
      ∀ a, m.get a = if a = k then v.setWidth 8 else s.fbuf.get a) ∧
    (∀ k < s.bufBytes.toNat, off = 0x02000000 + k → ∃ m : Memory, step s = .next { s with host := rest, pbuf := m } ∧
      ∀ a, m.get a = if a = k then v.setWidth 8 else s.pbuf.get a) ∧
    (∀ k < s.bufBytes.toNat, off = 0x03000000 + k → ∃ m : Memory, step s = .next { s with host := rest, vbuf := m } ∧
      ∀ a, m.get a = if a = k then v.setWidth 8 else s.vbuf.get a) ∧
    ∀ i < s.optCap.toNat, ∀ r ∈ ([(0, fun e => { e with id := v }), (4, fun e => { e with kind := v.setWidth 3 }),
        (8, fun e => { e with voff := v }), (12, fun e => { e with vlen := v }),
        (16, fun e => { e with uval := v })] : List (Nat × (OptEntry → OptEntry))),
      off = 0x00100000 + 32 * i + r.1 → ∃ m : OptTable, step s = .next { s with host := rest, opt := m } ∧
        ∀ a, m.get a = if a = i then r.2 (s.opt.get i) else s.opt.get a) ∧
  (∀ (s : State) (off : Nat) (v : Word) (rest : List HostAction), s.host = .write off v :: rest →
    off ∈ [0x004, 0x008, 0x070, 0x074] → step s = .next { s with host := rest })

/-- Derived from 10_state.md R23, 20_memory.md R63 and R67 and 60_exceptions.md R301: a host write keeps the low bits
that fit the register and drops the rest, a read zero-extends; the full-width registers, the five signed ones among them,
are read and written whole; a write to a read-only register is ignored and CMD reads 0. Every register, every byte of
TOKEN and of the buffers and every field of the option table is covered: what a read returns, and what a read after a
write returns. STATUS reads as its code. The same for the bytes of TOKEN, FBUF, PBUF and VBUF (modulo 2^8,
zero-extended) and for KIND (modulo 2^3) is the model's reading (log 10, DEDUCED): R23 says it of registers. -/
def Obligations.HostAccessKeepsTheBitsThatFit : Prop :=
  (∀ r ∈ [(0x030, 16), (0x034, 8), (0x054, 8), (0x058, 16), (0x05C, 8), (0x060, 4),
      (0x00C, 32), (0x010, 32), (0x014, 32), (0x018, 32), (0x01C, 32), (0x020, 32), (0x024, 32), (0x028, 32),
      (0x02C, 32), (0x038, 32), (0x040, 32), (0x044, 32), (0x048, 32), (0x04C, 32), (0x050, 32)],
    ∀ (s : State) (v : Word) (rest : List HostAction), s.host = .write r.1 v :: .read r.1 :: rest →
      ∃ t, step s = .next t ∧
        step t = .next { t with host := rest, rdata := BitVec.ofNat 32 (v.toNat % 2 ^ r.2) }) ∧
  (∀ (s : State) (off w : Nat) (v : Word) (rest : List HostAction), s.Inv →
    s.host = .write off v :: .read off :: rest →
    ((∃ k < 8, off = 0x068 + k) ∧ w = 8) ∨
      (∃ i < s.optCap.toNat, ∃ f ∈ [(0, 32), (4, 3), (8, 32), (12, 32), (16, 32)],
        off = 0x00100000 + 32 * i + f.1 ∧ w = f.2) ∨
      ((∃ k < s.bufBytes.toNat, off = 0x01000000 + k ∨ off = 0x02000000 + k ∨ off = 0x03000000 + k) ∧ w = 8) →
    ∃ t, step s = .next t ∧ step t = .next { t with host := rest, rdata := BitVec.ofNat 32 (v.toNat % 2 ^ w) }) ∧
  (∀ r ∈ ([(0x000, fun _ => 0#32), (0x008, fun s => s.reqSize), (0x00C, fun s => s.pos), (0x010, fun s => s.a0),
      (0x014, fun s => s.a1), (0x018, fun s => s.a2), (0x01C, fun s => s.a3), (0x020, fun s => s.ocap),
      (0x024, fun s => s.flen), (0x028, fun s => s.plen), (0x02C, fun s => s.optCnt),
      (0x030, fun s => BitVec.ofNat 32 s.crcAcc.toNat), (0x034, fun s => BitVec.ofNat 32 s.sumAcc.toNat),
      (0x038, fun s => s.prevId), (0x040, fun s => s.mVer), (0x044, fun s => s.mType), (0x048, fun s => s.mMid),
      (0x04C, fun s => s.mEid), (0x050, fun s => s.mEtp), (0x054, fun s => BitVec.ofNat 32 s.mCode.toNat),
      (0x058, fun s => BitVec.ofNat 32 s.mCrc16.toNat), (0x05C, fun s => BitVec.ofNat 32 s.mRsum8.toNat),
      (0x060, fun s => BitVec.ofNat 32 s.mTkl.toNat), (0x070, fun s => s.bufBytes),
      (0x074, fun s => s.optCap)] : List (Nat × (State → Word))),
    ∀ (s : State) (rest : List HostAction), s.host = .read r.1 :: rest →
      step s = .next { s with host := rest, rdata := r.2 s }) ∧
  (∀ c ∈ [(Status.ok, 0#32), (.errTooSmall, 1#32), (.errMessageTruncated, 2#32), (.errMessageInvalidVersion, 3#32),
      (.errInvalidTokenLen, 4#32), (.errOptionTruncated, 5#32), (.errOptionUnexpectedExtendMarker, 6#32),
      (.errOptionsTooSmall, 7#32), (.errInvalidValueLength, 8#32), (.errInvalidRCRC16, 9#32),
      (.errMessageInvalidRSUM8, 10#32), (.errMessageNil, 11#32), (.errInvalidField, 12#32),
      (.errUnrepresentable, 13#32), (.errBadOperand, 14#32), (.errIllegalCommand, 15#32)],
    ∀ (s : State) (rest : List HostAction), s.host = .read 0x004 :: rest → s.status = c.1 →
      step s = .next { s with host := rest, rdata := c.2 }) ∧
  (∀ (s : State) (off : Nat) (rest : List HostAction), s.params.wellFormed → s.host = .read off :: rest →
    (∀ k < 8, off = 0x068 + k →
      step s = .next { s with host := rest, rdata := BitVec.ofNat 32 (s.token.get k).toNat }) ∧
    (∀ i < s.optCap.toNat, ∀ r ∈ ([(0, fun e => e.id), (4, fun e => BitVec.ofNat 32 e.kind.toNat),
        (8, fun e => e.voff), (12, fun e => e.vlen), (16, fun e => e.uval)] : List (Nat × (OptEntry → Word))),
      off = 0x00100000 + 32 * i + r.1 → step s = .next { s with host := rest, rdata := r.2 (s.opt.get i) }) ∧
    ∀ k < s.bufBytes.toNat,
      (off = 0x01000000 + k → step s = .next { s with host := rest, rdata := BitVec.ofNat 32 (s.fbuf.get k).toNat }) ∧
      (off = 0x02000000 + k → step s = .next { s with host := rest, rdata := BitVec.ofNat 32 (s.pbuf.get k).toNat }) ∧
      (off = 0x03000000 + k → step s = .next { s with host := rest, rdata := BitVec.ofNat 32 (s.vbuf.get k).toNat })) ∧
  (∀ off ∈ [0x004, 0x008, 0x070, 0x074], ∀ (s : State) (v : Word) (rest : List HostAction),
    s.host = .write off v :: rest → step s = .next { s with host := rest })

/-- 20_memory.md R70: what stands at each offset of the register window. -/
def Obligations.RegisterWindowMap : Prop :=
  ∀ s : State, s.params.wellFormed →
    [0x000, 0x004, 0x008, 0x00C, 0x010, 0x014, 0x018, 0x01C, 0x020, 0x024, 0x028, 0x02C, 0x030, 0x034, 0x038].map
        (portOf s) =
      [.reg .cmd, .reg .status, .reg .reqSize, .reg .pos, .reg .a0, .reg .a1, .reg .a2, .reg .a3, .reg .ocap,
        .reg .flen, .reg .plen, .reg .optCnt, .reg .crcAcc, .reg .sumAcc, .reg .prevId] ∧
    [0x040, 0x044, 0x048, 0x04C, 0x050, 0x054, 0x058, 0x05C, 0x060, 0x070, 0x074].map (portOf s) =
      [.reg .mVer, .reg .mType, .reg .mMid, .reg .mEid, .reg .mEtp, .reg .mCode, .reg .mCrc16, .reg .mRsum8,
        .reg .mTkl, .reg .bufBytes, .reg .optCap] ∧
    (∀ k < 8, portOf s (0x068 + k) = .token k) ∧
    (∀ i < s.optCap.toNat,
      [0, 4, 8, 12, 16].map (fun f => portOf s (0x00100000 + 32 * i + f)) =
        [.opt i .id, .opt i .kind, .opt i .voff, .opt i .vlen, .opt i .uval]) ∧
    (∀ k < s.bufBytes.toNat,
      portOf s (0x01000000 + k) = .fbuf k ∧ portOf s (0x02000000 + k) = .pbuf k ∧
        portOf s (0x03000000 + k) = .vbuf k)

/-- 20_memory.md R71: at every offset that is not in the table of R70 a read returns 0 and a write is ignored. -/
def Obligations.ReservedOffsetsReadZeroIgnoreWrites : Prop :=
  ∀ (s : State) (off : Nat) (rest : List HostAction), s.params.wellFormed → ¬ s.inWindow off →
    (s.host = .read off :: rest → step s = .next { s with host := rest, rdata := 0#32 }) ∧
    (∀ v, s.host = .write off v :: rest → step s = .next { s with host := rest })

/-! ## Checksums -/

/-- 40_checksums.md R135 to R138: CRC.INIT, CRC.UPD, CRC.FRM and CRC.PAY. -/
def Obligations.CrcRules : Prop :=
  decodeOpcode 0x10#8 = some .crcInit ∧ decodeOpcode 0x11#8 = some .crcUpd ∧
  decodeOpcode 0x12#8 = some .crcFrm ∧ decodeOpcode 0x13#8 = some .crcPay ∧
  ∀ s : State,
    exec .crcInit s = .next { s with crcAcc := 0xFFFF#16, status := .ok } ∧
    exec .crcUpd s = .next { s with crcAcc := crc16Step s.crcAcc (s.a0.setWidth 8), status := .ok } ∧
    (s.a0.toNat + s.a1.toNat ≤ s.flenEff →
      exec .crcFrm s = .next { s with crcAcc := crc16 (s.fbuf.read s.a0.toNat s.a1.toNat), status := .ok }) ∧
    (s.a0.toNat + s.a1.toNat > s.flenEff → exec .crcFrm s = .next { s with status := .errBadOperand }) ∧
    exec .crcPay s = .next { s with crcAcc := crc16 (s.pbuf.read 0 s.plenEff), status := .ok }

/-- 40_checksums.md R139 to R141: SUM.INIT, SUM.UPD and SUM.FRM. -/
def Obligations.SumRules : Prop :=
  decodeOpcode 0x14#8 = some .sumInit ∧ decodeOpcode 0x15#8 = some .sumUpd ∧ decodeOpcode 0x16#8 = some .sumFrm ∧
  ∀ s : State,
    exec .sumInit s = .next { s with sumAcc := 0#8, status := .ok } ∧
    exec .sumUpd s =
      .next { s with
        sumAcc := BitVec.ofNat 8 ((s.sumAcc.toNat + (255 - s.a0.toNat % 256)) % 256), status := .ok } ∧
    (s.a0.toNat + s.a1.toNat ≤ s.flenEff →
      exec .sumFrm s = .next { s with sumAcc := rsum8 (s.fbuf.read s.a0.toNat s.a1.toNat), status := .ok }) ∧
    (s.a0.toNat + s.a1.toNat > s.flenEff → exec .sumFrm s = .next { s with status := .errBadOperand })

/-- 40_checksums.md R142: SUM.PATCH; afterwards the RSUM8 of the frame is 0, and a second run stores the same byte. -/
def Obligations.SumPatchRule : Prop :=
  decodeOpcode 0x17#8 = some .sumPatch ∧
  ∀ s : State,
    (s.flenEff < 8 → exec .sumPatch s = .next { s with status := .errMessageTruncated }) ∧
    (8 ≤ s.flenEff → s.ocapEff < 8 →
      exec .sumPatch s = .next { s with status := .errTooSmall, reqSize := 8#32 }) ∧
    (8 ≤ s.flenEff → 8 ≤ s.ocapEff →
      exec .sumPatch s = .next { s with
        fbuf := s.fbuf.set 7 (rsum8 ((s.fbuf.read 0 s.flenEff).set 7 0#8))
        mRsum8 := rsum8 ((s.fbuf.read 0 s.flenEff).set 7 0#8)
        status := .ok }) ∧
    (s.Inv → 8 ≤ s.flenEff → 8 ≤ s.ocapEff → ∀ t, exec .sumPatch s = .next t →
      rsum8 (t.fbuf.read 0 t.flenEff) = 0#8 ∧ exec .sumPatch t = .next t)

/-- 40_checksums.md R133, R134: RSUM8 in closed form, the patch identity at any position, the detection of any
single-bit flip, and the blind spots: permutations and inserted bytes 0xFF. -/
def Obligations.Rsum8Properties : Prop :=
  (∀ bs : List Byte, ((rsum8 bs).toNat + bs.length + (bs.map BitVec.toNat).sum) % 256 = 0) ∧
  (∀ (f : List Byte) (p : Nat), f[p]? = some 0#8 → rsum8 (f.set p (rsum8 f)) = 0#8) ∧
  (∀ (f : List Byte) (p k : Nat) (b : Byte), f[p]? = some b → k < 8 →
    rsum8 (f.set p (b ^^^ BitVec.twoPow 8 k)) ≠ rsum8 f) ∧
  (∀ f g : List Byte, f.Perm g → rsum8 f = rsum8 g) ∧
  (∀ f g : List Byte, rsum8 (f ++ 0xFF#8 :: g) = rsum8 (f ++ g))

/-- Derived from 40_checksums.md R130, R131: the CRC16 of a payload changes when any one of its bytes changes. It rests
on the CRC algorithm the spec itself takes from general knowledge (93_implementation_defined.md G1, log 8). -/
def Obligations.Crc16DetectsOneChangedByte : Prop :=
  ∀ (pre post : List Byte) (b b' : Byte), b ≠ b' → crc16 (pre ++ b :: post) ≠ crc16 (pre ++ b' :: post)

/-! ## Variable-length integers and validators -/

/-- 41_varuint_validators.md R153: encoding and decoding are inverse; a non-minimal byte string comes back without its
leading zero bytes; the encoding has the length R150 gives. -/
def Obligations.VarUintInverseLaws : Prop :=
  (∀ v : Word, vluDec (vluEnc v) = v ∧ (vluEnc v).length = vluLen v) ∧
  (∀ b : List Byte, b.length ≤ 4 → vluEnc (vluDec b) = b.dropWhile (fun x => x == 0#8)) ∧
  (∀ b : List Byte, b.length ≤ 4 → (vluEnc (vluDec b) = b ↔ b.head? ≠ some 0#8))

/-- 41_varuint_validators.md R154 to R156: VLU.LEN, VLU.PUT and VLU.GET. A required end of 2^32 or more, which REQSIZE
cannot hold, is the subject of `RequiredEndTooWideForReqSize`. -/
def Obligations.VarUintRules : Prop :=
  decodeOpcode 0x20#8 = some .vluLen ∧ decodeOpcode 0x21#8 = some .vluPut ∧ decodeOpcode 0x22#8 = some .vluGet ∧
  (∀ s : State, exec .vluLen s = .next { s with a1 := word (vluLen s.a0), status := .ok }) ∧
  (∀ s : State,
    (s.a1.toNat > 4 → exec .vluGet s = .next { s with status := .errBadOperand }) ∧
    (s.a1.toNat ≤ 4 → s.pos.toNat + s.a1.toNat > s.flenEff →
      exec .vluGet s = .next { s with status := .errMessageTruncated }) ∧
    (s.a1.toNat ≤ 4 → s.pos.toNat + s.a1.toNat ≤ s.flenEff →
      exec .vluGet s = .next { s with
        a0 := vluDec (s.fbuf.read s.pos.toNat s.a1.toNat)
        pos := word (s.pos.toNat + s.a1.toNat)
        status := .ok })) ∧
  ∀ s : State, s.params.wellFormed →
    (s.pos.toNat + vluLen s.a0 ≤ s.ocapEff →
      exec .vluPut s = .next { s with
        fbuf := s.fbuf.write s.pos.toNat (vluEnc s.a0)
        a1 := word (vluLen s.a0)
        pos := word (s.pos.toNat + vluLen s.a0)
        flen := word (max s.flen.toNat (s.pos.toNat + vluLen s.a0))
        reqSize := word (s.pos.toNat + vluLen s.a0)
        status := .ok }) ∧
    (s.pos.toNat + vluLen s.a0 > s.ocapEff → s.pos.toNat + vluLen s.a0 < 2 ^ 32 →
      exec .vluPut s = .next { s with status := .errTooSmall, reqSize := word (s.pos.toNat + vluLen s.a0) })

/-- 41_varuint_validators.md R158 to R162: a validator ends OK when the signed value of A0 is within its bounds, else
with ErrInvalidField; nothing but STATUS changes. -/
def Obligations.ValidatorRules : Prop :=
  ∀ r ∈ [(0x24#8, Instr.valType, 255), (0x25#8, .valMid, 65535), (0x26#8, .valEid, 15), (0x27#8, .valEtp, 15),
      (0x28#8, .valVer, 3)],
    decodeOpcode r.1 = some r.2.1 ∧
    ∀ s : State,
      (0 ≤ s.a0.toInt ∧ s.a0.toInt ≤ r.2.2 → exec r.2.1 s = .next { s with status := .ok }) ∧
      (s.a0.toInt < 0 ∨ r.2.2 < s.a0.toInt → exec r.2.1 s = .next { s with status := .errInvalidField })

/-! ## Bit-field slicer -/

/-- 42_bitfield_slicer.md R171: reading back a field that was set gives the low bits of the value, and any field that
does not overlap it is unchanged, as is the length. -/
def Obligations.BitFieldLaws : Prop :=
  ∀ (bs : List Byte) (k w : Nat) (v : Word), 1 ≤ w → w ≤ 32 → (k + w + 7) / 8 ≤ bs.length →
    (bfSet bs k w v).length = bs.length ∧
    (bfGet (bfSet bs k w v) k w).toNat = v.toNat % 2 ^ w ∧
    ∀ k' w', 1 ≤ w' → w' ≤ 32 → (k' + w' + 7) / 8 ≤ bs.length → (k' + w' ≤ k ∨ k + w ≤ k') →
      bfGet (bfSet bs k w v) k' w' = bfGet bs k' w'

/-- 42_bitfield_slicer.md R172, R173: BF.EXT and BF.INS. Every byte of FBUF that holds no bit of the field is
unchanged, and of the others every bit outside the field. -/
def Obligations.BitFieldRules : Prop :=
  decodeOpcode 0x2A#8 = some .bfExt ∧ decodeOpcode 0x2B#8 = some .bfIns ∧
  ∀ s : State,
    (s.a1.toNat < 1 ∨ s.a1.toNat > 32 → exec .bfExt s = .next { s with status := .errBadOperand }) ∧
    ((s.a0.toNat + s.a1.toNat + 7) / 8 > s.flenEff → exec .bfExt s = .next { s with status := .errBadOperand }) ∧
    (1 ≤ s.a1.toNat → s.a1.toNat ≤ 32 → (s.a0.toNat + s.a1.toNat + 7) / 8 ≤ s.flenEff →
      exec .bfExt s = .next { s with
        a2 := bfGet (s.fbuf.read 0 s.flenEff) s.a0.toNat s.a1.toNat
        status := .ok }) ∧
    (s.a1.toNat < 1 ∨ s.a1.toNat > 32 → exec .bfIns s = .next { s with status := .errBadOperand }) ∧
    ((s.a0.toNat + s.a1.toNat + 7) / 8 > s.ocapEff → exec .bfIns s = .next { s with status := .errBadOperand }) ∧
    (1 ≤ s.a1.toNat → s.a1.toNat ≤ 32 → (s.a0.toNat + s.a1.toNat + 7) / 8 ≤ s.ocapEff →
      exec .bfIns s = .next { s with
        fbuf := s.fbuf.write 0
          (bfSet (s.fbuf.read 0 ((s.a0.toNat + s.a1.toNat + 7) / 8)) s.a0.toNat s.a1.toNat s.a2)
        status := .ok }) ∧
    (s.Inv → 1 ≤ s.a1.toNat → s.a1.toNat ≤ 32 → (s.a0.toNat + s.a1.toNat + 7) / 8 ≤ s.ocapEff →
      ∀ t, exec .bfIns s = .next t →
        (∀ a, 8 * (a + 1) ≤ s.a0.toNat ∨ s.a0.toNat + s.a1.toNat ≤ 8 * a → t.fbuf.get a = s.fbuf.get a) ∧
        ∀ m, (t.fbuf.get (m / 8)).getLsbD (7 - m % 8) =
          if s.a0.toNat ≤ m ∧ m < s.a0.toNat + s.a1.toNat
          then s.a2.getLsbD (s.a1.toNat - 1 - (m - s.a0.toNat))
          else (s.fbuf.get (m / 8)).getLsbD (7 - m % 8))

/-! ## Registry and content types -/

/-- 43_option_registry.md R187, R188, with the rows of R181 and R182: REG.LOOKUP and REG.CHECK for every row, for the
vendor IDs in whichever format VENDOR_FMT gives (R183), and for every other ID. -/
def Obligations.RegistryRules : Prop :=
  decodeOpcode 0x30#8 = some .regLookup ∧ decodeOpcode 0x31#8 = some .regCheck ∧
  ∀ (s : State) (fmt min max : Nat),
    ((s.a0.toNat, fmt, min, max) ∈
        [(1, 1, 0, 8), (3, 2, 1, 255), (4, 1, 1, 8), (5, 0, 0, 0), (6, 3, 0, 3), (7, 3, 0, 2), (8, 2, 0, 255),
          (11, 2, 0, 255), (12, 3, 0, 2), (14, 3, 0, 4), (15, 2, 0, 255), (17, 3, 0, 2), (20, 2, 0, 255),
          (23, 3, 0, 3), (27, 3, 0, 3), (28, 3, 0, 4), (35, 2, 1, 1034), (39, 2, 1, 255), (60, 3, 0, 4),
          (65100, 3, 0, 2)] ∨
      (∃ n : Fin 7, s.a0.toNat = 65000 + n ∧
        (fmt, min, max) = match Config.vendorFmt n with | .string => (2, 0, 255) | .uint => (3, 0, 4)) →
      exec .regLookup s = .next { s with a1 := word fmt, a2 := word min, a3 := word max, status := .ok } ∧
      (s.a1.toNat < min ∨ max < s.a1.toNat →
        exec .regCheck s = .next { s with status := .errInvalidValueLength }) ∧
      (min ≤ s.a1.toNat → s.a1.toNat ≤ max → exec .regCheck s = .next { s with a2 := word fmt, status := .ok })) ∧
    (s.a0.toNat ∉ [1, 3, 4, 5, 6, 7, 8, 11, 12, 14, 15, 17, 20, 23, 27, 28, 35, 39, 60, 65100] →
      (s.a0.toNat < 65000 ∨ 65006 < s.a0.toNat) →
      exec .regLookup s = .next { s with a1 := 7#32, a2 := 0#32, a3 := 0#32, status := .ok } ∧
      exec .regCheck s = .next { s with a2 := 7#32, status := .ok })

/-- 43_option_registry.md R191 with R190: CT.MAP. -/
def Obligations.ContentTypeRule : Prop :=
  decodeOpcode 0x41#8 = some .ctMap ∧
  ∀ s : State,
    (s.mEid.toInt = 0 → 0 ≤ s.mEtp.toInt → s.mEtp.toInt ≤ 6 →
      exec .ctMap s = .next { s with a0 := s.mEtp, status := .ok }) ∧
    (s.mEid.toInt ≠ 0 ∨ s.mEtp.toInt < 0 ∨ 6 < s.mEtp.toInt →
      exec .ctMap s = .next { s with a0 := 0#32, status := .ok })

/-! ## Options -/

/-- 30_encoding.md R104: the extension coding, form by form; every value up to 65804 has exactly one encoding and every
(nibble, extension) pair with a nibble up to 14 decodes to exactly one value. -/
def Obligations.ExtensionCodingIsBijective : Prop :=
  (∀ a, a ≤ 12 → extNibble a = BitVec.ofNat 4 a ∧ extBytes a = []) ∧
  (∀ a, 13 ≤ a → a ≤ 268 → extNibble a = 13#4 ∧ extBytes a = [BitVec.ofNat 8 (a - 13)]) ∧
  (∀ a, 269 ≤ a → a ≤ 65804 → extNibble a = 14#4 ∧
    extBytes a = [BitVec.ofNat 8 ((a - 269) / 256), BitVec.ofNat 8 ((a - 269) % 256)]) ∧
  (∀ n : BitVec 4, n.toNat ≤ 12 → extLen n = 0 ∧ extJoin n [] = n.toNat) ∧
  (∀ b : Byte, extLen 13#4 = 1 ∧ extJoin 13#4 [b] = 13 + b.toNat) ∧
  (∀ b c : Byte, extLen 14#4 = 2 ∧ extJoin 14#4 [b, c] = 269 + (b.toNat * 256 + c.toNat)) ∧
  (∀ a, a ≤ 65804 →
    extNibble a ≠ 15#4 ∧ (extBytes a).length = extLen (extNibble a) ∧ extJoin (extNibble a) (extBytes a) = a) ∧
  (∀ (n : BitVec 4) (ext : List Byte), n ≠ 15#4 → ext.length = extLen n →
    extJoin n ext ≤ 65804 ∧ extNibble (extJoin n ext) = n ∧ extBytes (extJoin n ext) = ext)

/-- 44_option_tlv.md R202: one item of an option section, each status in the rule's order. `rest` is what follows the
item up to the end of the section. -/
def Obligations.OptionItemDecodeRule : Prop :=
  ∀ prev : Word,
    optDecode prev [] = .ok .done ∧
    (∀ rest, optDecode prev (0xFF#8 :: rest) = .ok (.marker rest)) ∧
    ∀ (dn ln : BitVec 4) (rest : List Byte),
      (dn = 15#4 ∨ ln = 15#4 → ¬ (dn = 15#4 ∧ ln = 15#4) →
        optDecode prev ((dn ++ ln : Byte) :: rest) = .error .optionUnexpectedExtendMarker) ∧
      (dn ≠ 15#4 → ln ≠ 15#4 → rest.length < extLen dn + extLen ln →
        optDecode prev ((dn ++ ln : Byte) :: rest) = .error .optionTruncated) ∧
      ∀ dext lext body : List Byte, dn ≠ 15#4 → ln ≠ 15#4 → dext.length = extLen dn → lext.length = extLen ln →
        rest = dext ++ lext ++ body →
        (body.length < extJoin ln lext →
          optDecode prev ((dn ++ ln : Byte) :: rest) = .error .optionTruncated) ∧
        (extJoin ln lext ≤ body.length → prev.toNat + extJoin dn dext > 2 ^ 32 - 1 →
          optDecode prev ((dn ++ ln : Byte) :: rest) = .error .unrepresentable) ∧
        (extJoin ln lext ≤ body.length → prev.toNat + extJoin dn dext ≤ 2 ^ 32 - 1 →
          optDecode prev ((dn ++ ln : Byte) :: rest) =
            .ok (.option (word (prev.toNat + extJoin dn dext)) (body.take (extJoin ln lext))
              (body.drop (extJoin ln lext))))

/-- 44_option_tlv.md R201 and, derived, R202: the bytes of one option and their number; the first byte is never 0xFF;
and decoding the encoding gives the option back, whatever follows. -/
def Obligations.OneOptionRoundTrip : Prop :=
  ∀ (prev id : Word) (val rest : List Byte), prev.toNat ≤ id.toNat → id.toNat - prev.toNat ≤ 65804 →
    val.length ≤ 65804 →
    optEncode prev id val =
      BitVec.ofNat 8 ((extNibble (id.toNat - prev.toNat)).toNat * 16 + (extNibble val.length).toNat) ::
        (extBytes (id.toNat - prev.toNat) ++ extBytes val.length ++ val) ∧
    (optEncode prev id val).length = optSize (id.toNat - prev.toNat) val.length ∧
    (optEncode prev id val).head? ≠ some 0xFF#8 ∧
    optDecode prev (optEncode prev id val ++ rest) = .ok (.option id val rest)

/-- 44_option_tlv.md R203: the sort is a permutation, in nondecreasing ID order, and entries with equal IDs keep their
order; it is applied to a copy, so no command but the decoders writes the option table. -/
def Obligations.OptionSortIsStable : Prop :=
  (∀ l : List OptEntry,
    (sortById l).Perm l ∧
    (sortById l).Pairwise (fun a b => a.id.toNat ≤ b.id.toNat) ∧
    ∀ id : Word, (sortById l).filter (fun e => e.id == id) = l.filter (fun e => e.id == id)) ∧
  ∀ (i : Instr) (s t : State), exec i s = .next t → i ∉ [.optsDec, .decV1, .decV2] → t.opt = s.opt

/-- Derived from 44_option_tlv.md R206: what `opts_decode` returns. The stored options number at most the capacity, are
in nondecreasing ID order, all pass the registry filter, and their values and what follows fit the input; without a
marker nothing follows. -/
def Obligations.DecodedOptionListIsOrderedAndFiltered : Prop :=
  ∀ (cap : Nat) (input : List Byte) (p : Parsed), optsDecode cap input = .ok p →
    p.stored.length ≤ cap ∧
    p.stored.Pairwise (fun a b => a.id.toNat ≤ b.id.toNat) ∧
    (∀ x ∈ p.stored, regFilter x.id x.bytes.length = some x.fmt ∧ x.id.toNat ≤ p.last.toNat) ∧
    (p.stored.flatMap Stored.bytes).length + p.rest.length ≤ input.length ∧
    p.rest <:+ input ∧
    (p.stop = .frameEnd → p.rest = [])

/-- Derived from 44_option_tlv.md R207: decoding the encoding of a list in ID order whose options are representable and
pass the registry filter gives the list back, with and without a payload behind it. -/
def Obligations.OptionListRoundTrip : Prop :=
  ∀ (cap : Nat) (l : List Stored), l.Pairwise (fun a b => a.id.toNat ≤ b.id.toNat) →
    optsRepresentable 0#32 (l.map fun x => (x.id, x.bytes)) = true →
    (∀ x ∈ l, regFilter x.id x.bytes.length = some x.fmt) → l.length ≤ cap →
    optsDecode cap (optsEncode 0#32 (l.map fun x => (x.id, x.bytes))) =
      .ok { stored := l, last := (l.getLast?.map Stored.id).getD 0#32, stop := .frameEnd, rest := [] } ∧
    ∀ pay : List Byte,
      optsDecode cap (optsEncode 0#32 (l.map fun x => (x.id, x.bytes)) ++ 0xFF#8 :: pay) =
        .ok { stored := l, last := (l.getLast?.map Stored.id).getD 0#32, stop := .marker, rest := pay }

/-- 44_option_tlv.md R208, R209: OPT.BEGIN and OPT.SIZE. -/
def Obligations.OptionBeginAndSizeRules : Prop :=
  decodeOpcode 0x32#8 = some .optBegin ∧ decodeOpcode 0x33#8 = some .optSize ∧
  ∀ s : State,
    exec .optBegin s = .next { s with prevId := 0#32, status := .ok } ∧
    (s.a0.toNat < s.prevId.toNat ∨ s.a0.toNat - s.prevId.toNat > 65804 ∨ s.a2.toNat > 65804 →
      exec .optSize s = .next { s with status := .errUnrepresentable }) ∧
    (s.prevId.toNat ≤ s.a0.toNat → s.a0.toNat - s.prevId.toNat ≤ 65804 → s.a2.toNat ≤ 65804 →
      exec .optSize s = .next { s with
        a3 := word (optSize (s.a0.toNat - s.prevId.toNat) s.a2.toNat)
        status := .ok })

/-- 44_option_tlv.md R210: OPT.PUT. As for VLU.PUT, a required end of 2^32 or more is the subject of
`RequiredEndTooWideForReqSize`. -/
def Obligations.OptionPutRule : Prop :=
  decodeOpcode 0x34#8 = some .optPut ∧
  ∀ s : State, s.params.wellFormed →
    (s.a1.toNat + s.a2.toNat > s.bufBytes.toNat → exec .optPut s = .next { s with status := .errBadOperand }) ∧
    (s.a1.toNat + s.a2.toNat ≤ s.bufBytes.toNat →
      (s.a0.toNat < s.prevId.toNat ∨ s.a0.toNat - s.prevId.toNat > 65804 ∨ s.a2.toNat > 65804 →
        exec .optPut s = .next { s with status := .errUnrepresentable }) ∧
      (s.prevId.toNat ≤ s.a0.toNat → s.a0.toNat - s.prevId.toNat ≤ 65804 → s.a2.toNat ≤ 65804 →
        ∀ sz, sz = optSize (s.a0.toNat - s.prevId.toNat) s.a2.toNat →
        (s.pos.toNat + sz ≤ s.ocapEff →
          exec .optPut s = .next { s with
            fbuf := s.fbuf.write s.pos.toNat (optEncode s.prevId s.a0 (s.vbuf.read s.a1.toNat s.a2.toNat))
            a3 := word sz
            prevId := s.a0
            pos := word (s.pos.toNat + sz)
            flen := word (max s.flen.toNat (s.pos.toNat + sz))
            reqSize := word (s.pos.toNat + sz)
            status := .ok }) ∧
        (s.pos.toNat + sz > s.ocapEff → s.pos.toNat + sz < 2 ^ 32 →
          exec .optPut s = .next { s with status := .errTooSmall, reqSize := word (s.pos.toNat + sz) })))

/-- 44_option_tlv.md R211: OPT.GET; offsets in FBUF are counted back from `flen` by what remains. -/
def Obligations.OptionGetRule : Prop :=
  decodeOpcode 0x35#8 = some .optGet ∧
  ∀ s : State,
    (s.pos.toNat > s.flenEff → exec .optGet s = .next { s with status := .errBadOperand }) ∧
    (s.pos.toNat ≤ s.flenEff → ∀ input, input = s.fbuf.read s.pos.toNat (s.flenEff - s.pos.toNat) →
      (∀ e, optDecode s.prevId input = .error e → exec .optGet s = .next { s with status := e.status }) ∧
      (optDecode s.prevId input = .ok .done → exec .optGet s = .next { s with a3 := 1#32, status := .ok }) ∧
      (∀ rest, optDecode s.prevId input = .ok (.marker rest) →
        exec .optGet s = .next { s with a3 := 2#32, pos := word (s.flenEff - rest.length), status := .ok }) ∧
      (∀ id val rest, optDecode s.prevId input = .ok (.option id val rest) →
        exec .optGet s = .next { s with
          a3 := 0#32
          a0 := id
          a1 := word (s.flenEff - rest.length - val.length)
          a2 := word val.length
          prevId := id
          pos := word (s.flenEff - rest.length)
          status := .ok }))

/-- 44_option_tlv.md R212 with R215: OPTS.SIZE. -/
def Obligations.OptionTableSizeRule : Prop :=
  decodeOpcode 0x36#8 = some .optsSize ∧
  ∀ s : State,
    (s.optTableOk = true ↔
      s.optCnt.toNat ≤ s.optCap.toNat ∧
      (∀ i < s.optCnt.toNat, (s.opt.get i).kind.toNat ≤ 4) ∧
      ∀ i < s.optCnt.toNat, (s.opt.get i).kind.toNat ∈ [0, 1, 2] →
        (s.opt.get i).voff.toNat + (s.opt.get i).vlen.toNat ≤ s.bufBytes.toNat) ∧
    (s.optTableOk = false → exec .optsSize s = .next { s with status := .errBadOperand }) ∧
    (s.optTableOk = true → optsRepresentable 0#32 s.wireOptions = false →
      exec .optsSize s = .next { s with status := .errUnrepresentable }) ∧
    (s.optTableOk = true → optsRepresentable 0#32 s.wireOptions = true →
      exec .optsSize s = .next { s with a0 := word (optsSize 0#32 s.wireOptions), status := .ok })

/-- 44_option_tlv.md R213: OPTS.ENC; the bytes it writes number what R204 counts. The option table keeps its order. As
for VLU.PUT, a required end of 2^32 or more is the subject of `RequiredEndTooWideForReqSize`. -/
def Obligations.OptionTableEncodeRule : Prop :=
  decodeOpcode 0x37#8 = some .optsEnc ∧
  ∀ s : State, s.params.wellFormed →
    (s.optTableOk = false → exec .optsEnc s = .next { s with status := .errBadOperand }) ∧
    (s.optTableOk = true → optsRepresentable 0#32 s.wireOptions = false →
      exec .optsEnc s = .next { s with status := .errUnrepresentable }) ∧
    (s.optTableOk = true → optsRepresentable 0#32 s.wireOptions = true →
      ∀ sz, sz = optsSize 0#32 s.wireOptions →
      (optsEncode 0#32 s.wireOptions).length = sz ∧
      (s.pos.toNat + sz ≤ s.ocapEff →
        exec .optsEnc s = .next { s with
          fbuf := s.fbuf.write s.pos.toNat (optsEncode 0#32 s.wireOptions)
          a0 := word sz
          prevId := (s.wireOptions.getLast?.map Prod.fst).getD 0#32
          pos := word (s.pos.toNat + sz)
          flen := word (max s.flen.toNat (s.pos.toNat + sz))
          reqSize := word (s.pos.toNat + sz)
          status := .ok }) ∧
      (s.pos.toNat + sz > s.ocapEff → s.pos.toNat + sz < 2 ^ 32 →
        exec .optsEnc s = .next { s with status := .errTooSmall, reqSize := word (s.pos.toNat + sz) }))

/-- 44_option_tlv.md R214: OPTS.DEC. -/
def Obligations.OptionTableDecodeRule : Prop :=
  decodeOpcode 0x38#8 = some .optsDec ∧
  ∀ s : State,
    (s.pos.toNat > s.flenEff → exec .optsDec s = .next { s with status := .errBadOperand }) ∧
    (s.pos.toNat ≤ s.flenEff → ∀ input, input = s.fbuf.read s.pos.toNat (s.flenEff - s.pos.toNat) →
      (∀ e, optsDecode s.optCap.toNat input = .error e → exec .optsDec s = .next { s with status := e.status }) ∧
      (∀ p, optsDecode s.optCap.toNat input = .ok p →
        exec .optsDec s = .next { s with
          opt := s.opt.write 0 (storedEntries 0 p.stored)
          vbuf := s.vbuf.write 0 (p.stored.flatMap Stored.bytes)
          optCnt := word p.stored.length
          a3 := match p.stop with | .frameEnd => 1#32 | .marker => 2#32
          prevId := p.last
          pos := word (s.flenEff - p.rest.length)
          status := .ok }))

/-! ## Headers -/

/-- 45_message_headers.md R240: MSG.RESET. -/
def Obligations.MessageResetRule : Prop :=
  decodeOpcode 0x40#8 = some .msgReset ∧
  ∀ s : State,
    exec .msgReset s = .next { s with
      mVer := 0#32, mType := 0#32, mMid := 0#32, mEid := 0#32, mEtp := 0#32, mCode := 0#8, mCrc16 := 0#16
      mRsum8 := 0#8, mTkl := 0#4, optCnt := 0#32, plen := 0#32, status := .ok }

/-- 45_message_headers.md R243, R244: HDR0.PACK and HDR0.UNPACK, byte by byte. -/
def Obligations.HeaderV0Rules : Prop :=
  decodeOpcode 0x44#8 = some .hdr0Pack ∧ decodeOpcode 0x45#8 = some .hdr0Unpack ∧
  ∀ s : State,
    (¬ s.fieldsOk0 → exec .hdr0Pack s = .next { s with status := .errInvalidField }) ∧
    (s.fieldsOk0 → s.ocapEff < 4 →
      exec .hdr0Pack s = .next { s with status := .errTooSmall, reqSize := 4#32 }) ∧
    (s.fieldsOk0 → 4 ≤ s.ocapEff →
      exec .hdr0Pack s = .next { s with
        fbuf := s.fbuf.write 0 [BitVec.ofNat 8 s.mType.toNat, BitVec.ofNat 8 (s.mEid.toNat * 16 + s.mEtp.toNat),
          BitVec.ofNat 8 (s.mCrc16.toNat % 256), BitVec.ofNat 8 (s.mCrc16.toNat / 256)]
        pos := 4#32
        flen := word (max s.flen.toNat 4)
        reqSize := 4#32
        status := .ok }) ∧
    (s.flenEff < 4 → exec .hdr0Unpack s = .next { s with status := .errMessageTruncated }) ∧
    (4 ≤ s.flenEff → (s.fbuf.get 0).toNat / 64 ≠ 0 →
      exec .hdr0Unpack s = .next { s with status := .errMessageInvalidVersion }) ∧
    (4 ≤ s.flenEff → (s.fbuf.get 0).toNat / 64 = 0 →
      exec .hdr0Unpack s = .next { s with
        mVer := 0#32
        mType := word ((s.fbuf.get 0).toNat % 4)
        mEid := word ((s.fbuf.get 1).toNat / 16)
        mEtp := word ((s.fbuf.get 1).toNat % 16)
        mCrc16 := BitVec.ofNat 16 ((s.fbuf.get 3).toNat * 256 + (s.fbuf.get 2).toNat)
        pos := 4#32
        status := .ok })

/-- 45_message_headers.md R247, R248: HDR1.PACK and HDR1.UNPACK, byte by byte. -/
def Obligations.HeaderV1Rules : Prop :=
  decodeOpcode 0x46#8 = some .hdr1Pack ∧ decodeOpcode 0x47#8 = some .hdr1Unpack ∧
  ∀ s : State,
    (¬ s.fieldsOk1 → exec .hdr1Pack s = .next { s with status := .errInvalidField }) ∧
    (s.fieldsOk1 → 8 < s.mTkl.toNat → exec .hdr1Pack s = .next { s with status := .errInvalidTokenLen }) ∧
    (s.fieldsOk1 → s.mTkl.toNat ≤ 8 → s.ocapEff < 4 →
      exec .hdr1Pack s = .next { s with status := .errTooSmall, reqSize := 4#32 }) ∧
    (s.fieldsOk1 → s.mTkl.toNat ≤ 8 → 4 ≤ s.ocapEff →
      exec .hdr1Pack s = .next { s with
        fbuf := s.fbuf.write 0 [BitVec.ofNat 8 (64 + s.mType.toNat * 16 + s.mTkl.toNat), s.mCode,
          BitVec.ofNat 8 (s.mMid.toNat / 256), BitVec.ofNat 8 (s.mMid.toNat % 256)]
        pos := 4#32
        flen := word (max s.flen.toNat 4)
        reqSize := 4#32
        status := .ok }) ∧
    (s.flenEff < 4 → exec .hdr1Unpack s = .next { s with status := .errMessageTruncated }) ∧
    (4 ≤ s.flenEff → (s.fbuf.get 0).toNat / 64 ≠ 1 →
      exec .hdr1Unpack s = .next { s with status := .errMessageInvalidVersion }) ∧
    (4 ≤ s.flenEff → (s.fbuf.get 0).toNat / 64 = 1 → 8 < (s.fbuf.get 0).toNat % 16 →
      exec .hdr1Unpack s = .next { s with status := .errInvalidTokenLen }) ∧
    (4 ≤ s.flenEff → (s.fbuf.get 0).toNat / 64 = 1 → (s.fbuf.get 0).toNat % 16 ≤ 8 →
      exec .hdr1Unpack s = .next { s with
        mVer := 1#32
        mType := word ((s.fbuf.get 0).toNat / 16 % 4)
        mTkl := BitVec.ofNat 4 ((s.fbuf.get 0).toNat % 16)
        mCode := s.fbuf.get 1
        mMid := word ((s.fbuf.get 2).toNat * 256 + (s.fbuf.get 3).toNat)
        pos := 4#32
        status := .ok })

/-- 45_message_headers.md R251, R252: HDR2.PACK and HDR2.UNPACK, byte by byte. -/
def Obligations.HeaderV2Rules : Prop :=
  decodeOpcode 0x48#8 = some .hdr2Pack ∧ decodeOpcode 0x49#8 = some .hdr2Unpack ∧
  ∀ s : State,
    (¬ s.fieldsOk2 → exec .hdr2Pack s = .next { s with status := .errInvalidField }) ∧
    (s.fieldsOk2 → 8 < s.mTkl.toNat → exec .hdr2Pack s = .next { s with status := .errInvalidTokenLen }) ∧
    (s.fieldsOk2 → s.mTkl.toNat ≤ 8 → s.ocapEff < 8 →
      exec .hdr2Pack s = .next { s with status := .errTooSmall, reqSize := 8#32 }) ∧
    (s.fieldsOk2 → s.mTkl.toNat ≤ 8 → 8 ≤ s.ocapEff →
      exec .hdr2Pack s = .next { s with
        fbuf := s.fbuf.write 0 [BitVec.ofNat 8 (128 + s.mTkl.toNat * 4 + s.mType.toNat),
          BitVec.ofNat 8 (s.mEid.toNat * 16 + s.mEtp.toNat),
          BitVec.ofNat 8 (s.mCrc16.toNat / 256), BitVec.ofNat 8 (s.mCrc16.toNat % 256),
          BitVec.ofNat 8 (s.mMid.toNat / 256), BitVec.ofNat 8 (s.mMid.toNat % 256), s.mCode, 0#8]
        pos := 8#32
        flen := word (max s.flen.toNat 8)
        reqSize := 8#32
        status := .ok }) ∧
    (s.flenEff < 8 → exec .hdr2Unpack s = .next { s with status := .errMessageTruncated }) ∧
    (8 ≤ s.flenEff → (s.fbuf.get 0).toNat / 64 ≠ 2 →
      exec .hdr2Unpack s = .next { s with status := .errMessageInvalidVersion }) ∧
    (8 ≤ s.flenEff → (s.fbuf.get 0).toNat / 64 = 2 → 8 < (s.fbuf.get 0).toNat / 4 % 16 →
      exec .hdr2Unpack s = .next { s with status := .errInvalidTokenLen }) ∧
    (8 ≤ s.flenEff → (s.fbuf.get 0).toNat / 64 = 2 → (s.fbuf.get 0).toNat / 4 % 16 ≤ 8 →
      exec .hdr2Unpack s = .next { s with
        mVer := 2#32
        mTkl := BitVec.ofNat 4 ((s.fbuf.get 0).toNat / 4 % 16)
        mType := word ((s.fbuf.get 0).toNat % 4)
        mEid := word ((s.fbuf.get 1).toNat / 16)
        mEtp := word ((s.fbuf.get 1).toNat % 16)
        mCrc16 := BitVec.ofNat 16 ((s.fbuf.get 2).toNat * 256 + (s.fbuf.get 3).toNat)
        mMid := word ((s.fbuf.get 4).toNat * 256 + (s.fbuf.get 5).toNat)
        mCode := s.fbuf.get 6
        mRsum8 := s.fbuf.get 7
        pos := 8#32
        status := .ok })

/-! ## Frames -/

/-- 46_frames.md R272, R278, R284: the SIZE commands. M_TKL is used as it stands, 0 to 15 (R277). In an instance that
meets 00_scope.md R6 every size fits 32 bits. -/
def Obligations.SizeRules : Prop :=
  decodeOpcode 0x50#8 = some .sizeV0 ∧ decodeOpcode 0x54#8 = some .sizeV1 ∧ decodeOpcode 0x58#8 = some .sizeV2 ∧
  (∀ s : State, s.params.wellFormed → exec .sizeV0 s = .next { s with reqSize := word (4 + s.plenEff), status := .ok }) ∧
  ∀ r ∈ [(Instr.sizeV1, 4), (.sizeV2, 8)], ∀ s : State, s.params.wellFormed →
    (s.optTableOk = false → exec r.1 s = .next { s with status := .errBadOperand }) ∧
    (s.optTableOk = true → optsRepresentable 0#32 s.wireOptions = false →
      exec r.1 s = .next { s with status := .errUnrepresentable }) ∧
    (s.optTableOk = true → optsRepresentable 0#32 s.wireOptions = true →
      ∀ size, size = r.2 + (s.mTkl.toNat + optsSize 0#32 s.wireOptions +
        (if s.plenEff > 0 then 1 + s.plenEff else 0)) →
      size < 2 ^ 32 ∧ exec r.1 s = .next { s with reqSize := word size, status := .ok })

/-- 46_frames.md R273: ENC.V0, its header byte by byte. -/
def Obligations.EncodeV0Rule : Prop :=
  decodeOpcode 0x51#8 = some .encV0 ∧
  ∀ s : State, s.params.wellFormed → ∀ pay, pay = s.pbuf.read 0 s.plenEff →
    (¬ s.fieldsOk0 → exec .encV0 s = .next { s with status := .errInvalidField }) ∧
    (s.fieldsOk0 → 4 + s.plenEff > s.ocapEff →
      exec .encV0 s = .next { s with status := .errTooSmall, reqSize := word (4 + s.plenEff) }) ∧
    (s.fieldsOk0 → 4 + s.plenEff ≤ s.ocapEff →
      exec .encV0 s = .next { s with
        fbuf := s.fbuf.write 0 ([BitVec.ofNat 8 s.mType.toNat, BitVec.ofNat 8 (s.mEid.toNat * 16 + s.mEtp.toNat),
          BitVec.ofNat 8 ((crc16 pay).toNat % 256), BitVec.ofNat 8 ((crc16 pay).toNat / 256)] ++ pay)
        mCrc16 := crc16 pay
        flen := word (4 + s.plenEff)
        pos := word (4 + s.plenEff)
        reqSize := word (4 + s.plenEff)
        status := .ok })

/-- 46_frames.md R274: DEC.V0. -/
def Obligations.DecodeV0Rule : Prop :=
  decodeOpcode 0x52#8 = some .decV0 ∧
  ∀ s : State, ∀ pay, pay = s.fbuf.read 4 (s.flenEff - 4) →
    ∀ crc, crc = BitVec.ofNat 16 ((s.fbuf.get 3).toNat * 256 + (s.fbuf.get 2).toNat) →
    (s.flenEff < 4 → exec .decV0 s = .next { s with status := .errMessageTruncated }) ∧
    (4 ≤ s.flenEff → (s.fbuf.get 0).toNat / 64 ≠ 0 →
      exec .decV0 s = .next { s with status := .errMessageInvalidVersion }) ∧
    (4 ≤ s.flenEff → (s.fbuf.get 0).toNat / 64 = 0 → crc16 pay ≠ crc →
      exec .decV0 s = .next { s with status := .errInvalidRCRC16 }) ∧
    (4 ≤ s.flenEff → (s.fbuf.get 0).toNat / 64 = 0 → crc16 pay = crc →
      exec .decV0 s = .next { s with
        mVer := 0#32
        mType := word ((s.fbuf.get 0).toNat % 4)
        mEid := word ((s.fbuf.get 1).toNat / 16)
        mEtp := word ((s.fbuf.get 1).toNat % 16)
        mCrc16 := crc
        pbuf := s.pbuf.write 0 pay
        plen := word (s.flenEff - 4)
        pos := word s.flenEff
        status := .ok })

/-- 46_frames.md R279 with R276: ENC.V1, its header byte by byte. -/
def Obligations.EncodeV1Rule : Prop :=
  decodeOpcode 0x55#8 = some .encV1 ∧
  ∀ s : State, s.params.wellFormed → ∀ pay, pay = s.pbuf.read 0 s.plenEff →
    (¬ s.fieldsOk1 → exec .encV1 s = .next { s with status := .errInvalidField }) ∧
    (s.fieldsOk1 → 8 < s.mTkl.toNat → exec .encV1 s = .next { s with status := .errInvalidTokenLen }) ∧
    (s.fieldsOk1 → s.mTkl.toNat ≤ 8 → s.optTableOk = false →
      exec .encV1 s = .next { s with status := .errBadOperand }) ∧
    (s.fieldsOk1 → s.mTkl.toNat ≤ 8 → s.optTableOk = true → optsRepresentable 0#32 s.wireOptions = false →
      exec .encV1 s = .next { s with status := .errUnrepresentable }) ∧
    (s.fieldsOk1 → s.mTkl.toNat ≤ 8 → s.optTableOk = true → optsRepresentable 0#32 s.wireOptions = true →
      ∀ size, size = 4 + (s.mTkl.toNat + optsSize 0#32 s.wireOptions +
        (if s.plenEff > 0 then 1 + s.plenEff else 0)) →
      (size > s.ocapEff → exec .encV1 s = .next { s with status := .errTooSmall, reqSize := word size }) ∧
      (size ≤ s.ocapEff →
        exec .encV1 s = .next { s with
          fbuf := s.fbuf.write 0 ([BitVec.ofNat 8 (64 + s.mType.toNat * 16 + s.mTkl.toNat), s.mCode,
              BitVec.ofNat 8 (s.mMid.toNat / 256), BitVec.ofNat 8 (s.mMid.toNat % 256)] ++
            (s.token.read 0 s.mTkl.toNat ++ optsEncode 0#32 s.wireOptions ++
              (if pay.length > 0 then 0xFF#8 :: pay else [])))
          flen := word size
          pos := word size
          reqSize := word size
          status := .ok }))

/-- 46_frames.md R280 with R271: DEC.V1. -/
def Obligations.DecodeV1Rule : Prop :=
  decodeOpcode 0x56#8 = some .decV1 ∧
  ∀ s : State, ∀ tkl, tkl = (s.fbuf.get 0).toNat % 16 →
    (s.flenEff < 4 → exec .decV1 s = .next { s with status := .errMessageTruncated }) ∧
    (4 ≤ s.flenEff → (s.fbuf.get 0).toNat / 64 ≠ 1 →
      exec .decV1 s = .next { s with status := .errMessageInvalidVersion }) ∧
    (4 ≤ s.flenEff → (s.fbuf.get 0).toNat / 64 = 1 → 8 < tkl →
      exec .decV1 s = .next { s with status := .errInvalidTokenLen }) ∧
    (4 ≤ s.flenEff → (s.fbuf.get 0).toNat / 64 = 1 → tkl ≤ 8 → 4 + tkl > s.flenEff →
      exec .decV1 s = .next { s with status := .errMessageTruncated }) ∧
    (4 ≤ s.flenEff → (s.fbuf.get 0).toNat / 64 = 1 → tkl ≤ 8 → 4 + tkl ≤ s.flenEff →
      ∀ input, input = s.fbuf.read (4 + tkl) (s.flenEff - (4 + tkl)) →
      (∀ e, optsDecode s.optCap.toNat input = .error e → exec .decV1 s = .next { s with status := e.status }) ∧
      (∀ p, optsDecode s.optCap.toNat input = .ok p →
        exec .decV1 s = .next { s with
          mVer := 1#32
          mType := word ((s.fbuf.get 0).toNat / 16 % 4)
          mTkl := BitVec.ofNat 4 tkl
          mCode := s.fbuf.get 1
          mMid := word ((s.fbuf.get 2).toNat * 256 + (s.fbuf.get 3).toNat)
          token := s.token.write 0 (s.fbuf.read 4 tkl)
          opt := s.opt.write 0 (storedEntries 0 p.stored)
          vbuf := s.vbuf.write 0 (p.stored.flatMap Stored.bytes)
          optCnt := word p.stored.length
          pbuf := s.pbuf.write 0 p.rest
          plen := word p.rest.length
          pos := word s.flenEff
          status := .ok }))

/-- 46_frames.md R285: ENC.V2, its header byte by byte; byte 7 is the RSUM8 of the frame laid out with 0 there. -/
def Obligations.EncodeV2Rule : Prop :=
  decodeOpcode 0x59#8 = some .encV2 ∧
  ∀ s : State, s.params.wellFormed → ∀ pay, pay = s.pbuf.read 0 s.plenEff →
    ∀ layout, layout = [BitVec.ofNat 8 (128 + s.mTkl.toNat * 4 + s.mType.toNat),
        BitVec.ofNat 8 (s.mEid.toNat * 16 + s.mEtp.toNat),
        BitVec.ofNat 8 ((crc16 pay).toNat / 256), BitVec.ofNat 8 ((crc16 pay).toNat % 256),
        BitVec.ofNat 8 (s.mMid.toNat / 256), BitVec.ofNat 8 (s.mMid.toNat % 256), s.mCode, 0#8] ++
      (s.token.read 0 s.mTkl.toNat ++ optsEncode 0#32 s.wireOptions ++
        (if pay.length > 0 then 0xFF#8 :: pay else [])) →
    (¬ s.fieldsOk2 → exec .encV2 s = .next { s with status := .errInvalidField }) ∧
    (s.fieldsOk2 → 8 < s.mTkl.toNat → exec .encV2 s = .next { s with status := .errInvalidTokenLen }) ∧
    (s.fieldsOk2 → s.mTkl.toNat ≤ 8 → s.optTableOk = false →
      exec .encV2 s = .next { s with status := .errBadOperand }) ∧
    (s.fieldsOk2 → s.mTkl.toNat ≤ 8 → s.optTableOk = true → optsRepresentable 0#32 s.wireOptions = false →
      exec .encV2 s = .next { s with status := .errUnrepresentable }) ∧
    (s.fieldsOk2 → s.mTkl.toNat ≤ 8 → s.optTableOk = true → optsRepresentable 0#32 s.wireOptions = true →
      ∀ size, size = 8 + (s.mTkl.toNat + optsSize 0#32 s.wireOptions +
        (if s.plenEff > 0 then 1 + s.plenEff else 0)) →
      (size > s.ocapEff → exec .encV2 s = .next { s with status := .errTooSmall, reqSize := word size }) ∧
      (size ≤ s.ocapEff →
        exec .encV2 s = .next { s with
          fbuf := s.fbuf.write 0 (layout.set 7 (rsum8 layout))
          mCrc16 := crc16 pay
          mRsum8 := rsum8 layout
          flen := word size
          pos := word size
          reqSize := word size
          status := .ok }))

/-- 46_frames.md R286 with R271: DEC.V2. -/
def Obligations.DecodeV2Rule : Prop :=
  decodeOpcode 0x5A#8 = some .decV2 ∧
  ∀ s : State, ∀ tkl, tkl = (s.fbuf.get 0).toNat / 4 % 16 →
    (s.flenEff < 8 → exec .decV2 s = .next { s with status := .errMessageTruncated }) ∧
    (8 ≤ s.flenEff → rsum8 (s.fbuf.read 0 s.flenEff) ≠ 0#8 →
      exec .decV2 s = .next { s with status := .errMessageInvalidRSUM8 }) ∧
    (8 ≤ s.flenEff → rsum8 (s.fbuf.read 0 s.flenEff) = 0#8 →
      ((s.fbuf.get 0).toNat / 64 ≠ 2 → exec .decV2 s = .next { s with status := .errMessageInvalidVersion }) ∧
      ((s.fbuf.get 0).toNat / 64 = 2 → 8 < tkl → exec .decV2 s = .next { s with status := .errInvalidTokenLen }) ∧
      ((s.fbuf.get 0).toNat / 64 = 2 → tkl ≤ 8 → 8 + tkl > s.flenEff →
        exec .decV2 s = .next { s with status := .errMessageTruncated }) ∧
      ((s.fbuf.get 0).toNat / 64 = 2 → tkl ≤ 8 → 8 + tkl ≤ s.flenEff →
        ∀ input, input = s.fbuf.read (8 + tkl) (s.flenEff - (8 + tkl)) →
        ∀ crc, crc = BitVec.ofNat 16 ((s.fbuf.get 2).toNat * 256 + (s.fbuf.get 3).toNat) →
        (∀ e, optsDecode s.optCap.toNat input = .error e → exec .decV2 s = .next { s with status := e.status }) ∧
        (∀ p, optsDecode s.optCap.toNat input = .ok p → crc16 p.rest ≠ crc →
          exec .decV2 s = .next { s with status := .errInvalidRCRC16 }) ∧
        (∀ p, optsDecode s.optCap.toNat input = .ok p → crc16 p.rest = crc →
          exec .decV2 s = .next { s with
            mVer := 2#32
            mType := word ((s.fbuf.get 0).toNat % 4)
            mTkl := BitVec.ofNat 4 tkl
            mEid := word ((s.fbuf.get 1).toNat / 16)
            mEtp := word ((s.fbuf.get 1).toNat % 16)
            mCrc16 := crc
            mMid := word ((s.fbuf.get 4).toNat * 256 + (s.fbuf.get 5).toNat)
            mCode := s.fbuf.get 6
            mRsum8 := s.fbuf.get 7
            token := s.token.write 0 (s.fbuf.read 8 tkl)
            opt := s.opt.write 0 (storedEntries 0 p.stored)
            vbuf := s.vbuf.write 0 (p.stored.flatMap Stored.bytes)
            optCnt := word p.stored.length
            pbuf := s.pbuf.write 0 p.rest
            plen := word p.rest.length
            pos := word s.flenEff
            status := .ok })))

/-- 46_frames.md R275: after ENC.V0 has ended OK, DEC.V0 ends OK and leaves M_TYPE, M_EID, M_ETP, M_CRC16, PLEN and the
payload as they were. -/
def Obligations.V0RoundTrip : Prop :=
  ∀ s t : State, s.Inv → exec .encV0 s = .next t → t.status = .ok →
    ∃ u, exec .decV0 t = .next u ∧ u.status = .ok ∧
      u.mType = t.mType ∧ u.mEid = t.mEid ∧ u.mEtp = t.mEtp ∧ u.mCrc16 = t.mCrc16 ∧ u.plen = t.plen ∧
      u.pbuf.read 0 u.plen.toNat = t.pbuf.read 0 t.plen.toNat

/-- Derived from 46_frames.md R281: after ENC.V1 has ended OK on a message whose options all pass the registry filter,
DEC.V1 ends OK and gives the same type, token, code, Message ID and payload, and the sorted options: equal in ID and
value bytes, in UVAL where the format is Uint and the entry was Uint or Media, with the KIND of the registry. -/
def Obligations.V1RoundTrip : Prop :=
  ∀ s t : State, s.Inv → exec .encV1 s = .next t → t.status = .ok →
    (∀ e ∈ s.options, inBounds e.id (s.valueBytes e).length = true) →
    ∃ u, exec .decV1 t = .next u ∧ u.status = .ok ∧
      u.mVer = 1#32 ∧ u.mType = t.mType ∧ u.mTkl = t.mTkl ∧ u.mCode = t.mCode ∧ u.mMid = t.mMid ∧
      u.token.read 0 u.mTkl.toNat = t.token.read 0 t.mTkl.toNat ∧
      u.plen = t.plen ∧ u.pbuf.read 0 u.plen.toNat = t.pbuf.read 0 t.plen.toNat ∧
      u.optCnt = t.optCnt ∧
      List.Forall₂ (fun e d : OptEntry =>
          d.id = e.id ∧ u.vbuf.read d.voff.toNat d.vlen.toNat = s.valueBytes e ∧
          ∀ fmt, regFilter e.id (s.valueBytes e).length = some fmt →
            d.kind = storedKind e.id fmt ∧ (fmt = .uint → e.kind = 3#3 ∨ e.kind = 4#3 → d.uval = e.uval))
        (sortById s.options) u.options

/-- Derived from 46_frames.md R287: the frame ENC.V2 writes has RSUM8 zero; DEC.V2 of it ends OK and gives back the
header fields, the token, the payload and the sorted options (under the condition of R281); and with any single bit of
the frame flipped DEC.V2 ends with ErrMessageInvalidRSUM8. -/
def Obligations.V2RoundTripAndBitFlips : Prop :=
  ∀ s t : State, s.Inv → exec .encV2 s = .next t → t.status = .ok →
    rsum8 (t.fbuf.read 0 t.flen.toNat) = 0#8 ∧
    ((∀ e ∈ s.options, inBounds e.id (s.valueBytes e).length = true) →
      ∃ u, exec .decV2 t = .next u ∧ u.status = .ok ∧
        u.mVer = 2#32 ∧ u.mType = t.mType ∧ u.mTkl = t.mTkl ∧ u.mCode = t.mCode ∧ u.mMid = t.mMid ∧
        u.mEid = t.mEid ∧ u.mEtp = t.mEtp ∧ u.mCrc16 = t.mCrc16 ∧ u.mRsum8 = t.mRsum8 ∧
        u.token.read 0 u.mTkl.toNat = t.token.read 0 t.mTkl.toNat ∧
        u.plen = t.plen ∧ u.pbuf.read 0 u.plen.toNat = t.pbuf.read 0 t.plen.toNat ∧
        u.optCnt = t.optCnt ∧
        List.Forall₂ (fun e d : OptEntry =>
            d.id = e.id ∧ u.vbuf.read d.voff.toNat d.vlen.toNat = s.valueBytes e ∧
            ∀ fmt, regFilter e.id (s.valueBytes e).length = some fmt →
              d.kind = storedKind e.id fmt ∧ (fmt = .uint → e.kind = 3#3 ∨ e.kind = 4#3 → d.uval = e.uval))
          (sortById s.options) u.options) ∧
    (∀ a k, a < t.flen.toNat → k < 8 → ∀ t', t' = { t with fbuf := t.fbuf.set a (t.fbuf.get a ^^^ BitVec.twoPow 8 k) } →
      exec .decV2 t' = .next { t' with status := .errMessageInvalidRSUM8 })

/-- 46_frames.md R288: a frame given to the decoder of another version; bits 11 are refused by all three. -/
def Obligations.OtherVersionsAreRefused : Prop :=
  ∀ s : State,
    (4 ≤ s.flenEff → (s.fbuf.get 0).toNat / 64 ≠ 0 →
      exec .decV0 s = .next { s with status := .errMessageInvalidVersion }) ∧
    (4 ≤ s.flenEff → (s.fbuf.get 0).toNat / 64 ≠ 1 →
      exec .decV1 s = .next { s with status := .errMessageInvalidVersion }) ∧
    (s.flenEff < 8 → exec .decV2 s = .next { s with status := .errMessageTruncated }) ∧
    (8 ≤ s.flenEff → (s.fbuf.get 0).toNat / 64 ≠ 2 →
      exec .decV2 s = .next { s with
        status := if rsum8 (s.fbuf.read 0 s.flenEff) ≠ 0#8 then .errMessageInvalidRSUM8
          else .errMessageInvalidVersion })

/-- 46_frames.md R289: for a message on which ENC.Vn ends OK with REQSIZE = n, every smaller OCAP gives ErrTooSmall with
REQSIZE = n and writes nothing, SIZE.Vn ends OK with REQSIZE = n, and OCAP = n ends OK and writes exactly n bytes. -/
def Obligations.SizeProbeLaw : Prop :=
  ∀ r ∈ [(Instr.encV0, Instr.sizeV0), (.encV1, .sizeV1), (.encV2, .sizeV2)],
    ∀ s t : State, s.Inv → exec r.1 s = .next t → t.status = .ok →
      (∀ c : Word, c.toNat < t.reqSize.toNat →
        exec r.1 { s with ocap := c } = .next { s with ocap := c, status := .errTooSmall, reqSize := t.reqSize }) ∧
      exec r.2 s = .next { s with reqSize := t.reqSize, status := .ok } ∧
      exec r.1 { s with ocap := t.reqSize } = .next { t with ocap := t.reqSize } ∧
      t.flen = t.reqSize ∧ ∀ a, t.reqSize.toNat ≤ a → t.fbuf.get a = s.fbuf.get a

/-! ## The whole machine -/

/-- 60_exceptions.md R305: a command that does not end OK changes STATUS, and REQSIZE on ErrTooSmall to the required end
its rule names, which exceeds `ocap`; nothing else. (A required end of 2^32 or more, which REQSIZE cannot hold, is the
subject of `RequiredEndTooWideForReqSize`.) -/
def Obligations.ExceptionEntryChangesNothingElse : Prop :=
  ∀ (i : Instr) (s t : State), exec i s = .next t → t.status ≠ .ok →
    (t.status ≠ .errTooSmall → t = { s with status := t.status }) ∧
    (t.status = .errTooSmall → s.ocapEff < requiredEnd i s ∧
      (requiredEnd i s < 2 ^ 32 → t = { s with status := .errTooSmall, reqSize := word (requiredEnd i s) }))

/-- 60_exceptions.md R303: every command answers a next state whose status is OK or one the table gives it; the
commands of the last list end OK always; ErrMessageNil is never raised. -/
def Obligations.StatusesAreThoseOfTheTable : Prop :=
  ∀ (i : Instr) (s : State),
    ∃ t, exec i s = .next t ∧ (t.status = .ok ∨ i ∈ commandsEndingWith t.status) ∧
      t.status ≠ .errMessageNil ∧ (i ∈ commandsAlwaysOk → t.status = .ok)

/-- 10_state.md R27: REQSIZE is written by the commands whose rules list it, on OK and on ErrTooSmall, with the required
size; and by no other command and on no other outcome. SUM.PATCH lists it on ErrTooSmall only (40_checksums.md R142).
(A size of 2^32 or more, which REQSIZE cannot hold, is the subject of `RequiredEndTooWideForReqSize`.) -/
def Obligations.ReqSizeIsWrittenOnlyByItsCommands : Prop :=
  ∀ (i : Instr) (s t : State), exec i s = .next t →
    (i ∈ reqSizeWriters → (t.status = .ok ∧ i ≠ .sumPatch) ∨ t.status = .errTooSmall → requiredEnd i s < 2 ^ 32 →
      t.reqSize = word (requiredEnd i s)) ∧
    (i = .sumPatch → t.status = .ok → t.reqSize = s.reqSize) ∧
    (t.reqSize ≠ s.reqSize → i ∈ reqSizeWriters ∧ (t.status = .ok ∨ t.status = .errTooSmall))

/-- Derived from 70_reset_and_hazards.md R336, from the head of 46_frames.md and from 10_state.md R22: who may write
CRCACC, SUMACC, PREVID and the operand registers. -/
def Obligations.AccumulatorsAndOperandsHaveFewWriters : Prop :=
  ∀ (i : Instr) (s t : State), exec i s = .next t →
    (i ∉ [.crcInit, .crcUpd, .crcFrm, .crcPay] → t.crcAcc = s.crcAcc) ∧
    (i ∉ [.sumInit, .sumUpd, .sumFrm] → t.sumAcc = s.sumAcc) ∧
    (i ∉ [.optBegin, .optPut, .optGet, .optsEnc, .optsDec] → t.prevId = s.prevId) ∧
    (i ∉ [.vluGet, .optGet, .optsSize, .optsEnc, .ctMap] → t.a0 = s.a0) ∧
    (i ∉ [.vluLen, .vluPut, .regLookup, .optGet] → t.a1 = s.a1) ∧
    (i ∉ [.bfExt, .regLookup, .regCheck, .optGet] → t.a2 = s.a2) ∧
    (i ∉ [.regLookup, .optSize, .optPut, .optGet, .optsDec] → t.a3 = s.a3) ∧
    t.ocap = s.ocap ∧ t.bufBytes = s.bufBytes ∧ t.optCap = s.optCap ∧ t.host = s.host ∧ t.rdata = s.rdata

/-- Derived from 20_memory.md R60 and the command rules: every byte of FBUF outside the bytes a command writes is
unchanged, the address and the length computed as the command's rule does. -/
def Obligations.FrameBufferBytesOutsideAreKept : Prop :=
  ∀ (i : Instr) (s t : State) (a : Nat), s.Inv → exec i s = .next t →
    (i ∉ [.sumPatch, .vluPut, .bfIns, .optPut, .optsEnc, .hdr0Pack, .hdr1Pack, .hdr2Pack, .encV0, .encV1, .encV2] →
      t.fbuf.get a = s.fbuf.get a) ∧
    (t.status ≠ .ok → t.fbuf.get a = s.fbuf.get a) ∧
    (i = .sumPatch → a ≠ 7 → t.fbuf.get a = s.fbuf.get a) ∧
    (i = .vluPut → a < s.pos.toNat ∨ s.pos.toNat + vluLen s.a0 ≤ a → t.fbuf.get a = s.fbuf.get a) ∧
    (i = .optPut → a < s.pos.toNat ∨ s.pos.toNat + optSize (delta s.prevId s.a0) s.a2.toNat ≤ a →
      t.fbuf.get a = s.fbuf.get a) ∧
    (i = .optsEnc → a < s.pos.toNat ∨ s.pos.toNat + optsSize 0#32 s.wireOptions ≤ a →
      t.fbuf.get a = s.fbuf.get a) ∧
    (i = .bfIns → a < s.a0.toNat / 8 ∨ (s.a0.toNat + s.a1.toNat + 7) / 8 ≤ a → t.fbuf.get a = s.fbuf.get a) ∧
    (i ∈ [.hdr0Pack, .hdr1Pack] → 4 ≤ a → t.fbuf.get a = s.fbuf.get a) ∧
    (i = .hdr2Pack → 8 ≤ a → t.fbuf.get a = s.fbuf.get a) ∧
    (i = .encV0 → 4 + s.plenEff ≤ a → t.fbuf.get a = s.fbuf.get a) ∧
    (i = .encV1 → 4 + bodySize s.mTkl.toNat s.wireOptions s.plenEff ≤ a → t.fbuf.get a = s.fbuf.get a) ∧
    (i = .encV2 → 8 + bodySize s.mTkl.toNat s.wireOptions s.plenEff ≤ a → t.fbuf.get a = s.fbuf.get a)

/-- Derived from 20_memory.md R60, 44_option_tlv.md R203, R214 and 70_reset_and_hazards.md R334: only the decoders write
PBUF, VBUF, TOKEN and the option table, and each byte or entry outside what they write is unchanged. -/
def Obligations.DecodedMemoriesOutsideAreKept : Prop :=
  ∀ (i : Instr) (s t : State) (a : Nat), s.Inv → exec i s = .next t →
    (i ∉ [.decV0, .decV1, .decV2] → t.pbuf.get a = s.pbuf.get a ∧ t.token.get a = s.token.get a) ∧
    (i ∉ [.optsDec, .decV1, .decV2] → t.vbuf.get a = s.vbuf.get a ∧ t.opt.get a = s.opt.get a) ∧
    (i = .decV0 → t.token.get a = s.token.get a ∧ t.optCnt = s.optCnt ∧ t.mTkl = s.mTkl ∧ t.mMid = s.mMid ∧
      t.mCode = s.mCode ∧ t.mRsum8 = s.mRsum8) ∧
    (i = .decV1 → t.mEid = s.mEid ∧ t.mEtp = s.mEtp ∧ t.mCrc16 = s.mCrc16 ∧ t.mRsum8 = s.mRsum8) ∧
    (i = .optsDec → t.pbuf.get a = s.pbuf.get a ∧ t.token.get a = s.token.get a) ∧
    (t.status ≠ .ok → t.pbuf.get a = s.pbuf.get a ∧ t.vbuf.get a = s.vbuf.get a ∧ t.token.get a = s.token.get a ∧
      t.opt.get a = s.opt.get a) ∧
    (i ∈ [.decV0, .decV1, .decV2] → t.plen.toNat ≤ a → t.pbuf.get a = s.pbuf.get a) ∧
    (i ∈ [.decV1, .decV2] → t.mTkl.toNat ≤ a → t.token.get a = s.token.get a) ∧
    (i ∈ [.optsDec, .decV1, .decV2] → t.status = .ok →
      (t.optCnt.toNat ≤ a → t.opt.get a = s.opt.get a) ∧
      (((t.opt.read 0 t.optCnt.toNat).map fun e => e.vlen.toNat).sum ≤ a → t.vbuf.get a = s.vbuf.get a))

/-- Derived from 10_state.md R24: POS does not exceed `BUF_BYTES` after a command that uses it ended OK. -/
def Obligations.CursorStaysInTheBuffer : Prop :=
  ∀ (i : Instr) (s t : State), s.Inv → exec i s = .next t → t.status = .ok →
    i ∈ [.vluPut, .vluGet, .optPut, .optGet, .optsEnc, .optsDec, .hdr0Pack, .hdr0Unpack, .hdr1Pack, .hdr1Unpack,
      .hdr2Pack, .hdr2Unpack, .encV0, .decV0, .encV1, .decV1, .encV2, .decV2] →
    t.pos.toNat ≤ s.bufBytes.toNat

/-- 10_state.md R44: the state after reset, for every pair of capacities and every unspecified content; power-on reset
of a running machine leaves that state with the instance's capacities, whatever the state before (`host`, `rdata` and
`freeCount` are the model's own); and the machine's `State.reset` is one of these states (logs 2 and 3 name the
capacities and the contents it takes). -/
def Obligations.ResetState : Prop :=
  (∃ p c, State.reset = State.resetWith p c) ∧
  (∀ (s : State) (c : ResetContents) (rest : List HostAction), s.host = .powerOn c :: rest →
    ∃ t, step s = .next t ∧ t.host = rest ∧
      t = { State.resetWith { bufBytes := s.bufBytes, optCap := s.optCap } c with
        host := t.host, rdata := t.rdata, freeCount := t.freeCount }) ∧
  ∀ (p : Params) (c : ResetContents),
    (∀ s, s = State.resetWith p c →
      s.a0 = 0#32 ∧ s.a1 = 0#32 ∧ s.a2 = 0#32 ∧ s.a3 = 0#32 ∧
      s.pos = 0#32 ∧ s.ocap = 0#32 ∧ s.flen = 0#32 ∧ s.plen = 0#32 ∧ s.optCnt = 0#32 ∧
      s.status = .ok ∧ s.status.code = 0#8 ∧ s.reqSize = 0#32 ∧
      s.crcAcc = 0xFFFF#16 ∧ s.sumAcc = 0#8 ∧ s.prevId = 0#32 ∧
      s.mVer = 0#32 ∧ s.mType = 0#32 ∧ s.mMid = 0#32 ∧ s.mEid = 0#32 ∧ s.mEtp = 0#32 ∧
      s.mCode = 0#8 ∧ s.mCrc16 = 0#16 ∧ s.mRsum8 = 0#8 ∧ s.mTkl = 0#4 ∧
      s.bufBytes = p.bufBytes ∧ s.optCap = p.optCap ∧
      (c.token.length ≤ 8 → s.token.read 0 c.token.length = c.token) ∧
      (c.opt.length ≤ p.optCap.toNat → s.opt.read 0 c.opt.length = c.opt) ∧
      (c.fbuf.length ≤ p.bufBytes.toNat → s.fbuf.read 0 c.fbuf.length = c.fbuf) ∧
      (c.pbuf.length ≤ p.bufBytes.toNat → s.pbuf.read 0 c.pbuf.length = c.pbuf) ∧
      (c.vbuf.length ≤ p.bufBytes.toNat → s.vbuf.read 0 c.vbuf.length = c.vbuf))

/-- Derived from 70_reset_and_hazards.md R331: the state after reset describes the empty message (its fields are 0, it has
no token, options or payload), in the ranges of every version; the SIZE commands give 4, 4 and 8, the ENC commands end with ErrTooSmall and the same sizes, the DEC commands
end with ErrMessageTruncated; and once OCAP is raised, each ENC command ends OK and leaves a valid message of its
version (10_state.md R38). That `msg_valid` holds right after reset is true for V1 only: for V0 and V2 it asks of M_CRC16
the CRC of the empty payload, 0xFFFF, and R44 resets M_CRC16 to 0 (log 7); with that one field at 0xFFFF it would hold
for every version. -/
def Obligations.FirstCommandAfterReset : Prop :=
  ∀ (p : Params) (c : ResetContents), p.wellFormed → ∀ s, s = State.resetWith p c →
    (∀ r ∈ [(Instr.sizeV0, 4#32), (.sizeV1, 4#32), (.sizeV2, 8#32)],
      exec r.1 s = .next { s with reqSize := r.2, status := .ok }) ∧
    (∀ r ∈ [(Instr.encV0, 4#32), (.encV1, 4#32), (.encV2, 8#32)],
      exec r.1 s = .next { s with reqSize := r.2, status := .errTooSmall }) ∧
    (∀ i ∈ [Instr.decV0, .decV1, .decV2], exec i s = .next { s with status := .errMessageTruncated }) ∧
    s.mType = 0#32 ∧ s.mMid = 0#32 ∧ s.mEid = 0#32 ∧ s.mEtp = 0#32 ∧ s.mCode = 0#8 ∧
    s.tokenBytes = [] ∧ s.options = [] ∧ s.payload = [] ∧ (∀ v, s.rangesOk v) ∧
    s.msgValid .v1 ∧ ¬ s.msgValid .v0 ∧ ¬ s.msgValid .v2 ∧ (∀ v, State.msgValid { s with mCrc16 := 0xFFFF#16 } v) ∧
    ∀ cap : Word, 8 ≤ cap.toNat → ∀ r ∈ [(Instr.encV0, Version.v0), (.encV1, .v1), (.encV2, .v2)],
      ∃ t, exec r.1 { s with ocap := cap } = .next t ∧ t.status = .ok ∧ t.msgValid r.2

/-- The invariant holds right after reset, whatever the capacities that meet 00_scope.md R6 and the unspecified
contents; and in the model's own `State.reset`, whose capacities and contents are its choice (logs 2, 3). -/
def Obligations.InvariantHoldsAtReset : Prop :=
  (∀ (p : Params) (c : ResetContents), p.wellFormed → (State.resetWith p c).Inv) ∧ State.reset.Inv

/-- Every step keeps the invariant: the memories stay canonical, nothing is ever stored outside a space, the capacities
stay what they are. It covers commands, host accesses and power-on reset. -/
def Obligations.StepKeepsTheInvariant : Prop :=
  ∀ s t : State, s.Inv → step s = .next t → t.Inv ∧ t.params = s.params

/-! ## Added after the review -/

/-- The model's choice (log 5), not a rule: where the required end is 2^32 or more, which only a POS written by the host
can bring about, and only for VLU.PUT, OPT.PUT and OPTS.ENC, the command ends with ErrTooSmall as its rule says, REQSIZE
holds some value and the model's counter of free values advances; nothing else changes. -/
def Obligations.RequiredEndTooWideForReqSize : Prop :=
  (∀ (i : Instr) (s t : State), s.params.wellFormed → exec i s = .next t → 2 ^ 32 ≤ requiredEnd i s →
    t.status = .ok ∨ t.status = .errTooSmall →
    i ∈ [.vluPut, .optPut, .optsEnc] ∧
      t = { s with status := .errTooSmall, reqSize := t.reqSize, freeCount := s.freeCount + 1 }) ∧
  ∀ s : State, s.params.wellFormed →
    (2 ^ 32 ≤ requiredEnd .vluPut s →
      ∃ v, exec .vluPut s = .next { s with status := .errTooSmall, reqSize := v, freeCount := s.freeCount + 1 }) ∧
    (s.a1.toNat + s.a2.toNat ≤ s.bufBytes.toNat → s.prevId.toNat ≤ s.a0.toNat → s.a0.toNat - s.prevId.toNat ≤ 65804 →
      s.a2.toNat ≤ 65804 → 2 ^ 32 ≤ requiredEnd .optPut s →
      ∃ v, exec .optPut s = .next { s with status := .errTooSmall, reqSize := v, freeCount := s.freeCount + 1 }) ∧
    (s.optTableOk = true → optsRepresentable 0#32 s.wireOptions = true → 2 ^ 32 ≤ requiredEnd .optsEnc s →
      ∃ v, exec .optsEnc s = .next { s with status := .errTooSmall, reqSize := v, freeCount := s.freeCount + 1 })

/-- 44_option_tlv.md R206 with 43_option_registry.md R184 and R186: the loop of `opts_decode`, item by item, and what an
option is stored as. A status of an item ends the decode; an unknown or out-of-bounds option is dropped without a status
and its ID counts; an option to be stored when none has room is ErrOptionsTooSmall, whatever follows it; the filter is
that of REG.CHECK; and the stored values lie back to back. -/
def Obligations.OptionListDecodeRule : Prop :=
  (∀ (cap : Nat) (input : List Byte), optsDecode cap input = optsDecodeFrom cap 0#32 input) ∧
  (∀ (room : Nat) (prev : Word) (input : List Byte),
    (∀ e, optDecode prev input = .error e → optsDecodeFrom room prev input = .error e) ∧
    (optDecode prev input = .ok .done →
      optsDecodeFrom room prev input = .ok { stored := [], last := prev, stop := .frameEnd, rest := [] }) ∧
    (∀ rest, optDecode prev input = .ok (.marker rest) →
      optsDecodeFrom room prev input = .ok { stored := [], last := prev, stop := .marker, rest := rest }) ∧
    ∀ id val rest, optDecode prev input = .ok (.option id val rest) →
      (regFilter id val.length = none → optsDecodeFrom room prev input = optsDecodeFrom room id rest) ∧
      ∀ fmt, regFilter id val.length = some fmt →
        (room = 0 → optsDecodeFrom room prev input = .error .optionsTooSmall) ∧
        (∀ e, room ≠ 0 → optsDecodeFrom (room - 1) id rest = .error e → optsDecodeFrom room prev input = .error e) ∧
        ∀ p, room ≠ 0 → optsDecodeFrom (room - 1) id rest = .ok p →
          optsDecodeFrom room prev input =
            .ok { stored := ⟨id, fmt, val⟩ :: p.stored, last := p.last, stop := p.stop, rest := p.rest }) ∧
  (∀ (s : State) (fmt : Fmt), regFilter s.a0 s.a1.toNat = some fmt ↔
    exec .regCheck s = .next { s with
      a2 := match fmt with | .empty => 0#32 | .opaqueBytes => 1#32 | .string => 2#32 | .uint => 3#32
      status := .ok }) ∧
  ∀ (l : List Stored) (n : Nat) (x : Stored), l[n]? = some x →
    ∀ o, o = ((l.take n).map fun y => y.bytes.length).sum →
      (storedEntries 0 l)[n]? = some {
        id := x.id
        kind := match x.fmt with
          | .empty => 0#3
          | .opaqueBytes => 1#3
          | .string => 2#3
          | .uint => if x.id = 12#32 ∨ x.id = 17#32 then 4#3 else 3#3
        voff := word o
        vlen := word x.bytes.length
        uval := match x.fmt with | .uint => vluDec x.bytes | .empty | .opaqueBytes | .string => 0#32 } ∧
      ((l.flatMap Stored.bytes).drop o).take x.bytes.length = x.bytes
end

