-- ==== Sys2Proof/Laws/Memory.lean ====
section
/-! SUPPORT. What reading and writing a memory does, for cells of any type and then for byte memories and option
tables: every operation keeps the canonical form, a read after a write gives what was written, and a write leaves
every other cell alone. -/

namespace Sys2Proof.Machine

section Sparse

variable {α : Type} (d : α)

/-! ### Reading -/

@[simp] theorem Sparse.get_nil (a : Nat) : Sparse.get d [] a = d := rfl

theorem Sparse.get_of_lt {m : List (Nat × α)} {a : Nat} (h : ∀ x ∈ m, a < x.1) : Sparse.get d m a = d := by
  induction m with
  | nil => rfl
  | cons x xs ih =>
    have hx := h x (by simp)
    simp only [Sparse.get]
    rw [if_neg (by omega), ih fun y hy => h y (by simp [hy])]

theorem Sparse.get_of_within {m : List (Nat × α)} {n a : Nat} (h : Sparse.within m n) (ha : n ≤ a) :
    Sparse.get d m a = d := by
  induction m with
  | nil => rfl
  | cons x xs ih =>
    have hx := h x (by simp)
    simp only [Sparse.get]
    rw [if_neg (by omega), ih fun y hy => h y (by simp [hy])]

@[simp] theorem Sparse.read_zero (m : List (Nat × α)) (a : Nat) : Sparse.read d m a 0 = [] := rfl

theorem Sparse.read_succ (m : List (Nat × α)) (a n : Nat) :
    Sparse.read d m a (n + 1) = Sparse.get d m a :: Sparse.read d m (a + 1) n := rfl

@[simp] theorem Sparse.read_length (m : List (Nat × α)) (a n : Nat) : (Sparse.read d m a n).length = n := by
  induction n generalizing a with
  | zero => rfl
  | succ n ih => simp [Sparse.read_succ, ih]

theorem Sparse.read_getElem (m : List (Nat × α)) (a n i : Nat) (h : i < (Sparse.read d m a n).length) :
    (Sparse.read d m a n)[i] = Sparse.get d m (a + i) := by
  induction n generalizing a i with
  | zero => simp at h
  | succ n ih =>
    cases i with
    | zero => rfl
    | succ i =>
      simp only [Sparse.read_succ, List.getElem_cons_succ]
      rw [ih]; congr 1; omega

theorem Sparse.read_getElem? (m : List (Nat × α)) (a n i : Nat) :
    (Sparse.read d m a n)[i]? = if i < n then some (Sparse.get d m (a + i)) else none := by
  split
  · rw [List.getElem?_eq_getElem (by simpa), Sparse.read_getElem]
  · rw [List.getElem?_eq_none (by simp; omega)]

theorem Sparse.read_congr {m m' : List (Nat × α)} {a n : Nat}
    (h : ∀ b, a ≤ b → b < a + n → Sparse.get d m b = Sparse.get d m' b) :
    Sparse.read d m a n = Sparse.read d m' a n := by
  apply List.ext_getElem <;> simp only [Sparse.read_length, Sparse.read_getElem]
  intro i h1 _
  exact h _ (by omega) (by omega)

theorem Sparse.read_add (m : List (Nat × α)) (a n k : Nat) :
    Sparse.read d m a (n + k) = Sparse.read d m a n ++ Sparse.read d m (a + n) k := by
  induction n generalizing a with
  | zero => simp
  | succ n ih => rw [show n + 1 + k = (n + k) + 1 by omega]; simp [Sparse.read_succ, ih]; congr 1; omega

theorem Sparse.read_drop (m : List (Nat × α)) (a n k : Nat) :
    (Sparse.read d m a n).drop k = Sparse.read d m (a + k) (n - k) := by
  apply List.ext_getElem <;> simp only [List.length_drop, Sparse.read_length, List.getElem_drop, Sparse.read_getElem]
  intro i _ _
  congr 1; omega

theorem Sparse.read_take (m : List (Nat × α)) (a n k : Nat) :
    (Sparse.read d m a n).take k = Sparse.read d m a (min k n) := by
  apply List.ext_getElem <;> simp [Sparse.read_getElem]

variable [DecidableEq α]

/-! ### Writing one cell -/

theorem Sparse.mem_set {m : List (Nat × α)} {a : Nat} {v : α} {x : Nat × α} (h : x ∈ Sparse.set d m a v) :
    x ∈ m ∨ (x = (a, v) ∧ v ≠ d) := by
  induction m with
  | nil =>
    simp only [Sparse.set] at h
    split at h
    · simp at h
    · exact .inr ⟨by simpa using h, ‹_›⟩
  | cons y ys ih =>
    simp only [Sparse.set] at h
    split_ifs at h with h1 h2 h3 h4
    · exact .inl h
    · rcases List.mem_cons.1 h with rfl | h
      · exact .inr ⟨rfl, h2⟩
      · exact .inl h
    · exact .inl (List.mem_cons_of_mem _ h)
    · rcases List.mem_cons.1 h with rfl | h
      · exact .inr ⟨rfl, h4⟩
      · exact .inl (List.mem_cons_of_mem _ h)
    · rcases List.mem_cons.1 h with rfl | h
      · exact .inl (by simp)
      · exact (ih h).imp_left (List.mem_cons_of_mem _)

theorem Sparse.set_wf {m : List (Nat × α)} (h : Sparse.wf d m) (a : Nat) (v : α) :
    Sparse.wf d (Sparse.set d m a v) := by
  refine ⟨?_, fun x hx => ?_⟩
  · obtain ⟨hp, -⟩ := h
    induction m with
    | nil => simp only [Sparse.set]; split <;> simp
    | cons y ys ih =>
      have hy := List.pairwise_cons.1 hp
      simp only [Sparse.set]
      split_ifs with h1 h2 h3 h4
      · exact hp
      · refine List.pairwise_cons.2 ⟨fun z hz => ?_, hp⟩
        rcases List.mem_cons.1 hz with rfl | hz
        · exact h1
        · exact lt_trans h1 (hy.1 z hz)
      · exact hy.2
      · exact List.pairwise_cons.2 ⟨fun z hz => h3 ▸ hy.1 z hz, hy.2⟩
      · refine List.pairwise_cons.2 ⟨fun z hz => ?_, ih hy.2⟩
        rcases Sparse.mem_set d hz with hz | ⟨rfl, -⟩
        · exact hy.1 z hz
        · show y.1 < a
          omega
  · rcases Sparse.mem_set d hx with hx | ⟨rfl, hv⟩
    · exact h.2 x hx
    · exact hv

theorem Sparse.set_within {m : List (Nat × α)} {n : Nat} (h : Sparse.within m n) {a : Nat} (ha : a < n) (v : α) :
    Sparse.within (Sparse.set d m a v) n := by
  intro x hx
  rcases Sparse.mem_set d hx with hx | ⟨rfl, -⟩
  · exact h x hx
  · exact ha

theorem Sparse.get_set {m : List (Nat × α)} (h : Sparse.wf d m) (a b : Nat) (v : α) :
    Sparse.get d (Sparse.set d m a v) b = if b = a then v else Sparse.get d m b := by
  obtain ⟨hp, -⟩ := h
  induction m with
  | nil =>
    simp only [Sparse.set]
    by_cases hv : v = d <;> by_cases hb : a = b <;> simp [Sparse.get, hv, hb, eq_comm]
  | cons y ys ih =>
    have hy := List.pairwise_cons.1 hp
    obtain ⟨k, w⟩ := y
    rcases lt_trichotomy a k with h | rfl | h
    · have hlow : ∀ x ∈ (k, w) :: ys, a < x.1 := fun x hx => by
        rcases List.mem_cons.1 hx with rfl | hx
        · exact h
        · exact lt_trans h (hy.1 x hx)
      have hd : Sparse.get d ((k, w) :: ys) a = d := Sparse.get_of_lt d hlow
      simp only [Sparse.set, if_pos h]
      by_cases hv : v = d
      · rw [if_pos hv]
        split
        · next hb => rw [hb, hd, hv]
        · rfl
      · rw [if_neg hv]
        by_cases hb : b = a
        · simp [Sparse.get, hb]
        · rw [if_neg hb]
          show (if a = b then v else _) = _
          rw [if_neg (fun e => hb e.symm)]
    · have hd : Sparse.get d ys a = d := Sparse.get_of_lt d fun x hx => hy.1 x hx
      simp only [Sparse.set, lt_irrefl, if_false, if_true]
      by_cases hv : v = d
      · rw [if_pos hv]
        by_cases hb : b = a
        · rw [hb, if_pos rfl, hd, hv]
        · rw [if_neg hb]
          show _ = (if a = b then w else _)
          rw [if_neg (fun e => hb e.symm)]
      · rw [if_neg hv]
        by_cases hb : b = a
        · simp [Sparse.get, hb]
        · have hb' : ¬ a = b := fun e => hb e.symm
          simp [Sparse.get, hb, hb']
    · simp only [Sparse.set, if_neg (show ¬ a < k by omega), if_neg (show ¬ a = k by omega)]
      show (if k = b then w else _) = if b = a then v else (if k = b then w else _)
      by_cases hb : k = b
      · rw [if_pos hb, if_pos hb, if_neg (by omega)]
      · rw [if_neg hb, if_neg hb, ih hy.2]

/-! ### Writing consecutive cells -/

@[simp] theorem Sparse.write_nil (m : List (Nat × α)) (a : Nat) : Sparse.write d m a [] = m := rfl

theorem Sparse.write_cons (m : List (Nat × α)) (a : Nat) (v : α) (vs : List α) :
    Sparse.write d m a (v :: vs) = Sparse.write d (Sparse.set d m a v) (a + 1) vs := rfl

theorem Sparse.write_wf {m : List (Nat × α)} (h : Sparse.wf d m) (a : Nat) (vs : List α) :
    Sparse.wf d (Sparse.write d m a vs) := by
  induction vs generalizing m a with
  | nil => exact h
  | cons v vs ih => exact ih (Sparse.set_wf d h a v) (a + 1)

theorem Sparse.write_within {m : List (Nat × α)} {n : Nat} (h : Sparse.within m n) {a : Nat} {vs : List α}
    (ha : a + vs.length ≤ n) : Sparse.within (Sparse.write d m a vs) n := by
  induction vs generalizing m a with
  | nil => exact h
  | cons v vs ih =>
    simp only [List.length_cons] at ha
    exact ih (Sparse.set_within d h (by omega) v) (by omega)

/-- A write of consecutive cells: the cell at `b` is the one written there, or as before. -/
theorem Sparse.get_write {m : List (Nat × α)} (h : Sparse.wf d m) (a : Nat) (vs : List α) (b : Nat) :
    Sparse.get d (Sparse.write d m a vs) b =
      if a ≤ b then (vs[b - a]?).getD (Sparse.get d m b) else Sparse.get d m b := by
  induction vs generalizing m a with
  | nil => simp
  | cons v vs ih =>
    rw [Sparse.write_cons, ih (Sparse.set_wf d h a v), Sparse.get_set d h]
    rcases lt_trichotomy a b with hb | rfl | hb
    · have h1 : a + 1 ≤ b := hb
      have h2 : a ≤ b := by omega
      have h3 : ¬ b = a := by omega
      have h4 : b - a = (b - (a + 1)) + 1 := by omega
      simp [h1, h2, h3, h4]
    · simp
    · rw [if_neg (by omega), if_neg (by omega), if_neg (by omega)]

theorem Sparse.get_write_outside {m : List (Nat × α)} (h : Sparse.wf d m) {a : Nat} {vs : List α} {b : Nat}
    (hb : b < a ∨ a + vs.length ≤ b) : Sparse.get d (Sparse.write d m a vs) b = Sparse.get d m b := by
  rw [Sparse.get_write d h]
  split
  · rw [List.getElem?_eq_none (by omega)]; rfl
  · rfl

/-- A read of what was written gives what was written. -/
theorem Sparse.read_write {m : List (Nat × α)} (h : Sparse.wf d m) (a : Nat) (vs : List α) :
    Sparse.read d (Sparse.write d m a vs) a vs.length = vs := by
  apply List.ext_getElem <;> simp only [Sparse.read_length, Sparse.read_getElem]
  intro i hi _
  rw [Sparse.get_write d h, if_pos (by omega), show a + i - a = i by omega, List.getElem?_eq_getElem hi]
  rfl

/-- A read that ends at or below a write, or begins at or above its end, is as before. -/
theorem Sparse.read_write_outside {m : List (Nat × α)} (h : Sparse.wf d m) {a b n : Nat} {vs : List α}
    (hb : b + n ≤ a ∨ a + vs.length ≤ b) :
    Sparse.read d (Sparse.write d m a vs) b n = Sparse.read d m b n := by
  refine Sparse.read_congr d fun c _ _ => Sparse.get_write_outside d h ?_
  omega

theorem Sparse.write_append {m : List (Nat × α)} (a : Nat) (vs ws : List α) :
    Sparse.write d m a (vs ++ ws) = Sparse.write d (Sparse.write d m a vs) (a + vs.length) ws := by
  induction vs generalizing m a with
  | nil => simp
  | cons v vs ih => simp only [List.cons_append, Sparse.write_cons, ih, List.length_cons]; congr 1; omega

/-! ### Equal contents, equal data -/

omit [DecidableEq α] in
theorem Sparse.get_of_mem {m : List (Nat × α)} (h : Sparse.wf d m) {x : Nat × α} (hx : x ∈ m) :
    Sparse.get d m x.1 = x.2 := by
  obtain ⟨hp, -⟩ := h
  induction m with
  | nil => simp at hx
  | cons y ys ih =>
    have hy := List.pairwise_cons.1 hp
    simp only [Sparse.get]
    rcases List.mem_cons.1 hx with rfl | hx
    · simp
    · rw [if_neg (by have := hy.1 x hx; omega), ih hx hy.2]

omit [DecidableEq α] in
theorem Sparse.mem_of_get {m : List (Nat × α)} {a : Nat} (h : Sparse.get d m a ≠ d) :
    (a, Sparse.get d m a) ∈ m := by
  induction m with
  | nil => simp at h
  | cons y ys ih =>
    obtain ⟨k, w⟩ := y
    simp only [Sparse.get] at h ⊢
    split
    · next hk => subst hk; simp
    · next hk => rw [if_neg hk] at h; exact List.mem_cons_of_mem _ (ih h)

omit [DecidableEq α] in
/-- Two canonical memories that read alike everywhere are the same data. -/
theorem Sparse.ext {m m' : List (Nat × α)} (h : Sparse.wf d m) (h' : Sparse.wf d m')
    (heq : ∀ a, Sparse.get d m a = Sparse.get d m' a) : m = m' := by
  have sub : ∀ {m m' : List (Nat × α)}, Sparse.wf d m → (∀ a, Sparse.get d m a = Sparse.get d m' a) →
      ∀ x ∈ m, x ∈ m' := by
    intro m m' h heq x hx
    have hg := Sparse.get_of_mem d h hx
    have hne := h.2 x hx
    have := Sparse.mem_of_get d (m := m') (a := x.1) (by rw [← heq, hg]; exact hne)
    rwa [← heq, hg] at this
  have asymm : ∀ x y : Nat × α, x.1 < y.1 → y.1 < x.1 → x = y := fun _ _ h1 h2 => absurd h1 (by omega)
  have nodup : ∀ {m : List (Nat × α)}, Sparse.wf d m → m.Nodup := fun h =>
    h.1.imp fun hxy e => by rw [e] at hxy; exact lt_irrefl _ hxy
  have perm : m.Perm m' := (List.perm_ext_iff_of_nodup (nodup h) (nodup h')).2 fun x =>
    ⟨sub h heq x, sub h' (fun a => (heq a).symm) x⟩
  exact perm.eq_of_pairwise (fun x y _ _ => asymm x y) h.1 h'.1

end Sparse

/-! ### Byte memories -/

@[simp] theorem Memory.wf_nil : Memory.wf [] := ⟨List.Pairwise.nil, by simp⟩

@[simp] theorem Memory.get_nil (a : Nat) : Memory.get [] a = Memory.unlisted := rfl

@[simp] theorem Memory.read_zero (m : Memory) (a : Nat) : m.read a 0 = [] := rfl

theorem Memory.read_succ (m : Memory) (a n : Nat) : m.read a (n + 1) = m.get a :: m.read (a + 1) n := rfl

@[simp] theorem Memory.read_length (m : Memory) (a n : Nat) : (m.read a n).length = n := Sparse.read_length _ _ _ _

theorem Memory.read_getElem (m : Memory) (a n i : Nat) (h : i < (m.read a n).length) :
    (m.read a n)[i] = m.get (a + i) := Sparse.read_getElem _ _ _ _ _ h

theorem Memory.read_getElem? (m : Memory) (a n i : Nat) :
    (m.read a n)[i]? = if i < n then some (m.get (a + i)) else none := Sparse.read_getElem? _ _ _ _ _

theorem Memory.read_congr {m m' : Memory} {a n : Nat} (h : ∀ b, a ≤ b → b < a + n → m.get b = m'.get b) :
    m.read a n = m'.read a n := Sparse.read_congr _ h

theorem Memory.read_add (m : Memory) (a n k : Nat) : m.read a (n + k) = m.read a n ++ m.read (a + n) k :=
  Sparse.read_add _ _ _ _ _

theorem Memory.read_drop (m : Memory) (a n k : Nat) : (m.read a n).drop k = m.read (a + k) (n - k) :=
  Sparse.read_drop _ _ _ _ _

theorem Memory.read_take (m : Memory) (a n k : Nat) : (m.read a n).take k = m.read a (min k n) :=
  Sparse.read_take _ _ _ _ _

theorem Memory.set_wf {m : Memory} (h : m.wf) (a : Nat) (v : Byte) : (m.set a v).wf := Sparse.set_wf _ h a v

theorem Memory.get_set {m : Memory} (h : m.wf) (a b : Nat) (v : Byte) :
    (m.set a v).get b = if b = a then v else m.get b := Sparse.get_set _ h a b v

@[simp] theorem Memory.write_nil (m : Memory) (a : Nat) : m.write a [] = m := rfl

theorem Memory.write_wf {m : Memory} (h : m.wf) (a : Nat) (vs : List Byte) : (m.write a vs).wf :=
  Sparse.write_wf _ h a vs

theorem Memory.get_write {m : Memory} (h : m.wf) (a : Nat) (vs : List Byte) (b : Nat) :
    (m.write a vs).get b = if a ≤ b then (vs[b - a]?).getD (m.get b) else m.get b := Sparse.get_write _ h a vs b

theorem Memory.get_write_outside {m : Memory} (h : m.wf) {a : Nat} {vs : List Byte} {b : Nat}
    (hb : b < a ∨ a + vs.length ≤ b) : (m.write a vs).get b = m.get b := Sparse.get_write_outside _ h hb

theorem Memory.read_write {m : Memory} (h : m.wf) (a : Nat) (vs : List Byte) :
    (m.write a vs).read a vs.length = vs := Sparse.read_write _ h a vs

theorem Memory.read_write_outside {m : Memory} (h : m.wf) {a b n : Nat} {vs : List Byte}
    (hb : b + n ≤ a ∨ a + vs.length ≤ b) : (m.write a vs).read b n = m.read b n :=
  Sparse.read_write_outside _ h hb

theorem Memory.ext {m m' : Memory} (h : m.wf) (h' : m'.wf) (heq : ∀ a, m.get a = m'.get a) : m = m' :=
  Sparse.ext _ h h' heq

theorem Memory.set_within {m : Memory} {n : Nat} (h : Sparse.within m n) {a : Nat} (ha : a < n) (v : Byte) :
    Sparse.within (m.set a v) n := Sparse.set_within _ h ha v

theorem Memory.write_within {m : Memory} {n : Nat} (h : Sparse.within m n) {a : Nat} {vs : List Byte}
    (ha : a + vs.length ≤ n) : Sparse.within (m.write a vs) n := Sparse.write_within _ h ha

/-- A read that covers a byte written is the read before with that byte replaced. -/
theorem Memory.read_set {m : Memory} (h : m.wf) {a : Nat} (n k : Nat) (v : Byte) :
    (m.set (a + k) v).read a n = (m.read a n).set k v := by
  apply List.ext_getElem <;> simp only [Memory.read_length, List.length_set, List.getElem_set, Memory.read_getElem]
  intro i _ _
  rw [Memory.get_set h]
  by_cases hi : k = i
  · simp [hi]
  · rw [if_neg (by omega), if_neg hi]

/-- A byte of a read. -/
theorem Memory.byteAt_read (m : Memory) {a n i : Nat} (h : i < n) : (m.read a n).getD i 0#8 = m.get (a + i) := by
  rw [List.getD_eq_getElem?_getD, Memory.read_getElem?, if_pos h]; rfl

/-! ### Option tables -/

@[simp] theorem OptTable.wf_nil : OptTable.wf [] := ⟨List.Pairwise.nil, by simp⟩

@[simp] theorem OptTable.read_zero (t : OptTable) (i : Nat) : t.read i 0 = [] := rfl

@[simp] theorem OptTable.read_length (t : OptTable) (i n : Nat) : (t.read i n).length = n := Sparse.read_length _ _ _ _

theorem OptTable.read_getElem? (t : OptTable) (a n i : Nat) :
    (t.read a n)[i]? = if i < n then some (t.get (a + i)) else none := Sparse.read_getElem? _ _ _ _ _

theorem OptTable.read_congr {t t' : OptTable} {a n : Nat} (h : ∀ b, a ≤ b → b < a + n → t.get b = t'.get b) :
    t.read a n = t'.read a n := Sparse.read_congr _ h

theorem OptTable.set_wf {t : OptTable} (h : t.wf) (i : Nat) (e : OptEntry) : (t.set i e).wf := Sparse.set_wf _ h i e

theorem OptTable.get_set {t : OptTable} (h : t.wf) (i j : Nat) (e : OptEntry) :
    (t.set i e).get j = if j = i then e else t.get j := Sparse.get_set _ h i j e

theorem OptTable.write_wf {t : OptTable} (h : t.wf) (i : Nat) (es : List OptEntry) : (t.write i es).wf :=
  Sparse.write_wf _ h i es

theorem OptTable.get_write {t : OptTable} (h : t.wf) (i : Nat) (es : List OptEntry) (j : Nat) :
    (t.write i es).get j = if i ≤ j then (es[j - i]?).getD (t.get j) else t.get j := Sparse.get_write _ h i es j

theorem OptTable.get_write_outside {t : OptTable} (h : t.wf) {i : Nat} {es : List OptEntry} {j : Nat}
    (hj : j < i ∨ i + es.length ≤ j) : (t.write i es).get j = t.get j := Sparse.get_write_outside _ h hj

theorem OptTable.set_within {t : OptTable} {n : Nat} (h : Sparse.within t n) {i : Nat} (hi : i < n) (e : OptEntry) :
    Sparse.within (t.set i e) n := Sparse.set_within _ h hi e

theorem OptTable.write_within {t : OptTable} {n : Nat} (h : Sparse.within t n) {i : Nat} {es : List OptEntry}
    (hi : i + es.length ≤ n) : Sparse.within (t.write i es) n := Sparse.write_within _ h hi

theorem OptTable.read_write {t : OptTable} (h : t.wf) (i : Nat) (es : List OptEntry) :
    (t.write i es).read i es.length = es := Sparse.read_write _ h i es

end Sys2Proof.Machine
end

