-- ==== Sys2Proof/Laws/Checksums.lean ====
section
/-! SUPPORT. The arithmetic of RSUM8, and the CRC step as an injective function of the running value. -/

namespace Sys2Proof.Machine

/-! ### RSUM8 -/

@[simp] theorem rsum8_nil : rsum8 [] = 0#8 := rfl

theorem rsum8_foldl (bs : List Byte) (c : Byte) : bs.foldl rsum8Step c = c + bs.foldl rsum8Step 0#8 := by
  induction bs generalizing c with
  | nil => simp
  | cons b bs ih =>
    simp only [List.foldl_cons]
    rw [ih, ih (rsum8Step 0#8 b)]
    simp [rsum8Step, BitVec.add_assoc]

@[simp] theorem rsum8_cons (b : Byte) (bs : List Byte) : rsum8 (b :: bs) = ~~~b + rsum8 bs := by
  show bs.foldl rsum8Step (rsum8Step 0#8 b) = _
  rw [rsum8_foldl]
  simp [rsum8Step, rsum8]

@[simp] theorem rsum8_append (f g : List Byte) : rsum8 (f ++ g) = rsum8 f + rsum8 g := by
  induction f with
  | nil => simp
  | cons b f ih => simp [ih, BitVec.add_assoc]

/-- Replacing one byte moves the sum by the difference of the two bytes. -/
theorem rsum8_set {f : List Byte} {p : Nat} {b : Byte} (h : f[p]? = some b) (c : Byte) :
    rsum8 (f.set p c) = rsum8 f + b - c := by
  induction f generalizing p with
  | nil => simp at h
  | cons x xs ih =>
    cases p with
    | zero =>
      simp only [List.getElem?_cons_zero, Option.some.injEq] at h
      subst h
      simp only [List.set_cons_zero, rsum8_cons, BitVec.not_eq_neg_add]
      ring
    | succ p =>
      simp only [List.getElem?_cons_succ] at h
      simp only [List.set_cons_succ, rsum8_cons, ih h]
      ring

/-! ### CRC16 -/

/-- The shift can be undone: bit 15 of the result says whether the polynomial was added. -/
theorem crc16Shift_injective {c c' : Half} (h : crc16Shift c = crc16Shift c') : c = c' := by
  have hbit : ∀ n (hn : n < 16), (crc16Shift c).getLsbD n = (crc16Shift c').getLsbD n := fun n _ => by rw [h]
  have hexp : ∀ (d : Half) n, n < 16 → (crc16Shift d).getLsbD n =
      ((d.getLsbD (n + 1)) ^^ (d.getLsbD 0 && (0xA001#16).getLsbD n)) := by
    intro d n hn
    unfold crc16Shift
    by_cases hd : d.getLsbD 0 = true
    · simp only [hd, if_true, BitVec.getLsbD_xor, BitVec.getLsbD_ushiftRight, Bool.true_and]
      rw [Nat.add_comm]
    · simp only [hd, Bool.false_and, Bool.xor_false]
      simp [Nat.add_comm]
  have h0 : c.getLsbD 0 = c'.getLsbD 0 := by
    have := hbit 15 (by omega)
    rw [hexp _ _ (by omega), hexp _ _ (by omega)] at this
    simpa using this
  apply BitVec.eq_of_getLsbD_eq
  intro i hi
  cases i with
  | zero => exact h0
  | succ n =>
    have := hbit n (by omega)
    rw [hexp _ _ (by omega), hexp _ _ (by omega), h0] at this
    simpa using this

theorem crc16Repeat_injective (n : Nat) {c c' : Half}
    (h : Nat.repeat crc16Shift n c = Nat.repeat crc16Shift n c') : c = c' := by
  induction n with
  | zero => exact h
  | succ n ih => exact ih (crc16Shift_injective h)

end Sys2Proof.Machine
end

