-- ==== Sys2Proof/Laws/State.lean ====
section
/-! SUPPORT. What each named update of the state leaves in each field: one lemma per field, so that no proof unfolds a
record update. -/

namespace Sys2Proof.Machine

/-! ### Recording a size -/

theorem State.recordSize_of_lt (s : State) {n : Nat} (h : n < 2 ^ 32) : s.recordSize n = { s with reqSize := word n } :=
  by rw [State.recordSize, sizeValue, if_pos h, if_pos h]

/-! ### recordSize -/

@[simp] theorem State.recordSize_a0 (s : State) (n : Nat) : (s.recordSize n).a0 = s.a0 := rfl
@[simp] theorem State.recordSize_a1 (s : State) (n : Nat) : (s.recordSize n).a1 = s.a1 := rfl
@[simp] theorem State.recordSize_a2 (s : State) (n : Nat) : (s.recordSize n).a2 = s.a2 := rfl
@[simp] theorem State.recordSize_a3 (s : State) (n : Nat) : (s.recordSize n).a3 = s.a3 := rfl
@[simp] theorem State.recordSize_status (s : State) (n : Nat) : (s.recordSize n).status = s.status := rfl
@[simp] theorem State.recordSize_pos (s : State) (n : Nat) : (s.recordSize n).pos = s.pos := rfl
@[simp] theorem State.recordSize_ocap (s : State) (n : Nat) : (s.recordSize n).ocap = s.ocap := rfl
@[simp] theorem State.recordSize_flen (s : State) (n : Nat) : (s.recordSize n).flen = s.flen := rfl
@[simp] theorem State.recordSize_plen (s : State) (n : Nat) : (s.recordSize n).plen = s.plen := rfl
@[simp] theorem State.recordSize_optCnt (s : State) (n : Nat) : (s.recordSize n).optCnt = s.optCnt := rfl
@[simp] theorem State.recordSize_crcAcc (s : State) (n : Nat) : (s.recordSize n).crcAcc = s.crcAcc := rfl
@[simp] theorem State.recordSize_sumAcc (s : State) (n : Nat) : (s.recordSize n).sumAcc = s.sumAcc := rfl
@[simp] theorem State.recordSize_prevId (s : State) (n : Nat) : (s.recordSize n).prevId = s.prevId := rfl
@[simp] theorem State.recordSize_mVer (s : State) (n : Nat) : (s.recordSize n).mVer = s.mVer := rfl
@[simp] theorem State.recordSize_mType (s : State) (n : Nat) : (s.recordSize n).mType = s.mType := rfl
@[simp] theorem State.recordSize_mMid (s : State) (n : Nat) : (s.recordSize n).mMid = s.mMid := rfl
@[simp] theorem State.recordSize_mEid (s : State) (n : Nat) : (s.recordSize n).mEid = s.mEid := rfl
@[simp] theorem State.recordSize_mEtp (s : State) (n : Nat) : (s.recordSize n).mEtp = s.mEtp := rfl
@[simp] theorem State.recordSize_mCode (s : State) (n : Nat) : (s.recordSize n).mCode = s.mCode := rfl
@[simp] theorem State.recordSize_mCrc16 (s : State) (n : Nat) : (s.recordSize n).mCrc16 = s.mCrc16 := rfl
@[simp] theorem State.recordSize_mRsum8 (s : State) (n : Nat) : (s.recordSize n).mRsum8 = s.mRsum8 := rfl
@[simp] theorem State.recordSize_mTkl (s : State) (n : Nat) : (s.recordSize n).mTkl = s.mTkl := rfl
@[simp] theorem State.recordSize_token (s : State) (n : Nat) : (s.recordSize n).token = s.token := rfl
@[simp] theorem State.recordSize_opt (s : State) (n : Nat) : (s.recordSize n).opt = s.opt := rfl
@[simp] theorem State.recordSize_fbuf (s : State) (n : Nat) : (s.recordSize n).fbuf = s.fbuf := rfl
@[simp] theorem State.recordSize_pbuf (s : State) (n : Nat) : (s.recordSize n).pbuf = s.pbuf := rfl
@[simp] theorem State.recordSize_vbuf (s : State) (n : Nat) : (s.recordSize n).vbuf = s.vbuf := rfl
@[simp] theorem State.recordSize_bufBytes (s : State) (n : Nat) : (s.recordSize n).bufBytes = s.bufBytes := rfl
@[simp] theorem State.recordSize_optCap (s : State) (n : Nat) : (s.recordSize n).optCap = s.optCap := rfl
@[simp] theorem State.recordSize_host (s : State) (n : Nat) : (s.recordSize n).host = s.host := rfl
@[simp] theorem State.recordSize_rdata (s : State) (n : Nat) : (s.recordSize n).rdata = s.rdata := rfl

/-! ### memWrite to FBUF -/

@[simp] theorem State.memWrite_fbuf_a0 (s : State) (a : Nat) (v : List Byte) : (s.memWrite .fbuf a v).a0 = s.a0 := rfl
@[simp] theorem State.memWrite_fbuf_a1 (s : State) (a : Nat) (v : List Byte) : (s.memWrite .fbuf a v).a1 = s.a1 := rfl
@[simp] theorem State.memWrite_fbuf_a2 (s : State) (a : Nat) (v : List Byte) : (s.memWrite .fbuf a v).a2 = s.a2 := rfl
@[simp] theorem State.memWrite_fbuf_a3 (s : State) (a : Nat) (v : List Byte) : (s.memWrite .fbuf a v).a3 = s.a3 := rfl
@[simp] theorem State.memWrite_fbuf_status (s : State) (a : Nat) (v : List Byte) : (s.memWrite .fbuf a v).status = s.status := rfl
@[simp] theorem State.memWrite_fbuf_reqSize (s : State) (a : Nat) (v : List Byte) : (s.memWrite .fbuf a v).reqSize = s.reqSize := rfl
@[simp] theorem State.memWrite_fbuf_pos (s : State) (a : Nat) (v : List Byte) : (s.memWrite .fbuf a v).pos = s.pos := rfl
@[simp] theorem State.memWrite_fbuf_ocap (s : State) (a : Nat) (v : List Byte) : (s.memWrite .fbuf a v).ocap = s.ocap := rfl
@[simp] theorem State.memWrite_fbuf_flen (s : State) (a : Nat) (v : List Byte) : (s.memWrite .fbuf a v).flen = s.flen := rfl
@[simp] theorem State.memWrite_fbuf_plen (s : State) (a : Nat) (v : List Byte) : (s.memWrite .fbuf a v).plen = s.plen := rfl
@[simp] theorem State.memWrite_fbuf_optCnt (s : State) (a : Nat) (v : List Byte) : (s.memWrite .fbuf a v).optCnt = s.optCnt := rfl
@[simp] theorem State.memWrite_fbuf_crcAcc (s : State) (a : Nat) (v : List Byte) : (s.memWrite .fbuf a v).crcAcc = s.crcAcc := rfl
@[simp] theorem State.memWrite_fbuf_sumAcc (s : State) (a : Nat) (v : List Byte) : (s.memWrite .fbuf a v).sumAcc = s.sumAcc := rfl
@[simp] theorem State.memWrite_fbuf_prevId (s : State) (a : Nat) (v : List Byte) : (s.memWrite .fbuf a v).prevId = s.prevId := rfl
@[simp] theorem State.memWrite_fbuf_mVer (s : State) (a : Nat) (v : List Byte) : (s.memWrite .fbuf a v).mVer = s.mVer := rfl
@[simp] theorem State.memWrite_fbuf_mType (s : State) (a : Nat) (v : List Byte) : (s.memWrite .fbuf a v).mType = s.mType := rfl
@[simp] theorem State.memWrite_fbuf_mMid (s : State) (a : Nat) (v : List Byte) : (s.memWrite .fbuf a v).mMid = s.mMid := rfl
@[simp] theorem State.memWrite_fbuf_mEid (s : State) (a : Nat) (v : List Byte) : (s.memWrite .fbuf a v).mEid = s.mEid := rfl
@[simp] theorem State.memWrite_fbuf_mEtp (s : State) (a : Nat) (v : List Byte) : (s.memWrite .fbuf a v).mEtp = s.mEtp := rfl
@[simp] theorem State.memWrite_fbuf_mCode (s : State) (a : Nat) (v : List Byte) : (s.memWrite .fbuf a v).mCode = s.mCode := rfl
@[simp] theorem State.memWrite_fbuf_mCrc16 (s : State) (a : Nat) (v : List Byte) : (s.memWrite .fbuf a v).mCrc16 = s.mCrc16 := rfl
@[simp] theorem State.memWrite_fbuf_mRsum8 (s : State) (a : Nat) (v : List Byte) : (s.memWrite .fbuf a v).mRsum8 = s.mRsum8 := rfl
@[simp] theorem State.memWrite_fbuf_mTkl (s : State) (a : Nat) (v : List Byte) : (s.memWrite .fbuf a v).mTkl = s.mTkl := rfl
@[simp] theorem State.memWrite_fbuf_token (s : State) (a : Nat) (v : List Byte) : (s.memWrite .fbuf a v).token = s.token := rfl
@[simp] theorem State.memWrite_fbuf_opt (s : State) (a : Nat) (v : List Byte) : (s.memWrite .fbuf a v).opt = s.opt := rfl
@[simp] theorem State.memWrite_fbuf_fbuf (s : State) (a : Nat) (v : List Byte) : (s.memWrite .fbuf a v).fbuf = s.fbuf.write a v := rfl
@[simp] theorem State.memWrite_fbuf_pbuf (s : State) (a : Nat) (v : List Byte) : (s.memWrite .fbuf a v).pbuf = s.pbuf := rfl
@[simp] theorem State.memWrite_fbuf_vbuf (s : State) (a : Nat) (v : List Byte) : (s.memWrite .fbuf a v).vbuf = s.vbuf := rfl
@[simp] theorem State.memWrite_fbuf_bufBytes (s : State) (a : Nat) (v : List Byte) : (s.memWrite .fbuf a v).bufBytes = s.bufBytes := rfl
@[simp] theorem State.memWrite_fbuf_optCap (s : State) (a : Nat) (v : List Byte) : (s.memWrite .fbuf a v).optCap = s.optCap := rfl
@[simp] theorem State.memWrite_fbuf_host (s : State) (a : Nat) (v : List Byte) : (s.memWrite .fbuf a v).host = s.host := rfl
@[simp] theorem State.memWrite_fbuf_rdata (s : State) (a : Nat) (v : List Byte) : (s.memWrite .fbuf a v).rdata = s.rdata := rfl
@[simp] theorem State.memWrite_fbuf_freeCount (s : State) (a : Nat) (v : List Byte) : (s.memWrite .fbuf a v).freeCount = s.freeCount := rfl

/-! ### memWrite to PBUF -/

@[simp] theorem State.memWrite_pbuf_a0 (s : State) (a : Nat) (v : List Byte) : (s.memWrite .pbuf a v).a0 = s.a0 := rfl
@[simp] theorem State.memWrite_pbuf_a1 (s : State) (a : Nat) (v : List Byte) : (s.memWrite .pbuf a v).a1 = s.a1 := rfl
@[simp] theorem State.memWrite_pbuf_a2 (s : State) (a : Nat) (v : List Byte) : (s.memWrite .pbuf a v).a2 = s.a2 := rfl
@[simp] theorem State.memWrite_pbuf_a3 (s : State) (a : Nat) (v : List Byte) : (s.memWrite .pbuf a v).a3 = s.a3 := rfl
@[simp] theorem State.memWrite_pbuf_status (s : State) (a : Nat) (v : List Byte) : (s.memWrite .pbuf a v).status = s.status := rfl
@[simp] theorem State.memWrite_pbuf_reqSize (s : State) (a : Nat) (v : List Byte) : (s.memWrite .pbuf a v).reqSize = s.reqSize := rfl
@[simp] theorem State.memWrite_pbuf_pos (s : State) (a : Nat) (v : List Byte) : (s.memWrite .pbuf a v).pos = s.pos := rfl
@[simp] theorem State.memWrite_pbuf_ocap (s : State) (a : Nat) (v : List Byte) : (s.memWrite .pbuf a v).ocap = s.ocap := rfl
@[simp] theorem State.memWrite_pbuf_flen (s : State) (a : Nat) (v : List Byte) : (s.memWrite .pbuf a v).flen = s.flen := rfl
@[simp] theorem State.memWrite_pbuf_plen (s : State) (a : Nat) (v : List Byte) : (s.memWrite .pbuf a v).plen = s.plen := rfl
@[simp] theorem State.memWrite_pbuf_optCnt (s : State) (a : Nat) (v : List Byte) : (s.memWrite .pbuf a v).optCnt = s.optCnt := rfl
@[simp] theorem State.memWrite_pbuf_crcAcc (s : State) (a : Nat) (v : List Byte) : (s.memWrite .pbuf a v).crcAcc = s.crcAcc := rfl
@[simp] theorem State.memWrite_pbuf_sumAcc (s : State) (a : Nat) (v : List Byte) : (s.memWrite .pbuf a v).sumAcc = s.sumAcc := rfl
@[simp] theorem State.memWrite_pbuf_prevId (s : State) (a : Nat) (v : List Byte) : (s.memWrite .pbuf a v).prevId = s.prevId := rfl
@[simp] theorem State.memWrite_pbuf_mVer (s : State) (a : Nat) (v : List Byte) : (s.memWrite .pbuf a v).mVer = s.mVer := rfl
@[simp] theorem State.memWrite_pbuf_mType (s : State) (a : Nat) (v : List Byte) : (s.memWrite .pbuf a v).mType = s.mType := rfl
@[simp] theorem State.memWrite_pbuf_mMid (s : State) (a : Nat) (v : List Byte) : (s.memWrite .pbuf a v).mMid = s.mMid := rfl
@[simp] theorem State.memWrite_pbuf_mEid (s : State) (a : Nat) (v : List Byte) : (s.memWrite .pbuf a v).mEid = s.mEid := rfl
@[simp] theorem State.memWrite_pbuf_mEtp (s : State) (a : Nat) (v : List Byte) : (s.memWrite .pbuf a v).mEtp = s.mEtp := rfl
@[simp] theorem State.memWrite_pbuf_mCode (s : State) (a : Nat) (v : List Byte) : (s.memWrite .pbuf a v).mCode = s.mCode := rfl
@[simp] theorem State.memWrite_pbuf_mCrc16 (s : State) (a : Nat) (v : List Byte) : (s.memWrite .pbuf a v).mCrc16 = s.mCrc16 := rfl
@[simp] theorem State.memWrite_pbuf_mRsum8 (s : State) (a : Nat) (v : List Byte) : (s.memWrite .pbuf a v).mRsum8 = s.mRsum8 := rfl
@[simp] theorem State.memWrite_pbuf_mTkl (s : State) (a : Nat) (v : List Byte) : (s.memWrite .pbuf a v).mTkl = s.mTkl := rfl
@[simp] theorem State.memWrite_pbuf_token (s : State) (a : Nat) (v : List Byte) : (s.memWrite .pbuf a v).token = s.token := rfl
@[simp] theorem State.memWrite_pbuf_opt (s : State) (a : Nat) (v : List Byte) : (s.memWrite .pbuf a v).opt = s.opt := rfl
@[simp] theorem State.memWrite_pbuf_fbuf (s : State) (a : Nat) (v : List Byte) : (s.memWrite .pbuf a v).fbuf = s.fbuf := rfl
@[simp] theorem State.memWrite_pbuf_pbuf (s : State) (a : Nat) (v : List Byte) : (s.memWrite .pbuf a v).pbuf = s.pbuf.write a v := rfl
@[simp] theorem State.memWrite_pbuf_vbuf (s : State) (a : Nat) (v : List Byte) : (s.memWrite .pbuf a v).vbuf = s.vbuf := rfl
@[simp] theorem State.memWrite_pbuf_bufBytes (s : State) (a : Nat) (v : List Byte) : (s.memWrite .pbuf a v).bufBytes = s.bufBytes := rfl
@[simp] theorem State.memWrite_pbuf_optCap (s : State) (a : Nat) (v : List Byte) : (s.memWrite .pbuf a v).optCap = s.optCap := rfl
@[simp] theorem State.memWrite_pbuf_host (s : State) (a : Nat) (v : List Byte) : (s.memWrite .pbuf a v).host = s.host := rfl
@[simp] theorem State.memWrite_pbuf_rdata (s : State) (a : Nat) (v : List Byte) : (s.memWrite .pbuf a v).rdata = s.rdata := rfl
@[simp] theorem State.memWrite_pbuf_freeCount (s : State) (a : Nat) (v : List Byte) : (s.memWrite .pbuf a v).freeCount = s.freeCount := rfl

/-! ### memWrite to VBUF -/

@[simp] theorem State.memWrite_vbuf_a0 (s : State) (a : Nat) (v : List Byte) : (s.memWrite .vbuf a v).a0 = s.a0 := rfl
@[simp] theorem State.memWrite_vbuf_a1 (s : State) (a : Nat) (v : List Byte) : (s.memWrite .vbuf a v).a1 = s.a1 := rfl
@[simp] theorem State.memWrite_vbuf_a2 (s : State) (a : Nat) (v : List Byte) : (s.memWrite .vbuf a v).a2 = s.a2 := rfl
@[simp] theorem State.memWrite_vbuf_a3 (s : State) (a : Nat) (v : List Byte) : (s.memWrite .vbuf a v).a3 = s.a3 := rfl
@[simp] theorem State.memWrite_vbuf_status (s : State) (a : Nat) (v : List Byte) : (s.memWrite .vbuf a v).status = s.status := rfl
@[simp] theorem State.memWrite_vbuf_reqSize (s : State) (a : Nat) (v : List Byte) : (s.memWrite .vbuf a v).reqSize = s.reqSize := rfl
@[simp] theorem State.memWrite_vbuf_pos (s : State) (a : Nat) (v : List Byte) : (s.memWrite .vbuf a v).pos = s.pos := rfl
@[simp] theorem State.memWrite_vbuf_ocap (s : State) (a : Nat) (v : List Byte) : (s.memWrite .vbuf a v).ocap = s.ocap := rfl
@[simp] theorem State.memWrite_vbuf_flen (s : State) (a : Nat) (v : List Byte) : (s.memWrite .vbuf a v).flen = s.flen := rfl
@[simp] theorem State.memWrite_vbuf_plen (s : State) (a : Nat) (v : List Byte) : (s.memWrite .vbuf a v).plen = s.plen := rfl
@[simp] theorem State.memWrite_vbuf_optCnt (s : State) (a : Nat) (v : List Byte) : (s.memWrite .vbuf a v).optCnt = s.optCnt := rfl
@[simp] theorem State.memWrite_vbuf_crcAcc (s : State) (a : Nat) (v : List Byte) : (s.memWrite .vbuf a v).crcAcc = s.crcAcc := rfl
@[simp] theorem State.memWrite_vbuf_sumAcc (s : State) (a : Nat) (v : List Byte) : (s.memWrite .vbuf a v).sumAcc = s.sumAcc := rfl
@[simp] theorem State.memWrite_vbuf_prevId (s : State) (a : Nat) (v : List Byte) : (s.memWrite .vbuf a v).prevId = s.prevId := rfl
@[simp] theorem State.memWrite_vbuf_mVer (s : State) (a : Nat) (v : List Byte) : (s.memWrite .vbuf a v).mVer = s.mVer := rfl
@[simp] theorem State.memWrite_vbuf_mType (s : State) (a : Nat) (v : List Byte) : (s.memWrite .vbuf a v).mType = s.mType := rfl
@[simp] theorem State.memWrite_vbuf_mMid (s : State) (a : Nat) (v : List Byte) : (s.memWrite .vbuf a v).mMid = s.mMid := rfl
@[simp] theorem State.memWrite_vbuf_mEid (s : State) (a : Nat) (v : List Byte) : (s.memWrite .vbuf a v).mEid = s.mEid := rfl
@[simp] theorem State.memWrite_vbuf_mEtp (s : State) (a : Nat) (v : List Byte) : (s.memWrite .vbuf a v).mEtp = s.mEtp := rfl
@[simp] theorem State.memWrite_vbuf_mCode (s : State) (a : Nat) (v : List Byte) : (s.memWrite .vbuf a v).mCode = s.mCode := rfl
@[simp] theorem State.memWrite_vbuf_mCrc16 (s : State) (a : Nat) (v : List Byte) : (s.memWrite .vbuf a v).mCrc16 = s.mCrc16 := rfl
@[simp] theorem State.memWrite_vbuf_mRsum8 (s : State) (a : Nat) (v : List Byte) : (s.memWrite .vbuf a v).mRsum8 = s.mRsum8 := rfl
@[simp] theorem State.memWrite_vbuf_mTkl (s : State) (a : Nat) (v : List Byte) : (s.memWrite .vbuf a v).mTkl = s.mTkl := rfl
@[simp] theorem State.memWrite_vbuf_token (s : State) (a : Nat) (v : List Byte) : (s.memWrite .vbuf a v).token = s.token := rfl
@[simp] theorem State.memWrite_vbuf_opt (s : State) (a : Nat) (v : List Byte) : (s.memWrite .vbuf a v).opt = s.opt := rfl
@[simp] theorem State.memWrite_vbuf_fbuf (s : State) (a : Nat) (v : List Byte) : (s.memWrite .vbuf a v).fbuf = s.fbuf := rfl
@[simp] theorem State.memWrite_vbuf_pbuf (s : State) (a : Nat) (v : List Byte) : (s.memWrite .vbuf a v).pbuf = s.pbuf := rfl
@[simp] theorem State.memWrite_vbuf_vbuf (s : State) (a : Nat) (v : List Byte) : (s.memWrite .vbuf a v).vbuf = s.vbuf.write a v := rfl
@[simp] theorem State.memWrite_vbuf_bufBytes (s : State) (a : Nat) (v : List Byte) : (s.memWrite .vbuf a v).bufBytes = s.bufBytes := rfl
@[simp] theorem State.memWrite_vbuf_optCap (s : State) (a : Nat) (v : List Byte) : (s.memWrite .vbuf a v).optCap = s.optCap := rfl
@[simp] theorem State.memWrite_vbuf_host (s : State) (a : Nat) (v : List Byte) : (s.memWrite .vbuf a v).host = s.host := rfl
@[simp] theorem State.memWrite_vbuf_rdata (s : State) (a : Nat) (v : List Byte) : (s.memWrite .vbuf a v).rdata = s.rdata := rfl
@[simp] theorem State.memWrite_vbuf_freeCount (s : State) (a : Nat) (v : List Byte) : (s.memWrite .vbuf a v).freeCount = s.freeCount := rfl

/-! ### memWrite to TOKEN -/

@[simp] theorem State.memWrite_token_a0 (s : State) (a : Nat) (v : List Byte) : (s.memWrite .token a v).a0 = s.a0 := rfl
@[simp] theorem State.memWrite_token_a1 (s : State) (a : Nat) (v : List Byte) : (s.memWrite .token a v).a1 = s.a1 := rfl
@[simp] theorem State.memWrite_token_a2 (s : State) (a : Nat) (v : List Byte) : (s.memWrite .token a v).a2 = s.a2 := rfl
@[simp] theorem State.memWrite_token_a3 (s : State) (a : Nat) (v : List Byte) : (s.memWrite .token a v).a3 = s.a3 := rfl
@[simp] theorem State.memWrite_token_status (s : State) (a : Nat) (v : List Byte) : (s.memWrite .token a v).status = s.status := rfl
@[simp] theorem State.memWrite_token_reqSize (s : State) (a : Nat) (v : List Byte) : (s.memWrite .token a v).reqSize = s.reqSize := rfl
@[simp] theorem State.memWrite_token_pos (s : State) (a : Nat) (v : List Byte) : (s.memWrite .token a v).pos = s.pos := rfl
@[simp] theorem State.memWrite_token_ocap (s : State) (a : Nat) (v : List Byte) : (s.memWrite .token a v).ocap = s.ocap := rfl
@[simp] theorem State.memWrite_token_flen (s : State) (a : Nat) (v : List Byte) : (s.memWrite .token a v).flen = s.flen := rfl
@[simp] theorem State.memWrite_token_plen (s : State) (a : Nat) (v : List Byte) : (s.memWrite .token a v).plen = s.plen := rfl
@[simp] theorem State.memWrite_token_optCnt (s : State) (a : Nat) (v : List Byte) : (s.memWrite .token a v).optCnt = s.optCnt := rfl
@[simp] theorem State.memWrite_token_crcAcc (s : State) (a : Nat) (v : List Byte) : (s.memWrite .token a v).crcAcc = s.crcAcc := rfl
@[simp] theorem State.memWrite_token_sumAcc (s : State) (a : Nat) (v : List Byte) : (s.memWrite .token a v).sumAcc = s.sumAcc := rfl
@[simp] theorem State.memWrite_token_prevId (s : State) (a : Nat) (v : List Byte) : (s.memWrite .token a v).prevId = s.prevId := rfl
@[simp] theorem State.memWrite_token_mVer (s : State) (a : Nat) (v : List Byte) : (s.memWrite .token a v).mVer = s.mVer := rfl
@[simp] theorem State.memWrite_token_mType (s : State) (a : Nat) (v : List Byte) : (s.memWrite .token a v).mType = s.mType := rfl
@[simp] theorem State.memWrite_token_mMid (s : State) (a : Nat) (v : List Byte) : (s.memWrite .token a v).mMid = s.mMid := rfl
@[simp] theorem State.memWrite_token_mEid (s : State) (a : Nat) (v : List Byte) : (s.memWrite .token a v).mEid = s.mEid := rfl
@[simp] theorem State.memWrite_token_mEtp (s : State) (a : Nat) (v : List Byte) : (s.memWrite .token a v).mEtp = s.mEtp := rfl
@[simp] theorem State.memWrite_token_mCode (s : State) (a : Nat) (v : List Byte) : (s.memWrite .token a v).mCode = s.mCode := rfl
@[simp] theorem State.memWrite_token_mCrc16 (s : State) (a : Nat) (v : List Byte) : (s.memWrite .token a v).mCrc16 = s.mCrc16 := rfl
@[simp] theorem State.memWrite_token_mRsum8 (s : State) (a : Nat) (v : List Byte) : (s.memWrite .token a v).mRsum8 = s.mRsum8 := rfl
@[simp] theorem State.memWrite_token_mTkl (s : State) (a : Nat) (v : List Byte) : (s.memWrite .token a v).mTkl = s.mTkl := rfl
@[simp] theorem State.memWrite_token_token (s : State) (a : Nat) (v : List Byte) : (s.memWrite .token a v).token = s.token.write a v := rfl
@[simp] theorem State.memWrite_token_opt (s : State) (a : Nat) (v : List Byte) : (s.memWrite .token a v).opt = s.opt := rfl
@[simp] theorem State.memWrite_token_fbuf (s : State) (a : Nat) (v : List Byte) : (s.memWrite .token a v).fbuf = s.fbuf := rfl
@[simp] theorem State.memWrite_token_pbuf (s : State) (a : Nat) (v : List Byte) : (s.memWrite .token a v).pbuf = s.pbuf := rfl
@[simp] theorem State.memWrite_token_vbuf (s : State) (a : Nat) (v : List Byte) : (s.memWrite .token a v).vbuf = s.vbuf := rfl
@[simp] theorem State.memWrite_token_bufBytes (s : State) (a : Nat) (v : List Byte) : (s.memWrite .token a v).bufBytes = s.bufBytes := rfl
@[simp] theorem State.memWrite_token_optCap (s : State) (a : Nat) (v : List Byte) : (s.memWrite .token a v).optCap = s.optCap := rfl
@[simp] theorem State.memWrite_token_host (s : State) (a : Nat) (v : List Byte) : (s.memWrite .token a v).host = s.host := rfl
@[simp] theorem State.memWrite_token_rdata (s : State) (a : Nat) (v : List Byte) : (s.memWrite .token a v).rdata = s.rdata := rfl
@[simp] theorem State.memWrite_token_freeCount (s : State) (a : Nat) (v : List Byte) : (s.memWrite .token a v).freeCount = s.freeCount := rfl

@[simp] theorem State.memRead_fbuf (s : State) (a n : Nat) : s.memRead .fbuf a n = s.fbuf.read a n := rfl
@[simp] theorem State.memRead_pbuf (s : State) (a n : Nat) : s.memRead .pbuf a n = s.pbuf.read a n := rfl
@[simp] theorem State.memRead_vbuf (s : State) (a n : Nat) : s.memRead .vbuf a n = s.vbuf.read a n := rfl
@[simp] theorem State.memRead_token (s : State) (a n : Nat) : s.memRead .token a n = s.token.read a n := rfl

/-! ### putAtCursor -/

@[simp] theorem State.putAtCursor_a0 (s : State) (bs : List Byte) : (s.putAtCursor bs).a0 = s.a0 := rfl
@[simp] theorem State.putAtCursor_a1 (s : State) (bs : List Byte) : (s.putAtCursor bs).a1 = s.a1 := rfl
@[simp] theorem State.putAtCursor_a2 (s : State) (bs : List Byte) : (s.putAtCursor bs).a2 = s.a2 := rfl
@[simp] theorem State.putAtCursor_a3 (s : State) (bs : List Byte) : (s.putAtCursor bs).a3 = s.a3 := rfl
@[simp] theorem State.putAtCursor_status (s : State) (bs : List Byte) : (s.putAtCursor bs).status = s.status := rfl
@[simp] theorem State.putAtCursor_ocap (s : State) (bs : List Byte) : (s.putAtCursor bs).ocap = s.ocap := rfl
@[simp] theorem State.putAtCursor_plen (s : State) (bs : List Byte) : (s.putAtCursor bs).plen = s.plen := rfl
@[simp] theorem State.putAtCursor_optCnt (s : State) (bs : List Byte) : (s.putAtCursor bs).optCnt = s.optCnt := rfl
@[simp] theorem State.putAtCursor_crcAcc (s : State) (bs : List Byte) : (s.putAtCursor bs).crcAcc = s.crcAcc := rfl
@[simp] theorem State.putAtCursor_sumAcc (s : State) (bs : List Byte) : (s.putAtCursor bs).sumAcc = s.sumAcc := rfl
@[simp] theorem State.putAtCursor_prevId (s : State) (bs : List Byte) : (s.putAtCursor bs).prevId = s.prevId := rfl
@[simp] theorem State.putAtCursor_mVer (s : State) (bs : List Byte) : (s.putAtCursor bs).mVer = s.mVer := rfl
@[simp] theorem State.putAtCursor_mType (s : State) (bs : List Byte) : (s.putAtCursor bs).mType = s.mType := rfl
@[simp] theorem State.putAtCursor_mMid (s : State) (bs : List Byte) : (s.putAtCursor bs).mMid = s.mMid := rfl
@[simp] theorem State.putAtCursor_mEid (s : State) (bs : List Byte) : (s.putAtCursor bs).mEid = s.mEid := rfl
@[simp] theorem State.putAtCursor_mEtp (s : State) (bs : List Byte) : (s.putAtCursor bs).mEtp = s.mEtp := rfl
@[simp] theorem State.putAtCursor_mCode (s : State) (bs : List Byte) : (s.putAtCursor bs).mCode = s.mCode := rfl
@[simp] theorem State.putAtCursor_mCrc16 (s : State) (bs : List Byte) : (s.putAtCursor bs).mCrc16 = s.mCrc16 := rfl
@[simp] theorem State.putAtCursor_mRsum8 (s : State) (bs : List Byte) : (s.putAtCursor bs).mRsum8 = s.mRsum8 := rfl
@[simp] theorem State.putAtCursor_mTkl (s : State) (bs : List Byte) : (s.putAtCursor bs).mTkl = s.mTkl := rfl
@[simp] theorem State.putAtCursor_token (s : State) (bs : List Byte) : (s.putAtCursor bs).token = s.token := rfl
@[simp] theorem State.putAtCursor_opt (s : State) (bs : List Byte) : (s.putAtCursor bs).opt = s.opt := rfl
@[simp] theorem State.putAtCursor_pbuf (s : State) (bs : List Byte) : (s.putAtCursor bs).pbuf = s.pbuf := rfl
@[simp] theorem State.putAtCursor_vbuf (s : State) (bs : List Byte) : (s.putAtCursor bs).vbuf = s.vbuf := rfl
@[simp] theorem State.putAtCursor_bufBytes (s : State) (bs : List Byte) : (s.putAtCursor bs).bufBytes = s.bufBytes := rfl
@[simp] theorem State.putAtCursor_optCap (s : State) (bs : List Byte) : (s.putAtCursor bs).optCap = s.optCap := rfl
@[simp] theorem State.putAtCursor_host (s : State) (bs : List Byte) : (s.putAtCursor bs).host = s.host := rfl
@[simp] theorem State.putAtCursor_rdata (s : State) (bs : List Byte) : (s.putAtCursor bs).rdata = s.rdata := rfl
@[simp] theorem State.putAtCursor_fbuf (s : State) (bs : List Byte) : (s.putAtCursor bs).fbuf = s.fbuf.write s.pos.toNat bs := rfl
@[simp] theorem State.putAtCursor_pos (s : State) (bs : List Byte) : (s.putAtCursor bs).pos = word (s.pos.toNat + bs.length) := rfl
@[simp] theorem State.putAtCursor_flen (s : State) (bs : List Byte) : (s.putAtCursor bs).flen = word (max s.flen.toNat (s.pos.toNat + bs.length)) := rfl

theorem State.putAtCursor_of_lt (s : State) (bs : List Byte) (h : (s.pos.toNat + bs.length) < 2 ^ 32) :
    s.putAtCursor bs = { s with
      fbuf := s.fbuf.write s.pos.toNat bs
      pos := word (s.pos.toNat + bs.length)
      flen := word (max s.flen.toNat (s.pos.toNat + bs.length))
      reqSize := word (s.pos.toNat + bs.length) } :=
  State.recordSize_of_lt _ h

/-! ### packHeader -/

@[simp] theorem State.packHeader_a0 (s : State) (bs : List Byte) : (s.packHeader bs).a0 = s.a0 := rfl
@[simp] theorem State.packHeader_a1 (s : State) (bs : List Byte) : (s.packHeader bs).a1 = s.a1 := rfl
@[simp] theorem State.packHeader_a2 (s : State) (bs : List Byte) : (s.packHeader bs).a2 = s.a2 := rfl
@[simp] theorem State.packHeader_a3 (s : State) (bs : List Byte) : (s.packHeader bs).a3 = s.a3 := rfl
@[simp] theorem State.packHeader_status (s : State) (bs : List Byte) : (s.packHeader bs).status = s.status := rfl
@[simp] theorem State.packHeader_ocap (s : State) (bs : List Byte) : (s.packHeader bs).ocap = s.ocap := rfl
@[simp] theorem State.packHeader_plen (s : State) (bs : List Byte) : (s.packHeader bs).plen = s.plen := rfl
@[simp] theorem State.packHeader_optCnt (s : State) (bs : List Byte) : (s.packHeader bs).optCnt = s.optCnt := rfl
@[simp] theorem State.packHeader_crcAcc (s : State) (bs : List Byte) : (s.packHeader bs).crcAcc = s.crcAcc := rfl
@[simp] theorem State.packHeader_sumAcc (s : State) (bs : List Byte) : (s.packHeader bs).sumAcc = s.sumAcc := rfl
@[simp] theorem State.packHeader_prevId (s : State) (bs : List Byte) : (s.packHeader bs).prevId = s.prevId := rfl
@[simp] theorem State.packHeader_mVer (s : State) (bs : List Byte) : (s.packHeader bs).mVer = s.mVer := rfl
@[simp] theorem State.packHeader_mType (s : State) (bs : List Byte) : (s.packHeader bs).mType = s.mType := rfl
@[simp] theorem State.packHeader_mMid (s : State) (bs : List Byte) : (s.packHeader bs).mMid = s.mMid := rfl
@[simp] theorem State.packHeader_mEid (s : State) (bs : List Byte) : (s.packHeader bs).mEid = s.mEid := rfl
@[simp] theorem State.packHeader_mEtp (s : State) (bs : List Byte) : (s.packHeader bs).mEtp = s.mEtp := rfl
@[simp] theorem State.packHeader_mCode (s : State) (bs : List Byte) : (s.packHeader bs).mCode = s.mCode := rfl
@[simp] theorem State.packHeader_mCrc16 (s : State) (bs : List Byte) : (s.packHeader bs).mCrc16 = s.mCrc16 := rfl
@[simp] theorem State.packHeader_mRsum8 (s : State) (bs : List Byte) : (s.packHeader bs).mRsum8 = s.mRsum8 := rfl
@[simp] theorem State.packHeader_mTkl (s : State) (bs : List Byte) : (s.packHeader bs).mTkl = s.mTkl := rfl
@[simp] theorem State.packHeader_token (s : State) (bs : List Byte) : (s.packHeader bs).token = s.token := rfl
@[simp] theorem State.packHeader_opt (s : State) (bs : List Byte) : (s.packHeader bs).opt = s.opt := rfl
@[simp] theorem State.packHeader_pbuf (s : State) (bs : List Byte) : (s.packHeader bs).pbuf = s.pbuf := rfl
@[simp] theorem State.packHeader_vbuf (s : State) (bs : List Byte) : (s.packHeader bs).vbuf = s.vbuf := rfl
@[simp] theorem State.packHeader_bufBytes (s : State) (bs : List Byte) : (s.packHeader bs).bufBytes = s.bufBytes := rfl
@[simp] theorem State.packHeader_optCap (s : State) (bs : List Byte) : (s.packHeader bs).optCap = s.optCap := rfl
@[simp] theorem State.packHeader_host (s : State) (bs : List Byte) : (s.packHeader bs).host = s.host := rfl
@[simp] theorem State.packHeader_rdata (s : State) (bs : List Byte) : (s.packHeader bs).rdata = s.rdata := rfl
@[simp] theorem State.packHeader_fbuf (s : State) (bs : List Byte) : (s.packHeader bs).fbuf = s.fbuf.write 0 bs := rfl
@[simp] theorem State.packHeader_pos (s : State) (bs : List Byte) : (s.packHeader bs).pos = word bs.length := rfl
@[simp] theorem State.packHeader_flen (s : State) (bs : List Byte) : (s.packHeader bs).flen = word (max s.flen.toNat bs.length) := rfl

theorem State.packHeader_of_lt (s : State) (bs : List Byte) (h : bs.length < 2 ^ 32) :
    s.packHeader bs = { s with
      fbuf := s.fbuf.write 0 bs
      pos := word bs.length
      flen := word (max s.flen.toNat bs.length)
      reqSize := word bs.length } :=
  State.recordSize_of_lt _ h

/-! ### emitFrame -/

@[simp] theorem State.emitFrame_a0 (s : State) (size : Nat) (frame : List Byte) : (s.emitFrame size frame).a0 = s.a0 := rfl
@[simp] theorem State.emitFrame_a1 (s : State) (size : Nat) (frame : List Byte) : (s.emitFrame size frame).a1 = s.a1 := rfl
@[simp] theorem State.emitFrame_a2 (s : State) (size : Nat) (frame : List Byte) : (s.emitFrame size frame).a2 = s.a2 := rfl
@[simp] theorem State.emitFrame_a3 (s : State) (size : Nat) (frame : List Byte) : (s.emitFrame size frame).a3 = s.a3 := rfl
@[simp] theorem State.emitFrame_status (s : State) (size : Nat) (frame : List Byte) : (s.emitFrame size frame).status = s.status := rfl
@[simp] theorem State.emitFrame_ocap (s : State) (size : Nat) (frame : List Byte) : (s.emitFrame size frame).ocap = s.ocap := rfl
@[simp] theorem State.emitFrame_plen (s : State) (size : Nat) (frame : List Byte) : (s.emitFrame size frame).plen = s.plen := rfl
@[simp] theorem State.emitFrame_optCnt (s : State) (size : Nat) (frame : List Byte) : (s.emitFrame size frame).optCnt = s.optCnt := rfl
@[simp] theorem State.emitFrame_crcAcc (s : State) (size : Nat) (frame : List Byte) : (s.emitFrame size frame).crcAcc = s.crcAcc := rfl
@[simp] theorem State.emitFrame_sumAcc (s : State) (size : Nat) (frame : List Byte) : (s.emitFrame size frame).sumAcc = s.sumAcc := rfl
@[simp] theorem State.emitFrame_prevId (s : State) (size : Nat) (frame : List Byte) : (s.emitFrame size frame).prevId = s.prevId := rfl
@[simp] theorem State.emitFrame_mVer (s : State) (size : Nat) (frame : List Byte) : (s.emitFrame size frame).mVer = s.mVer := rfl
@[simp] theorem State.emitFrame_mType (s : State) (size : Nat) (frame : List Byte) : (s.emitFrame size frame).mType = s.mType := rfl
@[simp] theorem State.emitFrame_mMid (s : State) (size : Nat) (frame : List Byte) : (s.emitFrame size frame).mMid = s.mMid := rfl
@[simp] theorem State.emitFrame_mEid (s : State) (size : Nat) (frame : List Byte) : (s.emitFrame size frame).mEid = s.mEid := rfl
@[simp] theorem State.emitFrame_mEtp (s : State) (size : Nat) (frame : List Byte) : (s.emitFrame size frame).mEtp = s.mEtp := rfl
@[simp] theorem State.emitFrame_mCode (s : State) (size : Nat) (frame : List Byte) : (s.emitFrame size frame).mCode = s.mCode := rfl
@[simp] theorem State.emitFrame_mCrc16 (s : State) (size : Nat) (frame : List Byte) : (s.emitFrame size frame).mCrc16 = s.mCrc16 := rfl
@[simp] theorem State.emitFrame_mRsum8 (s : State) (size : Nat) (frame : List Byte) : (s.emitFrame size frame).mRsum8 = s.mRsum8 := rfl
@[simp] theorem State.emitFrame_mTkl (s : State) (size : Nat) (frame : List Byte) : (s.emitFrame size frame).mTkl = s.mTkl := rfl
@[simp] theorem State.emitFrame_token (s : State) (size : Nat) (frame : List Byte) : (s.emitFrame size frame).token = s.token := rfl
@[simp] theorem State.emitFrame_opt (s : State) (size : Nat) (frame : List Byte) : (s.emitFrame size frame).opt = s.opt := rfl
@[simp] theorem State.emitFrame_pbuf (s : State) (size : Nat) (frame : List Byte) : (s.emitFrame size frame).pbuf = s.pbuf := rfl
@[simp] theorem State.emitFrame_vbuf (s : State) (size : Nat) (frame : List Byte) : (s.emitFrame size frame).vbuf = s.vbuf := rfl
@[simp] theorem State.emitFrame_bufBytes (s : State) (size : Nat) (frame : List Byte) : (s.emitFrame size frame).bufBytes = s.bufBytes := rfl
@[simp] theorem State.emitFrame_optCap (s : State) (size : Nat) (frame : List Byte) : (s.emitFrame size frame).optCap = s.optCap := rfl
@[simp] theorem State.emitFrame_host (s : State) (size : Nat) (frame : List Byte) : (s.emitFrame size frame).host = s.host := rfl
@[simp] theorem State.emitFrame_rdata (s : State) (size : Nat) (frame : List Byte) : (s.emitFrame size frame).rdata = s.rdata := rfl
@[simp] theorem State.emitFrame_fbuf (s : State) (size : Nat) (frame : List Byte) : (s.emitFrame size frame).fbuf = s.fbuf.write 0 frame := rfl
@[simp] theorem State.emitFrame_pos (s : State) (size : Nat) (frame : List Byte) : (s.emitFrame size frame).pos = word size := rfl
@[simp] theorem State.emitFrame_flen (s : State) (size : Nat) (frame : List Byte) : (s.emitFrame size frame).flen = word size := rfl

theorem State.emitFrame_of_lt (s : State) (size : Nat) (frame : List Byte) (h : size < 2 ^ 32) :
    s.emitFrame size frame = { s with
      fbuf := s.fbuf.write 0 frame
      flen := word size
      pos := word size
      reqSize := word size } :=
  State.recordSize_of_lt _ h

/-! ### storeOptions -/

@[simp] theorem State.storeOptions_a0 (s : State) (xs : List Stored) : (s.storeOptions xs).a0 = s.a0 := rfl
@[simp] theorem State.storeOptions_a1 (s : State) (xs : List Stored) : (s.storeOptions xs).a1 = s.a1 := rfl
@[simp] theorem State.storeOptions_a2 (s : State) (xs : List Stored) : (s.storeOptions xs).a2 = s.a2 := rfl
@[simp] theorem State.storeOptions_a3 (s : State) (xs : List Stored) : (s.storeOptions xs).a3 = s.a3 := rfl
@[simp] theorem State.storeOptions_status (s : State) (xs : List Stored) : (s.storeOptions xs).status = s.status := rfl
@[simp] theorem State.storeOptions_reqSize (s : State) (xs : List Stored) : (s.storeOptions xs).reqSize = s.reqSize := rfl
@[simp] theorem State.storeOptions_pos (s : State) (xs : List Stored) : (s.storeOptions xs).pos = s.pos := rfl
@[simp] theorem State.storeOptions_ocap (s : State) (xs : List Stored) : (s.storeOptions xs).ocap = s.ocap := rfl
@[simp] theorem State.storeOptions_flen (s : State) (xs : List Stored) : (s.storeOptions xs).flen = s.flen := rfl
@[simp] theorem State.storeOptions_plen (s : State) (xs : List Stored) : (s.storeOptions xs).plen = s.plen := rfl
@[simp] theorem State.storeOptions_crcAcc (s : State) (xs : List Stored) : (s.storeOptions xs).crcAcc = s.crcAcc := rfl
@[simp] theorem State.storeOptions_sumAcc (s : State) (xs : List Stored) : (s.storeOptions xs).sumAcc = s.sumAcc := rfl
@[simp] theorem State.storeOptions_prevId (s : State) (xs : List Stored) : (s.storeOptions xs).prevId = s.prevId := rfl
@[simp] theorem State.storeOptions_mVer (s : State) (xs : List Stored) : (s.storeOptions xs).mVer = s.mVer := rfl
@[simp] theorem State.storeOptions_mType (s : State) (xs : List Stored) : (s.storeOptions xs).mType = s.mType := rfl
@[simp] theorem State.storeOptions_mMid (s : State) (xs : List Stored) : (s.storeOptions xs).mMid = s.mMid := rfl
@[simp] theorem State.storeOptions_mEid (s : State) (xs : List Stored) : (s.storeOptions xs).mEid = s.mEid := rfl
@[simp] theorem State.storeOptions_mEtp (s : State) (xs : List Stored) : (s.storeOptions xs).mEtp = s.mEtp := rfl
@[simp] theorem State.storeOptions_mCode (s : State) (xs : List Stored) : (s.storeOptions xs).mCode = s.mCode := rfl
@[simp] theorem State.storeOptions_mCrc16 (s : State) (xs : List Stored) : (s.storeOptions xs).mCrc16 = s.mCrc16 := rfl
@[simp] theorem State.storeOptions_mRsum8 (s : State) (xs : List Stored) : (s.storeOptions xs).mRsum8 = s.mRsum8 := rfl
@[simp] theorem State.storeOptions_mTkl (s : State) (xs : List Stored) : (s.storeOptions xs).mTkl = s.mTkl := rfl
@[simp] theorem State.storeOptions_token (s : State) (xs : List Stored) : (s.storeOptions xs).token = s.token := rfl
@[simp] theorem State.storeOptions_fbuf (s : State) (xs : List Stored) : (s.storeOptions xs).fbuf = s.fbuf := rfl
@[simp] theorem State.storeOptions_pbuf (s : State) (xs : List Stored) : (s.storeOptions xs).pbuf = s.pbuf := rfl
@[simp] theorem State.storeOptions_bufBytes (s : State) (xs : List Stored) : (s.storeOptions xs).bufBytes = s.bufBytes := rfl
@[simp] theorem State.storeOptions_optCap (s : State) (xs : List Stored) : (s.storeOptions xs).optCap = s.optCap := rfl
@[simp] theorem State.storeOptions_host (s : State) (xs : List Stored) : (s.storeOptions xs).host = s.host := rfl
@[simp] theorem State.storeOptions_rdata (s : State) (xs : List Stored) : (s.storeOptions xs).rdata = s.rdata := rfl
@[simp] theorem State.storeOptions_freeCount (s : State) (xs : List Stored) : (s.storeOptions xs).freeCount = s.freeCount := rfl
@[simp] theorem State.storeOptions_opt (s : State) (xs : List Stored) : (s.storeOptions xs).opt = s.opt.write 0 (storedEntries 0 xs) := rfl
@[simp] theorem State.storeOptions_optCnt (s : State) (xs : List Stored) : (s.storeOptions xs).optCnt = word xs.length := rfl
@[simp] theorem State.storeOptions_vbuf (s : State) (xs : List Stored) : (s.storeOptions xs).vbuf = s.vbuf.write 0 (storedBytes xs) := rfl

/-! ### storePayload -/

@[simp] theorem State.storePayload_a0 (s : State) (pay : List Byte) : (s.storePayload pay).a0 = s.a0 := rfl
@[simp] theorem State.storePayload_a1 (s : State) (pay : List Byte) : (s.storePayload pay).a1 = s.a1 := rfl
@[simp] theorem State.storePayload_a2 (s : State) (pay : List Byte) : (s.storePayload pay).a2 = s.a2 := rfl
@[simp] theorem State.storePayload_a3 (s : State) (pay : List Byte) : (s.storePayload pay).a3 = s.a3 := rfl
@[simp] theorem State.storePayload_status (s : State) (pay : List Byte) : (s.storePayload pay).status = s.status := rfl
@[simp] theorem State.storePayload_reqSize (s : State) (pay : List Byte) : (s.storePayload pay).reqSize = s.reqSize := rfl
@[simp] theorem State.storePayload_pos (s : State) (pay : List Byte) : (s.storePayload pay).pos = s.pos := rfl
@[simp] theorem State.storePayload_ocap (s : State) (pay : List Byte) : (s.storePayload pay).ocap = s.ocap := rfl
@[simp] theorem State.storePayload_flen (s : State) (pay : List Byte) : (s.storePayload pay).flen = s.flen := rfl
@[simp] theorem State.storePayload_optCnt (s : State) (pay : List Byte) : (s.storePayload pay).optCnt = s.optCnt := rfl
@[simp] theorem State.storePayload_crcAcc (s : State) (pay : List Byte) : (s.storePayload pay).crcAcc = s.crcAcc := rfl
@[simp] theorem State.storePayload_sumAcc (s : State) (pay : List Byte) : (s.storePayload pay).sumAcc = s.sumAcc := rfl
@[simp] theorem State.storePayload_prevId (s : State) (pay : List Byte) : (s.storePayload pay).prevId = s.prevId := rfl
@[simp] theorem State.storePayload_mVer (s : State) (pay : List Byte) : (s.storePayload pay).mVer = s.mVer := rfl
@[simp] theorem State.storePayload_mType (s : State) (pay : List Byte) : (s.storePayload pay).mType = s.mType := rfl
@[simp] theorem State.storePayload_mMid (s : State) (pay : List Byte) : (s.storePayload pay).mMid = s.mMid := rfl
@[simp] theorem State.storePayload_mEid (s : State) (pay : List Byte) : (s.storePayload pay).mEid = s.mEid := rfl
@[simp] theorem State.storePayload_mEtp (s : State) (pay : List Byte) : (s.storePayload pay).mEtp = s.mEtp := rfl
@[simp] theorem State.storePayload_mCode (s : State) (pay : List Byte) : (s.storePayload pay).mCode = s.mCode := rfl
@[simp] theorem State.storePayload_mCrc16 (s : State) (pay : List Byte) : (s.storePayload pay).mCrc16 = s.mCrc16 := rfl
@[simp] theorem State.storePayload_mRsum8 (s : State) (pay : List Byte) : (s.storePayload pay).mRsum8 = s.mRsum8 := rfl
@[simp] theorem State.storePayload_mTkl (s : State) (pay : List Byte) : (s.storePayload pay).mTkl = s.mTkl := rfl
@[simp] theorem State.storePayload_token (s : State) (pay : List Byte) : (s.storePayload pay).token = s.token := rfl
@[simp] theorem State.storePayload_opt (s : State) (pay : List Byte) : (s.storePayload pay).opt = s.opt := rfl
@[simp] theorem State.storePayload_fbuf (s : State) (pay : List Byte) : (s.storePayload pay).fbuf = s.fbuf := rfl
@[simp] theorem State.storePayload_vbuf (s : State) (pay : List Byte) : (s.storePayload pay).vbuf = s.vbuf := rfl
@[simp] theorem State.storePayload_bufBytes (s : State) (pay : List Byte) : (s.storePayload pay).bufBytes = s.bufBytes := rfl
@[simp] theorem State.storePayload_optCap (s : State) (pay : List Byte) : (s.storePayload pay).optCap = s.optCap := rfl
@[simp] theorem State.storePayload_host (s : State) (pay : List Byte) : (s.storePayload pay).host = s.host := rfl
@[simp] theorem State.storePayload_rdata (s : State) (pay : List Byte) : (s.storePayload pay).rdata = s.rdata := rfl
@[simp] theorem State.storePayload_freeCount (s : State) (pay : List Byte) : (s.storePayload pay).freeCount = s.freeCount := rfl
@[simp] theorem State.storePayload_pbuf (s : State) (pay : List Byte) : (s.storePayload pay).pbuf = s.pbuf.write 0 pay := rfl
@[simp] theorem State.storePayload_plen (s : State) (pay : List Byte) : (s.storePayload pay).plen = word pay.length := rfl

/-! ### storeBody -/

@[simp] theorem State.storeBody_a0 (s : State) (b : Body) : (s.storeBody b).a0 = s.a0 := by
  simp [State.storeBody]
@[simp] theorem State.storeBody_a1 (s : State) (b : Body) : (s.storeBody b).a1 = s.a1 := by
  simp [State.storeBody]
@[simp] theorem State.storeBody_a2 (s : State) (b : Body) : (s.storeBody b).a2 = s.a2 := by
  simp [State.storeBody]
@[simp] theorem State.storeBody_a3 (s : State) (b : Body) : (s.storeBody b).a3 = s.a3 := by
  simp [State.storeBody]
@[simp] theorem State.storeBody_status (s : State) (b : Body) : (s.storeBody b).status = s.status := by
  simp [State.storeBody]
@[simp] theorem State.storeBody_reqSize (s : State) (b : Body) : (s.storeBody b).reqSize = s.reqSize := by
  simp [State.storeBody]
@[simp] theorem State.storeBody_pos (s : State) (b : Body) : (s.storeBody b).pos = s.pos := by
  simp [State.storeBody]
@[simp] theorem State.storeBody_ocap (s : State) (b : Body) : (s.storeBody b).ocap = s.ocap := by
  simp [State.storeBody]
@[simp] theorem State.storeBody_flen (s : State) (b : Body) : (s.storeBody b).flen = s.flen := by
  simp [State.storeBody]
@[simp] theorem State.storeBody_crcAcc (s : State) (b : Body) : (s.storeBody b).crcAcc = s.crcAcc := by
  simp [State.storeBody]
@[simp] theorem State.storeBody_sumAcc (s : State) (b : Body) : (s.storeBody b).sumAcc = s.sumAcc := by
  simp [State.storeBody]
@[simp] theorem State.storeBody_prevId (s : State) (b : Body) : (s.storeBody b).prevId = s.prevId := by
  simp [State.storeBody]
@[simp] theorem State.storeBody_mVer (s : State) (b : Body) : (s.storeBody b).mVer = s.mVer := by
  simp [State.storeBody]
@[simp] theorem State.storeBody_mType (s : State) (b : Body) : (s.storeBody b).mType = s.mType := by
  simp [State.storeBody]
@[simp] theorem State.storeBody_mMid (s : State) (b : Body) : (s.storeBody b).mMid = s.mMid := by
  simp [State.storeBody]
@[simp] theorem State.storeBody_mEid (s : State) (b : Body) : (s.storeBody b).mEid = s.mEid := by
  simp [State.storeBody]
@[simp] theorem State.storeBody_mEtp (s : State) (b : Body) : (s.storeBody b).mEtp = s.mEtp := by
  simp [State.storeBody]
@[simp] theorem State.storeBody_mCode (s : State) (b : Body) : (s.storeBody b).mCode = s.mCode := by
  simp [State.storeBody]
@[simp] theorem State.storeBody_mCrc16 (s : State) (b : Body) : (s.storeBody b).mCrc16 = s.mCrc16 := by
  simp [State.storeBody]
@[simp] theorem State.storeBody_mRsum8 (s : State) (b : Body) : (s.storeBody b).mRsum8 = s.mRsum8 := by
  simp [State.storeBody]
@[simp] theorem State.storeBody_mTkl (s : State) (b : Body) : (s.storeBody b).mTkl = s.mTkl := by
  simp [State.storeBody]
@[simp] theorem State.storeBody_fbuf (s : State) (b : Body) : (s.storeBody b).fbuf = s.fbuf := by
  simp [State.storeBody]
@[simp] theorem State.storeBody_bufBytes (s : State) (b : Body) : (s.storeBody b).bufBytes = s.bufBytes := by
  simp [State.storeBody]
@[simp] theorem State.storeBody_optCap (s : State) (b : Body) : (s.storeBody b).optCap = s.optCap := by
  simp [State.storeBody]
@[simp] theorem State.storeBody_host (s : State) (b : Body) : (s.storeBody b).host = s.host := by
  simp [State.storeBody]
@[simp] theorem State.storeBody_rdata (s : State) (b : Body) : (s.storeBody b).rdata = s.rdata := by
  simp [State.storeBody]
@[simp] theorem State.storeBody_freeCount (s : State) (b : Body) : (s.storeBody b).freeCount = s.freeCount := by
  simp [State.storeBody]
@[simp] theorem State.storeBody_opt (s : State) (b : Body) : (s.storeBody b).opt = s.opt.write 0 (storedEntries 0 b.stored) := by
  simp [State.storeBody]
@[simp] theorem State.storeBody_optCnt (s : State) (b : Body) : (s.storeBody b).optCnt = word b.stored.length := by
  simp [State.storeBody]
@[simp] theorem State.storeBody_vbuf (s : State) (b : Body) : (s.storeBody b).vbuf = s.vbuf.write 0 (storedBytes b.stored) := by
  simp [State.storeBody]
@[simp] theorem State.storeBody_pbuf (s : State) (b : Body) : (s.storeBody b).pbuf = s.pbuf.write 0 b.pay := by
  simp [State.storeBody]
@[simp] theorem State.storeBody_plen (s : State) (b : Body) : (s.storeBody b).plen = word b.pay.length := by
  simp [State.storeBody]
@[simp] theorem State.storeBody_token (s : State) (b : Body) : (s.storeBody b).token = s.token.write 0 b.tok := by
  simp [State.storeBody]

/-! ### loadHdr0 -/

@[simp] theorem State.loadHdr0_a0 (s : State) (h : Hdr0) : (s.loadHdr0 h).a0 = s.a0 := rfl
@[simp] theorem State.loadHdr0_a1 (s : State) (h : Hdr0) : (s.loadHdr0 h).a1 = s.a1 := rfl
@[simp] theorem State.loadHdr0_a2 (s : State) (h : Hdr0) : (s.loadHdr0 h).a2 = s.a2 := rfl
@[simp] theorem State.loadHdr0_a3 (s : State) (h : Hdr0) : (s.loadHdr0 h).a3 = s.a3 := rfl
@[simp] theorem State.loadHdr0_status (s : State) (h : Hdr0) : (s.loadHdr0 h).status = s.status := rfl
@[simp] theorem State.loadHdr0_reqSize (s : State) (h : Hdr0) : (s.loadHdr0 h).reqSize = s.reqSize := rfl
@[simp] theorem State.loadHdr0_pos (s : State) (h : Hdr0) : (s.loadHdr0 h).pos = s.pos := rfl
@[simp] theorem State.loadHdr0_ocap (s : State) (h : Hdr0) : (s.loadHdr0 h).ocap = s.ocap := rfl
@[simp] theorem State.loadHdr0_flen (s : State) (h : Hdr0) : (s.loadHdr0 h).flen = s.flen := rfl
@[simp] theorem State.loadHdr0_plen (s : State) (h : Hdr0) : (s.loadHdr0 h).plen = s.plen := rfl
@[simp] theorem State.loadHdr0_optCnt (s : State) (h : Hdr0) : (s.loadHdr0 h).optCnt = s.optCnt := rfl
@[simp] theorem State.loadHdr0_crcAcc (s : State) (h : Hdr0) : (s.loadHdr0 h).crcAcc = s.crcAcc := rfl
@[simp] theorem State.loadHdr0_sumAcc (s : State) (h : Hdr0) : (s.loadHdr0 h).sumAcc = s.sumAcc := rfl
@[simp] theorem State.loadHdr0_prevId (s : State) (h : Hdr0) : (s.loadHdr0 h).prevId = s.prevId := rfl
@[simp] theorem State.loadHdr0_mMid (s : State) (h : Hdr0) : (s.loadHdr0 h).mMid = s.mMid := rfl
@[simp] theorem State.loadHdr0_mCode (s : State) (h : Hdr0) : (s.loadHdr0 h).mCode = s.mCode := rfl
@[simp] theorem State.loadHdr0_mRsum8 (s : State) (h : Hdr0) : (s.loadHdr0 h).mRsum8 = s.mRsum8 := rfl
@[simp] theorem State.loadHdr0_mTkl (s : State) (h : Hdr0) : (s.loadHdr0 h).mTkl = s.mTkl := rfl
@[simp] theorem State.loadHdr0_token (s : State) (h : Hdr0) : (s.loadHdr0 h).token = s.token := rfl
@[simp] theorem State.loadHdr0_opt (s : State) (h : Hdr0) : (s.loadHdr0 h).opt = s.opt := rfl
@[simp] theorem State.loadHdr0_fbuf (s : State) (h : Hdr0) : (s.loadHdr0 h).fbuf = s.fbuf := rfl
@[simp] theorem State.loadHdr0_pbuf (s : State) (h : Hdr0) : (s.loadHdr0 h).pbuf = s.pbuf := rfl
@[simp] theorem State.loadHdr0_vbuf (s : State) (h : Hdr0) : (s.loadHdr0 h).vbuf = s.vbuf := rfl
@[simp] theorem State.loadHdr0_bufBytes (s : State) (h : Hdr0) : (s.loadHdr0 h).bufBytes = s.bufBytes := rfl
@[simp] theorem State.loadHdr0_optCap (s : State) (h : Hdr0) : (s.loadHdr0 h).optCap = s.optCap := rfl
@[simp] theorem State.loadHdr0_host (s : State) (h : Hdr0) : (s.loadHdr0 h).host = s.host := rfl
@[simp] theorem State.loadHdr0_rdata (s : State) (h : Hdr0) : (s.loadHdr0 h).rdata = s.rdata := rfl
@[simp] theorem State.loadHdr0_freeCount (s : State) (h : Hdr0) : (s.loadHdr0 h).freeCount = s.freeCount := rfl
@[simp] theorem State.loadHdr0_mVer (s : State) (h : Hdr0) : (s.loadHdr0 h).mVer = 0#32 := rfl
@[simp] theorem State.loadHdr0_mType (s : State) (h : Hdr0) : (s.loadHdr0 h).mType = zext h.type := rfl
@[simp] theorem State.loadHdr0_mEid (s : State) (h : Hdr0) : (s.loadHdr0 h).mEid = zext h.eid := rfl
@[simp] theorem State.loadHdr0_mEtp (s : State) (h : Hdr0) : (s.loadHdr0 h).mEtp = zext h.etp := rfl
@[simp] theorem State.loadHdr0_mCrc16 (s : State) (h : Hdr0) : (s.loadHdr0 h).mCrc16 = h.crc := rfl

/-! ### loadHdr1 -/

@[simp] theorem State.loadHdr1_a0 (s : State) (h : Hdr1) : (s.loadHdr1 h).a0 = s.a0 := rfl
@[simp] theorem State.loadHdr1_a1 (s : State) (h : Hdr1) : (s.loadHdr1 h).a1 = s.a1 := rfl
@[simp] theorem State.loadHdr1_a2 (s : State) (h : Hdr1) : (s.loadHdr1 h).a2 = s.a2 := rfl
@[simp] theorem State.loadHdr1_a3 (s : State) (h : Hdr1) : (s.loadHdr1 h).a3 = s.a3 := rfl
@[simp] theorem State.loadHdr1_status (s : State) (h : Hdr1) : (s.loadHdr1 h).status = s.status := rfl
@[simp] theorem State.loadHdr1_reqSize (s : State) (h : Hdr1) : (s.loadHdr1 h).reqSize = s.reqSize := rfl
@[simp] theorem State.loadHdr1_pos (s : State) (h : Hdr1) : (s.loadHdr1 h).pos = s.pos := rfl
@[simp] theorem State.loadHdr1_ocap (s : State) (h : Hdr1) : (s.loadHdr1 h).ocap = s.ocap := rfl
@[simp] theorem State.loadHdr1_flen (s : State) (h : Hdr1) : (s.loadHdr1 h).flen = s.flen := rfl
@[simp] theorem State.loadHdr1_plen (s : State) (h : Hdr1) : (s.loadHdr1 h).plen = s.plen := rfl
@[simp] theorem State.loadHdr1_optCnt (s : State) (h : Hdr1) : (s.loadHdr1 h).optCnt = s.optCnt := rfl
@[simp] theorem State.loadHdr1_crcAcc (s : State) (h : Hdr1) : (s.loadHdr1 h).crcAcc = s.crcAcc := rfl
@[simp] theorem State.loadHdr1_sumAcc (s : State) (h : Hdr1) : (s.loadHdr1 h).sumAcc = s.sumAcc := rfl
@[simp] theorem State.loadHdr1_prevId (s : State) (h : Hdr1) : (s.loadHdr1 h).prevId = s.prevId := rfl
@[simp] theorem State.loadHdr1_mEid (s : State) (h : Hdr1) : (s.loadHdr1 h).mEid = s.mEid := rfl
@[simp] theorem State.loadHdr1_mEtp (s : State) (h : Hdr1) : (s.loadHdr1 h).mEtp = s.mEtp := rfl
@[simp] theorem State.loadHdr1_mCrc16 (s : State) (h : Hdr1) : (s.loadHdr1 h).mCrc16 = s.mCrc16 := rfl
@[simp] theorem State.loadHdr1_mRsum8 (s : State) (h : Hdr1) : (s.loadHdr1 h).mRsum8 = s.mRsum8 := rfl
@[simp] theorem State.loadHdr1_token (s : State) (h : Hdr1) : (s.loadHdr1 h).token = s.token := rfl
@[simp] theorem State.loadHdr1_opt (s : State) (h : Hdr1) : (s.loadHdr1 h).opt = s.opt := rfl
@[simp] theorem State.loadHdr1_fbuf (s : State) (h : Hdr1) : (s.loadHdr1 h).fbuf = s.fbuf := rfl
@[simp] theorem State.loadHdr1_pbuf (s : State) (h : Hdr1) : (s.loadHdr1 h).pbuf = s.pbuf := rfl
@[simp] theorem State.loadHdr1_vbuf (s : State) (h : Hdr1) : (s.loadHdr1 h).vbuf = s.vbuf := rfl
@[simp] theorem State.loadHdr1_bufBytes (s : State) (h : Hdr1) : (s.loadHdr1 h).bufBytes = s.bufBytes := rfl
@[simp] theorem State.loadHdr1_optCap (s : State) (h : Hdr1) : (s.loadHdr1 h).optCap = s.optCap := rfl
@[simp] theorem State.loadHdr1_host (s : State) (h : Hdr1) : (s.loadHdr1 h).host = s.host := rfl
@[simp] theorem State.loadHdr1_rdata (s : State) (h : Hdr1) : (s.loadHdr1 h).rdata = s.rdata := rfl
@[simp] theorem State.loadHdr1_freeCount (s : State) (h : Hdr1) : (s.loadHdr1 h).freeCount = s.freeCount := rfl
@[simp] theorem State.loadHdr1_mVer (s : State) (h : Hdr1) : (s.loadHdr1 h).mVer = 1#32 := rfl
@[simp] theorem State.loadHdr1_mType (s : State) (h : Hdr1) : (s.loadHdr1 h).mType = zext h.type := rfl
@[simp] theorem State.loadHdr1_mTkl (s : State) (h : Hdr1) : (s.loadHdr1 h).mTkl = h.tkl := rfl
@[simp] theorem State.loadHdr1_mCode (s : State) (h : Hdr1) : (s.loadHdr1 h).mCode = h.code := rfl
@[simp] theorem State.loadHdr1_mMid (s : State) (h : Hdr1) : (s.loadHdr1 h).mMid = zext h.mid := rfl

/-! ### loadHdr2 -/

@[simp] theorem State.loadHdr2_a0 (s : State) (h : Hdr2) : (s.loadHdr2 h).a0 = s.a0 := rfl
@[simp] theorem State.loadHdr2_a1 (s : State) (h : Hdr2) : (s.loadHdr2 h).a1 = s.a1 := rfl
@[simp] theorem State.loadHdr2_a2 (s : State) (h : Hdr2) : (s.loadHdr2 h).a2 = s.a2 := rfl
@[simp] theorem State.loadHdr2_a3 (s : State) (h : Hdr2) : (s.loadHdr2 h).a3 = s.a3 := rfl
@[simp] theorem State.loadHdr2_status (s : State) (h : Hdr2) : (s.loadHdr2 h).status = s.status := rfl
@[simp] theorem State.loadHdr2_reqSize (s : State) (h : Hdr2) : (s.loadHdr2 h).reqSize = s.reqSize := rfl
@[simp] theorem State.loadHdr2_pos (s : State) (h : Hdr2) : (s.loadHdr2 h).pos = s.pos := rfl
@[simp] theorem State.loadHdr2_ocap (s : State) (h : Hdr2) : (s.loadHdr2 h).ocap = s.ocap := rfl
@[simp] theorem State.loadHdr2_flen (s : State) (h : Hdr2) : (s.loadHdr2 h).flen = s.flen := rfl
@[simp] theorem State.loadHdr2_plen (s : State) (h : Hdr2) : (s.loadHdr2 h).plen = s.plen := rfl
@[simp] theorem State.loadHdr2_optCnt (s : State) (h : Hdr2) : (s.loadHdr2 h).optCnt = s.optCnt := rfl
@[simp] theorem State.loadHdr2_crcAcc (s : State) (h : Hdr2) : (s.loadHdr2 h).crcAcc = s.crcAcc := rfl
@[simp] theorem State.loadHdr2_sumAcc (s : State) (h : Hdr2) : (s.loadHdr2 h).sumAcc = s.sumAcc := rfl
@[simp] theorem State.loadHdr2_prevId (s : State) (h : Hdr2) : (s.loadHdr2 h).prevId = s.prevId := rfl
@[simp] theorem State.loadHdr2_token (s : State) (h : Hdr2) : (s.loadHdr2 h).token = s.token := rfl
@[simp] theorem State.loadHdr2_opt (s : State) (h : Hdr2) : (s.loadHdr2 h).opt = s.opt := rfl
@[simp] theorem State.loadHdr2_fbuf (s : State) (h : Hdr2) : (s.loadHdr2 h).fbuf = s.fbuf := rfl
@[simp] theorem State.loadHdr2_pbuf (s : State) (h : Hdr2) : (s.loadHdr2 h).pbuf = s.pbuf := rfl
@[simp] theorem State.loadHdr2_vbuf (s : State) (h : Hdr2) : (s.loadHdr2 h).vbuf = s.vbuf := rfl
@[simp] theorem State.loadHdr2_bufBytes (s : State) (h : Hdr2) : (s.loadHdr2 h).bufBytes = s.bufBytes := rfl
@[simp] theorem State.loadHdr2_optCap (s : State) (h : Hdr2) : (s.loadHdr2 h).optCap = s.optCap := rfl
@[simp] theorem State.loadHdr2_host (s : State) (h : Hdr2) : (s.loadHdr2 h).host = s.host := rfl
@[simp] theorem State.loadHdr2_rdata (s : State) (h : Hdr2) : (s.loadHdr2 h).rdata = s.rdata := rfl
@[simp] theorem State.loadHdr2_freeCount (s : State) (h : Hdr2) : (s.loadHdr2 h).freeCount = s.freeCount := rfl
@[simp] theorem State.loadHdr2_mVer (s : State) (h : Hdr2) : (s.loadHdr2 h).mVer = 2#32 := rfl
@[simp] theorem State.loadHdr2_mType (s : State) (h : Hdr2) : (s.loadHdr2 h).mType = zext h.type := rfl
@[simp] theorem State.loadHdr2_mTkl (s : State) (h : Hdr2) : (s.loadHdr2 h).mTkl = h.tkl := rfl
@[simp] theorem State.loadHdr2_mEid (s : State) (h : Hdr2) : (s.loadHdr2 h).mEid = zext h.eid := rfl
@[simp] theorem State.loadHdr2_mEtp (s : State) (h : Hdr2) : (s.loadHdr2 h).mEtp = zext h.etp := rfl
@[simp] theorem State.loadHdr2_mCrc16 (s : State) (h : Hdr2) : (s.loadHdr2 h).mCrc16 = h.crc := rfl
@[simp] theorem State.loadHdr2_mMid (s : State) (h : Hdr2) : (s.loadHdr2 h).mMid = zext h.mid := rfl
@[simp] theorem State.loadHdr2_mCode (s : State) (h : Hdr2) : (s.loadHdr2 h).mCode = h.code := rfl
@[simp] theorem State.loadHdr2_mRsum8 (s : State) (h : Hdr2) : (s.loadHdr2 h).mRsum8 = h.rsum := rfl

/-! ### takeException -/

@[simp] theorem State.takeException_a0 (s : State) (r : Raise) : (s.takeException r).a0 = s.a0 := by cases r <;> rfl
@[simp] theorem State.takeException_a1 (s : State) (r : Raise) : (s.takeException r).a1 = s.a1 := by cases r <;> rfl
@[simp] theorem State.takeException_a2 (s : State) (r : Raise) : (s.takeException r).a2 = s.a2 := by cases r <;> rfl
@[simp] theorem State.takeException_a3 (s : State) (r : Raise) : (s.takeException r).a3 = s.a3 := by cases r <;> rfl
@[simp] theorem State.takeException_pos (s : State) (r : Raise) : (s.takeException r).pos = s.pos := by cases r <;> rfl
@[simp] theorem State.takeException_ocap (s : State) (r : Raise) : (s.takeException r).ocap = s.ocap := by cases r <;> rfl
@[simp] theorem State.takeException_flen (s : State) (r : Raise) : (s.takeException r).flen = s.flen := by cases r <;> rfl
@[simp] theorem State.takeException_plen (s : State) (r : Raise) : (s.takeException r).plen = s.plen := by cases r <;> rfl
@[simp] theorem State.takeException_optCnt (s : State) (r : Raise) : (s.takeException r).optCnt = s.optCnt := by cases r <;> rfl
@[simp] theorem State.takeException_crcAcc (s : State) (r : Raise) : (s.takeException r).crcAcc = s.crcAcc := by cases r <;> rfl
@[simp] theorem State.takeException_sumAcc (s : State) (r : Raise) : (s.takeException r).sumAcc = s.sumAcc := by cases r <;> rfl
@[simp] theorem State.takeException_prevId (s : State) (r : Raise) : (s.takeException r).prevId = s.prevId := by cases r <;> rfl
@[simp] theorem State.takeException_mVer (s : State) (r : Raise) : (s.takeException r).mVer = s.mVer := by cases r <;> rfl
@[simp] theorem State.takeException_mType (s : State) (r : Raise) : (s.takeException r).mType = s.mType := by cases r <;> rfl
@[simp] theorem State.takeException_mMid (s : State) (r : Raise) : (s.takeException r).mMid = s.mMid := by cases r <;> rfl
@[simp] theorem State.takeException_mEid (s : State) (r : Raise) : (s.takeException r).mEid = s.mEid := by cases r <;> rfl
@[simp] theorem State.takeException_mEtp (s : State) (r : Raise) : (s.takeException r).mEtp = s.mEtp := by cases r <;> rfl
@[simp] theorem State.takeException_mCode (s : State) (r : Raise) : (s.takeException r).mCode = s.mCode := by cases r <;> rfl
@[simp] theorem State.takeException_mCrc16 (s : State) (r : Raise) : (s.takeException r).mCrc16 = s.mCrc16 := by cases r <;> rfl
@[simp] theorem State.takeException_mRsum8 (s : State) (r : Raise) : (s.takeException r).mRsum8 = s.mRsum8 := by cases r <;> rfl
@[simp] theorem State.takeException_mTkl (s : State) (r : Raise) : (s.takeException r).mTkl = s.mTkl := by cases r <;> rfl
@[simp] theorem State.takeException_token (s : State) (r : Raise) : (s.takeException r).token = s.token := by cases r <;> rfl
@[simp] theorem State.takeException_opt (s : State) (r : Raise) : (s.takeException r).opt = s.opt := by cases r <;> rfl
@[simp] theorem State.takeException_fbuf (s : State) (r : Raise) : (s.takeException r).fbuf = s.fbuf := by cases r <;> rfl
@[simp] theorem State.takeException_pbuf (s : State) (r : Raise) : (s.takeException r).pbuf = s.pbuf := by cases r <;> rfl
@[simp] theorem State.takeException_vbuf (s : State) (r : Raise) : (s.takeException r).vbuf = s.vbuf := by cases r <;> rfl
@[simp] theorem State.takeException_bufBytes (s : State) (r : Raise) : (s.takeException r).bufBytes = s.bufBytes := by cases r <;> rfl
@[simp] theorem State.takeException_optCap (s : State) (r : Raise) : (s.takeException r).optCap = s.optCap := by cases r <;> rfl
@[simp] theorem State.takeException_host (s : State) (r : Raise) : (s.takeException r).host = s.host := by cases r <;> rfl
@[simp] theorem State.takeException_rdata (s : State) (r : Raise) : (s.takeException r).rdata = s.rdata := by cases r <;> rfl
@[simp] theorem State.takeException_status (s : State) (r : Raise) : (s.takeException r).status = r.status := by cases r <;> rfl

theorem State.takeException_of_ne (s : State) {r : Raise} (h : ∀ n, r ≠ .tooSmall n) :
    s.takeException r = { s with status := r.status } := by
  cases r with
  | tooSmall n => exact absurd rfl (h n)
  | _ => rfl

theorem State.takeException_tooSmall (s : State) {n : Nat} (h : n < 2 ^ 32) :
    s.takeException (.tooSmall n) = { s with status := .errTooSmall, reqSize := word n } := by
  simp [State.takeException, State.recordSize_of_lt _ h]

end Sys2Proof.Machine
end

