-- ==== Sys2Proof/Laws/Outcome.lean ====
section
/-! SUPPORT. What the shared operations around a command answer: how a command ends, whether it has room, what a step
and a command write do; with the small arithmetic of register values. -/

namespace Sys2Proof.Machine

/-! ### Register values -/

theorem word_toNat (n : Nat) : (word n).toNat = n % 2 ^ 32 := by simp [word]

theorem word_toNat_of_lt {n : Nat} (h : n < 2 ^ 32) : (word n).toNat = n := by
  rw [word_toNat, Nat.mod_eq_of_lt h]

@[simp] theorem word_toNat_self (v : Word) : word v.toNat = v := by simp [word]

theorem zext_toNat {n : Nat} (h : n ≤ 32) (v : BitVec n) : (zext v).toNat = v.toNat := by
  simp only [zext, BitVec.toNat_setWidth]
  exact Nat.mod_eq_of_lt (lt_of_lt_of_le v.isLt (Nat.pow_le_pow_right (by omega) h))

theorem zext_eq_word {n : Nat} (v : BitVec n) : zext v = word v.toNat := by
  apply BitVec.eq_of_toNat_eq
  simp [zext, word]

/-! ### The end of a command -/

@[simp] theorem complete_ok (s t : State) : complete s (.ok t) = .next { t with status := .ok } := rfl

@[simp] theorem complete_error (s : State) (e : Raise) : complete s (.error e) = .next (s.takeException e) := rfl

theorem complete_next (s : State) (r : Except Raise State) : ∃ t, complete s r = .next t := by
  cases r <;> exact ⟨_, rfl⟩

/-- A command that ended is one whose rule left a state, or one that raised something. -/
theorem complete_cases {s t : State} {r : Except Raise State} (h : complete s r = .next t) :
    (∃ u, r = .ok u ∧ t = { u with status := .ok }) ∨ ∃ e, r = .error e ∧ t = s.takeException e := by
  cases r with
  | ok u => exact .inl ⟨u, rfl, by simpa using h.symm⟩
  | error e => exact .inr ⟨e, rfl, by simpa using h.symm⟩

@[simp] theorem Raise.status_ne_ok (e : Raise) : e.status ≠ .ok := by cases e <;> simp [Raise.status]

@[simp] theorem Raise.status_ne_nil (e : Raise) : e.status ≠ .errMessageNil := by cases e <;> simp [Raise.status]

theorem State.takeException_status_ne_ok (s : State) (e : Raise) : (s.takeException e).status ≠ .ok := by simp

/-- A command that ended OK left the state of its rule. -/
theorem complete_ok_inv {s t : State} {r : Except Raise State} (h : complete s r = .next t) (hs : t.status = .ok) :
    ∃ u, r = .ok u ∧ t = { u with status := .ok } := by
  rcases complete_cases h with h | ⟨e, -, rfl⟩
  · exact h
  · exact absurd hs (State.takeException_status_ne_ok s e)

/-! ### Room in FBUF -/

theorem roomFor_of_le {s : State} {n : Nat} (h : n ≤ s.ocapEff) : roomFor s n = .ok () := if_pos h

theorem roomFor_of_gt {s : State} {n : Nat} (h : s.ocapEff < n) : roomFor s n = .error (.tooSmall n) :=
  if_neg (by omega)

theorem State.ocapEff_le (s : State) : s.ocapEff ≤ s.bufBytes.toNat := Nat.min_le_right _ _

theorem State.flenEff_le (s : State) : s.flenEff ≤ s.bufBytes.toNat := Nat.min_le_right _ _

theorem State.plenEff_le (s : State) : s.plenEff ≤ s.bufBytes.toNat := Nat.min_le_right _ _

/-- Every clamped length is far below 2^32 (00_scope.md R6). -/
theorem State.bufBytes_le {s : State} (h : s.params.wellFormed) : s.bufBytes.toNat ≤ 2 ^ 24 := h.2.1

theorem State.takeException_tooSmall_free (s : State) {n : Nat} (h : 2 ^ 32 ≤ n) :
    s.takeException (.tooSmall n) =
      { s with status := .errTooSmall, reqSize := Config.freeReqSize s.freeCount, freeCount := s.freeCount + 1 } := by
  have h' : ¬ n < 2 ^ 32 := by omega
  simp only [State.takeException, State.recordSize, sizeValue, if_neg h']

theorem State.recordSize_of_ge (s : State) {n : Nat} (h : 2 ^ 32 ≤ n) :
    s.recordSize n = { s with reqSize := Config.freeReqSize s.freeCount, freeCount := s.freeCount + 1 } := by
  have h' : ¬ n < 2 ^ 32 := by omega
  rw [State.recordSize, sizeValue, if_neg h', if_neg h']

/-! ### The step -/

theorem step_of_nil {s : State} (h : s.host = []) : step s = .next s := by
  unfold step; rw [h]

theorem step_of_cons {s : State} {a : HostAction} {rest : List HostAction} (h : s.host = a :: rest) :
    step s = serve a { s with host := rest } := by
  unfold step; rw [h]

theorem step_read {s : State} {off : Nat} {rest : List HostAction} (h : s.host = .read off :: rest) :
    step s = .next { s with host := rest, rdata := State.readPort { s with host := rest } (portOf s off) } :=
  step_of_cons h

/-- What stands at an offset does not depend on the host's actions. -/
@[simp] theorem portOf_host (s : State) (l : List HostAction) (off : Nat) :
    portOf { s with host := l } off = portOf s off := rfl

theorem step_write {s : State} {off : Nat} {v : Word} {rest : List HostAction} (h : s.host = .write off v :: rest) :
    step s = serveWrite off v { s with host := rest } := step_of_cons h

@[simp] theorem portOf_zero (s : State) : portOf s 0x000 = .reg .cmd := rfl

theorem step_command {s : State} {v : Word} {rest : List HostAction} (h : s.host = .write 0x000 v :: rest) :
    step s = runCommand [v.setWidth 8] { s with host := rest } := by
  rw [step_write h]; rfl

end Sys2Proof.Machine
end

