-- ==== Sys2Proof/Laws/Varuint.lean ====
section
/-! SUPPORT. The bytes of a varuint as numbers, and when a validator passes. -/

namespace Sys2Proof.Machine

theorem vluLen_le (v : Word) : vluLen v ≤ 4 := by
  unfold vluLen; split_ifs <;> omega

theorem vluEnc_length (v : Word) : (vluEnc v).length = vluLen v := by
  have := vluLen_le v
  simp only [vluEnc, wordBytesBe, List.length_drop, List.length_cons, List.length_nil]
  omega

/-- The four bytes of a word, as numbers. -/
theorem wordBytesBe_toNat (v : Word) :
    (wordBytesBe v).map BitVec.toNat =
      [v.toNat / 2 ^ 24 % 256, v.toNat / 2 ^ 16 % 256, v.toNat / 2 ^ 8 % 256, v.toNat % 256] := by
  simp [wordBytesBe, BitVec.extractLsb'_toNat, Nat.shiftRight_eq_div_pow]

theorem beNat_append (bs cs : List Byte) : beNat (bs ++ cs) = beNat bs * 256 ^ cs.length + beNat cs := by
  have h : ∀ (l : List Byte) (n : Nat), l.foldl (fun acc b => acc * 256 + b.toNat) n = n * 256 ^ l.length + beNat l := by
    intro l
    induction l with
    | nil => intro n; simp [beNat]
    | cons b l ih =>
      intro n
      simp only [beNat, List.foldl_cons, List.length_cons]
      rw [ih, ih (0 * 256 + b.toNat)]
      ring
  simp only [beNat, List.foldl_append] at *
  rw [h]

theorem beNat_cons (b : Byte) (bs : List Byte) : beNat (b :: bs) = b.toNat * 256 ^ bs.length + beNat bs := by
  rw [show b :: bs = [b] ++ bs from rfl, beNat_append]
  simp [beNat]

theorem beNat_lt (bs : List Byte) : beNat bs < 256 ^ bs.length := by
  induction bs with
  | nil => simp [beNat]
  | cons b bs ih =>
    rw [beNat_cons, List.length_cons, pow_succ]
    have := b.isLt
    nlinarith

/-- Every number of at most four bytes fits a word. -/
theorem vluDec_toNat {bs : List Byte} (h : bs.length ≤ 4) : (vluDec bs).toNat = beNat bs := by
  have h1 := beNat_lt bs
  have h2 : 256 ^ bs.length ≤ 256 ^ 4 := Nat.pow_le_pow_right (by omega) h
  simp only [vluDec, word, BitVec.toNat_ofNat]
  exact Nat.mod_eq_of_lt (by omega)

theorem validated_of {s : State} {p : Prop} [Decidable p] (h : p) :
    validated s (decide p) = .next { s with status := .ok } := by simp [validated, h, complete]

theorem validated_of_not {s : State} {p : Prop} [Decidable p] (h : ¬ p) :
    validated s (decide p) = .next { s with status := .errInvalidField } := by
  simp [validated, h, complete, State.takeException, Raise.status]

end Sys2Proof.Machine
end

