-- ==== Sys2Proof/Laws/Options.lean ====
section
/-! SUPPORT. The extension coding, the stable sort, and what the option list functions return, each said once. -/

namespace Sys2Proof.Machine

/-! ### Bytes and nibbles -/

@[simp] theorem hiNibble_append (a b : BitVec 4) : hiNibble (a ++ b : Byte) = a := by
  revert a b; decide

@[simp] theorem loNibble_append (a b : BitVec 4) : loNibble (a ++ b : Byte) = b := by
  revert a b; decide

theorem nibbles_append (h : Byte) : (hiNibble h ++ loNibble h : Byte) = h := by
  revert h; decide

theorem be16_toNat (b0 b1 : Byte) : (be16 b0 b1).toNat = b0.toNat * 256 + b1.toNat := by
  have h := b1.isLt
  simp only [be16, BitVec.toNat_append]
  rw [← Nat.shiftLeft_add_eq_or_of_lt h, Nat.shiftLeft_eq]

theorem hiByte_toNat (v : Half) : (hiByte v).toNat = v.toNat / 256 := by
  have := v.isLt
  simp [hiByte, BitVec.extractLsb'_toNat, Nat.shiftRight_eq_div_pow]; omega

theorem loByte_toNat (v : Half) : (loByte v).toNat = v.toNat % 256 := by
  simp [loByte, BitVec.extractLsb'_toNat]

@[simp] theorem be16_hi_lo (v : Half) : be16 (hiByte v) (loByte v) = v := by
  apply BitVec.eq_of_toNat_eq
  rw [be16_toNat, hiByte_toNat, loByte_toNat]; omega

@[simp] theorem le16_lo_hi (v : Half) : le16 (loByte v) (hiByte v) = v := be16_hi_lo v

@[simp] theorem hiByte_be16 (b0 b1 : Byte) : hiByte (be16 b0 b1) = b0 := by
  have := b1.isLt
  apply BitVec.eq_of_toNat_eq
  rw [hiByte_toNat, be16_toNat]; omega

@[simp] theorem loByte_be16 (b0 b1 : Byte) : loByte (be16 b0 b1) = b1 := by
  have := b1.isLt
  apply BitVec.eq_of_toNat_eq
  rw [loByte_toNat, be16_toNat]; omega

/-! ### Extension coding -/

theorem extBytes_length (a : Nat) : (extBytes a).length = extSize a := by
  unfold extBytes extSize; split_ifs <;> rfl

theorem extLen_extNibble {a : Nat} (h : a ≤ maxRepresentable) : extLen (extNibble a) = extSize a := by
  unfold extNibble extSize
  split_ifs with h1 h2
  · interval_cases a <;> rfl
  · rfl
  · rfl

/-! ### One option -/

theorem takeBytes_append {n : Nat} {bs : List Byte} (h : bs.length = n) (rest : List Byte) :
    takeBytes n (bs ++ rest) = .ok (bs, rest) := by
  subst h
  simp [takeBytes]

theorem takeBytes_short {n : Nat} {rest : List Byte} (h : rest.length < n) :
    takeBytes n rest = .error .optionTruncated := if_pos h

/-- What was taken and what was left are the input. -/
theorem takeBytes_ok {n : Nat} {rest bs rest' : List Byte} (h : takeBytes n rest = .ok (bs, rest')) :
    rest = bs ++ rest' ∧ bs.length = n := by
  unfold takeBytes at h
  split_ifs at h with hl
  simp only [Except.ok.injEq, Prod.mk.injEq] at h
  obtain ⟨rfl, rfl⟩ := h
  exact ⟨(List.take_append_drop _ _).symm, by simp; omega⟩

theorem takeBytes_error {n : Nat} {rest : List Byte} {e : Raise} (h : takeBytes n rest = .error e) :
    e = .optionTruncated := by
  unfold takeBytes at h
  split_ifs at h
  simpa using h.symm

/-- What `opt_decode` raises. -/
theorem optDecode_error {prev : Word} {input : List Byte} {e : Raise} (h : optDecode prev input = .error e) :
    e = .optionUnexpectedExtendMarker ∨ e = .optionTruncated ∨ e = .unrepresentable := by
  unfold optDecode at h
  split at h
  · cases h
  · split_ifs at h
    · simp at h; exact .inl h.symm
    · split at h
      · simp only [Except.error.injEq] at h; subst h
        exact .inr (.inl (takeBytes_error ‹_›))
      · split at h
        · simp only [Except.error.injEq] at h; subst h
          exact .inr (.inl (takeBytes_error ‹_›))
        · split at h
          · simp only [Except.error.injEq] at h; subst h
            exact .inr (.inl (takeBytes_error ‹_›))
          · split_ifs at h
            simp at h; exact .inr (.inr h.symm)

/-- What an option that was read consumed: a header byte, at most four extension bytes, the value. -/
theorem optDecode_option {prev id : Word} {input val rest : List Byte}
    (h : optDecode prev input = .ok (.option id val rest)) :
    ∃ b dext lext, input = b :: (dext ++ (lext ++ (val ++ rest))) ∧
      prev.toNat ≤ id.toNat ∧ id.toNat = prev.toNat + extJoin (hiNibble b) dext := by
  unfold optDecode at h
  split at h
  · cases h
  · rename_i b rest0
    split_ifs at h with hb hn
    · cases h
    · split at h
      · cases h
      · rename_i dext rest1 h1
        split at h
        · cases h
        · rename_i lext rest2 h2
          split at h
          · cases h
          · rename_i val' rest3 h3
            split_ifs at h with hp
            simp only [Except.ok.injEq, Item.option.injEq] at h
            obtain ⟨rfl, rfl, rfl⟩ := h
            obtain ⟨rfl, -⟩ := takeBytes_ok h1
            obtain ⟨rfl, -⟩ := takeBytes_ok h2
            obtain ⟨rfl, -⟩ := takeBytes_ok h3
            refine ⟨b, dext, lext, rfl, ?_, ?_⟩ <;> rw [word_toNat_of_lt (by omega)]
            omega

theorem optDecode_marker {prev : Word} {input rest : List Byte} (h : optDecode prev input = .ok (.marker rest)) :
    input = 0xFF#8 :: rest := by
  unfold optDecode at h
  split at h
  · cases h
  · split_ifs at h with hb
    · simp only [Except.ok.injEq, Item.marker.injEq] at h
      rw [hb, h]
    · split at h
      · cases h
      · split at h
        · cases h
        · split at h
          · cases h
          · split_ifs at h
            cases h

/-! ### The sort -/

theorem mem_insertById {e x : OptEntry} {l : List OptEntry} : x ∈ insertById e l ↔ x = e ∨ x ∈ l := by
  induction l with
  | nil => simp [insertById]
  | cons y ys ih =>
    simp only [insertById]
    split_ifs
    · simp
    · simp [ih]; tauto

@[simp] theorem insertById_length (e : OptEntry) (l : List OptEntry) : (insertById e l).length = l.length + 1 := by
  induction l with
  | nil => rfl
  | cons y ys ih => simp only [insertById]; split_ifs <;> simp [ih]

@[simp] theorem sortById_length (l : List OptEntry) : (sortById l).length = l.length := by
  induction l with
  | nil => rfl
  | cons e es ih => simp [sortById, ih]

@[simp] theorem mem_sortById {x : OptEntry} {l : List OptEntry} : x ∈ sortById l ↔ x ∈ l := by
  induction l with
  | nil => simp [sortById]
  | cons e es ih => simp [sortById, mem_insertById, ih]

/-! ### The option list, encode side -/

theorem optEncode_length (prev id : Word) (val : List Byte) :
    (optEncode prev id val).length = optSize (delta prev id) val.length := by
  simp [optEncode, optSize, extBytes_length]; omega

theorem optsEncode_length (prev : Word) (l : List WireOption) : (optsEncode prev l).length = optsSize prev l := by
  induction l generalizing prev with
  | nil => rfl
  | cons o os ih => simp [optsEncode, optsSize, optEncode_length, ih]

/-- Each option costs at most five bytes more than its value. -/
theorem optsSize_le (prev : Word) (l : List WireOption) (b : Nat) (h : ∀ o ∈ l, o.2.length ≤ b) :
    optsSize prev l ≤ l.length * (5 + b) := by
  induction l generalizing prev with
  | nil => simp [optsSize]
  | cons o os ih =>
    have h1 := ih o.1 fun x hx => h x (by simp [hx])
    have h2 := h o (by simp)
    have h3 : ∀ a, extSize a ≤ 2 := fun a => by unfold extSize; split_ifs <;> omega
    have h4 := h3 (delta prev o.1)
    have h5 := h3 o.2.length
    simp only [optsSize, optSize, List.length_cons, Nat.add_mul]
    omega

/-- The values of a representable list are no longer than the wire format can say. -/
theorem optsRepresentable_value_le {prev : Word} {l : List WireOption} (h : optsRepresentable prev l = true) :
    ∀ o ∈ l, o.2.length ≤ maxRepresentable := by
  induction l generalizing prev with
  | nil => simp
  | cons o os ih =>
    simp only [optsRepresentable, Bool.and_eq_true, decide_eq_true_eq] at h
    intro x hx
    rcases List.mem_cons.1 hx with rfl | hx
    · exact h.1.2
    · exact ih h.2 x hx

@[simp] theorem State.wireOptions_length (s : State) : s.wireOptions.length = s.optCnt.toNat := by
  simp [State.wireOptions, State.options]

/-- A value is at most the size of a buffer, when the entry names one. -/
theorem State.valueBytes_length_le {s : State} (hw : s.params.wellFormed) {e : OptEntry} (h : s.entryOk e = true) :
    (s.valueBytes e).length ≤ s.bufBytes.toNat := by
  have h8 : 8 ≤ s.bufBytes.toNat := hw.1
  unfold State.valueBytes
  split_ifs with hk
  · rw [vluEnc_length]
    have := vluLen_le e.uval; omega
  · have hk2 : ¬ 2 < e.kind.toNat := by
      intro h2
      simp only [State.entryOk, Bool.and_eq_true, decide_eq_true_eq] at h
      apply hk
      rcases (show e.kind.toNat = 3 ∨ e.kind.toNat = 4 by omega) with h3 | h3
      · exact .inl (BitVec.eq_of_toNat_eq h3)
      · exact .inr (BitVec.eq_of_toNat_eq h3)
    simp only [State.entryOk, Bool.and_eq_true, Bool.or_eq_true, decide_eq_true_eq] at h
    simp only [State.memRead, Memory.read_length]
    omega

theorem State.optTableOk_entries {s : State} (h : s.optTableOk = true) :
    s.optCnt.toNat ≤ s.optCap.toNat ∧ ∀ e ∈ s.options, s.entryOk e = true := by
  simpa [State.optTableOk] using h

theorem State.wireOptions_value_le {s : State} (hw : s.params.wellFormed) (h : s.optTableOk = true) :
    ∀ o ∈ s.wireOptions, o.2.length ≤ s.bufBytes.toNat := by
  intro o ho
  simp only [State.wireOptions, List.mem_map, mem_sortById] at ho
  obtain ⟨e, he, rfl⟩ := ho
  exact State.valueBytes_length_le hw ((State.optTableOk_entries h).2 e he)

/-- The encoded options of a table that passed its check fit the bound of 00_scope.md R6. -/
theorem State.optsSize_wire_le {s : State} (hw : s.params.wellFormed) (h : s.optTableOk = true) :
    optsSize 0#32 s.wireOptions ≤ s.optCap.toNat * (5 + s.bufBytes.toNat) := by
  refine le_trans (optsSize_le _ _ _ (State.wireOptions_value_le hw h)) ?_
  rw [State.wireOptions_length]
  exact Nat.mul_le_mul_right _ (State.optTableOk_entries h).1

/-- The encoded options of a table that passed both checks are far shorter than a register can say. -/
theorem State.optsSize_wire_lt {s : State} (hw : s.params.wellFormed) (h : s.optTableOk = true)
    (hr : optsRepresentable 0#32 s.wireOptions = true) : optsSize 0#32 s.wireOptions < 2 ^ 32 - 2 ^ 30 := by
  have h1 := optsSize_le 0#32 s.wireOptions maxRepresentable (optsRepresentable_value_le hr)
  rw [State.wireOptions_length, maxRepresentable] at h1
  have h2 : s.optCnt.toNat ≤ 2 ^ 15 := (State.optTableOk_entries h).1.trans hw.2.2.1
  omega

/-- The three ends of the check every command that reads the table makes. -/
theorem State.checkedOptions_of_not_ok {s : State} (h : s.optTableOk = false) :
    s.checkedOptions = .error .badOperand := if_pos h

theorem State.checkedOptions_of_not_representable {s : State} (h : s.optTableOk = true)
    (hr : optsRepresentable 0#32 s.wireOptions = false) : s.checkedOptions = .error .unrepresentable := by
  simp [State.checkedOptions, h, hr]

theorem State.checkedOptions_of_ok {s : State} (h : s.optTableOk = true)
    (hr : optsRepresentable 0#32 s.wireOptions = true) : s.checkedOptions = .ok s.wireOptions := by
  simp [State.checkedOptions, h, hr]

theorem State.checkedOptions_cases (s : State) :
    (s.optTableOk = false ∧ s.checkedOptions = .error .badOperand) ∨
    (s.optTableOk = true ∧ optsRepresentable 0#32 s.wireOptions = false ∧ s.checkedOptions = .error .unrepresentable) ∨
    (s.optTableOk = true ∧ optsRepresentable 0#32 s.wireOptions = true ∧ s.checkedOptions = .ok s.wireOptions) := by
  cases h : s.optTableOk
  · exact .inl ⟨rfl, State.checkedOptions_of_not_ok h⟩
  · cases hr : optsRepresentable 0#32 s.wireOptions
    · exact .inr (.inl ⟨rfl, rfl, State.checkedOptions_of_not_representable h hr⟩)
    · exact .inr (.inr ⟨rfl, rfl, State.checkedOptions_of_ok h hr⟩)

/-- The check does not depend on anything but the table, VBUF and the capacities. -/
theorem State.checkedOptions_ok {s : State} {l : List WireOption} (h : s.checkedOptions = .ok l) :
    s.optTableOk = true ∧ optsRepresentable 0#32 s.wireOptions = true ∧ l = s.wireOptions := by
  rcases s.checkedOptions_cases with ⟨-, h'⟩ | ⟨-, -, h'⟩ | ⟨h1, h2, h'⟩
  · rw [h'] at h; cases h
  · rw [h'] at h; cases h
  · rw [h'] at h; simp only [Except.ok.injEq] at h; exact ⟨h1, h2, h.symm⟩

theorem State.checkedOptions_error {s : State} {e : Raise} (h : s.checkedOptions = .error e) :
    e = .badOperand ∨ e = .unrepresentable := by
  rcases s.checkedOptions_cases with ⟨-, h'⟩ | ⟨-, -, h'⟩ | ⟨-, -, h'⟩ <;> rw [h'] at h <;> simp at h
  · exact .inl h.symm
  · exact .inr h.symm

/-! ### The option list, decode side -/

/-- What `opts_decode` raises. -/
theorem optsDecodeLoop_error {rounds room : Nat} {prev : Word} {input : List Byte} {e : Raise}
    (h : optsDecodeLoop rounds room prev input = .error e) :
    e = .optionUnexpectedExtendMarker ∨ e = .optionTruncated ∨ e = .unrepresentable ∨ e = .optionsTooSmall := by
  induction rounds generalizing room prev input with
  | zero => cases h
  | succ n ih =>
    simp only [optsDecodeLoop] at h
    split at h
    · simp only [Except.error.injEq] at h; subst h
      have := optDecode_error ‹_›
      tauto
    · cases h
    · cases h
    · split at h
      · exact ih h
      · split at h
        · simp at h; exact .inr (.inr (.inr h.symm))
        · rename_i room
          cases hr : optsDecodeLoop n room _ _ with
          | error e' => rw [hr] at h; simp [Except.map] at h; subst h; exact ih hr
          | ok p => rw [hr] at h; simp [Except.map] at h

/-- The number of rounds granted does not matter once it exceeds the length of the input. -/
theorem optsDecodeLoop_rounds {n m room : Nat} {prev : Word} {input : List Byte} (hn : input.length < n)
    (hm : input.length < m) : optsDecodeLoop n room prev input = optsDecodeLoop m room prev input := by
  induction n generalizing m room prev input with
  | zero => omega
  | succ n ih =>
    obtain ⟨m, rfl⟩ := Nat.exists_eq_add_of_lt (show 0 < m by omega)
    simp only [optsDecodeLoop]
    split
    · rfl
    · rfl
    · rfl
    · rename_i id val rest hd
      obtain ⟨b, dext, lext, rfl, -, -⟩ := optDecode_option hd
      simp only [List.length_cons, List.length_append] at hn hm
      have h : ∀ k, optsDecodeLoop n k id rest = optsDecodeLoop (0 + m) k id rest := fun k =>
        ih (by omega) (by omega)
      simp only [h]

/-- One round of `opts_decode` on an option: the loop goes on with what follows it. -/
theorem optsDecodeFrom_option {room : Nat} {prev id : Word} {input val rest : List Byte}
    (hd : optDecode prev input = .ok (.option id val rest)) :
    optsDecodeFrom room prev input =
      match regFilter id val.length with
      | none => optsDecodeFrom room id rest
      | some fmt =>
        match room with
        | 0 => .error .optionsTooSmall
        | room + 1 => (optsDecodeFrom room id rest).map (Parsed.cons ⟨id, fmt, val⟩) := by
  have hl := congrArg List.length (optDecode_option hd).choose_spec.choose_spec.choose_spec.1
  simp only [List.length_cons, List.length_append] at hl
  have h : ∀ k, optsDecodeLoop input.length k id rest = optsDecodeFrom k id rest := fun k =>
    optsDecodeLoop_rounds (by omega) (by omega)
  rw [optsDecodeFrom, optsDecodeLoop]
  simp only [hd, h]
  all_goals cases regFilter id val.length <;> cases room <;> rfl

/-- The stored options fit the table, and their bytes and what follows fit the input. -/
theorem optsDecodeLoop_fits {rounds room : Nat} {prev : Word} {input : List Byte} {p : Parsed}
    (hr : input.length < rounds) (h : optsDecodeLoop rounds room prev input = .ok p) :
    p.stored.length ≤ room ∧ (storedBytes p.stored).length + p.rest.length ≤ input.length := by
  induction rounds generalizing room prev input p with
  | zero => omega
  | succ n ih =>
    simp only [optsDecodeLoop] at h
    split at h
    · cases h
    · simp only [Except.ok.injEq] at h; subst h
      simp [storedBytes]
    · rename_i rest hd
      simp only [Except.ok.injEq] at h; subst h
      rw [optDecode_marker hd]
      simp [storedBytes]
    · rename_i id val rest hd
      obtain ⟨b, dext, lext, rfl, -, -⟩ := optDecode_option hd
      simp only [List.length_cons, List.length_append] at hr ⊢
      split at h
      · have := ih (by omega) h
        omega
      · split at h
        · cases h
        · rename_i room
          cases hl : optsDecodeLoop n room id rest with
          | error e => rw [hl] at h; cases h
          | ok q =>
            rw [hl] at h
            simp only [Except.map, Except.ok.injEq] at h
            subst h
            have := ih (by omega) hl
            simp only [Parsed.cons, storedBytes, List.flatMap_cons, List.length_cons, List.length_append] at *
            omega

theorem optsDecode_fits {cap : Nat} {input : List Byte} {p : Parsed} (h : optsDecode cap input = .ok p) :
    p.stored.length ≤ cap ∧ (storedBytes p.stored).length + p.rest.length ≤ input.length :=
  optsDecodeLoop_fits (by omega) h

theorem optsDecode_error {cap : Nat} {input : List Byte} {e : Raise} (h : optsDecode cap input = .error e) :
    e = .optionUnexpectedExtendMarker ∨ e = .optionTruncated ∨ e = .unrepresentable ∨ e = .optionsTooSmall :=
  optsDecodeLoop_error h

theorem storedEntries_length (o : Nat) (xs : List Stored) : (storedEntries o xs).length = xs.length := by
  induction xs generalizing o with
  | nil => rfl
  | cons x xs ih => simp [storedEntries, ih]

end Sys2Proof.Machine
end

