-- ==== Sys2Proof/Laws/Headers.lean ====
section
/-! SUPPORT. The fields of a header byte as numbers, the bytes a packer writes, and when a packer's field check passes. -/

namespace Sys2Proof.Machine

/-! ### Fields of a byte -/

theorem versionBits_toNat (b : Byte) : (versionBits b).toNat = b.toNat / 64 := by
  have := b.isLt
  simp [versionBits, BitVec.extractLsb'_toNat, Nat.shiftRight_eq_div_pow]; omega

/-- The version bits of byte 0 as a number. -/
theorem versionBits_eq_iff (b : Byte) (v : BitVec 2) : versionBits b = v ↔ b.toNat / 64 = v.toNat := by
  rw [← versionBits_toNat]
  exact ⟨fun h => by rw [h], fun h => BitVec.eq_of_toNat_eq h⟩

theorem hiNibble_toNat (b : Byte) : (hiNibble b).toNat = b.toNat / 16 := by
  have := b.isLt
  simp [hiNibble, BitVec.extractLsb'_toNat, Nat.shiftRight_eq_div_pow]; omega

theorem loNibble_toNat (b : Byte) : (loNibble b).toNat = b.toNat % 16 := by
  simp [loNibble, BitVec.extractLsb'_toNat]

theorem nibbles_toNat (a b : BitVec 4) : (a ++ b : Byte).toNat = a.toNat * 16 + b.toNat := by
  have h := b.isLt
  simp only [BitVec.toNat_append]
  rw [← Nat.shiftLeft_add_eq_or_of_lt h, Nat.shiftLeft_eq]

/-- Byte 0 of the three headers, its parts most significant first. -/
theorem byte242_toNat (a : BitVec 2) (b : BitVec 4) (c : BitVec 2) :
    (a ++ b ++ c : Byte).toNat = a.toNat * 64 + b.toNat * 4 + c.toNat := by
  have h := b.isLt
  have h2 := c.isLt
  simp only [BitVec.toNat_append]
  rw [← Nat.shiftLeft_add_eq_or_of_lt h2, ← Nat.shiftLeft_add_eq_or_of_lt h, Nat.shiftLeft_eq, Nat.shiftLeft_eq]
  ring

theorem byte224_toNat (a b : BitVec 2) (c : BitVec 4) :
    (a ++ b ++ c : Byte).toNat = a.toNat * 64 + b.toNat * 16 + c.toNat := by
  have h := b.isLt
  have h2 := c.isLt
  simp only [BitVec.toNat_append]
  rw [← Nat.shiftLeft_add_eq_or_of_lt h2, ← Nat.shiftLeft_add_eq_or_of_lt h, Nat.shiftLeft_eq, Nat.shiftLeft_eq]
  ring

/-- A field of a byte as a register value. -/
theorem zext_extract (b : Byte) (k n : Nat) :
    zext (b.extractLsb' k n) = word (b.toNat / 2 ^ k % 2 ^ n) := by
  rw [zext_eq_word, BitVec.extractLsb'_toNat, Nat.shiftRight_eq_div_pow]

/-! ### Signed fields in range -/

/-- A signed field that is not negative is the number it spells. -/
theorem toInt_eq_toNat {v : Word} (h : 0 ≤ v.toInt) : v.toInt = v.toNat := by
  have := v.isLt
  rw [BitVec.toInt_eq_toNat_cond] at h ⊢
  split_ifs at h ⊢ <;> omega

theorem setWidth_toNat_of_lt {v : Word} {n : Nat} (h : v.toNat < 2 ^ n) : (v.setWidth n).toNat = v.toNat := by
  rw [BitVec.toNat_setWidth, Nat.mod_eq_of_lt h]

theorem State.typeOk_lt {s : State} (h : s.typeOk) : s.mType.toNat < 4 := by
  have := toInt_eq_toNat h.1; have := h.2; omega

theorem validateMid_lt {v : Word} (h : validateMid v.toInt) : v.toNat < 65536 := by
  have := toInt_eq_toNat h.1; have := h.2; omega

theorem validateEid_lt {v : Word} (h : validateEid v.toInt) : v.toNat < 16 := by
  have := toInt_eq_toNat h.1; have := h.2; omega

theorem validateEtp_lt {v : Word} (h : validateEtp v.toInt) : v.toNat < 16 := validateEid_lt h

/-! ### Lengths -/

@[simp] theorem hdr0Bytes_length (t : BitVec 2) (eid etp : BitVec 4) (crc : Half) :
    (hdr0Bytes t eid etp crc).length = 4 := rfl

@[simp] theorem hdr1Bytes_length (t : BitVec 2) (tkl : BitVec 4) (code : Byte) (mid : Half) :
    (hdr1Bytes t tkl code mid).length = 4 := rfl

@[simp] theorem hdr2Bytes_length (t : BitVec 2) (tkl eid etp : BitVec 4) (crc mid : Half) (code : Byte) :
    (hdr2Bytes t tkl eid etp crc mid code).length = 8 := rfl

@[simp] theorem State.hdr0_length (s : State) (crc : Half) : (s.hdr0 crc).length = 4 := rfl

@[simp] theorem State.hdr1_length (s : State) : s.hdr1.length = 4 := rfl

@[simp] theorem State.hdr2_length (s : State) (crc : Half) : (s.hdr2 crc).length = 8 := rfl

/-! ### Parsing what was packed -/

@[simp] theorem extractLsb'_append_lo {n m : Nat} (a : BitVec n) (b : BitVec m) :
    (a ++ b).extractLsb' 0 m = b := by
  apply BitVec.eq_of_toNat_eq
  have := b.isLt
  simp only [BitVec.extractLsb'_toNat, Nat.shiftRight_zero, BitVec.toNat_append]
  rw [← Nat.shiftLeft_add_eq_or_of_lt this, Nat.shiftLeft_eq]
  simp [Nat.mod_eq_of_lt this]

end Sys2Proof.Machine
end

