-- ==== Sys2Proof/Laws/Frames.lean ====
section
/-! SUPPORT. The length of every frame, what `body_parse` returns, and the two updates frames are written and stored
with, as single record updates. -/

namespace Sys2Proof.Machine

/-! ### Lengths -/

@[simp] theorem State.payload_length (s : State) : s.payload.length = s.plenEff := by simp [State.payload, State.memRead]

@[simp] theorem State.tokenBytes_length (s : State) : s.tokenBytes.length = s.mTkl.toNat := by
  simp [State.tokenBytes, State.memRead]

@[simp] theorem State.frame_length (s : State) : s.frame.length = s.flenEff := by simp [State.frame, State.memRead]

theorem payloadBytes_length (pay : List Byte) :
    (payloadBytes pay).length = if pay.length > 0 then 1 + pay.length else 0 := by
  unfold payloadBytes
  split_ifs <;> simp; omega

theorem bodyBytes_length (tok : List Byte) (l : List WireOption) (pay : List Byte) :
    (bodyBytes tok l pay).length = bodySize tok.length l pay.length := by
  simp [bodyBytes, bodySize, optsEncode_length, payloadBytes_length, Nat.add_assoc]

@[simp] theorem State.frameV0_length (s : State) : s.frameV0.length = 4 + s.plenEff := by simp [State.frameV0]

@[simp] theorem State.frameV1_length (s : State) (l : List WireOption) :
    (s.frameV1 l).length = 4 + bodySize s.mTkl.toNat l s.plenEff := by simp [State.frameV1, bodyBytes_length]

@[simp] theorem State.layoutV2_length (s : State) (l : List WireOption) :
    (s.layoutV2 l).length = 8 + bodySize s.mTkl.toNat l s.plenEff := by simp [State.layoutV2, bodyBytes_length]

@[simp] theorem State.frameV2_length (s : State) (l : List WireOption) :
    (s.frameV2 l).length = 8 + bodySize s.mTkl.toNat l s.plenEff := by simp [State.frameV2]

/-! ### Reading FBUF -/

theorem State.frame_drop (s : State) (n : Nat) : s.frame.drop n = s.fbuf.read n (s.flenEff - n) := by
  simp [State.frame, State.memRead, State.space, Memory.read_drop]

/-! ### The body -/

theorem bodyParse_short {cap tkl : Nat} {input : List Byte} (h : input.length < tkl) :
    bodyParse cap tkl input = .error .messageTruncated := if_pos h

/-- The body of an input that holds the token. -/
theorem bodyParse_of_le {cap tkl : Nat} {input : List Byte} (h : tkl ≤ input.length) :
    bodyParse cap tkl input = match optsDecode cap (input.drop tkl) with
      | .error e => .error e
      | .ok p => .ok { tok := input.take tkl, stored := p.stored, pay := p.rest } := if_neg (Nat.not_lt.mpr h)

theorem bodyParse_error {cap tkl : Nat} {input : List Byte} {e : Raise} (h : bodyParse cap tkl input = .error e) :
    e = .messageTruncated ∨ e = .optionUnexpectedExtendMarker ∨ e = .optionTruncated ∨ e = .unrepresentable ∨
      e = .optionsTooSmall := by
  by_cases hl : input.length < tkl
  · rw [bodyParse_short hl] at h
    simp at h; exact .inl h.symm
  · rw [bodyParse_of_le (by omega)] at h
    cases hd : optsDecode cap (input.drop tkl) with
    | error e' =>
      rw [hd] at h
      simp only [Except.error.injEq] at h
      subst h
      exact .inr (optsDecode_error hd)
    | ok p => rw [hd] at h; cases h

/-- What a body that parsed stores fits the table and the buffers. -/
theorem bodyParse_fits {cap tkl : Nat} {input : List Byte} {b : Body} (h : bodyParse cap tkl input = .ok b) :
    tkl ≤ input.length ∧ b.tok = input.take tkl ∧ b.stored.length ≤ cap ∧
      (storedBytes b.stored).length + b.pay.length + tkl ≤ input.length := by
  by_cases hl : input.length < tkl
  · rw [bodyParse_short hl] at h; cases h
  · rw [bodyParse_of_le (by omega)] at h
    cases hd : optsDecode cap (input.drop tkl) with
    | error e' => rw [hd] at h; cases h
    | ok p =>
      rw [hd] at h
      simp only [Except.ok.injEq] at h
      subst h
      have := optsDecode_fits hd
      simp only [List.length_drop] at this
      refine ⟨by omega, rfl, this.1, ?_⟩
      show (storedBytes p.stored).length + p.rest.length + tkl ≤ input.length
      omega

/-- What the decoders store, as one record update. -/
theorem State.storeBody_eq (s : State) (b : Body) :
    s.storeBody b = { s with
      token := s.token.write 0 b.tok
      vbuf := s.vbuf.write 0 (storedBytes b.stored)
      opt := s.opt.write 0 (storedEntries 0 b.stored)
      optCnt := word b.stored.length
      pbuf := s.pbuf.write 0 b.pay
      plen := word b.pay.length } := by
  simp only [State.storeBody, State.storePayload, State.storeOptions, State.memWrite]

end Sys2Proof.Machine
end

