-- ==== Sys2Proof/Laws/Commands.lean ====
section
/-! SUPPORT. Everything a command can do, said once per command: it ends OK on the state its rule leaves, or it takes
one of the exceptions named. Statements about all commands cite these and unfold no meaning. -/

namespace Sys2Proof.Machine

/-- The command ended OK on `u`. -/
abbrev EndedOk (t u : State) : Prop := t = { u with status := .ok }

/-- The command took one of the exceptions in `l`, each without a recorded size. -/
def Took (s t : State) (l : List Raise) : Prop := ∃ e ∈ l, t = s.takeException e

/-- The command `i` found no room in FBUF for the end its rule requires. -/
def TookTooSmall (i : Instr) (s t : State) : Prop :=
  s.ocapEff < requiredEnd i s ∧ t = s.takeException (.tooSmall (requiredEnd i s))

theorem next_inj {s t : State} (h : (.next s : Host.Outcome State Fault Refusal) = .next t) : s = t := by
  simpa using h

theorem roomFor_cases (s : State) (n : Nat) :
    (n ≤ s.ocapEff ∧ roomFor s n = .ok ()) ∨ (s.ocapEff < n ∧ roomFor s n = .error (.tooSmall n)) := by
  by_cases h : n ≤ s.ocapEff
  · exact .inl ⟨h, roomFor_of_le h⟩
  · exact .inr ⟨by omega, roomFor_of_gt (by omega)⟩

/-! ### Checksums -/

theorem execCrcInit_cases {s t : State} (h : execCrcInit s = .next t) : EndedOk t { s with crcAcc := 0xFFFF#16 } :=
  (next_inj h).symm

theorem execCrcUpd_cases {s t : State} (h : execCrcUpd s = .next t) :
    EndedOk t { s with crcAcc := crc16Step s.crcAcc s.byteOperand } := (next_inj h).symm

theorem execCrcFrm_cases {s t : State} (h : execCrcFrm s = .next t) :
    (s.needIn s.x0 s.x1 ∧ EndedOk t { s with crcAcc := crc16 (s.memRead .fbuf s.x0 s.x1) }) ∨
      Took s t [.badOperand] := by
  unfold execCrcFrm at h
  split_ifs at h with h1 <;> have := (next_inj h).symm
  · exact .inl ⟨h1, this⟩
  · exact .inr ⟨_, by simp, this⟩

theorem execCrcPay_cases {s t : State} (h : execCrcPay s = .next t) : EndedOk t { s with crcAcc := crc16 s.payload } :=
  (next_inj h).symm

theorem execSumInit_cases {s t : State} (h : execSumInit s = .next t) : EndedOk t { s with sumAcc := 0#8 } :=
  (next_inj h).symm

theorem execSumUpd_cases {s t : State} (h : execSumUpd s = .next t) :
    EndedOk t { s with sumAcc := rsum8Step s.sumAcc s.byteOperand } := (next_inj h).symm

theorem execSumFrm_cases {s t : State} (h : execSumFrm s = .next t) :
    (s.needIn s.x0 s.x1 ∧ EndedOk t { s with sumAcc := rsum8 (s.memRead .fbuf s.x0 s.x1) }) ∨
      Took s t [.badOperand] := by
  unfold execSumFrm at h
  split_ifs at h with h1 <;> have := (next_inj h).symm
  · exact .inl ⟨h1, this⟩
  · exact .inr ⟨_, by simp, this⟩

theorem execSumPatch_cases {s t : State} (h : execSumPatch s = .next t) :
    (8 ≤ s.flenEff ∧ 8 ≤ s.ocapEff ∧
      EndedOk t { s.memWrite .fbuf 7 [patchByte s.frame] with mRsum8 := patchByte s.frame }) ∨
      Took s t [.messageTruncated] ∨ TookTooSmall .sumPatch s t := by
  unfold execSumPatch at h
  split_ifs at h with h1 h2 <;> have := (next_inj h).symm
  · exact .inr (.inl ⟨_, by simp, this⟩)
  · exact .inr (.inr ⟨h2, this⟩)
  · exact .inl ⟨by omega, by omega, this⟩

/-! ### Varuint and validators -/

theorem execVluLen_cases {s t : State} (h : execVluLen s = .next t) :
    EndedOk t { s with a1 := word (vluLen s.a0) } := (next_inj h).symm

theorem execVluPut_cases {s t : State} (h : execVluPut s = .next t) :
    (s.cursor + vluLen s.a0 ≤ s.ocapEff ∧
      EndedOk t { s.putAtCursor (vluEnc s.a0) with a1 := word (vluLen s.a0) }) ∨ TookTooSmall .vluPut s t := by
  unfold execVluPut at h
  rcases roomFor_cases s (s.cursor + vluLen s.a0) with ⟨h1, h2⟩ | ⟨h1, h2⟩ <;> rw [h2] at h <;>
    have := (next_inj h).symm
  · exact .inl ⟨h1, this⟩
  · exact .inr ⟨h1, this⟩

theorem execVluGet_cases {s t : State} (h : execVluGet s = .next t) :
    (s.x1 ≤ 4 ∧ s.needIn s.cursor s.x1 ∧
      EndedOk t { s with a0 := vluDec (s.memRead .fbuf s.cursor s.x1), pos := word (s.cursor + s.x1) }) ∨
      Took s t [.badOperand, .messageTruncated] := by
  unfold execVluGet at h
  split_ifs at h with h1 h2 <;> have := (next_inj h).symm
  · exact .inr ⟨_, by simp, this⟩
  · exact .inl ⟨by omega, h2, this⟩
  · exact .inr ⟨_, by simp, this⟩

theorem validated_cases {s t : State} {ok : Bool} (h : validated s ok = .next t) :
    EndedOk t s ∨ Took s t [.invalidField] := by
  unfold validated at h
  split_ifs at h <;> have := (next_inj h).symm
  · exact .inl this
  · exact .inr ⟨_, by simp, this⟩

/-! ### Slicer -/

theorem execBfExt_cases {s t : State} (h : execBfExt s = .next t) :
    (bfBytes s.x0 s.x1 ≤ s.flenEff ∧ EndedOk t { s with a2 := bfGet s.frame s.x0 s.x1 }) ∨
      Took s t [.badOperand] := by
  unfold execBfExt at h
  split_ifs at h with h1 h2 <;> have := (next_inj h).symm
  · exact .inr ⟨_, by simp, this⟩
  · exact .inr ⟨_, by simp, this⟩
  · exact .inl ⟨by omega, this⟩

theorem execBfIns_cases {s t : State} (h : execBfIns s = .next t) :
    (1 ≤ s.x1 ∧ s.x1 ≤ 32 ∧ bfBytes s.x0 s.x1 ≤ s.ocapEff ∧
      EndedOk t (s.memWrite .fbuf 0 (bfSet (s.memRead .fbuf 0 (bfBytes s.x0 s.x1)) s.x0 s.x1 s.a2))) ∨
      Took s t [.badOperand] := by
  unfold execBfIns at h
  split_ifs at h with h1 h2 <;> have := (next_inj h).symm
  · exact .inr ⟨_, by simp, this⟩
  · exact .inr ⟨_, by simp, this⟩
  · exact .inl ⟨by omega, by omega, by omega, this⟩

/-! ### Registry -/

theorem execRegLookup_cases {s t : State} (h : execRegLookup s = .next t) :
    ∃ a1 a2 a3, EndedOk t { s with a1 := a1, a2 := a2, a3 := a3 } := by
  unfold execRegLookup at h
  split at h <;> exact ⟨_, _, _, (next_inj h).symm⟩

theorem execRegCheck_cases {s t : State} (h : execRegCheck s = .next t) :
    (∃ a2, EndedOk t { s with a2 := a2 }) ∨ Took s t [.invalidValueLength] := by
  unfold execRegCheck at h
  split at h
  · exact .inl ⟨_, (next_inj h).symm⟩
  · split_ifs at h <;> have := (next_inj h).symm
    · exact .inr ⟨_, by simp, this⟩
    · exact .inl ⟨_, this⟩

theorem execCtMap_cases {s t : State} (h : execCtMap s = .next t) : EndedOk t { s with a0 := ctMap s.mEtp s.mEid } :=
  (next_inj h).symm

/-! ### Options -/

theorem execOptBegin_cases {s t : State} (h : execOptBegin s = .next t) : EndedOk t { s with prevId := 0#32 } :=
  (next_inj h).symm

theorem execOptSize_cases {s t : State} (h : execOptSize s = .next t) :
    EndedOk t { s with a3 := word (optSize (delta s.prevId s.a0) s.x2) } ∨ Took s t [.unrepresentable] := by
  unfold execOptSize at h
  split_ifs at h <;> have := (next_inj h).symm
  · exact .inr ⟨_, by simp, this⟩
  · exact .inl this
  · exact .inr ⟨_, by simp, this⟩

theorem execOptPut_cases {s t : State} (h : execOptPut s = .next t) :
    (s.cursor + optSize (delta s.prevId s.a0) s.x2 ≤ s.ocapEff ∧
      EndedOk t { s.putAtCursor (optEncode s.prevId s.a0 (s.memRead .vbuf s.x1 s.x2)) with
        a3 := word (optSize (delta s.prevId s.a0) s.x2)
        prevId := s.a0 }) ∨
      Took s t [.badOperand, .unrepresentable] ∨ TookTooSmall .optPut s t := by
  unfold execOptPut at h
  split_ifs at h
  · exact .inr (.inl ⟨_, by simp, (next_inj h).symm⟩)
  · exact .inr (.inl ⟨_, by simp, (next_inj h).symm⟩)
  · dsimp only at h
    rcases roomFor_cases s (s.cursor + optSize (delta s.prevId s.a0) s.x2) with ⟨h1, h2⟩ | ⟨h1, h2⟩ <;> rw [h2] at h <;>
      have := (next_inj h).symm
    · exact .inl ⟨h1, this⟩
    · exact .inr (.inr ⟨h1, this⟩)
  · exact .inr (.inl ⟨_, by simp, (next_inj h).symm⟩)

theorem execOptGet_cases {s t : State} (h : execOptGet s = .next t) :
    (s.cursor ≤ s.flenEff ∧ optDecode s.prevId (s.frame.drop s.cursor) = .ok .done ∧ EndedOk t { s with a3 := 1#32 }) ∨
    (∃ rest, s.cursor ≤ s.flenEff ∧ optDecode s.prevId (s.frame.drop s.cursor) = .ok (.marker rest) ∧
      EndedOk t { s with a3 := 2#32, pos := word (s.flenEff - rest.length) }) ∨
    (∃ id val rest, s.cursor ≤ s.flenEff ∧ optDecode s.prevId (s.frame.drop s.cursor) = .ok (.option id val rest) ∧
      EndedOk t { s with
        a3 := 0#32
        a0 := id
        a1 := word (s.flenEff - rest.length - val.length)
        a2 := word val.length
        prevId := id
        pos := word (s.flenEff - rest.length) }) ∨
      Took s t [.badOperand, .optionUnexpectedExtendMarker, .optionTruncated, .unrepresentable] := by
  unfold execOptGet at h
  split_ifs at h with h1
  · exact .inr (.inr (.inr ⟨_, by simp, (next_inj h).symm⟩))
  · split at h <;> have := (next_inj h).symm
    · have he := optDecode_error ‹_›
      exact .inr (.inr (.inr ⟨_, by simp; tauto, this⟩))
    · exact .inl ⟨by omega, ‹_›, this⟩
    · exact .inr (.inl ⟨_, by omega, ‹_›, this⟩)
    · exact .inr (.inr (.inl ⟨_, _, _, by omega, ‹_›, this⟩))

theorem execOptsSize_cases {s t : State} (h : execOptsSize s = .next t) :
    (s.optTableOk = true ∧ optsRepresentable 0#32 s.wireOptions = true ∧
      EndedOk t { s with a0 := word (optsSize 0#32 s.wireOptions) }) ∨
      Took s t [.badOperand, .unrepresentable] := by
  unfold execOptsSize at h
  rcases s.checkedOptions_cases with ⟨h1, h2⟩ | ⟨h1, h2, h3⟩ | ⟨h1, h2, h3⟩
  · rw [h2] at h; exact .inr ⟨_, by simp, (next_inj h).symm⟩
  · rw [h3] at h; exact .inr ⟨_, by simp, (next_inj h).symm⟩
  · rw [h3] at h; exact .inl ⟨h1, h2, (next_inj h).symm⟩

theorem execOptsEnc_cases {s t : State} (h : execOptsEnc s = .next t) :
    (s.optTableOk = true ∧ optsRepresentable 0#32 s.wireOptions = true ∧
      s.cursor + optsSize 0#32 s.wireOptions ≤ s.ocapEff ∧
      EndedOk t { s.putAtCursor (optsEncode 0#32 s.wireOptions) with
        a0 := word (optsSize 0#32 s.wireOptions)
        prevId := lastId s.wireOptions }) ∨
      Took s t [.badOperand, .unrepresentable] ∨
      (s.optTableOk = true ∧ optsRepresentable 0#32 s.wireOptions = true ∧ TookTooSmall .optsEnc s t) := by
  unfold execOptsEnc at h
  rcases s.checkedOptions_cases with ⟨h1, h2⟩ | ⟨h1, h2, h3⟩ | ⟨h1, h2, h3⟩
  · rw [h2] at h; exact .inr (.inl ⟨_, by simp, (next_inj h).symm⟩)
  · rw [h3] at h; exact .inr (.inl ⟨_, by simp, (next_inj h).symm⟩)
  · rw [h3] at h
    dsimp only at h
    rcases roomFor_cases s (s.cursor + optsSize 0#32 s.wireOptions) with ⟨h4, h5⟩ | ⟨h4, h5⟩ <;> rw [h5] at h <;>
      have := (next_inj h).symm
    · exact .inl ⟨h1, h2, h4, this⟩
    · exact .inr (.inr ⟨h1, h2, h4, this⟩)

theorem execOptsDec_cases {s t : State} (h : execOptsDec s = .next t) :
    (∃ p, s.cursor ≤ s.flenEff ∧ optsDecode s.optCap.toNat (s.frame.drop s.cursor) = .ok p ∧
      EndedOk t { s.storeOptions p.stored with
        a3 := p.stop.code
        prevId := p.last
        pos := word (s.flenEff - p.rest.length) }) ∨
      Took s t [.badOperand, .optionUnexpectedExtendMarker, .optionTruncated, .unrepresentable, .optionsTooSmall] := by
  unfold execOptsDec at h
  split_ifs at h with h1
  · exact .inr ⟨_, by simp, (next_inj h).symm⟩
  · split at h <;> have := (next_inj h).symm
    · have he := optsDecode_error ‹_›
      exact .inr ⟨_, by simp; tauto, this⟩
    · exact .inl ⟨_, by omega, ‹_›, this⟩

/-! ### Headers -/

theorem execMsgReset_cases {s t : State} (h : execMsgReset s = .next t) :
    EndedOk t { s with
      mVer := 0#32, mType := 0#32, mMid := 0#32, mEid := 0#32, mEtp := 0#32
      mCode := 0#8, mCrc16 := 0#16, mRsum8 := 0#8, mTkl := 0#4
      optCnt := 0#32
      plen := 0#32 } := (next_inj h).symm

theorem execHdr0Pack_cases {s t : State} (h : execHdr0Pack s = .next t) :
    (s.fieldsOk0 ∧ 4 ≤ s.ocapEff ∧ EndedOk t (s.packHeader (s.hdr0 s.mCrc16))) ∨
      Took s t [.invalidField] ∨ TookTooSmall .hdr0Pack s t := by
  unfold execHdr0Pack at h
  split_ifs at h with h1 h2 <;> have := (next_inj h).symm
  · exact .inr (.inr ⟨h2, this⟩)
  · exact .inl ⟨h1, by omega, this⟩
  · exact .inr (.inl ⟨_, by simp, this⟩)

theorem execHdr0Unpack_cases {s t : State} (h : execHdr0Unpack s = .next t) :
    (4 ≤ s.flenEff ∧ EndedOk t { s.loadHdr0 (hdr0Parse (s.memRead .fbuf 0 4)) with pos := 4#32 }) ∨
      Took s t [.messageTruncated, .messageInvalidVersion] := by
  unfold execHdr0Unpack at h
  split_ifs at h with h1 h2
  · exact .inr ⟨_, by simp, (next_inj h).symm⟩
  · exact .inr ⟨_, by simp, (next_inj h).symm⟩
  · exact .inl ⟨by omega, (next_inj h).symm⟩

theorem execHdr1Pack_cases {s t : State} (h : execHdr1Pack s = .next t) :
    (s.fieldsOk1 ∧ s.mTkl.toNat ≤ 8 ∧ 4 ≤ s.ocapEff ∧ EndedOk t (s.packHeader s.hdr1)) ∨
      Took s t [.invalidField, .invalidTokenLen] ∨ TookTooSmall .hdr1Pack s t := by
  unfold execHdr1Pack at h
  split_ifs at h with h1 h2 h3 <;> have := (next_inj h).symm
  · exact .inr (.inl ⟨_, by simp, this⟩)
  · exact .inr (.inr ⟨h3, this⟩)
  · exact .inl ⟨h1, by omega, by omega, this⟩
  · exact .inr (.inl ⟨_, by simp, this⟩)

theorem execHdr1Unpack_cases {s t : State} (h : execHdr1Unpack s = .next t) :
    (4 ≤ s.flenEff ∧ (hdr1Parse (s.memRead .fbuf 0 4)).tkl.toNat ≤ 8 ∧
      EndedOk t { s.loadHdr1 (hdr1Parse (s.memRead .fbuf 0 4)) with pos := 4#32 }) ∨
      Took s t [.messageTruncated, .messageInvalidVersion, .invalidTokenLen] := by
  unfold execHdr1Unpack at h
  dsimp only at h
  split_ifs at h with h1 h2 h3
  · exact .inr ⟨_, by simp, (next_inj h).symm⟩
  · exact .inr ⟨_, by simp, (next_inj h).symm⟩
  · exact .inr ⟨_, by simp, (next_inj h).symm⟩
  · exact .inl ⟨by omega, by omega, (next_inj h).symm⟩

theorem execHdr2Pack_cases {s t : State} (h : execHdr2Pack s = .next t) :
    (s.fieldsOk2 ∧ s.mTkl.toNat ≤ 8 ∧ 8 ≤ s.ocapEff ∧ EndedOk t (s.packHeader (s.hdr2 s.mCrc16))) ∨
      Took s t [.invalidField, .invalidTokenLen] ∨ TookTooSmall .hdr2Pack s t := by
  unfold execHdr2Pack at h
  split_ifs at h with h1 h2 h3 <;> have := (next_inj h).symm
  · exact .inr (.inl ⟨_, by simp, this⟩)
  · exact .inr (.inr ⟨h3, this⟩)
  · exact .inl ⟨h1, by omega, by omega, this⟩
  · exact .inr (.inl ⟨_, by simp, this⟩)

theorem execHdr2Unpack_cases {s t : State} (h : execHdr2Unpack s = .next t) :
    (8 ≤ s.flenEff ∧ (hdr2Parse (s.memRead .fbuf 0 8)).tkl.toNat ≤ 8 ∧
      EndedOk t { s.loadHdr2 (hdr2Parse (s.memRead .fbuf 0 8)) with pos := 8#32 }) ∨
      Took s t [.messageTruncated, .messageInvalidVersion, .invalidTokenLen] := by
  unfold execHdr2Unpack at h
  dsimp only at h
  split_ifs at h with h1 h2 h3
  · exact .inr ⟨_, by simp, (next_inj h).symm⟩
  · exact .inr ⟨_, by simp, (next_inj h).symm⟩
  · exact .inr ⟨_, by simp, (next_inj h).symm⟩
  · exact .inl ⟨by omega, by omega, (next_inj h).symm⟩

/-! ### Frames -/

theorem execSizeV0_cases {s t : State} (h : execSizeV0 s = .next t) : EndedOk t (s.recordSize (4 + s.plenEff)) :=
  (next_inj h).symm

theorem execSizeV1_cases {s t : State} (h : execSizeV1 s = .next t) :
    (s.optTableOk = true ∧ optsRepresentable 0#32 s.wireOptions = true ∧
      EndedOk t (s.recordSize (4 + bodySize s.mTkl.toNat s.wireOptions s.plenEff))) ∨
      Took s t [.badOperand, .unrepresentable] := by
  unfold execSizeV1 at h
  rcases s.checkedOptions_cases with ⟨h1, h2⟩ | ⟨h1, h2, h3⟩ | ⟨h1, h2, h3⟩
  · rw [h2] at h; exact .inr ⟨_, by simp, (next_inj h).symm⟩
  · rw [h3] at h; exact .inr ⟨_, by simp, (next_inj h).symm⟩
  · rw [h3] at h; exact .inl ⟨h1, h2, (next_inj h).symm⟩

theorem execSizeV2_cases {s t : State} (h : execSizeV2 s = .next t) :
    (s.optTableOk = true ∧ optsRepresentable 0#32 s.wireOptions = true ∧
      EndedOk t (s.recordSize (8 + bodySize s.mTkl.toNat s.wireOptions s.plenEff))) ∨
      Took s t [.badOperand, .unrepresentable] := by
  unfold execSizeV2 at h
  rcases s.checkedOptions_cases with ⟨h1, h2⟩ | ⟨h1, h2, h3⟩ | ⟨h1, h2, h3⟩
  · rw [h2] at h; exact .inr ⟨_, by simp, (next_inj h).symm⟩
  · rw [h3] at h; exact .inr ⟨_, by simp, (next_inj h).symm⟩
  · rw [h3] at h; exact .inl ⟨h1, h2, (next_inj h).symm⟩

theorem execEncV0_cases {s t : State} (h : execEncV0 s = .next t) :
    (s.fieldsOk0 ∧ 4 + s.plenEff ≤ s.ocapEff ∧
      EndedOk t { s.emitFrame (4 + s.plenEff) s.frameV0 with mCrc16 := crc16 s.payload }) ∨
      Took s t [.invalidField] ∨ TookTooSmall .encV0 s t := by
  unfold execEncV0 at h
  split_ifs at h with h1
  · rcases roomFor_cases s (4 + s.plenEff) with ⟨h4, h5⟩ | ⟨h4, h5⟩ <;> rw [h5] at h <;> have := (next_inj h).symm
    · exact .inl ⟨h1, h4, this⟩
    · exact .inr (.inr ⟨h4, this⟩)
  · exact .inr (.inl ⟨_, by simp, (next_inj h).symm⟩)

theorem execDecV0_cases {s t : State} (h : execDecV0 s = .next t) :
    (4 ≤ s.flenEff ∧ versionBits (s.fbuf.get 0) = 0b00#2 ∧
      crc16 (s.memRead .fbuf 4 (s.flenEff - 4)) = (hdr0Parse (s.memRead .fbuf 0 4)).crc ∧
      EndedOk t { (s.loadHdr0 (hdr0Parse (s.memRead .fbuf 0 4))).storePayload
        (s.memRead .fbuf 4 (s.flenEff - 4)) with pos := word s.flenEff }) ∨
      Took s t [.messageTruncated, .messageInvalidVersion, .invalidRCRC16] := by
  unfold execDecV0 at h
  dsimp only at h
  split_ifs at h with h1 h2 h3 <;> have := (next_inj h).symm
  · exact .inr ⟨_, by simp, this⟩
  · exact .inr ⟨_, by simp, this⟩
  · exact .inr ⟨_, by simp, this⟩
  · exact .inl ⟨by omega, not_not.1 h2, not_not.1 h3, this⟩

theorem execEncV1_cases {s t : State} (h : execEncV1 s = .next t) :
    (s.fieldsOk1 ∧ s.mTkl.toNat ≤ 8 ∧ s.optTableOk = true ∧ optsRepresentable 0#32 s.wireOptions = true ∧
      4 + bodySize s.mTkl.toNat s.wireOptions s.plenEff ≤ s.ocapEff ∧
      EndedOk t (s.emitFrame (4 + bodySize s.mTkl.toNat s.wireOptions s.plenEff) (s.frameV1 s.wireOptions))) ∨
      Took s t [.invalidField, .invalidTokenLen, .badOperand, .unrepresentable] ∨
      (s.optTableOk = true ∧ optsRepresentable 0#32 s.wireOptions = true ∧ TookTooSmall .encV1 s t) := by
  unfold execEncV1 at h
  split_ifs at h with h1 h2
  · exact .inr (.inl ⟨_, by simp, (next_inj h).symm⟩)
  · rcases s.checkedOptions_cases with ⟨h3, h4⟩ | ⟨h3, h4, h5⟩ | ⟨h3, h4, h5⟩
    · rw [h4] at h; exact .inr (.inl ⟨_, by simp, (next_inj h).symm⟩)
    · rw [h5] at h; exact .inr (.inl ⟨_, by simp, (next_inj h).symm⟩)
    · rw [h5] at h
      dsimp only at h
      rcases roomFor_cases s (4 + bodySize s.mTkl.toNat s.wireOptions s.plenEff) with ⟨h6, h7⟩ | ⟨h6, h7⟩ <;>
        rw [h7] at h <;> have := (next_inj h).symm
      · exact .inl ⟨h1, by omega, h3, h4, h6, this⟩
      · exact .inr (.inr ⟨h3, h4, h6, this⟩)
  · exact .inr (.inl ⟨_, by simp, (next_inj h).symm⟩)

theorem execDecV1_cases {s t : State} (h : execDecV1 s = .next t) :
    (∃ b, 4 ≤ s.flenEff ∧ versionBits (s.fbuf.get 0) = 0b01#2 ∧
      (hdr1Parse (s.memRead .fbuf 0 4)).tkl.toNat ≤ 8 ∧
      bodyParse s.optCap.toNat (hdr1Parse (s.memRead .fbuf 0 4)).tkl.toNat (s.frame.drop 4) = .ok b ∧
      EndedOk t { (s.loadHdr1 (hdr1Parse (s.memRead .fbuf 0 4))).storeBody b with pos := word s.flenEff }) ∨
      Took s t [.messageTruncated, .messageInvalidVersion, .invalidTokenLen, .optionUnexpectedExtendMarker,
        .optionTruncated, .unrepresentable, .optionsTooSmall] := by
  unfold execDecV1 at h
  dsimp only at h
  split_ifs at h with h1 h2 h3
  · exact .inr ⟨_, by simp, (next_inj h).symm⟩
  · exact .inr ⟨_, by simp, (next_inj h).symm⟩
  · exact .inr ⟨_, by simp, (next_inj h).symm⟩
  · split at h <;> have := (next_inj h).symm
    · have he := bodyParse_error ‹_›
      exact .inr ⟨_, by simp; tauto, this⟩
    · exact .inl ⟨_, by omega, not_not.1 h2, by omega, ‹_›, this⟩

theorem execEncV2_cases {s t : State} (h : execEncV2 s = .next t) :
    (s.fieldsOk2 ∧ s.mTkl.toNat ≤ 8 ∧ s.optTableOk = true ∧ optsRepresentable 0#32 s.wireOptions = true ∧
      8 + bodySize s.mTkl.toNat s.wireOptions s.plenEff ≤ s.ocapEff ∧
      EndedOk t { s.emitFrame (8 + bodySize s.mTkl.toNat s.wireOptions s.plenEff) (s.frameV2 s.wireOptions) with
        mCrc16 := crc16 s.payload
        mRsum8 := rsum8 (s.layoutV2 s.wireOptions) }) ∨
      Took s t [.invalidField, .invalidTokenLen, .badOperand, .unrepresentable] ∨
      (s.optTableOk = true ∧ optsRepresentable 0#32 s.wireOptions = true ∧ TookTooSmall .encV2 s t) := by
  unfold execEncV2 at h
  split_ifs at h with h1 h2
  · exact .inr (.inl ⟨_, by simp, (next_inj h).symm⟩)
  · rcases s.checkedOptions_cases with ⟨h3, h4⟩ | ⟨h3, h4, h5⟩ | ⟨h3, h4, h5⟩
    · rw [h4] at h; exact .inr (.inl ⟨_, by simp, (next_inj h).symm⟩)
    · rw [h5] at h; exact .inr (.inl ⟨_, by simp, (next_inj h).symm⟩)
    · rw [h5] at h
      dsimp only at h
      rcases roomFor_cases s (8 + bodySize s.mTkl.toNat s.wireOptions s.plenEff) with ⟨h6, h7⟩ | ⟨h6, h7⟩ <;>
        rw [h7] at h <;> have := (next_inj h).symm
      · exact .inl ⟨h1, by omega, h3, h4, h6, this⟩
      · exact .inr (.inr ⟨h3, h4, h6, this⟩)
  · exact .inr (.inl ⟨_, by simp, (next_inj h).symm⟩)

theorem execDecV2_cases {s t : State} (h : execDecV2 s = .next t) :
    (∃ b, 8 ≤ s.flenEff ∧ rsum8 s.frame = 0#8 ∧ versionBits (s.fbuf.get 0) = 0b10#2 ∧
      (hdr2Parse (s.memRead .fbuf 0 8)).tkl.toNat ≤ 8 ∧
      bodyParse s.optCap.toNat (hdr2Parse (s.memRead .fbuf 0 8)).tkl.toNat (s.frame.drop 8) = .ok b ∧
      crc16 b.pay = (hdr2Parse (s.memRead .fbuf 0 8)).crc ∧
      EndedOk t { (s.loadHdr2 (hdr2Parse (s.memRead .fbuf 0 8))).storeBody b with pos := word s.flenEff }) ∨
      Took s t [.messageTruncated, .messageInvalidRSUM8, .messageInvalidVersion, .invalidTokenLen,
        .optionUnexpectedExtendMarker, .optionTruncated, .unrepresentable, .optionsTooSmall, .invalidRCRC16] := by
  unfold execDecV2 at h
  dsimp only at h
  split_ifs at h with h1 h2 h3 h4
  · exact .inr ⟨_, by simp, (next_inj h).symm⟩
  · exact .inr ⟨_, by simp, (next_inj h).symm⟩
  · exact .inr ⟨_, by simp, (next_inj h).symm⟩
  · exact .inr ⟨_, by simp, (next_inj h).symm⟩
  · split at h
    · have he := bodyParse_error ‹_›
      exact .inr ⟨_, by simp; tauto, (next_inj h).symm⟩
    · split_ifs at h with h5 <;> have := (next_inj h).symm
      · exact .inr ⟨_, by simp, this⟩
      · exact .inl ⟨_, by omega, not_not.1 h2, not_not.1 h3, by omega, ‹_›, not_not.1 h5, this⟩

end Sys2Proof.Machine
end

