-- ==== Sys2Proof/Laws/HostPort.lean ====
section
/-! SUPPORT. What a host access sees and changes: a read does not depend on the model's own fields, a write leaves the
capacities and the model's own fields. -/

namespace Sys2Proof.Machine

@[simp] theorem readPort_own (s : State) (l : List HostAction) (r : Word) (p : Port) :
    State.readPort { s with host := l, rdata := r } p = s.readPort p := by
  cases p with
  | reg r => cases r <;> rfl
  | _ => rfl

@[simp] theorem portOf_own (s : State) (l : List HostAction) (r : Word) (off : Nat) :
    portOf { s with host := l, rdata := r } off = portOf s off := rfl

/-- The only offset at which CMD stands is 0. -/
theorem portOf_eq_cmd {s : State} {off : Nat} (h : portOf s off = .reg .cmd) : off = 0 := by
  simp only [portOf] at h
  split_ifs at h with h1 h2
  · cases hf : regMap.find? fun r => r.1 == off with
    | none => simp [hf] at h
    | some r =>
      simp only [hf, Port.reg.injEq] at h
      have hr : r.1 = off := by simpa using List.find?_some hf
      have hall : ∀ r ∈ regMap, r.2 = .cmd → r.1 = 0 := by decide
      rw [← hr]; exact hall r (List.mem_of_find?_eq_some hf) h
  · simp only [optPort] at h
    split_ifs at h
    cases hf : optFieldAt ((off - optBase) % 32) <;> simp [hf] at h

/-! ### What stands at the offsets of the memories (20_memory.md R70) -/

theorem portOf_token (s : State) {k : Nat} (hk : k < 8) : portOf s (0x068 + k) = .token k := by
  have h1 : 0x068 + k < optBase := by rw [optBase]; omega
  rw [portOf, if_pos h1, if_pos (by omega)]
  congr 1; omega

theorem portOf_opt {s : State} (hw : s.params.wellFormed) {i f : Nat} (hi : i < s.optCap.toNat) (hf : f < 32) :
    portOf s (0x00100000 + 32 * i + f) = match optFieldAt f with | some x => .opt i x | none => .reserved := by
  have ho : s.optCap.toNat ≤ 2 ^ 15 := hw.2.2.1
  unfold portOf
  generalize hb1 : optBase = b1
  generalize hb2 : fbufBase = b2
  rw [optBase] at hb1
  rw [fbufBase] at hb2
  rw [if_neg (by omega), if_pos (by omega), optPort, show (0x00100000 + 32 * i + f - b1) / 32 = i by omega,
    show (0x00100000 + 32 * i + f - b1) % 32 = f by omega, if_pos hi]
  all_goals cases optFieldAt f <;> rfl

theorem portOf_buffers {s : State} (hw : s.params.wellFormed) {k : Nat} (hk : k < s.bufBytes.toNat) :
    portOf s (0x01000000 + k) = .fbuf k ∧ portOf s (0x02000000 + k) = .pbuf k ∧
      portOf s (0x03000000 + k) = .vbuf k := by
  have hb : s.bufBytes.toNat ≤ 2 ^ 24 := hw.2.1
  unfold portOf
  generalize hb1 : optBase = b1
  generalize hb2 : fbufBase = b2
  generalize hb3 : pbufBase = b3
  generalize hb4 : vbufBase = b4
  rw [optBase] at hb1
  rw [fbufBase] at hb2
  rw [pbufBase] at hb3
  rw [vbufBase] at hb4
  refine ⟨?_, ?_, ?_⟩ <;> split_ifs <;> first | omega | (congr 1; omega)

/-- A host write anywhere but at CMD: one port is written. -/
theorem step_write_off {s : State} {off : Nat} {v : Word} {rest : List HostAction}
    (h : s.host = .write off v :: rest) (h0 : off ≠ 0) :
    step s = .next ({ s with host := rest }.writePort (portOf s off) v) := by
  rw [step_write h, serveWrite, portOf_host, if_neg fun hc => h0 (portOf_eq_cmd hc)]

/-- Whether a port that names a cell of a memory names one inside it. -/
def State.portInside (s : State) : Port → Prop
  | .token k => k < 8
  | .opt i _ => i < s.optCap.toNat
  | .fbuf k => k < s.bufBytes.toNat
  | .pbuf k => k < s.bufBytes.toNat
  | .vbuf k => k < s.bufBytes.toNat
  | .reg _ => True
  | .reserved => True

/-- What stands at an offset is inside its memory. -/
theorem portOf_inside (s : State) (off : Nat) : s.portInside (portOf s off) := by
  unfold portOf
  generalize optBase = b1, fbufBase = b2, pbufBase = b3, vbufBase = b4
  split_ifs with h1 h2 h3 h4 h5 h6 h7 h8
  · obtain ⟨g1, g2⟩ := h2
    exact (by omega : off - 0x068 < 8)
  · cases regMap.find? fun r => r.1 == off <;> exact trivial
  · unfold optPort
    split_ifs with g
    · cases optFieldAt ((off - b1) % 32)
      · exact trivial
      · exact g
    · exact trivial
  · exact h5
  · exact trivial
  · exact h7
  · exact trivial
  · exact h8
  · exact trivial

@[simp] theorem writeReg_own (s : State) (r : Reg) (v : Word) :
    (s.writeReg r v).host = s.host ∧ (s.writeReg r v).bufBytes = s.bufBytes ∧
      (s.writeReg r v).optCap = s.optCap := by
  cases r <;> exact ⟨rfl, rfl, rfl⟩

/-- A register write touches no memory. -/
theorem writeReg_memories (s : State) (r : Reg) (v : Word) :
    (s.writeReg r v).fbuf = s.fbuf ∧ (s.writeReg r v).pbuf = s.pbuf ∧ (s.writeReg r v).vbuf = s.vbuf ∧
      (s.writeReg r v).token = s.token ∧ (s.writeReg r v).opt = s.opt := by
  cases r <;> exact ⟨rfl, rfl, rfl, rfl, rfl⟩

end Sys2Proof.Machine
end

