-- ==== Sys2Proof/Laws/Invariant.lean ====
section
/-! SUPPORT. What keeps the invariant: a state with the same memories, one FBUF write inside the buffer, the updates of
the decoders, a taken exception, a host write. The reset memories are canonical. -/

namespace Sys2Proof.Machine

/-- The fields the invariant is about, but FBUF. -/
structure State.SameButFbuf (s t : State) : Prop where
  pbuf : t.pbuf = s.pbuf
  vbuf : t.vbuf = s.vbuf
  token : t.token = s.token
  opt : t.opt = s.opt
  bufBytes : t.bufBytes = s.bufBytes
  optCap : t.optCap = s.optCap

theorem State.SameButFbuf.params {s t : State} (h : s.SameButFbuf t) : t.params = s.params := by
  simp [State.params, h.bufBytes, h.optCap]

theorem State.Inv.of_same {s t : State} (hi : s.Inv) (h : s.SameButFbuf t) (hf : t.fbuf = s.fbuf) : t.Inv := by
  unfold State.Inv State.memoriesCanonical State.memoriesWithin
  rw [h.params, h.pbuf, h.vbuf, h.token, h.opt, h.bufBytes, h.optCap, hf]
  exact hi

theorem State.Inv.of_fbuf {s t : State} (hi : s.Inv) (h : s.SameButFbuf t) {a : Nat} {bs : List Byte}
    (hf : t.fbuf = s.fbuf.write a bs) (hb : a + bs.length ≤ s.bufBytes.toNat) : t.Inv := by
  unfold State.Inv State.memoriesCanonical State.memoriesWithin
  rw [h.params, h.pbuf, h.vbuf, h.token, h.opt, h.bufBytes, h.optCap, hf]
  obtain ⟨hw, ⟨c1, c2⟩, ⟨w1, w2⟩⟩ := hi
  exact ⟨hw, ⟨Memory.write_wf c1 _ _, c2⟩, ⟨Memory.write_within w1 hb, w2⟩⟩

/-- The invariant after the memories of a decoded message were written. -/
theorem State.Inv.of_decoded {s t : State} (hi : s.Inv) {tok val pay : List Byte} {es : List OptEntry}
    (hf : t.fbuf = s.fbuf) (hp : t.pbuf = s.pbuf.write 0 pay) (hv : t.vbuf = s.vbuf.write 0 val)
    (ht : t.token = s.token.write 0 tok) (ho : t.opt = s.opt.write 0 es) (hbb : t.bufBytes = s.bufBytes)
    (hoc : t.optCap = s.optCap) (lp : pay.length ≤ s.bufBytes.toNat) (lv : val.length ≤ s.bufBytes.toNat)
    (lt : tok.length ≤ 8) (lo : es.length ≤ s.optCap.toNat) : t.Inv := by
  have hpar : t.params = s.params := by simp [State.params, hbb, hoc]
  unfold State.Inv State.memoriesCanonical State.memoriesWithin
  rw [hpar, hf, hp, hv, ht, ho, hbb, hoc]
  obtain ⟨hw, ⟨c1, c2, c3, c4, c5⟩, ⟨w1, w2, w3, w4, w5⟩⟩ := hi
  exact ⟨hw, ⟨c1, Memory.write_wf c2 _ _, Memory.write_wf c3 _ _, Memory.write_wf c4 _ _, OptTable.write_wf c5 _ _⟩,
    ⟨w1, Memory.write_within w2 (by omega), Memory.write_within w3 (by omega), Memory.write_within w4 (by omega),
      OptTable.write_within w5 (by omega)⟩⟩

/-- Taking an exception touches no memory and no capacity. -/
theorem State.takeException_same (s : State) (e : Raise) : s.SameButFbuf (s.takeException e) := by
  cases e <;> exact ⟨rfl, rfl, rfl, rfl, rfl, rfl⟩

theorem State.Inv.takeException {s : State} (hi : s.Inv) (e : Raise) : (s.takeException e).Inv :=
  hi.of_same (s.takeException_same e) (by cases e <;> rfl)

/-- A host write inside the window keeps the invariant. -/
theorem State.Inv.writePort {s : State} (hi : s.Inv) {p : Port} (hp : s.portInside p) (v : Word) :
    (s.writePort p v).Inv ∧ (s.writePort p v).params = s.params := by
  obtain ⟨hw, ⟨c1, c2, c3, c4, c5⟩, ⟨w1, w2, w3, w4, w5⟩⟩ := hi
  cases p with
  | reg r =>
    obtain ⟨m1, m2, m3, m4, m5⟩ := writeReg_memories s r v
    obtain ⟨-, b1, b2⟩ := writeReg_own s r v
    have same : s.SameButFbuf (s.writeReg r v) := ⟨m2, m3, m4, m5, b1, b2⟩
    exact ⟨State.Inv.of_same ⟨hw, ⟨c1, c2, c3, c4, c5⟩, ⟨w1, w2, w3, w4, w5⟩⟩ same m1, same.params⟩
  | token k => exact ⟨⟨hw, ⟨c1, c2, c3, Memory.set_wf c4 _ _, c5⟩, ⟨w1, w2, w3, Memory.set_within w4 hp _, w5⟩⟩, rfl⟩
  | opt i f => exact ⟨⟨hw, ⟨c1, c2, c3, c4, OptTable.set_wf c5 _ _⟩, ⟨w1, w2, w3, w4, OptTable.set_within w5 hp _⟩⟩, rfl⟩
  | fbuf k => exact ⟨⟨hw, ⟨Memory.set_wf c1 _ _, c2, c3, c4, c5⟩, ⟨Memory.set_within w1 hp _, w2, w3, w4, w5⟩⟩, rfl⟩
  | pbuf k => exact ⟨⟨hw, ⟨c1, Memory.set_wf c2 _ _, c3, c4, c5⟩, ⟨w1, Memory.set_within w2 hp _, w3, w4, w5⟩⟩, rfl⟩
  | vbuf k => exact ⟨⟨hw, ⟨c1, c2, Memory.set_wf c3 _ _, c4, c5⟩, ⟨w1, w2, Memory.set_within w3 hp _, w4, w5⟩⟩, rfl⟩
  | reserved => exact ⟨⟨hw, ⟨c1, c2, c3, c4, c5⟩, ⟨w1, w2, w3, w4, w5⟩⟩, rfl⟩

/-- A buffer right after reset: canonical, inside its size. -/
theorem resetMemory_canonical (n : Nat) (bs : List Byte) :
    (Memory.write [] 0 (bs.take n)).wf ∧ Sparse.within (Memory.write [] 0 (bs.take n)) n :=
  ⟨Memory.write_wf Memory.wf_nil _ _, Memory.write_within (by simp) (by simp)⟩

theorem resetTable_canonical (n : Nat) (es : List OptEntry) :
    (OptTable.write [] 0 (es.take n)).wf ∧ Sparse.within (OptTable.write [] 0 (es.take n)) n :=
  ⟨OptTable.write_wf OptTable.wf_nil _ _, OptTable.write_within (by simp) (by simp)⟩

end Sys2Proof.Machine
end

