-- ==== Sys2Proof/Laws/Slicer.lean ====
section
/-! SUPPORT. The bits of the slicer's functions. -/

namespace Sys2Proof.Machine

/-- The bits of a byte built from its bits, most significant first. -/
theorem byteOfBits_getLsbD (bit : Nat → Bool) (i : Nat) (h : i < 8) : (byteOfBits bit).getLsbD i = bit (7 - i) := by
  simp only [byteOfBits, show List.range 8 = [0, 1, 2, 3, 4, 5, 6, 7] from rfl, List.foldl_cons, List.foldl_nil]
  interval_cases i <;> simp

@[simp] theorem bfSetFrom_length (k w : Nat) (v : Word) (p : Nat) (bs : List Byte) :
    (bfSetFrom k w v p bs).length = bs.length := by
  induction bs generalizing p with
  | nil => rfl
  | cons b bs ih => simp [bfSetFrom, ih]

@[simp] theorem bfSet_length (bs : List Byte) (k w : Nat) (v : Word) : (bfSet bs k w v).length = bs.length :=
  bfSetFrom_length _ _ _ _ _

theorem bfSetFrom_getElem? (k w : Nat) (v : Word) (p : Nat) (bs : List Byte) (n : Nat) :
    (bfSetFrom k w v p bs)[n]? =
      bs[n]?.map fun b => byteOfBits fun q => bfSetBit k w v (8 * (p + n) + q) (b.getLsbD (7 - q)) := by
  induction bs generalizing p n with
  | nil => rfl
  | cons b bs ih =>
    cases n with
    | zero => rfl
    | succ n =>
      simp only [bfSetFrom, List.getElem?_cons_succ, ih]
      rw [show p + 1 + n = p + (n + 1) by omega]

/-- Every stream bit of a set sequence (42_bitfield_slicer.md R171). -/
theorem streamBit_bfSet {bs : List Byte} (k w : Nat) (v : Word) {m : Nat} (h : m / 8 < bs.length) :
    streamBit (bfSet bs k w v) m = bfSetBit k w v m (streamBit bs m) := by
  have hs : byteAt (bfSet bs k w v) (m / 8) =
      byteOfBits fun q => bfSetBit k w v (8 * (m / 8) + q) ((byteAt bs (m / 8)).getLsbD (7 - q)) := by
    simp only [byteAt, List.getD_eq_getElem?_getD, bfSet, bfSetFrom_getElem?, List.getElem?_eq_getElem h,
      Option.map_some, Option.getD_some, Nat.zero_add]
  simp only [streamBit]
  rw [hs, byteOfBits_getLsbD _ _ (by omega), show 7 - (7 - m % 8) = m % 8 by omega,
    show 8 * (m / 8) + m % 8 = m by omega]

theorem bfNat_succ (bs : List Byte) (k w : Nat) :
    bfNat bs k (w + 1) = bfNat bs k w * 2 + (streamBit bs (k + w)).toNat := by
  simp [bfNat, List.range_succ]

theorem bfNat_lt (bs : List Byte) (k w : Nat) : bfNat bs k w < 2 ^ w := by
  induction w with
  | zero => simp [bfNat]
  | succ w ih =>
    have := Bool.toNat_le (streamBit bs (k + w))
    rw [bfNat_succ, pow_succ]; omega

theorem bfNat_congr {bs cs : List Byte} {k w : Nat} (h : ∀ m, k ≤ m → m < k + w → streamBit bs m = streamBit cs m) :
    bfNat bs k w = bfNat cs k w := by
  induction w with
  | zero => rfl
  | succ w ih =>
    rw [bfNat_succ, bfNat_succ, ih fun m h1 h2 => h m h1 (by omega), h (k + w) (by omega) (by omega)]

theorem bfGet_toNat {bs : List Byte} {k w : Nat} (h : w ≤ 32) : (bfGet bs k w).toNat = bfNat bs k w := by
  have h1 := bfNat_lt bs k w
  have h2 : 2 ^ w ≤ 2 ^ 32 := Nat.pow_le_pow_right (by omega) h
  simp only [bfGet, word, BitVec.toNat_ofNat]
  exact Nat.mod_eq_of_lt (by omega)

end Sys2Proof.Machine
end

