-- ==== Sys2Proof/Machine/Trace.lean ====
section
/-! DEFINITION. Host programs: the trace lines (30_encoding.md R94) and the pseudo-commands (R95) as the host actions
they stand for. -/

namespace Sys2Proof.Machine

/-- The byte spaces a `wrb` or `rdb` line names, as bases of the window (20_memory.md R70). -/
def Space.base : Space → Nat
  | .fbuf => fbufBase
  | .pbuf => pbufBase
  | .vbuf => vbufBase
  | .token => 0x068

/-- The offset of a register (20_memory.md R70). -/
def Reg.offset (r : Reg) : Nat := ((regMap.find? fun x => x.2 == r).map Prod.fst).getD 0

/-- `wr REG, value`. -/
def trWr (r : Reg) (v : Word) : List HostAction := [.write r.offset v]

/-- `rd REG`. -/
def trRd (r : Reg) : List HostAction := [.read r.offset]

/-- `cmd MNEMONIC`: a write of the opcode byte to CMD. -/
def trCmd (i : Instr) : List HostAction := [.write 0x000 ((opcodeOf i).setWidth 32)]

/-- Writes of consecutive bytes from a window offset. -/
def writesFrom : Nat → List Byte → List HostAction
  | _, [] => []
  | off, b :: bs => .write off (b.setWidth 32) :: writesFrom (off + 1) bs

/-- `wrb BUF[off], b0 b1 ...`. -/
def trWrb (sp : Space) (off : Nat) (bs : List Byte) : List HostAction := writesFrom (sp.base + off) bs

/-- `rdb BUF[off], n`. -/
def trRdb (sp : Space) (off n : Nat) : List HostAction := (List.range n).map fun k => .read (sp.base + off + k)

/-- `wro i, id, kind, voff, vlen, uval`. -/
def trWro (i : Nat) (id kind voff vlen uval : Word) : List HostAction :=
  let b := optBase + 32 * i
  [.write b id, .write (b + 4) kind, .write (b + 8) voff, .write (b + 12) vlen, .write (b + 16) uval]

/-- `PROBE.Vn`, with the encoder of version `n` (30_encoding.md R95). -/
def trProbe (encoder : Instr) : List HostAction := trWr .ocap 0#32 ++ trCmd encoder

/-- `CRC16 b0 b1 ... bk` (30_encoding.md R95). -/
def trCrc16 (bs : List Byte) : List HostAction :=
  trCmd .crcInit ++ bs.flatMap fun b => trWr .a0 (b.setWidth 32) ++ trCmd .crcUpd

/-- `RSUM8 b0 b1 ... bk` (30_encoding.md R95). -/
def trRsum8 (bs : List Byte) : List HostAction :=
  trCmd .sumInit ++ bs.flatMap fun b => trWr .a0 (b.setWidth 32) ++ trCmd .sumUpd

/-- `OPT.PUTV id, voff, b0 ... bk` (30_encoding.md R95). -/
def trOptPutV (id voff : Word) (bs : List Byte) : List HostAction :=
  trWrb .vbuf voff.toNat bs ++ trWr .a0 id ++ trWr .a1 voff ++ trWr .a2 (BitVec.ofNat 32 bs.length) ++ trCmd .optPut

/-- `SEEK p` (30_encoding.md R95). -/
def trSeek (p : Word) : List HostAction := trWr .pos p

end Sys2Proof.Machine
end

