-- ==== Sys2Proof/Tests/Slice0.lean ====
section
/-! SUPPORT. Tests of the model: well-formedness smoke tests, the command words written out from 30_encoding.md R91,
vectors of 95_test_vectors.md (each theorem names its section), and a witness for the hypotheses of each obligation.
Every expected value is the spec's. -/

namespace Sys2Proof.Tests

open Sys2Proof.Machine

set_option Elab.async false

/-! ## Helpers -/

/-- A small machine: 1024-byte buffers, 8 option entries, everything else as after reset. -/
def small : State := State.resetWith { bufBytes := 1024#32, optCap := 8#32 } ResetContents.none

/-- A frame placed in FBUF, FLEN its length. -/
def withFrame (s : State) (bs : List Byte) : State :=
  { s with fbuf := Memory.write [] 0 bs, flen := word bs.length }

/-- A payload placed in PBUF, PLEN its length. -/
def withPayload (s : State) (bs : List Byte) : State :=
  { s with pbuf := Memory.write [] 0 bs, plen := word bs.length }

/-- Options placed in the table, OPTCNT their number, and their value bytes in VBUF. -/
def withOptions (s : State) (es : List OptEntry) (vals : List Byte) : State :=
  { s with opt := OptTable.write [] 0 es, optCnt := word es.length, vbuf := Memory.write [] 0 vals }

/-- The state a command leaves, if it answers one. -/
def after (i : Instr) (s : State) : Option State :=
  match exec i s with
  | .next t => some t
  | .fault _ => none
  | .refused _ => none

/-- The state one step leaves, if it answers one. -/
def afterStep (s : State) : Option State :=
  match step s with
  | .next t => some t
  | .fault _ => none
  | .refused _ => none

theorem exec_of_after {i : Instr} {s : State} {α : Type} {f : State → α} {x : α}
    (h : (after i s).map f = some x) : ∃ t, exec i s = .next t ∧ f t = x := by
  unfold after at h
  cases hx : exec i s <;> simp_all

/-- An option whose value stands in VBUF. -/
def strOpt (id voff vlen : Word) : OptEntry := { id := id, kind := 2#3, voff := voff, vlen := vlen, uval := 0#32 }

/-- An option whose value is a number. -/
def numOpt (id : Word) (kind : BitVec 3) (uval : Word) : OptEntry :=
  { id := id, kind := kind, voff := 0#32, vlen := 0#32, uval := uval }

/-- The message of frame F4 (section 2.9). -/
def msgF4 : State :=
  withOptions { small with mCode := 1#8, mMid := 0x1234#32, ocap := 64#32 }
    [strOpt 11#32 0#32 1#32, strOpt 11#32 1#32 1#32] [0x61, 0x62]

/-- The message of frame F6 (section 2.9). -/
def msgF6 : State :=
  withPayload
    (withOptions
      { small with
        mTkl := 2#4, token := Memory.write [] 0 [0xAA, 0xBB], mEid := 1#32, mEtp := 6#32, mMid := 0xBEEF#32
        mCode := 0x45#8, ocap := 64#32 }
      [numOpt 12#32 4#3 50#32, strOpt 11#32 0#32 3#32] [0x6C, 0x65, 0x64])
    [0x7B, 0x22, 0x6F, 0x6E, 0x22, 0x3A, 0x31, 0x7D]

/-- Frame F1. -/
def frameF1 : List Byte := [0x00, 0x00, 0xF1, 0x91, 0x00, 0x01, 0x02]

/-- Frame F4. -/
def frameF4 : List Byte := [0x40, 0x01, 0x12, 0x34, 0xB1, 0x61, 0x01, 0x62]

/-- Frame F6. -/
def frameF6 : List Byte :=
  [0x88, 0x16, 0xCC, 0x1B, 0xBE, 0xEF, 0x45, 0x5D, 0xAA, 0xBB, 0xB3, 0x6C, 0x65, 0x64, 0x11, 0x32, 0xFF,
    0x7B, 0x22, 0x6F, 0x6E, 0x22, 0x3A, 0x31, 0x7D]

/-- The V2 frame of worked example S10c. -/
def frameHi : List Byte := [0x81, 0x50, 0x5E, 0xEE, 0x00, 0x01, 0x02, 0x05, 0xFF, 0x68, 0x69]

/-! ## Well-formedness: for each check a term it refuses (00_scope.md R6) -/

/-- `BUF_BYTES = 7` is too small. -/
theorem test_params_too_small : ¬ Params.wellFormed { bufBytes := 7#32, optCap := 0#32 } ∧
    ¬ Params.bufBytesAtLeast { bufBytes := 7#32, optCap := 0#32 } := by decide

/-- `BUF_BYTES = 2^24 + 1` is too large. -/
theorem test_params_too_large : ¬ Params.wellFormed { bufBytes := 0x01000001#32, optCap := 0#32 } ∧
    ¬ Params.bufBytesAtMost { bufBytes := 0x01000001#32, optCap := 0#32 } := by decide

/-- `OPT_CAP = 2^15 + 1` is too large. -/
theorem test_params_too_many : ¬ Params.wellFormed { bufBytes := 8#32, optCap := 32769#32 } ∧
    ¬ Params.optCapAtMost { bufBytes := 8#32, optCap := 32769#32 } := by decide

/-- `BUF_BYTES = 2^24` with `OPT_CAP = 256` breaks only the joint bound. -/
theorem test_params_sizes : ¬ Params.sizesFit { bufBytes := 0x01000000#32, optCap := 256#32 } ∧
    Params.bufBytesAtMost { bufBytes := 0x01000000#32, optCap := 256#32 } ∧
    Params.wellFormed { bufBytes := 0x01000000#32, optCap := 254#32 } := by decide

/-! ## Decoding: every command's word, written out from 30_encoding.md R91 -/

theorem test_decode_checksums :
    decode [0b00010000#8] = .ok (.crcInit, []) ∧ decode [0b00010001#8] = .ok (.crcUpd, []) ∧
    decode [0b00010010#8] = .ok (.crcFrm, []) ∧ decode [0b00010011#8] = .ok (.crcPay, []) ∧
    decode [0b00010100#8] = .ok (.sumInit, []) ∧ decode [0b00010101#8] = .ok (.sumUpd, []) ∧
    decode [0b00010110#8] = .ok (.sumFrm, []) ∧ decode [0b00010111#8] = .ok (.sumPatch, []) := by decide

theorem test_decode_varuint :
    decode [0b00100000#8] = .ok (.vluLen, []) ∧ decode [0b00100001#8] = .ok (.vluPut, []) ∧
    decode [0b00100010#8] = .ok (.vluGet, []) := by decide

theorem test_decode_validators :
    decode [0b00100100#8] = .ok (.valType, []) ∧ decode [0b00100101#8] = .ok (.valMid, []) ∧
    decode [0b00100110#8] = .ok (.valEid, []) ∧ decode [0b00100111#8] = .ok (.valEtp, []) ∧
    decode [0b00101000#8] = .ok (.valVer, []) := by decide

theorem test_decode_slicer :
    decode [0b00101010#8] = .ok (.bfExt, []) ∧ decode [0b00101011#8] = .ok (.bfIns, []) := by decide

theorem test_decode_registry :
    decode [0b00110000#8] = .ok (.regLookup, []) ∧ decode [0b00110001#8] = .ok (.regCheck, []) := by decide

theorem test_decode_options :
    decode [0b00110010#8] = .ok (.optBegin, []) ∧ decode [0b00110011#8] = .ok (.optSize, []) ∧
    decode [0b00110100#8] = .ok (.optPut, []) ∧ decode [0b00110101#8] = .ok (.optGet, []) ∧
    decode [0b00110110#8] = .ok (.optsSize, []) ∧ decode [0b00110111#8] = .ok (.optsEnc, []) ∧
    decode [0b00111000#8] = .ok (.optsDec, []) := by decide

theorem test_decode_headers :
    decode [0b01000000#8] = .ok (.msgReset, []) ∧ decode [0b01000001#8] = .ok (.ctMap, []) ∧
    decode [0b01000100#8] = .ok (.hdr0Pack, []) ∧ decode [0b01000101#8] = .ok (.hdr0Unpack, []) ∧
    decode [0b01000110#8] = .ok (.hdr1Pack, []) ∧ decode [0b01000111#8] = .ok (.hdr1Unpack, []) ∧
    decode [0b01001000#8] = .ok (.hdr2Pack, []) ∧ decode [0b01001001#8] = .ok (.hdr2Unpack, []) := by decide

theorem test_decode_frames :
    decode [0b01010000#8] = .ok (.sizeV0, []) ∧ decode [0b01010001#8] = .ok (.encV0, []) ∧
    decode [0b01010010#8] = .ok (.decV0, []) ∧ decode [0b01010100#8] = .ok (.sizeV1, []) ∧
    decode [0b01010101#8] = .ok (.encV1, []) ∧ decode [0b01010110#8] = .ok (.decV1, []) ∧
    decode [0b01011000#8] = .ok (.sizeV2, []) ∧ decode [0b01011001#8] = .ok (.encV2, []) ∧
    decode [0b01011010#8] = .ok (.decV2, []) := by decide

/-- The illegal opcodes of section 2.10. -/
theorem test_decode_illegal :
    ∀ op ∈ ([0x00, 0x0F, 0x18, 0x23, 0x29, 0x2C, 0x39, 0x42, 0x43, 0x4A, 0x53, 0x57, 0x5B, 0xFF] : List Byte),
      decode [op] = .error (.illegalOpcode op) := by decide

/-! ## Checksums (sections 2.1, 2.2) -/

theorem test_crc16_vectors :
    crc16 [] = 0xFFFF ∧ crc16 [0x00] = 0x40BF ∧ crc16 [0x01] = 0x807E ∧ crc16 [0xFF] = 0x00FF ∧
    crc16 [0xFF, 0xFF] = 0x0000 ∧ crc16 [0x68, 0x69] = 0x5EEE ∧ crc16 [0x00, 0x01, 0x02] = 0x91F1 ∧
    crc16 [0x31, 0x32, 0x33, 0x34, 0x35, 0x36, 0x37, 0x38, 0x39] = 0x4B37 := by decide +kernel

theorem test_crc_order : crcBe 0x5EEE = [0x5E, 0xEE] ∧ crcLe 0x91F1 = [0xF1, 0x91] := by decide

theorem test_crcInit : (after .crcInit { small with crcAcc := 0x1234 }).map State.crcAcc = some 0xFFFF := by
  decide +kernel

theorem test_crcUpd_ignores_high_bits :
    (after .crcUpd { small with a0 := 0xFFFFFF68 }).map State.crcAcc = some 0xAEBE := by decide +kernel

theorem test_crcFrm :
    (after .crcFrm { withFrame small frameF1 with a0 := 4, a1 := 3 }).map State.crcAcc = some 0x91F1 ∧
    (after .crcFrm { withFrame small frameF1 with a0 := 7, a1 := 0 }).map State.crcAcc = some 0xFFFF := by
  decide +kernel

theorem test_crcFrm_bounds :
    (after .crcFrm { withFrame small frameF1 with a0 := 5, a1 := 3 }).map (fun t => (t.status, t.crcAcc)) =
      some (.errBadOperand, 0xFFFF) := by decide +kernel

theorem test_crcPay :
    (after .crcPay small).map State.crcAcc = some 0xFFFF ∧
    (after .crcPay (withPayload small [0x68, 0x69])).map State.crcAcc = some 0x5EEE := by decide +kernel

theorem test_rsum8_vectors :
    rsum8 [] = 0x00 ∧ rsum8 [0x00] = 0xFF ∧ rsum8 [0xFF] = 0x00 ∧ rsum8 [0x01, 0x02, 0x03] = 0xF7 ∧
    rsum8 frameF4 = 0xFC ∧ rsum8 (frameHi.set 7 0x00) = 0x05 ∧ rsum8 frameHi = 0x00 := by decide +kernel

theorem test_sumInit : (after .sumInit { small with sumAcc := 0x5A }).map State.sumAcc = some 0x00 := by
  decide +kernel

/-- The running values of `01 02 03`: FE, FB, F7. -/
theorem test_sumUpd :
    (after .sumUpd { small with a0 := 1, sumAcc := 0x00 }).map State.sumAcc = some 0xFE ∧
    (after .sumUpd { small with a0 := 3, sumAcc := 0xFB }).map State.sumAcc = some 0xF7 := by decide +kernel

/-- Program P2, line 9. -/
theorem test_sumFrm :
    (after .sumFrm { withFrame small frameHi with a0 := 0, a1 := 11, sumAcc := 0x77 }).map State.sumAcc = some 0 := by
  decide +kernel

theorem test_sumPatch :
    (after .sumPatch { withFrame small (frameHi.set 7 0x99) with ocap := 11 }).map
      (fun t => (t.fbuf.get 7, t.mRsum8, t.fbuf.get 8, t.status)) = some (0x05, 0x05, 0xFF, .ok) := by decide +kernel

theorem test_sumPatch_bounds :
    (after .sumPatch { withFrame small (frameHi.set 7 0x99) with flen := 7, ocap := 11 }).map State.status =
      some .errMessageTruncated ∧
    (after .sumPatch { withFrame small (frameHi.set 7 0x99) with ocap := 7 }).map
      (fun t => (t.status, t.reqSize, t.fbuf.get 7)) = some (.errTooSmall, 8, 0x99) := by decide +kernel

/-! ## Variable-length integers and validators (S5, section 2.3) -/

theorem test_vluEnc_boundaries :
    vluEnc 0 = [] ∧ vluEnc 1 = [0x01] ∧ vluEnc 255 = [0xFF] ∧ vluEnc 256 = [0x01, 0x00] ∧
    vluEnc 65535 = [0xFF, 0xFF] ∧ vluEnc 65536 = [0x01, 0x00, 0x00] ∧
    vluEnc 16777215 = [0xFF, 0xFF, 0xFF] ∧ vluEnc 16777216 = [0x01, 0x00, 0x00, 0x00] := by decide +kernel

theorem test_vluDec : vluDec [0x00, 0x05] = 5 ∧ vluDec [] = 0 ∧ vluDec [0x00, 0x00, 0x00, 0x00] = 0 := by
  decide +kernel

theorem test_vluLen : (after .vluLen { small with a0 := 65536 }).map State.a1 = some 3 := by decide +kernel

theorem test_vluPut :
    (after .vluPut { small with ocap := 16, a0 := 0x010000 }).map
      (fun t => (t.fbuf.read 0 3, t.a1, t.pos)) = some ([0x01, 0x00, 0x00], 3, 3) := by decide +kernel

theorem test_vluPut_too_small :
    (after .vluPut { small with pos := 15, ocap := 16, a0 := 256 }).map
      (fun t => (t.status, t.reqSize, t.pos)) = some (.errTooSmall, 17, 15) := by decide +kernel

theorem test_vluGet :
    (after .vluGet { withFrame small [0x00, 0x05] with a1 := 2 }).map (fun t => (t.a0, t.pos)) = some (5, 2) := by
  decide +kernel

theorem test_vluGet_refuses :
    (after .vluGet { withFrame small [0x00, 0x05] with a1 := 5 }).map State.status = some .errBadOperand ∧
    (after .vluGet { withFrame small [0x00, 0x05] with a1 := 3 }).map State.status = some .errMessageTruncated := by
  decide +kernel

theorem test_valType :
    (after .valType { small with a0 := 255 }).map State.status = some .ok ∧
    (after .valType { small with a0 := 256 }).map State.status = some .errInvalidField ∧
    (after .valType { small with a0 := 0xFFFFFFFF }).map State.status = some .errInvalidField := by decide +kernel

theorem test_valMid :
    (after .valMid { small with a0 := 65535 }).map State.status = some .ok ∧
    (after .valMid { small with a0 := 65536 }).map State.status = some .errInvalidField := by decide +kernel

theorem test_valEid :
    (after .valEid { small with a0 := 15 }).map State.status = some .ok ∧
    (after .valEid { small with a0 := 16 }).map State.status = some .errInvalidField := by decide +kernel

theorem test_valEtp :
    (after .valEtp { small with a0 := 15 }).map State.status = some .ok ∧
    (after .valEtp { small with a0 := 0xFFFFFFFF }).map State.status = some .errInvalidField := by decide +kernel

theorem test_valVer :
    (after .valVer { small with a0 := 3 }).map State.status = some .ok ∧
    (after .valVer { small with a0 := 4 }).map State.status = some .errInvalidField := by decide +kernel

/-! ## Bit-field slicer (section 2.4) -/

theorem test_bfExt :
    (after .bfExt { withFrame small (frameF6.take 8) with a0 := 4, a1 := 32 }).map State.a2 = some 0x816CC1BB ∧
    (after .bfExt { withFrame small (frameF6.take 8) with a0 := 3, a1 := 7 }).map State.a2 = some 0x20 ∧
    (after .bfExt { withFrame small (frameF6.take 8) with a0 := 51, a1 := 5 }).map State.a2 = some 5 := by
  decide +kernel

theorem test_bfExt_refuses :
    (after .bfExt { withFrame small (frameF6.take 8) with a0 := 0, a1 := 0 }).map State.status = some .errBadOperand ∧
    (after .bfExt { withFrame small (frameF6.take 8) with a0 := 0, a1 := 33 }).map State.status = some .errBadOperand ∧
    (after .bfExt { withFrame small (frameF6.take 8) with a0 := 57, a1 := 8 }).map State.status =
      some .errBadOperand := by decide +kernel

/-- `60` with (6, 2, FFFFFFFF) gives `63`: only two bits are used. -/
theorem test_bfIns :
    (after .bfIns { withFrame small [0x60] with ocap := 1, a0 := 6, a1 := 2, a2 := 0xFFFFFFFF }).map
      (fun t => t.fbuf.get 0) = some 0x63 ∧
    (after .bfIns { withFrame small [0x40] with ocap := 1, a0 := 2, a1 := 2, a2 := 2 }).map
      (fun t => t.fbuf.get 0) = some 0x60 := by decide +kernel

theorem test_bfIns_refuses :
    (after .bfIns { withFrame small [0x63] with ocap := 1, a0 := 7, a1 := 2, a2 := 0 }).map
      (fun t => (t.status, t.fbuf.get 0)) = some (.errBadOperand, 0x63) := by decide +kernel

/-! ## Registry and content types (section 2.5) -/

theorem test_regLookup :
    (after .regLookup { small with a0 := 35 }).map (fun t => (t.a1, t.a2, t.a3)) = some (2, 1, 1034) ∧
    (after .regLookup { small with a0 := 65100 }).map (fun t => (t.a1, t.a2, t.a3)) = some (3, 0, 2) := by
  decide +kernel

theorem test_regLookup_unknown :
    (after .regLookup { small with a0 := 258 }).map (fun t => (t.a1, t.a2, t.a3)) = some (7, 0, 0) ∧
    (after .regLookup { small with a0 := 64999 }).map (fun t => (t.a1, t.a2, t.a3)) = some (7, 0, 0) ∧
    (after .regLookup { small with a0 := 65007 }).map (fun t => (t.a1, t.a2, t.a3)) = some (7, 0, 0) := by
  decide +kernel

theorem test_regCheck :
    (after .regCheck { small with a0 := 4, a1 := 1 }).map (fun t => (t.status, t.a2)) = some (.ok, 1) ∧
    (after .regCheck { small with a0 := 35, a1 := 1034 }).map (fun t => (t.status, t.a2)) = some (.ok, 2) ∧
    (after .regCheck { small with a0 := 258, a1 := 1 }).map (fun t => (t.status, t.a2)) = some (.ok, 7) := by
  decide +kernel

theorem test_regCheck_refuses :
    (after .regCheck { small with a0 := 4, a1 := 0 }).map State.status = some .errInvalidValueLength ∧
    (after .regCheck { small with a0 := 5, a1 := 1 }).map State.status = some .errInvalidValueLength ∧
    (after .regCheck { small with a0 := 35, a1 := 1035 }).map State.status = some .errInvalidValueLength := by
  decide +kernel

theorem test_ctMap :
    (after .ctMap { small with mEtp := 6 }).map State.a0 = some 6 ∧
    (after .ctMap { small with mEtp := 7, a0 := 9 }).map State.a0 = some 0 ∧
    (after .ctMap { small with mEtp := 2, mEid := 1, a0 := 9 }).map State.a0 = some 0 ∧
    (after .ctMap { small with mEtp := 0xFFFFFFFF, a0 := 9 }).map State.a0 = some 0 := by decide +kernel

/-! ## Options (S8, sections 2.6, 2.7) -/

theorem test_optEncode :
    optEncode 0 11 [0x61] = [0xB1, 0x61] ∧ optEncode 0 13 [] = [0xD0, 0x00] ∧
    optEncode 0 268 [] = [0xD0, 0xFF] ∧ optEncode 0 269 [] = [0xE0, 0x00, 0x00] ∧
    optEncode 0 65804 [] = [0xE0, 0xFF, 0xFF] ∧ optEncode 1 65100 [0x02, 0x01] = [0xE2, 0xFD, 0x3E, 0x02, 0x01] ∧
    (optEncode 0 35 (List.replicate 300 0x78)).take 5 = [0xDE, 0x16, 0x00, 0x1F, 0x78] := by decide +kernel

theorem test_optDecode :
    optDecode 0 [0xB1, 0x61] = .ok (.option 11 [0x61] []) ∧ optDecode 0 [0xFF, 0x68] = .ok (.marker [0x68]) ∧
    optDecode 0 [0xDF] = .error .optionUnexpectedExtendMarker ∧
    optDecode 0 [0xE0, 0x00] = .error .optionTruncated ∧ optDecode 0 [0xB2, 0x61] = .error .optionTruncated ∧
    optDecode 0 [0xE0, 0xFF, 0xFF] = .ok (.option 65804 [] []) := by decide +kernel

theorem test_optBegin : (after .optBegin { small with prevId := 15 }).map State.prevId = some 0 := by decide +kernel

theorem test_optSize :
    (after .optSize { small with a0 := 35, a2 := 300 }).map State.a3 = some 304 ∧
    (after .optSize { small with prevId := 12, a0 := 11 }).map State.status = some .errUnrepresentable := by
  decide +kernel

/-- Program P4, lines 5 and 6. -/
theorem test_optPut :
    (after .optPut { small with
        pos := 4, ocap := 64, vbuf := Memory.write [] 0 [0x7A, 0x3D, 0x31], a0 := 15, a2 := 3 }).map
      (fun t => (t.fbuf.read 4 5, t.a3, t.prevId, t.pos, t.flen)) =
        some ([0xD3, 0x02, 0x7A, 0x3D, 0x31], 5, 15, 9, 9) ∧
    (after .optPut { small with pos := 9, ocap := 64, prevId := 15, a0 := 11, a1 := 3, a2 := 1 }).map
      (fun t => (t.status, t.pos)) = some (.errUnrepresentable, 9) := by decide +kernel

/-- Program P4, lines 11 to 13. -/
theorem test_optGet :
    (after .optGet { withFrame small [0x40, 0x01, 0x12, 0x34, 0xB1, 0x70, 0x43, 0x7A, 0x3D, 0x31] with
        pos := 6, prevId := 11 }).map
      (fun t => (t.a3, t.a0, t.a1, t.a2, t.pos, t.prevId)) = some (0, 15, 7, 3, 10, 15) ∧
    (after .optGet { withFrame small [0x40, 0x01, 0x12, 0x34, 0xB1, 0x70, 0x43, 0x7A, 0x3D, 0x31] with
        pos := 10, prevId := 15, a0 := 15 }).map
      (fun t => (t.a3, t.a0, t.pos, t.prevId)) = some (1, 15, 10, 15) := by decide +kernel

theorem test_optsSize :
    (after .optsSize msgF4).map State.a0 = some 4 ∧
    (after .optsSize (withOptions small [strOpt 70000#32 0#32 0#32] [])).map State.status =
      some .errUnrepresentable := by decide +kernel

/-- S10e: URIQuery "z=1" and then URIPath "p" come out in ID order. -/
theorem test_optsEnc_sorts :
    (after .optsEnc (withOptions { small with ocap := 64 } [strOpt 15#32 0#32 3#32, strOpt 11#32 3#32 1#32]
        [0x7A, 0x3D, 0x31, 0x70])).map
      (fun t => (t.fbuf.read 0 6, t.a0, t.pos, t.prevId, (t.opt.get 0).id)) =
        some ([0xB1, 0x70, 0x43, 0x7A, 0x3D, 0x31], 6, 6, 15, 15) := by decide +kernel

/-- The option 7 with 3 bytes is dropped, but its ID counts. -/
theorem test_optsDec_filters :
    (after .optsDec (withFrame small [0x62, 0x00, 0x05, 0x13, 0x01, 0x02, 0x03, 0x51, 0x32])).map
      (fun t => (t.options, t.vbuf.read 0 3, t.a3, t.prevId)) =
        some ([{ id := 6, kind := 3, voff := 0, vlen := 2, uval := 5 },
          { id := 12, kind := 4, voff := 2, vlen := 1, uval := 50 }], [0x00, 0x05, 0x32], 1, 12) := by decide +kernel

theorem test_optsDec_capacity :
    (after .optsDec (withFrame { small with optCap := 1 } [0xB1, 0x61, 0x01, 0x62])).map
      (fun t => (t.status, t.optCnt)) = some (.errOptionsTooSmall, 0) ∧
    (after .optsDec (withFrame { small with optCap := 1 } [0x21, 0xAA, 0x91, 0x61])).map
      (fun t => (t.status, t.options)) = some (.ok, [strOpt 11#32 0#32 1#32]) := by decide +kernel

/-! ## Headers (section 2.8) -/

theorem test_msgReset :
    (after .msgReset { small with mMid := 5, mTkl := 3, optCnt := 2, plen := 4, pos := 9 }).map
      (fun t => (t.mMid, t.mTkl, t.optCnt, t.plen, t.pos)) = some (0, 0, 0, 0, 9) := by decide +kernel

theorem test_hdr0Pack :
    (after .hdr0Pack { small with ocap := 4, mType := 3, mEid := 2, mEtp := 4, mCrc16 := 0xFFFF }).map
      (fun t => t.fbuf.read 0 4) = some [0x03, 0x24, 0xFF, 0xFF] ∧
    (after .hdr0Pack { small with ocap := 4, mType := 4 }).map State.status = some .errInvalidField := by decide +kernel

theorem test_hdr0Unpack :
    (after .hdr0Unpack (withFrame small [0x3E, 0x5A, 0x34, 0x12])).map
      (fun t => (t.mType, t.mEid, t.mEtp, t.mCrc16, t.pos)) = some (2, 5, 10, 0x1234, 4) ∧
    (after .hdr0Unpack (withFrame small [0x40, 0x00, 0x00, 0x00])).map State.status =
      some .errMessageInvalidVersion := by decide +kernel

theorem test_hdr1Pack :
    (after .hdr1Pack { small with ocap := 4, mType := 3, mTkl := 8, mCode := 0xFF, mMid := 0xFFFF }).map
      (fun t => t.fbuf.read 0 4) = some [0x78, 0xFF, 0xFF, 0xFF] ∧
    (after .hdr1Pack { small with ocap := 4, mType := 2, mMid := 0x1234 }).map
      (fun t => t.fbuf.read 0 4) = some [0x60, 0x00, 0x12, 0x34] := by decide +kernel

theorem test_hdr1Pack_order :
    (after .hdr1Pack { small with ocap := 4, mTkl := 9 }).map State.status = some .errInvalidTokenLen ∧
    (after .hdr1Pack { small with ocap := 4, mTkl := 9, mType := 0xFFFFFFFF }).map State.status =
      some .errInvalidField := by decide +kernel

theorem test_hdr1Unpack :
    (after .hdr1Unpack (withFrame small [0x78, 0xFF, 0xFF, 0xFF])).map
      (fun t => (t.mVer, t.mType, t.mTkl, t.mCode, t.mMid, t.pos)) = some (1, 3, 8, 0xFF, 0xFFFF, 4) ∧
    (after .hdr1Unpack (withFrame small [0x49, 0x01, 0x00, 0x00])).map State.status =
      some .errInvalidTokenLen := by decide +kernel

theorem test_hdr2Pack :
    (after .hdr2Pack { small with
        ocap := 8, mTkl := 2, mEid := 1, mEtp := 6, mCrc16 := 0xCC1B, mMid := 0xBEEF, mCode := 0x45, mRsum8 := 0x99 }).map
      (fun t => t.fbuf.read 0 8) = some [0x88, 0x16, 0xCC, 0x1B, 0xBE, 0xEF, 0x45, 0x00] ∧
    (after .hdr2Pack { small with ocap := 7 }).map (fun t => (t.status, t.reqSize)) = some (.errTooSmall, 8) := by
  decide +kernel

theorem test_hdr2Unpack :
    (after .hdr2Unpack (withFrame small (frameF6.take 8))).map
      (fun t => (t.mType, t.mTkl, t.mEid, t.mEtp, t.mCrc16, t.mMid, t.mCode, t.mRsum8)) =
        some (0, 2, 1, 6, 0xCC1B, 0xBEEF, 0x45, 0x5D) ∧
    (after .hdr2Unpack (withFrame small [0xA4, 0, 0, 0, 0, 0, 0, 0])).map State.status =
      some .errInvalidTokenLen := by decide +kernel

/-! ## Frames (section 2.9) -/

theorem test_sizes :
    (after .sizeV0 (withPayload small [0x00, 0x01, 0x02])).map State.reqSize = some 7 ∧
    (after .sizeV1 msgF4).map State.reqSize = some 8 ∧ (after .sizeV2 msgF6).map State.reqSize = some 25 := by
  decide +kernel

theorem test_encV0 :
    (after .encV0 (withPayload { small with ocap := 64 } [0x00, 0x01, 0x02])).map
      (fun t => (t.fbuf.read 0 7, t.mCrc16, t.flen, t.pos)) = some (frameF1, 0x91F1, 7, 7) ∧
    (after .encV0 (withPayload { small with ocap := 64, mType := 1, mEid := 15, mEtp := 15, mMid := 0xFFFFFFFF } [0xFF])).map
      (fun t => t.fbuf.read 0 5) = some [0x01, 0xFF, 0xFF, 0x00, 0xFF] := by decide +kernel

theorem test_decV0 :
    (after .decV0 (withFrame small frameF1)).map (fun t => (t.status, t.pbuf.read 0 3, t.plen, t.pos, t.mCrc16)) =
      some (.ok, [0x00, 0x01, 0x02], 3, 7, 0x91F1) ∧
    (after .decV0 (withFrame small (frameF1.set 0 0x3C))).map State.status = some .ok := by decide +kernel

theorem test_decV0_refuses :
    (after .decV0 (withFrame small (frameF1.set 5 0x03))).map State.status = some .errInvalidRCRC16 ∧
    (after .decV0 (withFrame small [0x00, 0x00, 0xFF])).map State.status = some .errMessageTruncated ∧
    (after .decV0 (withFrame small frameF4)).map State.status = some .errMessageInvalidVersion := by decide +kernel

theorem test_encV1 :
    (after .encV1 msgF4).map (fun t => (t.status, t.fbuf.read 0 8, t.flen, t.pos, t.reqSize)) =
      some (.ok, frameF4, 8, 8, 8) ∧
    (after .encV1 { msgF4 with ocap := 7 }).map (fun t => (t.status, t.reqSize, t.flen)) =
      some (.errTooSmall, 8, 0) := by decide +kernel

theorem test_encV1_refuses :
    (after .encV1 { msgF4 with mType := 4 }).map State.status = some .errInvalidField ∧
    (after .encV1 { msgF4 with mTkl := 9 }).map State.status = some .errInvalidTokenLen ∧
    (after .encV1 { msgF4 with optCnt := 9 }).map State.status = some .errBadOperand ∧
    (after .encV1 { msgF4 with opt := msgF4.opt.set 1 (numOpt 11#32 5#3 0#32) }).map State.status =
      some .errBadOperand := by decide +kernel

theorem test_decV1 :
    (after .decV1 (withFrame small frameF4)).map
      (fun t => (t.mVer, t.mMid, t.options, t.vbuf.read 0 2, t.pos)) =
        some (1, 0x1234, [strOpt 11#32 0#32 1#32, strOpt 11#32 1#32 1#32], [0x61, 0x62], 8) ∧
    (after .decV1 (withFrame small [0x40, 0x01, 0x12, 0x34, 0xB1, 0x61, 0xFF, 0x68, 0x69])).map
      (fun t => (t.optCnt, t.pbuf.read 0 2, t.plen)) = some (1, [0x68, 0x69], 2) := by decide +kernel

theorem test_decV1_refuses :
    (after .decV1 (withFrame small [0x42, 0x01, 0x00, 0x00, 0x00])).map State.status = some .errMessageTruncated ∧
    (after .decV1 (withFrame small [0x40, 0x01, 0x12, 0x34, 0xB1, 0x61, 0xF0])).map State.status =
      some .errOptionUnexpectedExtendMarker ∧
    (after .decV1 (withFrame { small with optCap := 1 } frameF4)).map (fun t => (t.status, t.optCnt)) =
      some (.errOptionsTooSmall, 0) := by decide +kernel

theorem test_encV2 :
    (after .encV2 msgF6).map (fun t => (t.fbuf.read 0 25, t.mCrc16, t.mRsum8, t.flen)) =
      some (frameF6, 0xCC1B, 0x5D, 25) ∧
    (after .encV2 { small with ocap := 8 }).map (fun t => t.fbuf.read 0 8) =
      some [0x80, 0x00, 0xFF, 0xFF, 0x00, 0x00, 0x00, 0x7A] := by decide +kernel

theorem test_decV2 :
    (after .decV2 (withFrame small frameF6)).map
      (fun t => (t.mTkl, t.token.read 0 2, t.options, t.vbuf.read 0 4, t.plen)) =
        some (2, [0xAA, 0xBB], [strOpt 11#32 0#32 3#32,
          { id := 12, kind := 4, voff := 3, vlen := 1, uval := 50 }], [0x6C, 0x65, 0x64, 0x32], 8) ∧
    (after .decV2 (withFrame small ((frameHi.set 0 0x80).set 7 0x06))).map (fun t => (t.status, t.mType)) =
      some (.ok, 0) := by decide +kernel

theorem test_decV2_refuses :
    (after .decV2 (withFrame small (frameHi.set 9 0x69))).map State.status = some .errMessageInvalidRSUM8 ∧
    (after .decV2 (withFrame small ((frameHi.set 9 0x69).set 7 0x04))).map State.status = some .errInvalidRCRC16 ∧
    (after .decV2 (withFrame small frameF4)).map State.status = some .errMessageInvalidRSUM8 ∧
    (after .decV2 (withFrame small [0x40, 0, 0, 0, 0, 0, 0, 0xB8])).map State.status =
      some .errMessageInvalidVersion := by decide +kernel

/-! ## The register window (20_memory.md R70; sections 2.10 and 3) -/

/-- `W32 000 ← FF` is no command. -/
theorem test_step_illegal :
    (afterStep { small with host := [.write 0x000 0xFF], a0 := 7 }).map (fun t => (t.status, t.a0)) =
      some (.errIllegalCommand, 7) := by decide +kernel

/-- `W32 000 ← 50` runs SIZE.V0 (R331: REQSIZE 4), also through `withFetchWord`. -/
theorem test_step_command :
    (afterStep { small with host := [.write 0x000 0x50] }).map State.reqSize = some 4 ∧
    (afterStep (State.reset.withFetchWord 8 0x50)).map State.reqSize = some 4 ∧
    decodeTableWord 8 0x50 = some .sizeV0 := by decide +kernel

/-- `W32 0010_0024 ← 2` of program P1 is OPT[1].KIND; `W8 0300_0001 ← 62` is VBUF[1]. -/
theorem test_step_window :
    (afterStep { small with host := [.write 0x00100024 0xA] }).map (fun t => (t.opt.get 1).kind) = some 2 ∧
    (afterStep { small with host := [.write 0x03000001 0x162] }).map (fun t => t.vbuf.get 1) = some 0x62 ∧
    (afterStep { small with host := [.write 0x060 0x1F] }).map State.mTkl = some 0xF := by decide +kernel

/-- 10_state.md R44: power-on reset gives CRCACC 0xFFFF and keeps BUFBYTES; 60_exceptions.md R301: the host reads
ErrInvalidField as 12. -/
theorem test_step_host :
    (afterStep { small with host := [.powerOn ResetContents.none], a0 := 7, crcAcc := 0 }).map
      (fun t => (t.a0, t.crcAcc, t.bufBytes)) = some (0, 0xFFFF, 1024) ∧
    (afterStep { small with host := [.read 0x004], status := .errInvalidField }).map State.rdata = some 12 := by
  decide +kernel

/-- The trace lines of R94 give the accesses of the encoding column of program P1. -/
theorem test_trace :
    trWr .mMid 0x1234 = [.write 0x048 0x1234] ∧ trRd .reqSize = [.read 0x008] ∧ trCmd .encV1 = [.write 0x000 0x55] ∧
    trWrb .vbuf 0 [0x61, 0x62] = [.write 0x03000000 0x61, .write 0x03000001 0x62] ∧
    trWro 1 11 2 1 1 0 =
      [.write 0x00100020 0xB, .write 0x00100024 2, .write 0x00100028 1, .write 0x0010002C 1, .write 0x00100030 0] ∧
    trProbe .encV1 = [.write 0x020 0, .write 0x000 0x55] := by decide +kernel

/-- Code 2.05 (section 2.4). -/
theorem test_code_class : codeClass 0x45 = 2 ∧ codeDetail 0x45 = 5 := by decide

/-! ## Witnesses: for each obligation with hypotheses, states and operands that meet them, one per clause, at the
boundaries where a clause begins -/

theorem witness_StepRunsTheCommandWritten :
    (∃ (s : State) (v : Word) (rest : List HostAction) (i : Instr),
      s.host = .write 0x000 v :: rest ∧ decode [v.setWidth 8] = .ok (i, [])) ∧
    ∃ (s : State) (rest : List HostAction), s.host = .read 0x000 :: rest :=
  ⟨⟨{ small with host := [.write 0x000 0xFFFFFF10, .read 0x030] }, 0xFFFFFF10, [.read 0x030], .crcInit, rfl,
      by decide⟩, { small with host := [.read 0x000] }, [], rfl⟩

theorem witness_IllegalOpcodeChangesOnlyStatus :
    (∃ (s : State) (rest : List HostAction),
      s.host = .write 0x000 0x00 :: rest ∧ decodeOpcode ((0x00 : Word).setWidth 8) = none) ∧
    ∃ (s : State) (rest : List HostAction),
      s.host = .write 0x000 0xFF :: rest ∧ decodeOpcode ((0xFF : Word).setWidth 8) = none :=
  ⟨⟨{ small with host := [.write 0x000 0x00] }, [], rfl, by decide⟩,
    { small with host := [.write 0x000 0xFF] }, [], rfl, by decide⟩

theorem witness_OnlyCommandWritesHaveSideEffects :
    (∃ (s : State) (rest : List HostAction), s.host = .read 0x004 :: rest ∧
      s.host = .read 0x004 :: .read 0x004 :: rest.tail ∧ ∃ t, step s = .next t) ∧
    (∃ (s : State) (rest : List HostAction), s.host = .write 0x060 0x1F :: rest) ∧
    (∃ (s : State) (rest : List HostAction), s.Inv ∧ s.host = .write 0x06F 0x1FF :: rest ∧ 7 < 8 ∧ 0x06F = 0x068 + 7) ∧
    (∃ (s : State) (rest : List HostAction), s.Inv ∧ s.host = .write 0x010003FF 0x1FF :: rest ∧
      1023 < s.bufBytes.toNat ∧ s.bufBytes = 1024 ∧ 0x010003FF = 0x01000000 + 1023) ∧
    (∃ (s : State) (rest : List HostAction), s.Inv ∧ s.host = .write 0x020003FF 0x1FF :: rest ∧
      1023 < s.bufBytes.toNat ∧ 0x020003FF = 0x02000000 + 1023) ∧
    (∃ (s : State) (rest : List HostAction), s.Inv ∧ s.host = .write 0x030003FF 0x1FF :: rest ∧
      1023 < s.bufBytes.toNat ∧ 0x030003FF = 0x03000000 + 1023) ∧
    (∃ (s : State) (rest : List HostAction), s.Inv ∧ s.host = .write 0x001000E4 0xF :: rest ∧
      7 < s.optCap.toNat ∧ s.optCap = 8 ∧ 0x001000E4 = 0x00100000 + 32 * 7 + 4) ∧
    ∃ (s : State) (rest : List HostAction), s.host = .write 0x074 7 :: rest ∧ 0x074 ∈ [0x004, 0x008, 0x070, 0x074] :=
  ⟨⟨{ small with host := [.read 0x004, .read 0x004] }, [.read 0x004], rfl, rfl, _, rfl⟩,
    ⟨{ small with host := [.write 0x060 0x1F] }, [], rfl⟩,
    ⟨{ small with host := [.write 0x06F 0x1FF] }, [], by decide +kernel⟩,
    ⟨{ small with host := [.write 0x010003FF 0x1FF] }, [], by decide +kernel⟩,
    ⟨{ small with host := [.write 0x020003FF 0x1FF] }, [], by decide +kernel⟩,
    ⟨{ small with host := [.write 0x030003FF 0x1FF] }, [], by decide +kernel⟩,
    ⟨{ small with host := [.write 0x001000E4 0xF] }, [], by decide +kernel⟩,
    { small with host := [.write 0x074 7] }, [], rfl, by decide⟩

theorem witness_HostAccessKeepsTheBitsThatFit :
    (∃ s : State, s.host = [.write 0x060 0x1F, .read 0x060]) ∧
    (∃ s : State, s.Inv ∧ s.host = [.write 0x06F 0x1FF, .read 0x06F] ∧ 7 < 8 ∧ 0x06F = 0x068 + 7) ∧
    (∃ s : State, s.Inv ∧ s.host = [.write 0x001000E4 0xF, .read 0x001000E4] ∧ 7 < s.optCap.toNat ∧
      0x001000E4 = 0x00100000 + 32 * 7 + 4) ∧
    (∃ s : State, s.Inv ∧ s.host = [.write 0x030003FF 0x1FF, .read 0x030003FF] ∧ 1023 < s.bufBytes.toNat ∧
      0x030003FF = 0x03000000 + 1023) ∧
    (∃ s : State, s.host = [.read 0x074]) ∧
    (∃ s : State, s.host = [.read 0x004] ∧ s.status = .errIllegalCommand) ∧
    (∃ s : State, s.params.wellFormed ∧ s.host = [.read 0x06F]) ∧
    (∃ s : State, s.params.wellFormed ∧ s.host = [.read 0x001000F0] ∧ 7 < s.optCap.toNat ∧
      0x001000F0 = 0x00100000 + 32 * 7 + 16) ∧
    (∃ s : State, s.params.wellFormed ∧ s.host = [.read 0x010003FF] ∧ 1023 < s.bufBytes.toNat) ∧
    ∃ s : State, s.host = [.write 0x008 1] :=
  ⟨⟨{ small with host := [.write 0x060 0x1F, .read 0x060] }, rfl⟩,
    ⟨{ small with host := [.write 0x06F 0x1FF, .read 0x06F] }, by decide +kernel⟩,
    ⟨{ small with host := [.write 0x001000E4 0xF, .read 0x001000E4] }, by decide +kernel⟩,
    ⟨{ small with host := [.write 0x030003FF 0x1FF, .read 0x030003FF] }, by decide +kernel⟩,
    ⟨{ small with host := [.read 0x074] }, rfl⟩,
    ⟨{ small with host := [.read 0x004], status := .errIllegalCommand }, rfl, rfl⟩,
    ⟨{ small with host := [.read 0x06F] }, by decide +kernel⟩,
    ⟨{ small with host := [.read 0x001000F0] }, by decide +kernel⟩,
    ⟨{ small with host := [.read 0x010003FF] }, by decide +kernel⟩,
    { small with host := [.write 0x008 1] }, rfl⟩

theorem witness_RegisterWindowMap : small.params.wellFormed ∧ 7 < 8 ∧ 7 < small.optCap.toNat ∧
    1023 < small.bufBytes.toNat := by decide +kernel

/-- The first reserved offsets after the registers, after the option fields, after the table and after each buffer. -/
theorem witness_ReservedOffsetsReadZeroIgnoreWrites :
    small.params.wellFormed ∧
    ∀ off ∈ [0x001, 0x03C, 0x064, 0x078, 0x00100014, 0x00100100, 0x01000400, 0x02000400, 0x03000400],
      ¬ small.inWindow off := by
  have hc : small.optCap.toNat = 8 := by decide
  have hb : small.bufBytes.toNat = 1024 := by decide
  refine ⟨by decide +kernel, ?_⟩
  intro off hoff
  simp only [State.inWindow, registerOffsets, hc, hb, List.mem_cons, List.not_mem_nil, or_false] at hoff ⊢
  rintro (h | ⟨k, hk, h⟩ | ⟨i, hi, f, hf, h⟩ | ⟨k, hk, h⟩ | ⟨k, hk, h⟩ | ⟨k, hk, h⟩) <;> omega

theorem witness_CrcRules :
    (∃ s : State, s.a0.toNat + s.a1.toNat ≤ s.flenEff ∧ s.a0.toNat + s.a1.toNat = 7 ∧ s.flenEff = 7) ∧
    ∃ s : State, s.a0.toNat + s.a1.toNat > s.flenEff ∧ s.a0.toNat + s.a1.toNat = 8 ∧ s.flenEff = 7 :=
  ⟨⟨{ withFrame small frameF1 with a0 := 4, a1 := 3 }, by decide +kernel⟩,
    { withFrame small frameF1 with a0 := 4, a1 := 4 }, by decide +kernel⟩

theorem witness_SumRules :
    (∃ s : State, s.a0.toNat + s.a1.toNat ≤ s.flenEff ∧ s.a0.toNat + s.a1.toNat = 7 ∧ s.flenEff = 7) ∧
    ∃ s : State, s.a0.toNat + s.a1.toNat > s.flenEff ∧ s.a0.toNat + s.a1.toNat = 8 ∧ s.flenEff = 7 :=
  ⟨⟨{ withFrame small frameF1 with a0 := 0, a1 := 7 }, by decide +kernel⟩,
    { withFrame small frameF1 with a0 := 8, a1 := 0 }, by decide +kernel⟩

theorem witness_SumPatchRule :
    (∃ s : State, s.flenEff < 8 ∧ s.flenEff = 7) ∧
    (∃ s : State, 8 ≤ s.flenEff ∧ s.ocapEff < 8 ∧ s.ocapEff = 7) ∧
    ∃ s : State, s.Inv ∧ 8 ≤ s.flenEff ∧ 8 ≤ s.ocapEff ∧ ∃ t, exec .sumPatch s = .next t :=
  ⟨⟨{ small with flen := 7 }, by decide +kernel⟩, ⟨{ small with flen := 8, ocap := 7 }, by decide +kernel⟩,
    { small with flen := 8, ocap := 8 }, by decide +kernel, by decide +kernel, by decide +kernel,
    (exec_of_after (f := State.status) (x := .ok) (by decide +kernel)).imp fun _ h => h.1⟩

theorem witness_Rsum8Properties :
    ([0x01, 0x00] : List Byte)[1]? = some 0#8 ∧ (([0x01, 0x80] : List Byte)[1]? = some 0x80#8 ∧ 7 < 8) ∧
    ([0x01, 0x02] : List Byte).Perm [0x02, 0x01] := by decide

theorem witness_Crc16DetectsOneChangedByte : ∃ b b' : Byte, b ≠ b' := ⟨0x00, 0x80, by decide⟩

theorem witness_VarUintInverseLaws :
    ([0x00, 0x00, 0x00, 0x05] : List Byte).length ≤ 4 ∧ ([] : List Byte).length ≤ 4 := by decide

theorem witness_VarUintRules :
    (∃ s : State, s.a1.toNat > 4 ∧ s.a1.toNat = 5) ∧
    (∃ s : State, s.a1.toNat ≤ 4 ∧ s.pos.toNat + s.a1.toNat > s.flenEff ∧ s.flenEff = 3) ∧
    (∃ s : State, s.a1.toNat ≤ 4 ∧ s.pos.toNat + s.a1.toNat ≤ s.flenEff ∧ s.flenEff = 4 ∧ s.a1.toNat = 4) ∧
    (∃ s : State, s.params.wellFormed ∧ s.pos.toNat + vluLen s.a0 ≤ s.ocapEff ∧ s.pos.toNat + vluLen s.a0 = 16 ∧
      s.ocapEff = 16) ∧
    ∃ s : State, s.params.wellFormed ∧ s.pos.toNat + vluLen s.a0 > s.ocapEff ∧ s.pos.toNat + vluLen s.a0 < 2 ^ 32 ∧
      s.pos.toNat + vluLen s.a0 = 17 ∧ s.ocapEff = 16 :=
  ⟨⟨{ small with a1 := 5 }, by decide +kernel⟩, ⟨{ small with a1 := 4, flen := 3 }, by decide +kernel⟩,
    ⟨{ small with a1 := 4, flen := 4 }, by decide +kernel⟩,
    ⟨{ small with pos := 14, ocap := 16, a0 := 256 }, by decide +kernel⟩,
    { small with pos := 15, ocap := 16, a0 := 256 }, by decide +kernel⟩

theorem witness_ValidatorRules :
    ∀ b ∈ [(255 : Int), 65535, 15, 3],
      (∃ s : State, 0 ≤ s.a0.toInt ∧ s.a0.toInt ≤ b ∧ s.a0.toInt = b) ∧
      (∃ s : State, s.a0.toInt < 0) ∧ ∃ s : State, b < s.a0.toInt ∧ s.a0.toInt = b + 1 := by
  intro b hb
  refine ⟨⟨{ small with a0 := BitVec.ofInt 32 b }, ?_⟩, ⟨{ small with a0 := 0xFFFFFFFF }, by decide⟩,
    { small with a0 := BitVec.ofInt 32 (b + 1) }, ?_⟩ <;>
  · simp only [List.mem_cons, List.not_mem_nil, or_false] at hb
    rcases hb with rfl | rfl | rfl | rfl <;> decide

theorem witness_BitFieldLaws :
    1 ≤ 32 ∧ 32 ≤ 32 ∧ (7 + 32 + 7) / 8 ≤ ([0, 0, 0, 0, 0] : List Byte).length ∧
    (0 + 7 + 7) / 8 ≤ 5 ∧ 0 + 7 ≤ 7 ∧ (39 + 1 + 7) / 8 ≤ 5 ∧ 7 + 32 ≤ 39 := by decide

theorem witness_BitFieldRules :
    (∃ s : State, s.a1.toNat < 1) ∧ (∃ s : State, s.a1.toNat > 32 ∧ s.a1.toNat = 33) ∧
    (∃ s : State, (s.a0.toNat + s.a1.toNat + 7) / 8 > s.flenEff ∧ s.a0.toNat + s.a1.toNat = 65 ∧ s.flenEff = 8) ∧
    (∃ s : State, 1 ≤ s.a1.toNat ∧ s.a1.toNat ≤ 32 ∧ (s.a0.toNat + s.a1.toNat + 7) / 8 ≤ s.flenEff ∧
      s.a0.toNat + s.a1.toNat = 64 ∧ s.flenEff = 8) ∧
    (∃ s : State, (s.a0.toNat + s.a1.toNat + 7) / 8 > s.ocapEff ∧ s.a0.toNat + s.a1.toNat = 9 ∧ s.ocapEff = 1) ∧
    ∃ s : State, s.Inv ∧ 1 ≤ s.a1.toNat ∧ s.a1.toNat ≤ 32 ∧ (s.a0.toNat + s.a1.toNat + 7) / 8 ≤ s.ocapEff ∧
      (∃ t, exec .bfIns s = .next t) ∧ (8 * (0 + 1) ≤ s.a0.toNat) ∧ s.a0.toNat + s.a1.toNat ≤ 8 * 2 :=
  ⟨⟨small, by decide +kernel⟩, ⟨{ small with a1 := 33 }, by decide +kernel⟩,
    ⟨{ small with a0 := 57, a1 := 8, flen := 8 }, by decide +kernel⟩,
    ⟨{ small with a0 := 32, a1 := 32, flen := 8 }, by decide +kernel⟩,
    ⟨{ small with a0 := 7, a1 := 2, ocap := 1 }, by decide +kernel⟩,
    { small with a0 := 8, a1 := 8, ocap := 2 }, by decide +kernel, by decide +kernel, by decide +kernel,
    by decide +kernel, (exec_of_after (f := State.status) (x := .ok) (by decide +kernel)).imp fun _ h => h.1,
    by decide +kernel, by decide +kernel⟩

theorem witness_RegistryRules :
    (∃ s : State, (s.a0.toNat, 2, 1, 1034) ∈ [(35, 2, 1, 1034)] ∧ 1 ≤ s.a1.toNat ∧ s.a1.toNat ≤ 1034 ∧
      s.a1.toNat = 1034) ∧
    (∃ s : State, s.a0.toNat = 35 ∧ s.a1.toNat < 1) ∧ (∃ s : State, s.a0.toNat = 35 ∧ 1034 < s.a1.toNat) ∧
    (∃ (s : State) (fmt min max : Nat), ∃ n : Fin 7, s.a0.toNat = 65000 + n ∧
      (fmt, min, max) = match Config.vendorFmt n with | .string => (2, 0, 255) | .uint => (3, 0, 4)) ∧
    (∃ s : State, s.a0.toNat < 65000 ∧ s.a0.toNat = 64999) ∧ ∃ s : State, 65006 < s.a0.toNat ∧ s.a0.toNat = 65007 :=
  ⟨⟨{ small with a0 := 35, a1 := 1034 }, by decide⟩, ⟨{ small with a0 := 35 }, by decide⟩,
    ⟨{ small with a0 := 35, a1 := 1035 }, by decide⟩,
    ⟨{ small with a0 := 65006 }, _, _, _, 6, by decide, rfl⟩,
    ⟨{ small with a0 := 64999 }, by decide⟩, { small with a0 := 65007 }, by decide⟩

theorem witness_ContentTypeRule :
    (∃ s : State, s.mEid.toInt = 0 ∧ 0 ≤ s.mEtp.toInt ∧ s.mEtp.toInt ≤ 6 ∧ s.mEtp.toInt = 6) ∧
    (∃ s : State, s.mEid.toInt ≠ 0) ∧ (∃ s : State, s.mEtp.toInt < 0) ∧ ∃ s : State, 6 < s.mEtp.toInt :=
  ⟨⟨{ small with mEtp := 6 }, by decide⟩, ⟨{ small with mEid := 1 }, by decide⟩,
    ⟨{ small with mEtp := 0xFFFFFFFF }, by decide⟩, { small with mEtp := 7 }, by decide⟩

theorem witness_ExtensionCodingIsBijective :
    (12 ≤ 12 ∧ (12#4).toNat ≤ 12) ∧ (13 ≤ 268 ∧ 268 ≤ 268) ∧ (269 ≤ 65804 ∧ 65804 ≤ 65804) ∧
    (14#4 ≠ 15#4 ∧ ([0xFF, 0xFF] : List Byte).length = extLen 14#4) ∧
    (13#4 ≠ 15#4 ∧ ([0x00] : List Byte).length = extLen 13#4) ∧ ([] : List Byte).length = extLen 12#4 := by decide

theorem witness_OptionItemDecodeRule :
    (((15#4 : BitVec 4) = 15#4 ∨ (0#4 : BitVec 4) = 15#4) ∧ ¬ ((15#4 : BitVec 4) = 15#4 ∧ (0#4 : BitVec 4) = 15#4)) ∧
    (13#4 ≠ 15#4 ∧ 14#4 ≠ 15#4 ∧ ([0x00, 0x00] : List Byte).length < extLen 13#4 + extLen 14#4) ∧
    (([0x00] : List Byte).length = extLen 13#4 ∧ ([0x00, 0x00] : List Byte).length = extLen 14#4 ∧
      (List.replicate 268 (0x78 : Byte)).length < extJoin 14#4 [0x00, 0x00]) ∧
    (extJoin 14#4 [0x00, 0x00] ≤ (List.replicate 269 (0x78 : Byte)).length ∧
      (0xFFFFFFF3 : Word).toNat + extJoin 13#4 [0x00] > 2 ^ 32 - 1) ∧
    (0xFFFFFFF2 : Word).toNat + extJoin 13#4 [0x00] ≤ 2 ^ 32 - 1 := by decide +kernel

theorem witness_OneOptionRoundTrip :
    ∃ (prev id : Word) (val : List Byte), prev.toNat ≤ id.toNat ∧ id.toNat - prev.toNat ≤ 65804 ∧
      val.length ≤ 65804 ∧ val.length = 65804 :=
  ⟨1, 65805, List.replicate 65804 0x78, by decide, by decide, by rw [List.length_replicate],
    by rw [List.length_replicate]⟩

theorem witness_OptionSortIsStable :
    ∃ s t : State, exec .optsEnc s = .next t ∧ Instr.optsEnc ∉ [Instr.optsDec, .decV1, .decV2] :=
  ⟨msgF4, (exec_of_after (f := State.status) (x := .ok) (by decide +kernel)).imp fun _ h => ⟨h.1, by decide⟩⟩

theorem witness_DecodedOptionListIsOrderedAndFiltered :
    optsDecode 1 [0xB1, 0x61] =
      .ok { stored := [⟨11, .string, [0x61]⟩], last := 11, stop := .frameEnd, rest := [] } ∧
    optsDecode 0 [0xFF, 0x68] = .ok { stored := [], last := 0, stop := .marker, rest := [0x68] } := by decide +kernel

theorem witness_OptionListRoundTrip :
    ∃ l : List Stored, l.length = 2 ∧ l.Pairwise (fun a b => a.id.toNat ≤ b.id.toNat) ∧
      optsRepresentable 0#32 (l.map fun x => (x.id, x.bytes)) = true ∧
      (∀ x ∈ l, regFilter x.id x.bytes.length = some x.fmt) ∧ l.length ≤ 2 := by
  refine ⟨[⟨11, .string, [0x61]⟩, ⟨65100, .uint, [0x02, 0x01]⟩], by decide, by decide, by decide +kernel, ?_, by decide⟩
  intro x hx
  simp only [List.mem_cons, List.not_mem_nil, or_false] at hx
  rcases hx with rfl | rfl <;> decide +kernel

theorem witness_OptionBeginAndSizeRules :
    (∃ s : State, s.a0.toNat < s.prevId.toNat) ∧ (∃ s : State, s.a0.toNat - s.prevId.toNat > 65804) ∧
    (∃ s : State, s.a2.toNat > 65804) ∧
    ∃ s : State, s.prevId.toNat ≤ s.a0.toNat ∧ s.a0.toNat - s.prevId.toNat ≤ 65804 ∧ s.a2.toNat ≤ 65804 ∧
      s.a0.toNat - s.prevId.toNat = 65804 ∧ s.a2.toNat = 65804 :=
  ⟨⟨{ small with a0 := 11, prevId := 12 }, by decide⟩, ⟨{ small with a0 := 65805 }, by decide⟩,
    ⟨{ small with a2 := 65805 }, by decide⟩, { small with a0 := 65805, prevId := 1, a2 := 65804 }, by decide⟩

theorem witness_OptionPutRule :
    (∃ s : State, s.params.wellFormed ∧ s.a1.toNat + s.a2.toNat > s.bufBytes.toNat ∧
      s.a1.toNat + s.a2.toNat = s.bufBytes.toNat + 1) ∧
    (∃ s : State, s.params.wellFormed ∧ s.a1.toNat + s.a2.toNat ≤ s.bufBytes.toNat ∧ s.a0.toNat < s.prevId.toNat) ∧
    (∃ s : State, s.params.wellFormed ∧ s.a1.toNat + s.a2.toNat ≤ s.bufBytes.toNat ∧ s.prevId.toNat ≤ s.a0.toNat ∧
      s.a0.toNat - s.prevId.toNat ≤ 65804 ∧ s.a2.toNat ≤ 65804 ∧
      s.pos.toNat + optSize (s.a0.toNat - s.prevId.toNat) s.a2.toNat ≤ s.ocapEff ∧ s.ocapEff = 6) ∧
    ∃ s : State, s.params.wellFormed ∧ s.a1.toNat + s.a2.toNat ≤ s.bufBytes.toNat ∧ s.prevId.toNat ≤ s.a0.toNat ∧
      s.a0.toNat - s.prevId.toNat ≤ 65804 ∧ s.a2.toNat ≤ 65804 ∧
      s.pos.toNat + optSize (s.a0.toNat - s.prevId.toNat) s.a2.toNat > s.ocapEff ∧
      s.pos.toNat + optSize (s.a0.toNat - s.prevId.toNat) s.a2.toNat < 2 ^ 32 ∧ s.ocapEff = 5 :=
  ⟨⟨{ small with a1 := 1024, a2 := 1 }, by decide +kernel⟩,
    ⟨{ small with a1 := 1023, a2 := 1, a0 := 11, prevId := 12 }, by decide +kernel⟩,
    ⟨{ small with a1 := 1023, a2 := 1, a0 := 11, pos := 4, ocap := 6 }, by decide +kernel⟩,
    { small with a1 := 1023, a2 := 1, a0 := 11, pos := 4, ocap := 5 }, by decide +kernel⟩

theorem witness_OptionGetRule :
    (∃ s : State, s.pos.toNat > s.flenEff ∧ s.pos.toNat = s.flenEff + 1) ∧
    (∃ s : State, s.pos.toNat ≤ s.flenEff ∧
      optDecode s.prevId (s.fbuf.read s.pos.toNat (s.flenEff - s.pos.toNat)) =
        .error .optionUnexpectedExtendMarker) ∧
    (∃ s : State, s.pos.toNat ≤ s.flenEff ∧ s.pos.toNat = s.flenEff ∧
      optDecode s.prevId (s.fbuf.read s.pos.toNat (s.flenEff - s.pos.toNat)) = .ok .done) ∧
    (∃ s : State, s.pos.toNat ≤ s.flenEff ∧
      optDecode s.prevId (s.fbuf.read s.pos.toNat (s.flenEff - s.pos.toNat)) = .ok (.marker [0x68])) ∧
    ∃ s : State, s.pos.toNat ≤ s.flenEff ∧
      optDecode s.prevId (s.fbuf.read s.pos.toNat (s.flenEff - s.pos.toNat)) = .ok (.option 11 [0x61] []) :=
  ⟨⟨{ small with pos := 1 }, by decide +kernel⟩, ⟨withFrame small [0x1F], by decide +kernel⟩,
    ⟨{ withFrame small [0x1F] with pos := 1 }, by decide +kernel⟩, ⟨withFrame small [0xFF, 0x68], by decide +kernel⟩,
    withFrame small [0xB1, 0x61], by decide +kernel⟩

theorem witness_OptionTableSizeRule :
    (∃ s : State, s.optTableOk = false ∧ s.optCnt.toNat = s.optCap.toNat + 1) ∧
    (∃ s : State, s.optTableOk = true ∧ optsRepresentable 0#32 s.wireOptions = false) ∧
    (∃ s : State, s.optTableOk = true ∧ optsRepresentable 0#32 s.wireOptions = true ∧
      s.optCnt.toNat = s.optCap.toNat) ∧
    1 < msgF4.optCnt.toNat ∧ (msgF4.opt.get 1).kind.toNat ∈ [0, 1, 2] :=
  ⟨⟨{ small with optCnt := 9 }, by decide +kernel⟩,
    ⟨withOptions small [strOpt 65805#32 0#32 0#32] [], by decide +kernel⟩,
    ⟨{ msgF4 with optCap := 2 }, by decide +kernel⟩, by decide +kernel, by decide +kernel⟩

theorem witness_OptionTableEncodeRule :
    (∃ s : State, s.params.wellFormed ∧ s.optTableOk = false) ∧
    (∃ s : State, s.params.wellFormed ∧ s.optTableOk = true ∧ optsRepresentable 0#32 s.wireOptions = false) ∧
    (∃ s : State, s.params.wellFormed ∧ s.optTableOk = true ∧ optsRepresentable 0#32 s.wireOptions = true ∧
      s.pos.toNat + optsSize 0#32 s.wireOptions ≤ s.ocapEff ∧ s.ocapEff = 4) ∧
    ∃ s : State, s.params.wellFormed ∧ s.optTableOk = true ∧ optsRepresentable 0#32 s.wireOptions = true ∧
      s.pos.toNat + optsSize 0#32 s.wireOptions > s.ocapEff ∧ s.pos.toNat + optsSize 0#32 s.wireOptions < 2 ^ 32 ∧
      s.ocapEff = 3 :=
  ⟨⟨{ small with optCnt := 9 }, by decide +kernel⟩,
    ⟨withOptions small [strOpt 65805#32 0#32 0#32] [], by decide +kernel⟩,
    ⟨{ msgF4 with ocap := 4 }, by decide +kernel⟩, { msgF4 with ocap := 3 }, by decide +kernel⟩

theorem witness_OptionTableDecodeRule :
    (∃ s : State, s.pos.toNat > s.flenEff ∧ s.pos.toNat = s.flenEff + 1) ∧
    (∃ s : State, s.pos.toNat ≤ s.flenEff ∧
      optsDecode s.optCap.toNat (s.fbuf.read s.pos.toNat (s.flenEff - s.pos.toNat)) = .error .optionTruncated) ∧
    ∃ s : State, s.pos.toNat ≤ s.flenEff ∧
      optsDecode s.optCap.toNat (s.fbuf.read s.pos.toNat (s.flenEff - s.pos.toNat)) =
        .ok { stored := [⟨11, .string, [0x61]⟩], last := 11, stop := .frameEnd, rest := [] } :=
  ⟨⟨{ small with pos := 1 }, by decide +kernel⟩, ⟨withFrame small [0xB2, 0x61], by decide +kernel⟩,
    withFrame small [0xB1, 0x61], by decide +kernel⟩

theorem witness_HeaderV0Rules :
    (∃ s : State, ¬ s.fieldsOk0) ∧ (∃ s : State, s.fieldsOk0 ∧ s.ocapEff < 4 ∧ s.ocapEff = 3) ∧
    (∃ s : State, s.fieldsOk0 ∧ 4 ≤ s.ocapEff ∧ s.ocapEff = 4 ∧ s.mType = 3 ∧ s.mEid = 15 ∧ s.mEtp = 15) ∧
    (∃ s : State, s.flenEff < 4 ∧ s.flenEff = 3) ∧
    (∃ s : State, 4 ≤ s.flenEff ∧ (s.fbuf.get 0).toNat / 64 ≠ 0) ∧
    ∃ s : State, 4 ≤ s.flenEff ∧ (s.fbuf.get 0).toNat / 64 = 0 ∧ s.flenEff = 4 :=
  ⟨⟨{ small with mType := 4 }, by decide⟩, ⟨{ small with ocap := 3 }, by decide +kernel⟩,
    ⟨{ small with ocap := 4, mType := 3, mEid := 15, mEtp := 15 }, by decide +kernel⟩,
    ⟨{ small with flen := 3 }, by decide +kernel⟩, ⟨withFrame small frameF4, by decide +kernel⟩,
    { small with flen := 4 }, by decide +kernel⟩

theorem witness_HeaderV1Rules :
    (∃ s : State, ¬ s.fieldsOk1) ∧ (∃ s : State, s.fieldsOk1 ∧ 8 < s.mTkl.toNat ∧ s.mTkl.toNat = 9) ∧
    (∃ s : State, s.fieldsOk1 ∧ s.mTkl.toNat ≤ 8 ∧ s.ocapEff < 4 ∧ s.mTkl.toNat = 8) ∧
    (∃ s : State, s.fieldsOk1 ∧ s.mTkl.toNat ≤ 8 ∧ 4 ≤ s.ocapEff ∧ s.ocapEff = 4 ∧ s.mMid = 65535) ∧
    (∃ s : State, s.flenEff < 4) ∧ (∃ s : State, 4 ≤ s.flenEff ∧ (s.fbuf.get 0).toNat / 64 ≠ 1) ∧
    (∃ s : State, 4 ≤ s.flenEff ∧ (s.fbuf.get 0).toNat / 64 = 1 ∧ 8 < (s.fbuf.get 0).toNat % 16) ∧
    ∃ s : State, 4 ≤ s.flenEff ∧ (s.fbuf.get 0).toNat / 64 = 1 ∧ (s.fbuf.get 0).toNat % 16 ≤ 8 ∧
      (s.fbuf.get 0).toNat % 16 = 8 :=
  ⟨⟨{ small with mMid := 65536 }, by decide⟩, ⟨{ small with mTkl := 9 }, by decide⟩,
    ⟨{ small with mTkl := 8 }, by decide +kernel⟩, ⟨{ small with ocap := 4, mMid := 65535 }, by decide +kernel⟩,
    ⟨{ small with flen := 3 }, by decide +kernel⟩, ⟨{ small with flen := 4 }, by decide +kernel⟩,
    ⟨withFrame small [0x49, 0x01, 0x00, 0x00], by decide +kernel⟩,
    withFrame small [0x78, 0xFF, 0xFF, 0xFF], by decide +kernel⟩

theorem witness_HeaderV2Rules :
    (∃ s : State, ¬ s.fieldsOk2) ∧ (∃ s : State, s.fieldsOk2 ∧ 8 < s.mTkl.toNat) ∧
    (∃ s : State, s.fieldsOk2 ∧ s.mTkl.toNat ≤ 8 ∧ s.ocapEff < 8 ∧ s.ocapEff = 7) ∧
    (∃ s : State, s.fieldsOk2 ∧ s.mTkl.toNat ≤ 8 ∧ 8 ≤ s.ocapEff ∧ s.ocapEff = 8) ∧
    (∃ s : State, s.flenEff < 8 ∧ s.flenEff = 7) ∧
    (∃ s : State, 8 ≤ s.flenEff ∧ (s.fbuf.get 0).toNat / 64 ≠ 2) ∧
    (∃ s : State, 8 ≤ s.flenEff ∧ (s.fbuf.get 0).toNat / 64 = 2 ∧ 8 < (s.fbuf.get 0).toNat / 4 % 16) ∧
    ∃ s : State, 8 ≤ s.flenEff ∧ (s.fbuf.get 0).toNat / 64 = 2 ∧ (s.fbuf.get 0).toNat / 4 % 16 ≤ 8 :=
  ⟨⟨{ small with mEid := 16 }, by decide⟩, ⟨{ small with mTkl := 9 }, by decide⟩,
    ⟨{ small with ocap := 7 }, by decide +kernel⟩, ⟨{ small with ocap := 8 }, by decide +kernel⟩,
    ⟨{ small with flen := 7 }, by decide +kernel⟩, ⟨{ small with flen := 8 }, by decide +kernel⟩,
    ⟨withFrame small [0xA4, 0, 0, 0, 0, 0, 0, 0], by decide +kernel⟩, withFrame small (frameF6.take 8), by decide +kernel⟩

theorem witness_SizeRules :
    small.params.wellFormed ∧
    (∃ s : State, s.params.wellFormed ∧ s.optTableOk = false) ∧
    (∃ s : State, s.params.wellFormed ∧ s.optTableOk = true ∧ optsRepresentable 0#32 s.wireOptions = false) ∧
    ∃ s : State, s.params.wellFormed ∧ s.optTableOk = true ∧ optsRepresentable 0#32 s.wireOptions = true ∧
      s.mTkl.toNat = 15 :=
  ⟨by decide +kernel, ⟨{ small with optCnt := 9 }, by decide +kernel⟩,
    ⟨withOptions small [strOpt 65805#32 0#32 0#32] [], by decide +kernel⟩, { msgF6 with mTkl := 15 }, by decide +kernel⟩

theorem witness_EncodeV0Rule :
    (∃ s : State, s.params.wellFormed ∧ ¬ s.fieldsOk0) ∧
    (∃ s : State, s.params.wellFormed ∧ s.fieldsOk0 ∧ 4 + s.plenEff > s.ocapEff ∧ s.ocapEff = 6 ∧ s.plenEff = 3) ∧
    ∃ s : State, s.params.wellFormed ∧ s.fieldsOk0 ∧ 4 + s.plenEff ≤ s.ocapEff ∧ s.ocapEff = 7 ∧ s.plenEff = 3 :=
  ⟨⟨{ small with mEtp := 16 }, by decide +kernel⟩, ⟨{ small with plen := 3, ocap := 6 }, by decide +kernel⟩,
    { small with plen := 3, ocap := 7 }, by decide +kernel⟩

theorem witness_DecodeV0Rule :
    (∃ s : State, s.flenEff < 4) ∧ (∃ s : State, 4 ≤ s.flenEff ∧ (s.fbuf.get 0).toNat / 64 ≠ 0) ∧
    (∃ s : State, 4 ≤ s.flenEff ∧ (s.fbuf.get 0).toNat / 64 = 0 ∧ crc16 (s.fbuf.read 4 (s.flenEff - 4)) ≠
      BitVec.ofNat 16 ((s.fbuf.get 3).toNat * 256 + (s.fbuf.get 2).toNat)) ∧
    ∃ s : State, 4 ≤ s.flenEff ∧ (s.fbuf.get 0).toNat / 64 = 0 ∧ crc16 (s.fbuf.read 4 (s.flenEff - 4)) =
      BitVec.ofNat 16 ((s.fbuf.get 3).toNat * 256 + (s.fbuf.get 2).toNat) :=
  ⟨⟨{ small with flen := 3 }, by decide +kernel⟩, ⟨withFrame small frameF4, by decide +kernel⟩,
    ⟨{ small with flen := 4 }, by decide +kernel⟩, withFrame small frameF1, by decide +kernel⟩

theorem witness_EncodeV1Rule :
    (∃ s : State, s.params.wellFormed ∧ ¬ s.fieldsOk1) ∧
    (∃ s : State, s.params.wellFormed ∧ s.fieldsOk1 ∧ 8 < s.mTkl.toNat) ∧
    (∃ s : State, s.params.wellFormed ∧ s.fieldsOk1 ∧ s.mTkl.toNat ≤ 8 ∧ s.optTableOk = false) ∧
    (∃ s : State, s.params.wellFormed ∧ s.fieldsOk1 ∧ s.mTkl.toNat ≤ 8 ∧ s.optTableOk = true ∧
      optsRepresentable 0#32 s.wireOptions = false) ∧
    (∃ s : State, s.params.wellFormed ∧ s.fieldsOk1 ∧ s.mTkl.toNat ≤ 8 ∧ s.optTableOk = true ∧
      optsRepresentable 0#32 s.wireOptions = true ∧
      4 + (s.mTkl.toNat + optsSize 0#32 s.wireOptions + (if s.plenEff > 0 then 1 + s.plenEff else 0)) > s.ocapEff ∧
      s.ocapEff = 7) ∧
    ∃ s : State, s.params.wellFormed ∧ s.fieldsOk1 ∧ s.mTkl.toNat ≤ 8 ∧ s.optTableOk = true ∧
      optsRepresentable 0#32 s.wireOptions = true ∧
      4 + (s.mTkl.toNat + optsSize 0#32 s.wireOptions + (if s.plenEff > 0 then 1 + s.plenEff else 0)) ≤ s.ocapEff ∧
      s.ocapEff = 8 :=
  ⟨⟨{ small with mType := 4 }, by decide +kernel⟩, ⟨{ small with mTkl := 9 }, by decide +kernel⟩,
    ⟨{ small with optCnt := 9 }, by decide +kernel⟩,
    ⟨withOptions small [strOpt 65805#32 0#32 0#32] [], by decide +kernel⟩,
    ⟨{ msgF4 with ocap := 7 }, by decide +kernel⟩, { msgF4 with ocap := 8 }, by decide +kernel⟩

theorem witness_DecodeV1Rule :
    (∃ s : State, s.flenEff < 4) ∧ (∃ s : State, 4 ≤ s.flenEff ∧ (s.fbuf.get 0).toNat / 64 ≠ 1) ∧
    (∃ s : State, 4 ≤ s.flenEff ∧ (s.fbuf.get 0).toNat / 64 = 1 ∧ 8 < (s.fbuf.get 0).toNat % 16) ∧
    (∃ s : State, 4 ≤ s.flenEff ∧ (s.fbuf.get 0).toNat / 64 = 1 ∧ (s.fbuf.get 0).toNat % 16 ≤ 8 ∧
      4 + (s.fbuf.get 0).toNat % 16 > s.flenEff) ∧
    (∃ s : State, 4 ≤ s.flenEff ∧ (s.fbuf.get 0).toNat / 64 = 1 ∧ (s.fbuf.get 0).toNat % 16 ≤ 8 ∧
      4 + (s.fbuf.get 0).toNat % 16 ≤ s.flenEff ∧
      optsDecode s.optCap.toNat (s.fbuf.read (4 + (s.fbuf.get 0).toNat % 16)
        (s.flenEff - (4 + (s.fbuf.get 0).toNat % 16))) = .error .optionsTooSmall) ∧
    ∃ s : State, 4 ≤ s.flenEff ∧ (s.fbuf.get 0).toNat / 64 = 1 ∧ (s.fbuf.get 0).toNat % 16 ≤ 8 ∧
      4 + (s.fbuf.get 0).toNat % 16 ≤ s.flenEff ∧ ∃ p,
      optsDecode s.optCap.toNat (s.fbuf.read (4 + (s.fbuf.get 0).toNat % 16)
        (s.flenEff - (4 + (s.fbuf.get 0).toNat % 16))) = .ok p :=
  ⟨⟨{ small with flen := 3 }, by decide +kernel⟩, ⟨{ small with flen := 4 }, by decide +kernel⟩,
    ⟨withFrame small [0x49, 0x01, 0x00, 0x00], by decide +kernel⟩,
    ⟨withFrame small [0x42, 0x01, 0x00, 0x00, 0x00], by decide +kernel⟩,
    ⟨withFrame { small with optCap := 1 } frameF4, by decide +kernel⟩,
    withFrame small [0x41, 0x01, 0x12, 0x34, 0xAA], by decide +kernel, by decide +kernel, by decide +kernel,
    by decide +kernel, { stored := [], last := 0, stop := .frameEnd, rest := [] }, by decide +kernel⟩

theorem witness_EncodeV2Rule :
    (∃ s : State, s.params.wellFormed ∧ ¬ s.fieldsOk2) ∧
    (∃ s : State, s.params.wellFormed ∧ s.fieldsOk2 ∧ 8 < s.mTkl.toNat) ∧
    (∃ s : State, s.params.wellFormed ∧ s.fieldsOk2 ∧ s.mTkl.toNat ≤ 8 ∧ s.optTableOk = false) ∧
    (∃ s : State, s.params.wellFormed ∧ s.fieldsOk2 ∧ s.mTkl.toNat ≤ 8 ∧ s.optTableOk = true ∧
      optsRepresentable 0#32 s.wireOptions = false) ∧
    (∃ s : State, s.params.wellFormed ∧ s.fieldsOk2 ∧ s.mTkl.toNat ≤ 8 ∧ s.optTableOk = true ∧
      optsRepresentable 0#32 s.wireOptions = true ∧
      8 + (s.mTkl.toNat + optsSize 0#32 s.wireOptions + (if s.plenEff > 0 then 1 + s.plenEff else 0)) > s.ocapEff ∧
      s.ocapEff = 24) ∧
    ∃ s : State, s.params.wellFormed ∧ s.fieldsOk2 ∧ s.mTkl.toNat ≤ 8 ∧ s.optTableOk = true ∧
      optsRepresentable 0#32 s.wireOptions = true ∧
      8 + (s.mTkl.toNat + optsSize 0#32 s.wireOptions + (if s.plenEff > 0 then 1 + s.plenEff else 0)) ≤ s.ocapEff ∧
      s.ocapEff = 25 :=
  ⟨⟨{ small with mEid := 16 }, by decide +kernel⟩, ⟨{ small with mTkl := 9 }, by decide +kernel⟩,
    ⟨{ small with optCnt := 9 }, by decide +kernel⟩,
    ⟨withOptions small [strOpt 65805#32 0#32 0#32] [], by decide +kernel⟩,
    ⟨{ msgF6 with ocap := 24 }, by decide +kernel⟩, { msgF6 with ocap := 25 }, by decide +kernel⟩

/-- A V2 frame with RSUM8 zero whose option section is `F0`: `80 00 FF FF 00 00 00 89 F0`. -/
def frameBadOption : List Byte :=
  [0x80, 0x00, 0xFF, 0xFF, 0, 0, 0, rsum8 [0x80, 0x00, 0xFF, 0xFF, 0, 0, 0, 0, 0xF0], 0xF0]

theorem witness_DecodeV2Rule :
    (∃ s : State, s.flenEff < 8) ∧ (∃ s : State, 8 ≤ s.flenEff ∧ rsum8 (s.fbuf.read 0 s.flenEff) ≠ 0#8) ∧
    (∃ s : State, 8 ≤ s.flenEff ∧ rsum8 (s.fbuf.read 0 s.flenEff) = 0#8 ∧ (s.fbuf.get 0).toNat / 64 ≠ 2) ∧
    (∃ s : State, 8 ≤ s.flenEff ∧ rsum8 (s.fbuf.read 0 s.flenEff) = 0#8 ∧ (s.fbuf.get 0).toNat / 64 = 2 ∧
      8 < (s.fbuf.get 0).toNat / 4 % 16) ∧
    (∃ s : State, 8 ≤ s.flenEff ∧ rsum8 (s.fbuf.read 0 s.flenEff) = 0#8 ∧ (s.fbuf.get 0).toNat / 64 = 2 ∧
      (s.fbuf.get 0).toNat / 4 % 16 ≤ 8 ∧ 8 + (s.fbuf.get 0).toNat / 4 % 16 > s.flenEff) ∧
    (∃ s : State, 8 ≤ s.flenEff ∧ rsum8 (s.fbuf.read 0 s.flenEff) = 0#8 ∧ (s.fbuf.get 0).toNat / 64 = 2 ∧
      (s.fbuf.get 0).toNat / 4 % 16 = 0 ∧
      optsDecode s.optCap.toNat (s.fbuf.read 8 (s.flenEff - 8)) = .error .optionUnexpectedExtendMarker) ∧
    (∃ s : State, 8 ≤ s.flenEff ∧ rsum8 (s.fbuf.read 0 s.flenEff) = 0#8 ∧ (s.fbuf.get 0).toNat / 64 = 2 ∧
      (s.fbuf.get 0).toNat / 4 % 16 = 0 ∧
      optsDecode s.optCap.toNat (s.fbuf.read 8 (s.flenEff - 8)) =
        .ok { stored := [], last := 0, stop := .marker, rest := [0x69, 0x69] } ∧
      crc16 [0x69, 0x69] ≠ BitVec.ofNat 16 ((s.fbuf.get 2).toNat * 256 + (s.fbuf.get 3).toNat)) ∧
    ∃ s : State, 8 ≤ s.flenEff ∧ rsum8 (s.fbuf.read 0 s.flenEff) = 0#8 ∧ (s.fbuf.get 0).toNat / 64 = 2 ∧
      (s.fbuf.get 0).toNat / 4 % 16 = 0 ∧
      optsDecode s.optCap.toNat (s.fbuf.read 8 (s.flenEff - 8)) =
        .ok { stored := [], last := 0, stop := .marker, rest := [0x68, 0x69] } ∧
      crc16 [0x68, 0x69] = BitVec.ofNat 16 ((s.fbuf.get 2).toNat * 256 + (s.fbuf.get 3).toNat) :=
  ⟨⟨{ small with flen := 7 }, by decide +kernel⟩, ⟨withFrame small frameF4, by decide +kernel⟩,
    ⟨withFrame small [0x40, 0, 0, 0, 0, 0, 0, 0xB8], by decide +kernel⟩,
    ⟨withFrame small [0xA4, 0, 0, 0, 0, 0, 0, rsum8 [0xA4, 0, 0, 0, 0, 0, 0, 0]], by decide +kernel⟩,
    ⟨withFrame small [0xA0, 0, 0, 0, 0, 0, 0, rsum8 [0xA0, 0, 0, 0, 0, 0, 0, 0]], by decide +kernel⟩,
    ⟨withFrame small frameBadOption, by decide +kernel⟩,
    ⟨withFrame small ((frameHi.set 9 0x69).set 7 0x04), by decide +kernel⟩, withFrame small frameHi, by decide +kernel⟩

theorem witness_V0RoundTrip :
    ∃ s t : State, s.Inv ∧ exec .encV0 s = .next t ∧ t.status = .ok :=
  ⟨withPayload { small with ocap := 64 } [0x00, 0x01, 0x02],
    (exec_of_after (i := .encV0) (f := State.status) (x := .ok) (by decide +kernel)).imp
      fun _ h => ⟨by decide +kernel, h⟩⟩

theorem witness_V1RoundTrip :
    ∃ s t : State, s.Inv ∧ exec .encV1 s = .next t ∧ t.status = .ok ∧
      ∀ e ∈ s.options, inBounds e.id (s.valueBytes e).length = true :=
  ⟨msgF6, (exec_of_after (i := .encV1) (f := State.status) (x := .ok) (by decide +kernel)).imp
      fun _ h => ⟨by decide +kernel, h.1, h.2, List.all_eq_true.mp (by decide +kernel)⟩⟩

theorem witness_V2RoundTripAndBitFlips :
    ∃ s t : State, s.Inv ∧ exec .encV2 s = .next t ∧ t.status = .ok ∧
      (∀ e ∈ s.options, inBounds e.id (s.valueBytes e).length = true) ∧ 24 < t.flen.toNat ∧ 7 < 8 :=
  ⟨msgF6, (exec_of_after (i := .encV2) (f := fun t => (t.status, t.flen)) (x := (.ok, 25)) (by decide +kernel)).imp
      fun t h => ⟨by decide +kernel, h.1, congrArg Prod.fst h.2, List.all_eq_true.mp (by decide +kernel),
        by rw [show t.flen = 25 from congrArg Prod.snd h.2]; decide, by decide⟩⟩

theorem witness_OtherVersionsAreRefused :
    (∃ s : State, 4 ≤ s.flenEff ∧ (s.fbuf.get 0).toNat / 64 ≠ 0) ∧
    (∃ s : State, 4 ≤ s.flenEff ∧ (s.fbuf.get 0).toNat / 64 ≠ 1) ∧ (∃ s : State, s.flenEff < 8) ∧
    (∃ s : State, 8 ≤ s.flenEff ∧ (s.fbuf.get 0).toNat / 64 ≠ 2 ∧ rsum8 (s.fbuf.read 0 s.flenEff) ≠ 0#8) ∧
    ∃ s : State, 8 ≤ s.flenEff ∧ (s.fbuf.get 0).toNat / 64 ≠ 2 ∧ rsum8 (s.fbuf.read 0 s.flenEff) = 0#8 :=
  ⟨⟨withFrame small [0xC0, 0x01, 0x00, 0x00], by decide +kernel⟩, ⟨withFrame small [0xC0, 0x01, 0x00, 0x00], by decide +kernel⟩,
    ⟨{ small with flen := 7 }, by decide +kernel⟩, ⟨withFrame small frameF4, by decide +kernel⟩,
    withFrame small [0x40, 0, 0, 0, 0, 0, 0, 0xB8], by decide +kernel⟩

theorem witness_SizeProbeLaw :
    (∃ s t : State, s.Inv ∧ exec .encV0 s = .next t ∧ t.status = .ok) ∧
    (∃ s t : State, s.Inv ∧ exec .encV1 s = .next t ∧ t.status = .ok) ∧
    ∃ s t : State, s.Inv ∧ exec .encV2 s = .next t ∧ t.status = .ok ∧ (24 : Word).toNat < t.reqSize.toNat :=
  ⟨witness_V0RoundTrip, ⟨msgF4, (exec_of_after (i := .encV1) (f := State.status) (x := .ok) (by decide +kernel)).imp
      fun _ h => ⟨by decide +kernel, h⟩⟩,
    msgF6, (exec_of_after (i := .encV2) (f := fun t => (t.status, t.reqSize)) (x := (.ok, 25)) (by decide +kernel)).imp
      fun t h => ⟨by decide +kernel, h.1, congrArg Prod.fst h.2,
        by rw [show t.reqSize = 25 from congrArg Prod.snd h.2]; decide⟩⟩

theorem witness_ExceptionEntryChangesNothingElse :
    (∃ s t : State, exec .valVer s = .next t ∧ t.status = .errInvalidField) ∧
    ∃ s t : State, exec .encV1 s = .next t ∧ t.status = .errTooSmall ∧ requiredEnd .encV1 s < 2 ^ 32 ∧
      requiredEnd .encV1 s = 8 :=
  ⟨⟨{ small with a0 := 4 }, exec_of_after (by decide +kernel)⟩,
    { msgF4 with ocap := 7 },
    (exec_of_after (i := .encV1) (f := State.status) (x := .errTooSmall) (by decide +kernel)).imp
      fun _ h => ⟨h.1, h.2, by decide +kernel, by decide +kernel⟩⟩

theorem witness_StatusesAreThoseOfTheTable : Instr.crcInit ∈ commandsAlwaysOk := by decide

theorem witness_ReqSizeIsWrittenOnlyByItsCommands :
    (∃ s t : State, exec .sizeV0 s = .next t ∧ t.status = .ok ∧ requiredEnd .sizeV0 s < 2 ^ 32 ∧
      t.reqSize ≠ s.reqSize) ∧
    (∃ s t : State, exec .vluPut s = .next t ∧ t.status = .errTooSmall ∧ requiredEnd .vluPut s = 2 ^ 32 - 1) ∧
    ∃ s t : State, exec .sumPatch s = .next t ∧ t.status = .ok :=
  ⟨⟨small, (exec_of_after (i := .sizeV0) (f := fun t => (t.status, t.reqSize)) (x := (.ok, 4))
      (by decide +kernel)).imp fun t h => ⟨h.1, congrArg Prod.fst h.2, by decide +kernel,
        by rw [show t.reqSize = 4 from congrArg Prod.snd h.2]; decide⟩⟩,
    ⟨{ small with pos := 0xFFFFFFFE, a0 := 1 },
      (exec_of_after (i := .vluPut) (f := State.status) (x := .errTooSmall) (by decide +kernel)).imp
        fun _ h => ⟨h.1, h.2, by decide +kernel⟩⟩,
    { small with flen := 8, ocap := 8 }, exec_of_after (by decide +kernel)⟩

theorem witness_AccumulatorsAndOperandsHaveFewWriters :
    ∃ s t : State, exec .msgReset s = .next t ∧ Instr.msgReset ∉ [Instr.crcInit, .crcUpd, .crcFrm, .crcPay] :=
  ⟨small, (exec_of_after (f := State.status) (x := .ok) (by decide +kernel)).imp fun _ h => ⟨h.1, by decide⟩⟩

theorem witness_FrameBufferBytesOutsideAreKept :
    (∃ s t : State, s.Inv ∧ exec .vluPut s = .next t ∧ s.pos.toNat + vluLen s.a0 ≤ 16 ∧ 13 < s.pos.toNat) ∧
    (∃ s t : State, s.Inv ∧ exec .sumPatch s = .next t ∧ 8 ≠ 7) ∧
    (∃ s t : State, s.Inv ∧ exec .bfIns s = .next t ∧ 0 < s.a0.toNat / 8 ∧ (s.a0.toNat + s.a1.toNat + 7) / 8 ≤ 2) ∧
    (∃ s t : State, s.Inv ∧ exec .encV1 s = .next t ∧ 4 + bodySize s.mTkl.toNat s.wireOptions s.plenEff ≤ 8) ∧
    ∃ s t : State, s.Inv ∧ exec .encV2 s = .next t ∧ 8 + bodySize s.mTkl.toNat s.wireOptions s.plenEff ≤ 25 :=
  ⟨⟨{ small with pos := 14, ocap := 16, a0 := 256 },
      (exec_of_after (f := State.status) (x := .ok) (by decide +kernel)).imp
        fun _ h => ⟨by decide +kernel, h.1, by decide +kernel, by decide⟩⟩,
    ⟨{ small with flen := 9, ocap := 8 }, (exec_of_after (f := State.status) (x := .ok) (by decide +kernel)).imp
        fun _ h => ⟨by decide +kernel, h.1, by decide⟩⟩,
    ⟨{ small with a0 := 8, a1 := 8, ocap := 2 }, (exec_of_after (f := State.status) (x := .ok) (by decide +kernel)).imp
        fun _ h => ⟨by decide +kernel, h.1, by decide, by decide⟩⟩,
    ⟨msgF4, (exec_of_after (f := State.status) (x := .ok) (by decide +kernel)).imp
        fun _ h => ⟨by decide +kernel, h.1, by decide +kernel⟩⟩,
    msgF6, (exec_of_after (f := State.status) (x := .ok) (by decide +kernel)).imp
        fun _ h => ⟨by decide +kernel, h.1, by decide +kernel⟩⟩

theorem witness_DecodedMemoriesOutsideAreKept :
    ∃ s t : State, s.Inv ∧ exec .decV2 s = .next t ∧ t.status = .ok ∧ t.plen.toNat ≤ 8 ∧ t.mTkl.toNat ≤ 2 ∧
      t.optCnt.toNat ≤ 2 ∧ ((t.opt.read 0 t.optCnt.toNat).map fun e => e.vlen.toNat).sum ≤ 4 :=
  ⟨withFrame small frameF6,
    (exec_of_after (i := .decV2)
      (f := fun t => (t.status, decide (t.plen.toNat ≤ 8 ∧ t.mTkl.toNat ≤ 2 ∧ t.optCnt.toNat ≤ 2 ∧
        ((t.opt.read 0 t.optCnt.toNat).map fun e => e.vlen.toNat).sum ≤ 4)))
      (x := (.ok, true)) (by decide +kernel)).imp
        fun _ h => ⟨by decide +kernel, h.1, congrArg Prod.fst h.2, of_decide_eq_true (congrArg Prod.snd h.2)⟩⟩

theorem witness_CursorStaysInTheBuffer :
    ∃ s t : State, s.Inv ∧ exec .vluPut s = .next t ∧ t.status = .ok ∧ t.pos.toNat = s.bufBytes.toNat :=
  ⟨{ small with pos := 1023, ocap := 1024, a0 := 1 },
    (exec_of_after (i := .vluPut) (f := fun t => (t.status, t.pos)) (x := (.ok, 1024)) (by decide +kernel)).imp
      fun t h => ⟨by decide +kernel, h.1, congrArg Prod.fst h.2,
        by rw [show t.pos = 1024 from congrArg Prod.snd h.2]; decide⟩⟩

/-- Contents that fill every space of the smallest instance. -/
def fullContents : ResetContents :=
  { token := [1, 2, 3, 4, 5, 6, 7, 8], opt := [strOpt 11#32 0#32 1#32], fbuf := [1, 2, 3, 4, 5, 6, 7, 8]
    pbuf := [1, 2, 3, 4, 5, 6, 7, 8], vbuf := [1, 2, 3, 4, 5, 6, 7, 8] }

theorem witness_ResetState :
    (∃ (p : Params) (c : ResetContents), c.token.length ≤ 8 ∧ c.opt.length ≤ p.optCap.toNat ∧
      c.fbuf.length ≤ p.bufBytes.toNat ∧ c.pbuf.length ≤ p.bufBytes.toNat ∧ c.vbuf.length ≤ p.bufBytes.toNat ∧
      c.token.length = 8 ∧ c.opt.length = p.optCap.toNat ∧ c.fbuf.length = p.bufBytes.toNat) ∧
    ∃ (s : State) (rest : List HostAction), s.host = .powerOn fullContents :: rest ∧ rest = [.read 0x004] :=
  ⟨⟨{ bufBytes := 8#32, optCap := 1#32 }, fullContents, by decide⟩,
    { small with host := [.powerOn fullContents, .read 0x004] }, _, rfl, rfl⟩

theorem witness_FirstCommandAfterReset :
    (∃ p : Params, p.wellFormed ∧ p.bufBytes.toNat = 8 ∧ p.optCap.toNat = 0) ∧ ∃ cap : Word, 8 ≤ cap.toNat ∧ cap = 8 :=
  ⟨⟨{ bufBytes := 8#32, optCap := 0#32 }, by decide⟩, 8, by decide⟩

theorem witness_InvariantHoldsAtReset : ∃ p : Params, p.wellFormed ∧ p.bufBytes.toNat = 2 ^ 24 :=
  ⟨{ bufBytes := 0x01000000#32, optCap := 254#32 }, by decide⟩

theorem witness_StepKeepsTheInvariant :
    ∃ s t : State, s.Inv ∧ step s = .next t :=
  ⟨{ msgF4 with host := [.write 0x000 0x55] }, by
    have h : ((afterStep { msgF4 with host := [.write 0x000 0x55] }).map State.status) = some .ok := by decide +kernel
    unfold afterStep at h
    cases hx : step { msgF4 with host := [.write 0x000 0x55] } with
    | next t => exact ⟨t, by decide +kernel, rfl⟩
    | fault r => exact nomatch r
    | refused r => rw [hx] at h; simp at h⟩

theorem witness_RequiredEndTooWideForReqSize :
    (∃ s t : State, s.params.wellFormed ∧ exec .vluPut s = .next t ∧ 2 ^ 32 ≤ requiredEnd .vluPut s ∧
      t.status = .errTooSmall) ∧
    (∃ s : State, s.params.wellFormed ∧ requiredEnd .vluPut s = 2 ^ 32) ∧
    (∃ s : State, s.params.wellFormed ∧ s.a1.toNat + s.a2.toNat ≤ s.bufBytes.toNat ∧ s.prevId.toNat ≤ s.a0.toNat ∧
      s.a0.toNat - s.prevId.toNat ≤ 65804 ∧ s.a2.toNat ≤ 65804 ∧ requiredEnd .optPut s = 2 ^ 32) ∧
    ∃ s : State, s.params.wellFormed ∧ s.optTableOk = true ∧ optsRepresentable 0#32 s.wireOptions = true ∧
      requiredEnd .optsEnc s = 2 ^ 32 :=
  ⟨⟨{ small with pos := 0xFFFFFFFF, a0 := 1 },
      (exec_of_after (i := .vluPut) (f := State.status) (x := .errTooSmall) (by decide +kernel)).imp
        fun _ h => ⟨by decide +kernel, h.1, by decide +kernel, h.2⟩⟩,
    ⟨{ small with pos := 0xFFFFFFFF, a0 := 1 }, by decide +kernel⟩,
    ⟨{ small with pos := 0xFFFFFFFF }, by decide +kernel⟩,
    { msgF4 with pos := 0xFFFFFFFC }, by decide +kernel⟩

/-- One input for each clause of the loop: a bad header byte, the end, the marker, a dropped option (ID 2 is not in the
registry), an option to store without room, one whose rest is bad, one whose rest is good. -/
theorem witness_OptionListDecodeRule :
    optDecode 0#32 [0xF0] = .error .optionUnexpectedExtendMarker ∧
    optDecode 5#32 [] = .ok .done ∧
    optDecode 5#32 [0xFF, 0x68] = .ok (.marker [0x68]) ∧
    (optDecode 0#32 [0x21, 0x41, 0x90] = .ok (.option 2#32 [0x41] [0x90]) ∧ regFilter 2#32 1 = none) ∧
    (optDecode 0#32 [0xB1, 0x41, 0xF0] = .ok (.option 11#32 [0x41] [0xF0]) ∧ regFilter 11#32 1 = some .string ∧
      optsDecodeFrom 0 11#32 [0xF0] = .error .optionUnexpectedExtendMarker) ∧
    (optDecode 0#32 [0xB1, 0x41, 0x10] = .ok (.option 11#32 [0x41] [0x10]) ∧
      optsDecodeFrom 1 11#32 [0x10] = .ok ⟨[⟨12#32, .uint, []⟩], 12#32, .frameEnd, []⟩) ∧
    regFilter (15#32) 255 = some .string ∧
    [(⟨11#32, .string, [0x41]⟩ : Stored), ⟨12#32, .uint, []⟩][1]? = some ⟨12#32, .uint, []⟩ := by
  decide +kernel

/-- 44_option_tlv.md R206: a dropped option (ID 2) raises nothing and its ID counts, so that 2 + 9 is 11; with no room
the option to store is ErrOptionsTooSmall though a bad header byte follows. -/
theorem test_optsDecode_loop :
    optsDecode 1 [0x21, 0x41, 0x91, 0x42] = .ok ⟨[⟨11#32, .string, [0x42]⟩], 11#32, .frameEnd, []⟩ ∧
    optsDecode 0 [0xB1, 0x41, 0xF0] = .error .optionsTooSmall := by decide +kernel

/-- Memory with nothing listed is canonical, and so are the memories of `State.reset`. -/
theorem test_reset_memories : State.reset.memoriesCanonical := by decide +kernel

end Sys2Proof.Tests
end

/-! PROOFS. What a command can do to the memories, said once for all commands, and from it that every step keeps the
invariant. -/

namespace Sys2Proof.Machine

variable {s t u : State}

/-! ### What a command does to the memories -/

/-- Everything a command can do to the memories; whichever it is, what it writes lies inside the spaces and the
capacities stay. -/
inductive State.MemoryEffect (s t : State) : Prop
  /-- No memory changes. -/
  | untouched (same : s.SameButFbuf t) (fbuf : t.fbuf = s.fbuf)
  /-- FBUF gets the bytes `bs` from offset `a`. -/
  | frameWritten (a : Nat) (bs : List Byte) (same : s.SameButFbuf t) (fbuf : t.fbuf = s.fbuf.write a bs)
      (fits : a + bs.length ≤ s.bufBytes.toNat)
  /-- The memories of a message get what a decoder stores: token, option values, payload, option entries. -/
  | messageStored (tok val pay : List Byte) (es : List OptEntry)
      (fbuf : t.fbuf = s.fbuf) (pbuf : t.pbuf = s.pbuf.write 0 pay) (vbuf : t.vbuf = s.vbuf.write 0 val)
      (token : t.token = s.token.write 0 tok) (opt : t.opt = s.opt.write 0 es)
      (bufBytes : t.bufBytes = s.bufBytes) (optCap : t.optCap = s.optCap)
      (payFits : pay.length ≤ s.bufBytes.toNat) (valFits : val.length ≤ s.bufBytes.toNat)
      (tokFits : tok.length ≤ 8) (esFit : es.length ≤ s.optCap.toNat)

namespace State.MemoryEffect

/-- A command that ended OK on a state with the memories it began with. -/
theorem of_registers (h : EndedOk t u) (same : s.SameButFbuf u := by exact ⟨rfl, rfl, rfl, rfl, rfl, rfl⟩)
    (fbuf : u.fbuf = s.fbuf := by rfl) : s.MemoryEffect t := by
  subst h
  obtain ⟨hp, hv, ht, ho, hb, hc⟩ := same
  exact .untouched ⟨hp, hv, ht, ho, hb, hc⟩ fbuf

/-- A command that ended OK on a state where only FBUF was written, and within the granted capacity. -/
theorem of_frame (a : Nat) (bs : List Byte) (h : EndedOk t u) (fits : a + bs.length ≤ s.ocapEff)
    (same : s.SameButFbuf u := by exact ⟨rfl, rfl, rfl, rfl, rfl, rfl⟩)
    (fbuf : u.fbuf = s.fbuf.write a bs := by rfl) : s.MemoryEffect t := by
  subst h
  obtain ⟨hp, hv, ht, ho, hb, hc⟩ := same
  exact .frameWritten a bs ⟨hp, hv, ht, ho, hb, hc⟩ fbuf (fits.trans s.ocapEff_le)

theorem of_exception (s : State) (e : Raise) : s.MemoryEffect (s.takeException e) :=
  .untouched (s.takeException_same e) (s.takeException_fbuf e)

theorem of_took {l : List Raise} (h : Took s t l) : s.MemoryEffect t := by
  obtain ⟨e, -, rfl⟩ := h
  exact of_exception s e

theorem of_tooSmall {i : Instr} (h : TookTooSmall i s t) : s.MemoryEffect t := by
  obtain ⟨-, rfl⟩ := h
  exact of_exception s _

theorem of_validated {ok : Bool} (h : validated s ok = .next t) : s.MemoryEffect t := by
  rcases validated_cases h with ht | ht
  · exact of_registers ht
  · exact of_took ht

/-! ### The decoders -/

theorem of_optsDec (h : execOptsDec s = .next t) : s.MemoryEffect t := by
  rcases execOptsDec_cases h with ⟨p, -, hd, rfl⟩ | ht
  · obtain ⟨hroom, hbytes⟩ := optsDecode_fits hd
    have hfl := s.flenEff_le
    simp only [List.length_drop, State.frame_length] at hbytes
    exact .messageStored [] (storedBytes p.stored) [] (storedEntries 0 p.stored) rfl rfl rfl rfl rfl rfl rfl
      (by simp) (by omega) (by simp) (by rwa [storedEntries_length])
  · exact of_took ht

theorem of_decV0 (h : execDecV0 s = .next t) : s.MemoryEffect t := by
  rcases execDecV0_cases h with ⟨-, -, -, rfl⟩ | ht
  · have hfl := s.flenEff_le
    exact .messageStored [] [] (s.memRead .fbuf 4 (s.flenEff - 4)) [] rfl rfl rfl rfl rfl rfl rfl
      (by simp; omega) (by simp) (by simp) (by simp)
  · exact of_took ht

/-- DEC.V1 and DEC.V2 store the body of the frame, parsed from offset `n` on, in a state `u` that differs from `s` in
registers only. -/
theorem of_storeBody {n tkl : Nat} {b : Body} {pos : Word} (htkl : tkl ≤ 8)
    (hb : bodyParse s.optCap.toNat tkl (s.frame.drop n) = .ok b) (ht : EndedOk t { u.storeBody b with pos := pos })
    (same : s.SameButFbuf u) (fbuf : u.fbuf = s.fbuf) : s.MemoryEffect t := by
  obtain ⟨-, htok, hroom, hbytes⟩ := bodyParse_fits hb
  obtain ⟨hp, hv, hk, ho, hbb, hoc⟩ := same
  have hfl := s.flenEff_le
  simp only [List.length_drop, State.frame_length] at hbytes
  rw [State.storeBody_eq, hp, hv, hk, ho] at ht
  rw [ht]
  exact .messageStored b.tok (storedBytes b.stored) b.pay (storedEntries 0 b.stored) fbuf rfl rfl rfl rfl hbb hoc
    (by omega) (by omega) (by rw [htok, List.length_take]; omega) (by rwa [storedEntries_length])

theorem of_decV1 (h : execDecV1 s = .next t) : s.MemoryEffect t := by
  rcases execDecV1_cases h with ⟨b, -, -, htkl, hb, rfl⟩ | ht
  · exact of_storeBody htkl hb rfl ⟨rfl, rfl, rfl, rfl, rfl, rfl⟩ rfl
  · exact of_took ht

theorem of_decV2 (h : execDecV2 s = .next t) : s.MemoryEffect t := by
  rcases execDecV2_cases h with ⟨b, -, -, -, htkl, hb, -, rfl⟩ | ht
  · exact of_storeBody htkl hb rfl ⟨rfl, rfl, rfl, rfl, rfl, rfl⟩ rfl
  · exact of_took ht

end State.MemoryEffect

/-! ### Every command -/

theorem exec_memoryEffect {i : Instr} (h : exec i s = .next t) : s.MemoryEffect t := by
  cases i with
  | crcInit => exact .of_registers (execCrcInit_cases h)
  | crcUpd => exact .of_registers (execCrcUpd_cases h)
  | crcFrm => exact (execCrcFrm_cases h).elim (fun ⟨_, ht⟩ => .of_registers ht) .of_took
  | crcPay => exact .of_registers (execCrcPay_cases h)
  | sumInit => exact .of_registers (execSumInit_cases h)
  | sumUpd => exact .of_registers (execSumUpd_cases h)
  | sumFrm => exact (execSumFrm_cases h).elim (fun ⟨_, ht⟩ => .of_registers ht) .of_took
  | sumPatch =>
    exact (execSumPatch_cases h).elim3
      (fun ⟨_, hroom, ht⟩ => .of_frame 7 [patchByte s.frame] ht hroom) .of_took .of_tooSmall
  | vluLen => exact .of_registers (execVluLen_cases h)
  | vluPut =>
    exact (execVluPut_cases h).elim
      (fun ⟨hroom, ht⟩ => .of_frame s.cursor (vluEnc s.a0) ht (by rwa [vluEnc_length])) .of_tooSmall
  | vluGet => exact (execVluGet_cases h).elim (fun ⟨_, _, ht⟩ => .of_registers ht) .of_took
  | valType | valMid | valEid | valEtp | valVer => exact .of_validated h
  | bfExt => exact (execBfExt_cases h).elim (fun ⟨_, ht⟩ => .of_registers ht) .of_took
  | bfIns =>
    exact (execBfIns_cases h).elim
      (fun ⟨_, _, hroom, ht⟩ => .of_frame 0 (bfSet (s.memRead .fbuf 0 (bfBytes s.x0 s.x1)) s.x0 s.x1 s.a2) ht
        (by simpa using hroom)) .of_took
  | regLookup =>
    obtain ⟨_, _, _, ht⟩ := execRegLookup_cases h
    exact .of_registers ht
  | regCheck => exact (execRegCheck_cases h).elim (fun ⟨_, ht⟩ => .of_registers ht) .of_took
  | optBegin => exact .of_registers (execOptBegin_cases h)
  | optSize => exact (execOptSize_cases h).elim (fun ht => .of_registers ht) .of_took
  | optPut =>
    exact (execOptPut_cases h).elim3
      (fun ⟨hroom, ht⟩ => .of_frame s.cursor (optEncode s.prevId s.a0 (s.memRead .vbuf s.x1 s.x2)) ht
        (by simpa [optEncode_length] using hroom)) .of_took .of_tooSmall
  | optGet =>
    rcases execOptGet_cases h with ⟨-, -, ht⟩ | ⟨_, -, -, ht⟩ | ⟨_, _, _, -, -, ht⟩ | ht
    · exact .of_registers ht
    · exact .of_registers ht
    · exact .of_registers ht
    · exact .of_took ht
  | optsSize => exact (execOptsSize_cases h).elim (fun ⟨_, _, ht⟩ => .of_registers ht) .of_took
  | optsEnc =>
    exact (execOptsEnc_cases h).elim3
      (fun ⟨_, _, hroom, ht⟩ => .of_frame s.cursor (optsEncode 0#32 s.wireOptions) ht (by rwa [optsEncode_length]))
      .of_took (fun ⟨_, _, ht⟩ => .of_tooSmall ht)
  | optsDec => exact .of_optsDec h
  | msgReset => exact .of_registers (execMsgReset_cases h)
  | ctMap => exact .of_registers (execCtMap_cases h)
  | hdr0Pack =>
    exact (execHdr0Pack_cases h).elim3
      (fun ⟨_, hroom, ht⟩ => .of_frame 0 (s.hdr0 s.mCrc16) ht hroom) .of_took .of_tooSmall
  | hdr0Unpack => exact (execHdr0Unpack_cases h).elim (fun ⟨_, ht⟩ => .of_registers ht) .of_took
  | hdr1Pack =>
    exact (execHdr1Pack_cases h).elim3
      (fun ⟨_, _, hroom, ht⟩ => .of_frame 0 s.hdr1 ht hroom) .of_took .of_tooSmall
  | hdr1Unpack => exact (execHdr1Unpack_cases h).elim (fun ⟨_, _, ht⟩ => .of_registers ht) .of_took
  | hdr2Pack =>
    exact (execHdr2Pack_cases h).elim3
      (fun ⟨_, _, hroom, ht⟩ => .of_frame 0 (s.hdr2 s.mCrc16) ht hroom) .of_took .of_tooSmall
  | hdr2Unpack => exact (execHdr2Unpack_cases h).elim (fun ⟨_, _, ht⟩ => .of_registers ht) .of_took
  | sizeV0 => exact .of_registers (execSizeV0_cases h)
  | encV0 =>
    exact (execEncV0_cases h).elim3
      (fun ⟨_, hroom, ht⟩ => .of_frame 0 s.frameV0 ht (by simpa using hroom)) .of_took .of_tooSmall
  | decV0 => exact .of_decV0 h
  | sizeV1 => exact (execSizeV1_cases h).elim (fun ⟨_, _, ht⟩ => .of_registers ht) .of_took
  | encV1 =>
    exact (execEncV1_cases h).elim3
      (fun ⟨_, _, _, _, hroom, ht⟩ => .of_frame 0 (s.frameV1 s.wireOptions) ht (by simpa using hroom))
      .of_took (fun ⟨_, _, ht⟩ => .of_tooSmall ht)
  | decV1 => exact .of_decV1 h
  | sizeV2 => exact (execSizeV2_cases h).elim (fun ⟨_, _, ht⟩ => .of_registers ht) .of_took
  | encV2 =>
    exact (execEncV2_cases h).elim3
      (fun ⟨_, _, _, _, hroom, ht⟩ => .of_frame 0 (s.frameV2 s.wireOptions) ht (by simpa using hroom))
      .of_took (fun ⟨_, _, ht⟩ => .of_tooSmall ht)
  | decV2 => exact .of_decV2 h

/-- A command write does to the memories what a command does; an illegal opcode touches none. -/
theorem runCommand_memoryEffect {bs : List Byte} (h : runCommand bs s = .next t) : s.MemoryEffect t := by
  unfold runCommand at h
  split at h
  · exact exec_memoryEffect h
  · rw [← next_inj h]
    exact .of_exception s _

/-! ### The invariant -/

theorem State.Inv.of_memoryEffect (hi : s.Inv) (h : s.MemoryEffect t) : t.Inv ∧ t.params = s.params := by
  cases h with
  | untouched same fbuf => exact ⟨hi.of_same same fbuf, same.params⟩
  | frameWritten a bs same fbuf fits => exact ⟨hi.of_fbuf same fbuf fits, same.params⟩
  | messageStored tok val pay es fbuf pbuf vbuf token opt bufBytes optCap payFits valFits tokFits esFit =>
    exact ⟨hi.of_decoded fbuf pbuf vbuf token opt bufBytes optCap payFits valFits tokFits esFit,
      by simp [State.params, bufBytes, optCap]⟩

/-- The invariant right after reset (10_state.md R44), whatever the unspecified contents. -/
theorem State.resetWith_inv {p : Params} (hp : p.wellFormed) (c : ResetContents) : (State.resetWith p c).Inv := by
  obtain ⟨cf, wf⟩ := resetMemory_canonical p.bufBytes.toNat c.fbuf
  obtain ⟨cp, wp⟩ := resetMemory_canonical p.bufBytes.toNat c.pbuf
  obtain ⟨cv, wv⟩ := resetMemory_canonical p.bufBytes.toNat c.vbuf
  obtain ⟨ct, wt⟩ := resetMemory_canonical 8 c.token
  obtain ⟨co, wo⟩ := resetTable_canonical p.optCap.toNat c.opt
  exact ⟨hp, ⟨cf, cp, cv, ct, co⟩, ⟨wf, wp, wv, wt, wo⟩⟩

theorem serve_keeps_inv {a : HostAction} (hi : s.Inv) (h : serve a s = .next t) : t.Inv ∧ t.params = s.params := by
  cases a with
  | read off =>
    rw [← next_inj h]
    exact ⟨hi, rfl⟩
  | write off v =>
    simp only [serve, serveWrite] at h
    split_ifs at h
    · exact hi.of_memoryEffect (runCommand_memoryEffect h)
    · rw [← next_inj h]
      exact hi.writePort (portOf_inside s off) v
  | powerOn c =>
    rw [← next_inj h]
    exact ⟨State.resetWith_inv hi.1 c, rfl⟩

/-- Settles O58: the step serves the host's next action, or is idle, and serving keeps the invariant. -/
theorem stepKeepsTheInvariant : Obligations.StepKeepsTheInvariant := by
  intro s t hi h
  cases hh : s.host with
  | nil =>
    rw [step_of_nil hh] at h
    rw [← next_inj h]
    exact ⟨hi, rfl⟩
  | cons a rest =>
    rw [step_of_cons hh] at h
    exact serve_keeps_inv (s := { s with host := rest }) hi h

end Sys2Proof.Machine

/-! PROOFS. What a command does to REQSIZE and to POS, each said once for all commands (10_state.md R24, R27). -/

namespace Sys2Proof.Machine

variable {s t u : State} {i : Instr} {n : Nat}

/-! ### Outcomes and sizes -/

theorem Took.status_ne_ok {l : List Raise} (h : Took s t l) : t.status ≠ .ok := by
  obtain ⟨e, -, rfl⟩ := h
  exact s.takeException_status_ne_ok e

theorem TookTooSmall.status_eq (h : TookTooSmall i s t) : t.status = .errTooSmall := by
  obtain ⟨-, rfl⟩ := h
  rfl

theorem TookTooSmall.status_ne_ok (h : TookTooSmall i s t) : t.status ≠ .ok := by
  rw [h.status_eq]
  decide

/-- Only ErrTooSmall records a size. -/
theorem State.takeException_reqSize {e : Raise} (h : e.status ≠ .errTooSmall) :
    (s.takeException e).reqSize = s.reqSize := by
  cases e with
  | tooSmall n => exact absurd rfl h
  | _ => rfl

theorem sizeValue_of_lt {k : Nat} (h : n < 2 ^ 32) : sizeValue k n = word n := if_pos h

theorem word_toNat_le (n : Nat) : (word n).toNat ≤ n := by
  rw [word_toNat]
  exact Nat.mod_le _ _

theorem State.lt_of_le_ocapEff (hw : s.params.wellFormed) (h : n ≤ s.ocapEff) : n < 2 ^ 32 := by
  have := s.ocapEff_le
  have := State.bufBytes_le hw
  omega

theorem State.sizeV0_lt (hw : s.params.wellFormed) : 4 + s.plenEff < 2 ^ 32 := by
  have := s.plenEff_le
  have := State.bufBytes_le hw
  omega

/-- The size of a V1 or V2 frame with a header of `h` bytes fits 32 bits once the option table passed its checks. -/
theorem State.headerAndBody_lt (hw : s.params.wellFormed) (hok : s.optTableOk = true)
    (hr : optsRepresentable 0#32 s.wireOptions = true) {h : Nat} (hh : h ≤ 8) :
    h + bodySize s.mTkl.toNat s.wireOptions s.plenEff < 2 ^ 32 := by
  have hopts := State.optsSize_wire_lt hw hok hr
  have htkl := s.mTkl.isLt
  have hplen := s.plenEff_le
  have hbuf := State.bufBytes_le hw
  unfold bodySize
  split_ifs <;> omega

/-! ### REQSIZE -/

/-- The commands whose required end starts at POS, a register the host writes. -/
abbrev cursorPuts : List Instr := [.vluPut, .optPut, .optsEnc]

/-- Everything a command can do to REQSIZE. -/
inductive State.SizeEffect (i : Instr) (s t : State) : Prop
  /-- Ended OK and recorded the required end. -/
  | recorded (ok : t.status = .ok) (writer : i ∈ reqSizeWriters) (notPatch : i ≠ .sumPatch)
      (size : t.reqSize = sizeValue s.freeCount (requiredEnd i s))
      (fits : s.params.wellFormed → requiredEnd i s < 2 ^ 32)
  /-- Found no room, and recorded the required end. -/
  | noRoom (took : TookTooSmall i s t) (fits : s.params.wellFormed → i ∈ cursorPuts ∨ requiredEnd i s < 2 ^ 32)
      (writer : i ∈ reqSizeWriters := by decide)
  /-- Ended OK, and its rule lists no REQSIZE on OK. -/
  | silent (ok : t.status = .ok) (other : i ∉ reqSizeWriters ∨ i = .sumPatch) (size : t.reqSize = s.reqSize)
      (fits : requiredEnd i s < 2 ^ 32)
  /-- Ended with another status. -/
  | raised (notOk : t.status ≠ .ok) (notTooSmall : t.status ≠ .errTooSmall) (size : t.reqSize = s.reqSize)

namespace State.SizeEffect

/-- A command that records the size `n` when it ends OK. -/
theorem of_recorded (n : Nat) (h : EndedOk t u) (fits : s.params.wellFormed → n < 2 ^ 32)
    (hn : n = requiredEnd i s := by rfl) (size : u.reqSize = sizeValue s.freeCount n := by rfl)
    (writer : i ∈ reqSizeWriters := by decide) (notPatch : i ≠ .sumPatch := by decide) : s.SizeEffect i t := by
  subst h hn
  exact .recorded rfl writer notPatch size fits

/-- A command that wrote up to the end `n` in FBUF: the end lies within the granted capacity. -/
theorem of_room (n : Nat) (h : EndedOk t u) (room : n ≤ s.ocapEff)
    (hn : n = requiredEnd i s := by rfl) (size : u.reqSize = sizeValue s.freeCount n := by rfl)
    (writer : i ∈ reqSizeWriters := by decide) (notPatch : i ≠ .sumPatch := by decide) : s.SizeEffect i t :=
  of_recorded n h (fun hw => State.lt_of_le_ocapEff hw room) hn size writer notPatch

theorem of_silent (h : EndedOk t u) (other : i ∉ reqSizeWriters ∨ i = .sumPatch := by decide)
    (size : u.reqSize = s.reqSize := by rfl) (fits : requiredEnd i s < 2 ^ 32 := by exact Nat.two_pow_pos 32) :
    s.SizeEffect i t := by
  subst h
  exact .silent rfl other size fits

theorem of_took {l : List Raise} (h : Took s t l) (hl : ∀ e ∈ l, e.status ≠ .errTooSmall := by decide) :
    s.SizeEffect i t := by
  obtain ⟨e, he, rfl⟩ := h
  exact .raised (s.takeException_status_ne_ok e) (by simpa using hl e he) (State.takeException_reqSize (hl e he))

theorem of_validated {ok : Bool} (h : validated s ok = .next t) (other : i ∉ reqSizeWriters := by decide)
    (fits : requiredEnd i s < 2 ^ 32 := by exact Nat.two_pow_pos 32) : s.SizeEffect i t :=
  (validated_cases h).elim (fun ht => of_silent ht (.inl other) rfl fits) of_took

end State.SizeEffect

theorem exec_sizeEffect (h : exec i s = .next t) : s.SizeEffect i t := by
  cases i with
  | crcInit => exact .of_silent (execCrcInit_cases h)
  | crcUpd => exact .of_silent (execCrcUpd_cases h)
  | crcFrm => exact (execCrcFrm_cases h).elim (fun ⟨_, ht⟩ => .of_silent ht) .of_took
  | crcPay => exact .of_silent (execCrcPay_cases h)
  | sumInit => exact .of_silent (execSumInit_cases h)
  | sumUpd => exact .of_silent (execSumUpd_cases h)
  | sumFrm => exact (execSumFrm_cases h).elim (fun ⟨_, ht⟩ => .of_silent ht) .of_took
  | sumPatch =>
    have h8 : requiredEnd .sumPatch s < 2 ^ 32 := show 8 < 2 ^ 32 by decide
    exact (execSumPatch_cases h).elim3 (fun ⟨_, _, ht⟩ => .of_silent ht (fits := h8)) .of_took
      (fun ht => .noRoom ht fun _ => .inr h8)
  | vluLen => exact .of_silent (execVluLen_cases h)
  | vluPut =>
    exact (execVluPut_cases h).elim
      (fun ⟨hroom, ht⟩ => .of_room _ ht hroom rfl (by rw [← vluEnc_length]; rfl))
      (fun ht => .noRoom ht fun _ => .inl (by decide))
  | vluGet => exact (execVluGet_cases h).elim (fun ⟨_, _, ht⟩ => .of_silent ht) .of_took
  | valType | valMid | valEid | valEtp | valVer => exact .of_validated h
  | bfExt => exact (execBfExt_cases h).elim (fun ⟨_, ht⟩ => .of_silent ht) .of_took
  | bfIns => exact (execBfIns_cases h).elim (fun ⟨_, _, _, ht⟩ => .of_silent ht) .of_took
  | regLookup =>
    obtain ⟨_, _, _, ht⟩ := execRegLookup_cases h
    exact .of_silent ht
  | regCheck => exact (execRegCheck_cases h).elim (fun ⟨_, ht⟩ => .of_silent ht) .of_took
  | optBegin => exact .of_silent (execOptBegin_cases h)
  | optSize => exact (execOptSize_cases h).elim (fun ht => .of_silent ht) .of_took
  | optPut =>
    exact (execOptPut_cases h).elim3
      (fun ⟨hroom, ht⟩ => .of_room _ ht hroom rfl
        (show sizeValue _ (s.cursor + (optEncode _ _ _).length) = _ by simp [optEncode_length, State.memRead]))
      .of_took (fun ht => .noRoom ht fun _ => .inl (by decide))
  | optGet =>
    rcases execOptGet_cases h with ⟨-, -, ht⟩ | ⟨_, -, -, ht⟩ | ⟨_, _, _, -, -, ht⟩ | ht
    · exact .of_silent ht
    · exact .of_silent ht
    · exact .of_silent ht
    · exact .of_took ht
  | optsSize => exact (execOptsSize_cases h).elim (fun ⟨_, _, ht⟩ => .of_silent ht) .of_took
  | optsEnc =>
    exact (execOptsEnc_cases h).elim3
      (fun ⟨_, _, hroom, ht⟩ => .of_room _ ht hroom rfl (by rw [← optsEncode_length]; rfl))
      .of_took (fun ⟨_, _, ht⟩ => .noRoom ht fun _ => .inl (by decide))
  | optsDec => exact (execOptsDec_cases h).elim (fun ⟨_, _, _, ht⟩ => .of_silent ht) .of_took
  | msgReset => exact .of_silent (execMsgReset_cases h)
  | ctMap => exact .of_silent (execCtMap_cases h)
  | hdr0Pack =>
    exact (execHdr0Pack_cases h).elim3 (fun ⟨_, hroom, ht⟩ => .of_room 4 ht hroom) .of_took
      (fun ht => .noRoom ht fun _ => .inr (show 4 < 2 ^ 32 by decide))
  | hdr0Unpack => exact (execHdr0Unpack_cases h).elim (fun ⟨_, ht⟩ => .of_silent ht) .of_took
  | hdr1Pack =>
    exact (execHdr1Pack_cases h).elim3 (fun ⟨_, _, hroom, ht⟩ => .of_room 4 ht hroom) .of_took
      (fun ht => .noRoom ht fun _ => .inr (show 4 < 2 ^ 32 by decide))
  | hdr1Unpack => exact (execHdr1Unpack_cases h).elim (fun ⟨_, _, ht⟩ => .of_silent ht) .of_took
  | hdr2Pack =>
    exact (execHdr2Pack_cases h).elim3 (fun ⟨_, _, hroom, ht⟩ => .of_room 8 ht hroom) .of_took
      (fun ht => .noRoom ht fun _ => .inr (show 8 < 2 ^ 32 by decide))
  | hdr2Unpack => exact (execHdr2Unpack_cases h).elim (fun ⟨_, _, ht⟩ => .of_silent ht) .of_took
  | sizeV0 => exact .of_recorded _ (execSizeV0_cases h) State.sizeV0_lt
  | encV0 =>
    exact (execEncV0_cases h).elim3 (fun ⟨_, hroom, ht⟩ => .of_room _ ht hroom) .of_took
      (fun ht => .noRoom ht fun hw => .inr (State.sizeV0_lt hw))
  | decV0 => exact (execDecV0_cases h).elim (fun ⟨_, _, _, ht⟩ => .of_silent ht) .of_took
  | sizeV1 =>
    exact (execSizeV1_cases h).elim
      (fun ⟨hok, hr, ht⟩ => .of_recorded _ ht fun hw => State.headerAndBody_lt hw hok hr (h := 4) (by decide)) .of_took
  | encV1 =>
    exact (execEncV1_cases h).elim3 (fun ⟨_, _, _, _, hroom, ht⟩ => .of_room _ ht hroom) .of_took
      (fun ⟨hok, hr, ht⟩ => .noRoom ht fun hw => .inr (State.headerAndBody_lt hw hok hr (h := 4) (by decide)))
  | decV1 =>
    exact (execDecV1_cases h).elim (fun ⟨_, _, _, _, _, ht⟩ => .of_silent ht (size := by simp)) .of_took
  | sizeV2 =>
    exact (execSizeV2_cases h).elim
      (fun ⟨hok, hr, ht⟩ => .of_recorded _ ht fun hw => State.headerAndBody_lt hw hok hr (h := 8) le_rfl) .of_took
  | encV2 =>
    exact (execEncV2_cases h).elim3 (fun ⟨_, _, _, _, hroom, ht⟩ => .of_room _ ht hroom) .of_took
      (fun ⟨hok, hr, ht⟩ => .noRoom ht fun hw => .inr (State.headerAndBody_lt hw hok hr (h := 8) le_rfl))
  | decV2 =>
    exact (execDecV2_cases h).elim (fun ⟨_, _, _, _, _, _, _, ht⟩ => .of_silent ht (size := by simp)) .of_took

/-- Settles O50: each of the four effects on REQSIZE meets the rule. -/
theorem reqSizeIsWrittenOnlyByItsCommands : Obligations.ReqSizeIsWrittenOnlyByItsCommands := by
  intro i s t h
  cases exec_sizeEffect h with
  | recorded ok writer notPatch size fits =>
    exact ⟨fun _ _ hlt => size.trans (sizeValue_of_lt hlt), fun hi => absurd hi notPatch, fun _ => ⟨writer, .inl ok⟩⟩
  | noRoom took fits writer =>
    refine ⟨fun _ _ hlt => ?_, fun _ hok => absurd hok took.status_ne_ok, fun _ => ⟨writer, .inr took.status_eq⟩⟩
    obtain ⟨-, rfl⟩ := took
    rw [State.takeException_tooSmall s hlt]
  | silent ok other size fits =>
    refine ⟨fun hi hst _ => ?_, fun _ _ => size, fun hne => absurd size hne⟩
    rcases hst with ⟨-, hp⟩ | hts
    · exact absurd (other.resolve_right hp) (not_not_intro hi)
    · rw [ok] at hts
      cases hts
  | raised notOk notTooSmall size =>
    refine ⟨fun _ hst _ => ?_, fun _ hok => absurd hok notOk, fun hne => absurd size hne⟩
    rcases hst with ⟨hok, -⟩ | hts
    · exact absurd hok notOk
    · exact absurd hts notTooSmall

/-! ### A required end REQSIZE cannot hold -/

theorem execVluPut_noRoom (h : s.ocapEff < requiredEnd .vluPut s) :
    execVluPut s = .next (s.takeException (.tooSmall (requiredEnd .vluPut s))) := by
  rw [execVluPut, show roomFor s (s.cursor + vluLen s.a0) = _ from roomFor_of_gt h]
  rfl

theorem execOptPut_noRoom (hval : s.x1 + s.x2 ≤ s.bufBytes.toNat) (hid : s.prevId.toNat ≤ s.a0.toNat)
    (hrep : representable (delta s.prevId s.a0) s.x2) (h : s.ocapEff < requiredEnd .optPut s) :
    execOptPut s = .next (s.takeException (.tooSmall (requiredEnd .optPut s))) := by
  rw [execOptPut, if_neg (Nat.not_lt.2 hval), if_neg (Nat.not_lt.2 hid), if_neg (not_not_intro hrep)]
  dsimp only
  rw [show roomFor s (s.cursor + optSize (delta s.prevId s.a0) s.x2) = _ from roomFor_of_gt h]
  rfl

theorem execOptsEnc_noRoom (hok : s.optTableOk = true) (hr : optsRepresentable 0#32 s.wireOptions = true)
    (h : s.ocapEff < requiredEnd .optsEnc s) :
    execOptsEnc s = .next (s.takeException (.tooSmall (requiredEnd .optsEnc s))) := by
  rw [execOptsEnc, State.checkedOptions_of_ok hok hr]
  dsimp only
  rw [show roomFor s (s.cursor + optsSize 0#32 s.wireOptions) = _ from roomFor_of_gt h]
  rfl

/-- No capacity has room for an end of 2^32 or more. -/
theorem State.ocapEff_lt_of_ge (hw : s.params.wellFormed) (h : 2 ^ 32 ≤ n) : s.ocapEff < n :=
  lt_of_lt_of_le (State.lt_of_le_ocapEff hw le_rfl) h

/-- Settles O59: only a required end that starts at POS can be 2^32 or more, there is no room for it, and the size
recorded is then a free value. -/
theorem requiredEndTooWideForReqSize : Obligations.RequiredEndTooWideForReqSize := by
  refine ⟨fun i s t hw h hwide hst => ?_, fun s hw => ⟨fun hwide => ?_, fun hval hid hd hv hwide => ?_,
    fun hok hr hwide => ?_⟩⟩
  · cases exec_sizeEffect h with
    | recorded ok writer notPatch size fits => exact absurd (fits hw) (Nat.not_lt.2 hwide)
    | noRoom took fits writer =>
      refine ⟨(fits hw).resolve_right (Nat.not_lt.2 hwide), ?_⟩
      obtain ⟨-, rfl⟩ := took
      rw [State.takeException_tooSmall_free s hwide]
    | silent ok other size fits => exact absurd fits (Nat.not_lt.2 hwide)
    | raised notOk notTooSmall size => exact absurd hst (not_or.2 ⟨notOk, notTooSmall⟩)
  · exact ⟨_, (execVluPut_noRoom (State.ocapEff_lt_of_ge hw hwide)).trans
      (congrArg _ (State.takeException_tooSmall_free s hwide))⟩
  · exact ⟨_, (execOptPut_noRoom hval hid ⟨hd, hv⟩ (State.ocapEff_lt_of_ge hw hwide)).trans
      (congrArg _ (State.takeException_tooSmall_free s hwide))⟩
  · exact ⟨_, (execOptsEnc_noRoom hok hr (State.ocapEff_lt_of_ge hw hwide)).trans
      (congrArg _ (State.takeException_tooSmall_free s hwide))⟩

/-! ### POS -/

/-- If the command ended OK, POS lies in FBUF or at its end. -/
def State.CursorWithin (s t : State) : Prop := t.status = .ok → t.pos.toNat ≤ s.bufBytes.toNat

namespace State.CursorWithin

theorem of_took {l : List Raise} (h : Took s t l) : s.CursorWithin t := fun hok => absurd hok h.status_ne_ok

theorem of_tooSmall (h : TookTooSmall i s t) : s.CursorWithin t := fun hok => absurd hok h.status_ne_ok

theorem of_word (n : Nat) (h : EndedOk t u) (hn : n ≤ s.bufBytes.toNat) (hpos : u.pos = word n := by rfl) :
    s.CursorWithin t := by
  subst h
  exact fun _ => (congrArg BitVec.toNat hpos).trans_le ((word_toNat_le n).trans hn)

/-- POS moved to the end of what was written. -/
theorem of_written (n : Nat) (h : EndedOk t u) (room : n ≤ s.ocapEff) (hpos : u.pos = word n := by rfl) :
    s.CursorWithin t := of_word n h (room.trans s.ocapEff_le) hpos

/-- POS moved to the end of what was read. -/
theorem of_read (n : Nat) (h : EndedOk t u) (valid : n ≤ s.flenEff) (hpos : u.pos = word n := by rfl) :
    s.CursorWithin t := of_word n h (valid.trans s.flenEff_le) hpos

end State.CursorWithin

/-- POS is where a write that had room ended, or where a read of valid bytes ended. -/
theorem exec_cursorWithin (h : exec i s = .next t)
    (hi : i ∈ [.vluPut, .vluGet, .optPut, .optGet, .optsEnc, .optsDec, .hdr0Pack, .hdr0Unpack, .hdr1Pack, .hdr1Unpack,
      .hdr2Pack, .hdr2Unpack, .encV0, .decV0, .encV1, .decV1, .encV2, .decV2]) : s.CursorWithin t := by
  cases i with
  | vluPut =>
    exact (execVluPut_cases h).elim
      (fun ⟨hroom, ht⟩ => .of_written _ ht hroom (by rw [← vluEnc_length]; rfl)) .of_tooSmall
  | vluGet => exact (execVluGet_cases h).elim (fun ⟨_, hin, ht⟩ => .of_read _ ht hin) .of_took
  | optPut =>
    exact (execOptPut_cases h).elim3
      (fun ⟨hroom, ht⟩ => .of_written _ ht hroom (by simp [optEncode_length, State.memRead])) .of_took .of_tooSmall
  | optGet =>
    rcases execOptGet_cases h with ⟨hcur, -, ht⟩ | ⟨_, -, -, ht⟩ | ⟨_, _, _, -, -, ht⟩ | ht
    · exact .of_read s.cursor ht hcur (word_toNat_self s.pos).symm
    · exact .of_read _ ht (Nat.sub_le _ _)
    · exact .of_read _ ht (Nat.sub_le _ _)
    · exact .of_took ht
  | optsEnc =>
    exact (execOptsEnc_cases h).elim3
      (fun ⟨_, _, hroom, ht⟩ => .of_written _ ht hroom (by rw [← optsEncode_length]; rfl))
      .of_took (fun ⟨_, _, ht⟩ => .of_tooSmall ht)
  | optsDec => exact (execOptsDec_cases h).elim (fun ⟨_, _, _, ht⟩ => .of_read _ ht (Nat.sub_le _ _)) .of_took
  | hdr0Pack => exact (execHdr0Pack_cases h).elim3 (fun ⟨_, hroom, ht⟩ => .of_written 4 ht hroom) .of_took .of_tooSmall
  | hdr0Unpack => exact (execHdr0Unpack_cases h).elim (fun ⟨hlen, ht⟩ => .of_read 4 ht hlen) .of_took
  | hdr1Pack =>
    exact (execHdr1Pack_cases h).elim3 (fun ⟨_, _, hroom, ht⟩ => .of_written 4 ht hroom) .of_took .of_tooSmall
  | hdr1Unpack => exact (execHdr1Unpack_cases h).elim (fun ⟨hlen, _, ht⟩ => .of_read 4 ht hlen) .of_took
  | hdr2Pack =>
    exact (execHdr2Pack_cases h).elim3 (fun ⟨_, _, hroom, ht⟩ => .of_written 8 ht hroom) .of_took .of_tooSmall
  | hdr2Unpack => exact (execHdr2Unpack_cases h).elim (fun ⟨hlen, _, ht⟩ => .of_read 8 ht hlen) .of_took
  | encV0 => exact (execEncV0_cases h).elim3 (fun ⟨_, hroom, ht⟩ => .of_written _ ht hroom) .of_took .of_tooSmall
  | decV0 => exact (execDecV0_cases h).elim (fun ⟨_, _, _, ht⟩ => .of_read _ ht le_rfl) .of_took
  | encV1 =>
    exact (execEncV1_cases h).elim3 (fun ⟨_, _, _, _, hroom, ht⟩ => .of_written _ ht hroom) .of_took
      (fun ⟨_, _, ht⟩ => .of_tooSmall ht)
  | decV1 => exact (execDecV1_cases h).elim (fun ⟨_, _, _, _, _, ht⟩ => .of_read _ ht le_rfl) .of_took
  | encV2 =>
    exact (execEncV2_cases h).elim3 (fun ⟨_, _, _, _, hroom, ht⟩ => .of_written _ ht hroom) .of_took
      (fun ⟨_, _, ht⟩ => .of_tooSmall ht)
  | decV2 => exact (execDecV2_cases h).elim (fun ⟨_, _, _, _, _, _, _, ht⟩ => .of_read _ ht le_rfl) .of_took
  | _ => exact absurd hi (by decide)

/-- Settles O54: every length a command of the list goes by is clamped to `BUF_BYTES`. -/
theorem cursorStaysInTheBuffer : Obligations.CursorStaysInTheBuffer :=
  fun _ _ _ _ h hok hi => exec_cursorWithin h hi hok

end Sys2Proof.Machine

/-! PROOFS. What a host access of a register, of a byte or of an option field reads and writes, what a write to CMD
runs, and the state after reset (10_state.md R23, R25, R44). -/

namespace Sys2Proof.Machine

variable {s t : State} {off w : Nat} {v : Word} {rest : List HostAction}

/-! ### Running a command -/

theorem runCommand_of_decode {bs bs' : List Byte} {i : Instr} (h : decode bs = .ok (i, bs')) :
    runCommand bs s = exec i s := by
  rw [runCommand, h]

/-- Settles O1: the only command the low byte names is the one run. -/
theorem stepRunsTheCommandWritten : Obligations.StepRunsTheCommandWritten :=
  ⟨fun _ _ _ _ hh hd => (step_command hh).trans (runCommand_of_decode hd), fun _ _ hh => step_read hh⟩

/-! ### Values read and written -/

/-- What fits `n` bits of a register value, as the host reads it back. -/
theorem zext_setWidth (v : Word) (n : Nat) : zext (v.setWidth n) = word (v.toNat % 2 ^ n) := by
  rw [zext_eq_word, BitVec.toNat_setWidth]

theorem eq_word_mod (v : Word) : v = word (v.toNat % 2 ^ 32) := by
  rw [Nat.mod_eq_of_lt v.isLt, word_toNat_self]

/-- The bits of a register the host can write; none if it is read-only (10_state.md R23). -/
def Reg.writeWidth : Reg → Option Nat
  | .cmd | .status | .reqSize | .bufBytes | .optCap => none
  | .crcAcc | .mCrc16 => some 16
  | .sumAcc | .mCode | .mRsum8 => some 8
  | .mTkl => some 4
  | .pos | .a0 | .a1 | .a2 | .a3 | .ocap | .flen | .plen | .optCnt | .prevId | .mVer | .mType | .mMid | .mEid
  | .mEtp => some 32

/-- The bits of a field of an option entry. -/
def OptField.width : OptField → Nat
  | .kind => 3
  | .id | .voff | .vlen | .uval => 32

/-- The bits at a port the host can write. -/
def Port.writeWidth : Port → Option Nat
  | .reg r => r.writeWidth
  | .opt _ f => some f.width
  | .token _ | .fbuf _ | .pbuf _ | .vbuf _ => some 8
  | .reserved => none

theorem writeReg_readOnly {r : Reg} (h : r.writeWidth = none) : s.writeReg r v = s := by
  cases r with
  | cmd | status | reqSize | bufBytes | optCap => rfl
  | _ => cases h

theorem readReg_writeReg {r : Reg} (h : r.writeWidth = some w) :
    (s.writeReg r v).readReg r = word (v.toNat % 2 ^ w) := by
  cases r with
  | cmd | status | reqSize | bufBytes | optCap => cases h
  | crcAcc | mCrc16 | sumAcc | mCode | mRsum8 | mTkl =>
    cases h
    exact zext_setWidth v _
  | _ =>
    cases h
    exact eq_word_mod v

theorem readField_writeField (e : OptEntry) (f : OptField) (v : Word) :
    (e.writeField f v).readField f = word (v.toNat % 2 ^ f.width) := by
  cases f with
  | kind => exact zext_setWidth v 3
  | id | voff | vlen | uval => exact eq_word_mod v

/-- A host read after a host write gives the bits that fit, zero-extended. -/
theorem readPort_writePort {p : Port} (hc : s.memoriesCanonical) (h : p.writeWidth = some w) :
    (s.writePort p v).readPort p = word (v.toNat % 2 ^ w) := by
  obtain ⟨hf, hp, hv, ht, ho⟩ := hc
  cases p with
  | reg r => exact readReg_writeReg h
  | token k => cases h; simp only [State.writePort, State.readPort, Memory.get_set ht, if_true, zext_setWidth]
  | fbuf k => cases h; simp only [State.writePort, State.readPort, Memory.get_set hf, if_true, zext_setWidth]
  | pbuf k => cases h; simp only [State.writePort, State.readPort, Memory.get_set hp, if_true, zext_setWidth]
  | vbuf k => cases h; simp only [State.writePort, State.readPort, Memory.get_set hv, if_true, zext_setWidth]
  | opt i f => cases h; simp only [State.writePort, State.readPort, OptTable.get_set ho, if_true, readField_writeField]
  | reserved => cases h

/-! ### A write and a read of one port -/

theorem portOf_reg (s : State) {r : Nat × Reg} (h : r ∈ regMap) : portOf s r.1 = .reg r.2 := by
  have table : ∀ r ∈ regMap, r.1 < optBase ∧ ¬ (0x068 ≤ r.1 ∧ r.1 < 0x070) ∧
      regMap.find? (fun x => x.1 == r.1) = some r := by decide
  obtain ⟨hlow, htoken, hfind⟩ := table r h
  rw [portOf, if_pos hlow, if_neg htoken, hfind]

theorem portOf_field (hw : s.params.wellFormed) {i n : Nat} {f : OptField} (hi : i < s.optCap.toNat)
    (hf : optFieldAt n = some f) (hn : n < 32) : portOf s (0x00100000 + 32 * i + n) = .opt i f := by
  rw [portOf_opt hw hi hn, hf]

theorem writePort_own (s : State) (p : Port) (v : Word) :
    (s.writePort p v).host = s.host ∧ (s.writePort p v).bufBytes = s.bufBytes ∧
      (s.writePort p v).optCap = s.optCap := by
  cases p with
  | reg r => exact writeReg_own s r v
  | _ => exact ⟨rfl, rfl, rfl⟩

theorem portOf_congr (hb : t.bufBytes = s.bufBytes) (ho : t.optCap = s.optCap) (off : Nat) :
    portOf t off = portOf s off := by
  simp only [portOf, optPort, hb, ho]

/-- A host read of what stands at a port. -/
theorem step_read_port (h : s.host = .read off :: rest) {p : Port} {x : Word} (hp : portOf s off = p)
    (hx : s.readPort p = x) : step s = .next { s with host := rest, rdata := x } := by
  subst hp hx
  rw [step_read h, readPort_own s rest s.rdata]

/-- A host write at an offset other than CMD's, then a host read there. -/
theorem step_write_read {p : Port} {x : Word} (h : s.host = .write off v :: .read off :: rest)
    (hp : portOf s off = p) (h0 : off ≠ 0)
    (hx : State.readPort (State.writePort { s with host := .read off :: rest } p v) p = x) :
    ∃ t, step s = .next t ∧ step t = .next { t with host := rest, rdata := x } := by
  subst hp
  obtain ⟨hh, hb, ho⟩ := writePort_own { s with host := .read off :: rest } (portOf s off) v
  exact ⟨_, step_write_off h h0, step_read_port hh (portOf_congr hb ho off) hx⟩

theorem step_write_read_reg {r : Nat × Reg} (hr : r ∈ regMap) (hw : r.2.writeWidth = some w)
    (h : s.host = .write r.1 v :: .read r.1 :: rest) :
    ∃ t, step s = .next t ∧ step t = .next { t with host := rest, rdata := word (v.toNat % 2 ^ w) } := by
  refine step_write_read h (portOf_reg s hr) (fun h0 => ?_) (readReg_writeReg hw)
  have hcmd := portOf_reg s hr
  rw [h0, portOf_zero] at hcmd
  rw [← Port.reg.inj hcmd] at hw
  cases hw

theorem step_write_read_memory {p : Port} (hc : s.memoriesCanonical) (hp : portOf s off = p) (h0 : off ≠ 0)
    (hw : p.writeWidth = some w) (h : s.host = .write off v :: .read off :: rest) :
    ∃ t, step s = .next t ∧ step t = .next { t with host := rest, rdata := word (v.toNat % 2 ^ w) } :=
  step_write_read h hp h0 (readPort_writePort (s := { s with host := .read off :: rest }) hc hw)

theorem step_write_readOnly {r : Nat × Reg} (hr : r ∈ regMap) (h0 : r.1 ≠ 0) (hw : r.2.writeWidth = none)
    (h : s.host = .write r.1 v :: rest) : step s = .next { s with host := rest } := by
  rw [step_write_off h h0, portOf_reg s hr]
  exact congrArg _ (writeReg_readOnly hw)

/-- A host read at `off` returns what `f` says of the state. -/
def ReadsAs (off : Nat) (f : State → Word) : Prop :=
  ∀ (s : State) (rest : List HostAction), s.host = .read off :: rest →
    step s = .next { s with host := rest, rdata := f s }

theorem ReadsAs.of_reg {f : State → Word} (r : Reg) (hp : ∀ s, portOf s off = .reg r := by exact fun _ => rfl)
    (hf : ∀ s : State, s.readReg r = f s := by exact fun _ => rfl) : ReadsAs off f :=
  fun s _ h => step_read_port h (hp s) (hf s)

/-! ### Host access -/

/-- Settles O5, clause by clause: what stands at the offset, then what is written and read there. -/
theorem hostAccessKeepsTheBitsThatFit : Obligations.HostAccessKeepsTheBitsThatFit := by
  refine ⟨fun x hx s v rest h => ?writeReadReg, fun s off w v rest hi h => ?writeReadMemory, ?readReg,
    fun c hc s rest h hs => ?readStatus, fun s off rest hw h => ?readMemory, fun off hoff s v rest h => ?readOnly⟩
  case writeReadReg =>
    have table : ∃ r ∈ regMap, r.1 = x.1 ∧ r.2.writeWidth = some x.2 := by
      clear h
      revert x
      decide
    obtain ⟨r, hr, hoff, hw⟩ := table
    rw [← hoff] at h
    exact step_write_read_reg hr hw h
  case writeReadMemory =>
    obtain ⟨hwf, hc, -⟩ := hi
    rintro (⟨⟨k, hk, rfl⟩, rfl⟩ | ⟨i, hlt, f, hf, rfl, rfl⟩ | ⟨⟨k, hk, hoff⟩, rfl⟩)
    · exact step_write_read_memory hc (portOf_token s hk) (by omega) rfl h
    · have table : ∃ x ∈ [OptField.id, .kind, .voff, .vlen, .uval],
          optFieldAt f.1 = some x ∧ x.width = f.2 ∧ f.1 < 32 := by
        clear h
        revert f
        decide
      obtain ⟨x, -, hx, hwidth, h32⟩ := table
      exact step_write_read_memory hc (portOf_field hwf hlt hx h32) (by omega) (congrArg some hwidth) h
    · obtain ⟨hfbuf, hpbuf, hvbuf⟩ := portOf_buffers hwf hk
      rcases hoff with rfl | rfl | rfl
      · exact step_write_read_memory hc hfbuf (by omega) rfl h
      · exact step_write_read_memory hc hpbuf (by omega) rfl h
      · exact step_write_read_memory hc hvbuf (by omega) rfl h
  case readReg =>
    change ∀ x ∈ (_ : List (Nat × (State → Word))), ReadsAs x.1 x.2
    simp only [List.forall_mem_cons]
    exact ⟨.of_reg .cmd, .of_reg .reqSize, .of_reg .pos, .of_reg .a0, .of_reg .a1, .of_reg .a2, .of_reg .a3,
      .of_reg .ocap, .of_reg .flen, .of_reg .plen, .of_reg .optCnt,
      .of_reg .crcAcc (hf := fun s => zext_eq_word s.crcAcc), .of_reg .sumAcc (hf := fun s => zext_eq_word s.sumAcc),
      .of_reg .prevId, .of_reg .mVer, .of_reg .mType, .of_reg .mMid, .of_reg .mEid, .of_reg .mEtp,
      .of_reg .mCode (hf := fun s => zext_eq_word s.mCode), .of_reg .mCrc16 (hf := fun s => zext_eq_word s.mCrc16),
      .of_reg .mRsum8 (hf := fun s => zext_eq_word s.mRsum8), .of_reg .mTkl (hf := fun s => zext_eq_word s.mTkl),
      .of_reg .bufBytes, .of_reg .optCap, List.forall_mem_nil _⟩
  case readStatus =>
    have code : zext c.1.code = c.2 := by
      clear hs
      revert c
      decide
    exact step_read_port h (portOf_reg s (r := (0x004, .status)) (by decide))
      ((congrArg (zext ∘ Status.code) hs).trans code)
  case readMemory =>
    refine ⟨fun k hk hoff => ?_, fun i hlt => ?_, fun k hk => ?_⟩
    · subst hoff
      exact step_read_port h (portOf_token s hk) (zext_eq_word _)
    · simp only [List.forall_mem_cons]
      refine ⟨?_, ?_, ?_, ?_, ?_, List.forall_mem_nil _⟩ <;> rintro rfl
      · exact step_read_port h (portOf_field hw hlt (f := .id) rfl (by decide)) rfl
      · exact step_read_port h (portOf_field hw hlt (f := .kind) rfl (by decide))
          (zext_eq_word (s.opt.get i).kind)
      · exact step_read_port h (portOf_field hw hlt (f := .voff) rfl (by decide)) rfl
      · exact step_read_port h (portOf_field hw hlt (f := .vlen) rfl (by decide)) rfl
      · exact step_read_port h (portOf_field hw hlt (f := .uval) rfl (by decide)) rfl
    · obtain ⟨hfbuf, hpbuf, hvbuf⟩ := portOf_buffers hw hk
      refine ⟨?_, ?_, ?_⟩ <;> rintro rfl
      · exact step_read_port h hfbuf (zext_eq_word _)
      · exact step_read_port h hpbuf (zext_eq_word _)
      · exact step_read_port h hvbuf (zext_eq_word _)
  case readOnly =>
    have table : ∃ r ∈ regMap, r.1 = off ∧ r.1 ≠ 0 ∧ r.2.writeWidth = none := by
      clear h
      revert off
      decide
    obtain ⟨r, hr, rfl, h0, hw⟩ := table
    exact step_write_readOnly hr h0 hw h

/-! ### Reset -/

/-- A buffer right after reset reads as the contents given, when they fit it. -/
theorem resetMemory_read {n : Nat} {bs : List Byte} (h : bs.length ≤ n) :
    (Memory.write [] 0 (bs.take n)).read 0 bs.length = bs := by
  rw [List.take_of_length_le h]
  exact Memory.read_write Memory.wf_nil 0 bs

theorem resetTable_read {n : Nat} {es : List OptEntry} (h : es.length ≤ n) :
    (OptTable.write [] 0 (es.take n)).read 0 es.length = es := by
  rw [List.take_of_length_le h]
  exact OptTable.read_write OptTable.wf_nil 0 es

/-- Settles O55: every register has its value by definition, and what was written to the memories reads back. -/
theorem resetState : Obligations.ResetState := by
  refine ⟨⟨_, _, rfl⟩, fun s c rest h => ⟨_, step_of_cons h, rfl, rfl⟩, ?_⟩
  rintro p c s rfl
  refine ⟨rfl, rfl, rfl, rfl, rfl, rfl, rfl, rfl, rfl, rfl, rfl, rfl, rfl, rfl, rfl, rfl, rfl, rfl, rfl, rfl, rfl, rfl,
    rfl, rfl, rfl, rfl, resetMemory_read, resetTable_read, resetMemory_read, resetMemory_read, resetMemory_read⟩

/-- Settles O57: the capacities of `State.reset` meet 00_scope.md R6 too. -/
theorem invariantHoldsAtReset : Obligations.InvariantHoldsAtReset :=
  ⟨fun _ c hp => State.resetWith_inv hp c, State.resetWith_inv (by decide) ResetContents.none⟩

end Sys2Proof.Machine

/-! PROOFS. The register window: what stands at each offset, that every other offset is reserved, and what a host
write changes (20_memory.md R68, R70, R71). -/

namespace Sys2Proof.Machine

variable {s : State} {off : Nat} {v : Word} {rest : List HostAction}

/-! ### The window -/

/-- Registers stand where the table of the window puts them. -/
theorem map_portOf_regs (s : State) {l : List (Nat × Reg)} (h : l ⊆ regMap) :
    (l.map Prod.fst).map (portOf s) = l.map (Port.reg ∘ Prod.snd) := by
  rw [List.map_map]
  exact List.map_congr_left fun r hr => portOf_reg s (h hr)

/-- The fields of an option entry by offset inside the entry (20_memory.md R70). -/
def optFieldMap : List (Nat × OptField) := [(0, .id), (4, .kind), (8, .voff), (12, .vlen), (16, .uval)]

theorem optFieldAt_of_mem {x : Nat × OptField} (h : x ∈ optFieldMap) : optFieldAt x.1 = some x.2 ∧ x.1 < 32 := by
  revert x
  decide

/-- The fields of an entry below the capacity stand where the table of the window puts them. -/
theorem map_portOf_fields (hw : s.params.wellFormed) {i : Nat} (hi : i < s.optCap.toNat) :
    (optFieldMap.map Prod.fst).map (fun f => portOf s (0x00100000 + 32 * i + f)) =
      optFieldMap.map fun x => .opt i x.2 := by
  rw [List.map_map]
  refine List.map_congr_left fun x hx => ?_
  obtain ⟨hf, h32⟩ := optFieldAt_of_mem hx
  exact portOf_field hw hi hf h32

/-- Settles O6: the registers by their table, each memory by its place in the window. -/
theorem registerWindowMap : Obligations.RegisterWindowMap := by
  intro s hw
  exact ⟨map_portOf_regs s (List.subset_append_left regMapLow regMapHigh),
    map_portOf_regs s (List.subset_append_right regMapLow regMapHigh), fun k hk => portOf_token s hk,
    fun i hi => map_portOf_fields hw hi, fun k hk => portOf_buffers hw hk⟩

/-! ### Reserved offsets -/

theorem mem_registerOffsets {r : Nat × Reg} (h : r ∈ regMap) : r.1 ∈ registerOffsets := by
  revert r
  decide

theorem optFieldAt_offset {n : Nat} {f : OptField} (h : optFieldAt n = some f) : n ∈ [0, 4, 8, 12, 16] := by
  unfold optFieldAt at h
  split at h
  · decide
  · decide
  · decide
  · decide
  · decide
  · cases h

theorem optPort_reserved {k : Nat}
    (h : ¬ ∃ i < s.optCap.toNat, ∃ f ∈ [0, 4, 8, 12, 16], k = 32 * i + f) : optPort s k = .reserved := by
  unfold optPort
  split_ifs with hlt
  · cases hf : optFieldAt (k % 32) with
    | none => rfl
    | some f => exact absurd ⟨k / 32, hlt, k % 32, optFieldAt_offset hf, (Nat.div_add_mod k 32).symm⟩ h
  · rfl

/-- Every offset outside the table is reserved (20_memory.md R71). -/
theorem portOf_reserved (h : ¬ s.inWindow off) : portOf s off = .reserved := by
  simp only [State.inWindow, not_or] at h
  obtain ⟨hreg, htoken, hopt, hfbuf, hpbuf, hvbuf⟩ := h
  unfold portOf
  split_ifs with hlow htok hmid hf hfb hp hpb hvb
  · exact absurd ⟨off - 0x068, by omega, by omega⟩ htoken
  · cases hfind : regMap.find? fun r => r.1 == off with
    | none => rfl
    | some r =>
      have hoff : r.1 = off := by simpa using List.find?_some hfind
      exact absurd (hoff ▸ mem_registerOffsets (List.mem_of_find?_eq_some hfind)) hreg
  · refine optPort_reserved fun ⟨i, hi, f, hmem, heq⟩ => hopt ⟨i, hi, f, hmem, ?_⟩
    rw [optBase] at hlow heq
    omega
  · rw [fbufBase] at hmid hfb
    exact absurd ⟨off - 0x01000000, hfb, by omega⟩ hfbuf
  · rfl
  · rw [pbufBase] at hf hpb
    exact absurd ⟨off - 0x02000000, hpb, by omega⟩ hpbuf
  · rfl
  · rw [vbufBase] at hp hvb
    exact absurd ⟨off - 0x03000000, hvb, by omega⟩ hvbuf
  · rfl

/-- Settles O7: what is not in the table is reserved, and so is not CMD. -/
theorem reservedOffsetsReadZeroIgnoreWrites : Obligations.ReservedOffsetsReadZeroIgnoreWrites := by
  intro s off rest _ hout
  have hport := portOf_reserved hout
  refine ⟨fun h => step_read_port h hport rfl, fun v h => ?_⟩
  have h0 : off ≠ 0 := fun h0 => hout (.inl (h0 ▸ by decide))
  rw [step_write_off h h0, hport]
  rfl

/-! ### What a host access changes -/

/-- A host read leaves the block as it is, so the next read at the same offset returns the same. -/
theorem step_read_again (h : s.host = .read off :: .read off :: rest) {t : State} (ht : step s = .next t) :
    step t = .next { s with host := rest, rdata := s.readPort (portOf s off) } := by
  rw [step_read_port h rfl rfl] at ht
  rw [← next_inj ht]
  exact step_read_port (off := off) rfl rfl (readPort_own s _ _ _)

/-- A host write at an offset where the port `p` stands, other than CMD's. -/
theorem step_write_port (h : s.host = .write off v :: rest) (h0 : off ≠ 0) {p : Port} (hp : portOf s off = p) :
    step s = .next ({ s with host := rest }.writePort p v) := by
  rw [step_write_off h h0, hp]

/-- A host write at `off` changes the state as `f` says. -/
def WritesAs (off : Nat) (f : State → Word → State) : Prop :=
  ∀ (s : State) (v : Word) (rest : List HostAction), s.host = .write off v :: rest →
    step s = .next (f { s with host := rest } v)

theorem WritesAs.of_reg {f : State → Word → State} (r : Reg) (h0 : off ≠ 0 := by decide)
    (hp : ∀ s, portOf s off = .reg r := by exact fun _ => rfl)
    (hf : ∀ (s : State) (v : Word), s.writeReg r v = f s v := by exact fun _ _ => rfl) : WritesAs off f :=
  fun s v rest h => (step_write_port h h0 (hp s)).trans (congrArg _ (hf { s with host := rest } v))

/-- A host write of a field of an option entry changes that field of that entry alone. -/
theorem step_write_field (hw : s.params.wellFormed) (ho : s.opt.wf) {i n : Nat} {f : OptField}
    (hlt : i < s.optCap.toNat) (hf : optFieldAt n = some f) (hn : n < 32)
    (h : s.host = .write (0x00100000 + 32 * i + n) v :: rest) :
    ∃ m : OptTable, step s = .next { s with host := rest, opt := m } ∧
      ∀ a, m.get a = if a = i then (s.opt.get i).writeField f v else s.opt.get a :=
  ⟨_, step_write_port h (by omega) (portOf_field hw hlt hf hn), fun a => OptTable.get_set ho i a _⟩

/-- Settles O4: a read only answers, and a write changes what stands at its offset. -/
theorem onlyCommandWritesHaveSideEffects : Obligations.OnlyCommandWritesHaveSideEffects := by
  refine ⟨fun s off rest h => ⟨_, step_read_port h rfl rfl, fun h' _ ht => step_read_again h' ht⟩, ?writeReg,
    fun s off v rest hi h => ?writeMemory, fun s off v rest h hoff => ?readOnly⟩
  case writeReg =>
    change ∀ x ∈ (_ : List (Nat × (State → Word → State))), WritesAs x.1 x.2
    simp only [List.forall_mem_cons]
    exact ⟨.of_reg .pos, .of_reg .a0, .of_reg .a1, .of_reg .a2, .of_reg .a3, .of_reg .ocap, .of_reg .flen,
      .of_reg .plen, .of_reg .optCnt, .of_reg .crcAcc, .of_reg .sumAcc, .of_reg .prevId, .of_reg .mVer,
      .of_reg .mType, .of_reg .mMid, .of_reg .mEid, .of_reg .mEtp, .of_reg .mCode, .of_reg .mCrc16,
      .of_reg .mRsum8, .of_reg .mTkl, List.forall_mem_nil _⟩
  case writeMemory =>
    obtain ⟨hw, ⟨cf, cp, cv, ct, co⟩, -⟩ := hi
    refine ⟨?_, ?_, ?_, ?_, fun i hlt => ?_⟩
    · rintro k hk rfl
      exact ⟨_, step_write_port h (by omega) (portOf_token s hk), fun a => Memory.get_set ct k a _⟩
    · rintro k hk rfl
      obtain ⟨hport, -, -⟩ := portOf_buffers hw hk
      exact ⟨_, step_write_port h (by omega) hport, fun a => Memory.get_set cf k a _⟩
    · rintro k hk rfl
      obtain ⟨-, hport, -⟩ := portOf_buffers hw hk
      exact ⟨_, step_write_port h (by omega) hport, fun a => Memory.get_set cp k a _⟩
    · rintro k hk rfl
      obtain ⟨-, -, hport⟩ := portOf_buffers hw hk
      exact ⟨_, step_write_port h (by omega) hport, fun a => Memory.get_set cv k a _⟩
    · simp only [List.forall_mem_cons]
      refine ⟨?_, ?_, ?_, ?_, ?_, List.forall_mem_nil _⟩ <;> rintro rfl
      · exact step_write_field hw co hlt (f := .id) rfl (by decide) h
      · exact step_write_field hw co hlt (f := .kind) rfl (by decide) h
      · exact step_write_field hw co hlt (f := .voff) rfl (by decide) h
      · exact step_write_field hw co hlt (f := .vlen) rfl (by decide) h
      · exact step_write_field hw co hlt (f := .uval) rfl (by decide) h
  case readOnly =>
    obtain ⟨-, -, -, -, -, ignored⟩ := hostAccessKeepsTheBitsThatFit
    exact ignored off hoff s v rest h

end Sys2Proof.Machine

/-! PROOFS. What a command stores to the memories, address by address, said once for all commands: each byte and each
option entry outside the ones its rule stores is kept (20_memory.md R60). -/

namespace Sys2Proof.Machine

variable {s t u : State} {i : Instr} {a : Nat}

/-! ### A command that does not end OK -/

theorem exec_alwaysOk (hi : i ∈ commandsAlwaysOk) (h : exec i s = .next t) : t.status = .ok := by
  cases i with
  | crcInit | crcUpd | crcPay | sumInit | sumUpd | vluLen | optBegin | msgReset | ctMap | sizeV0 =>
    exact (congrArg State.status (next_inj h)).symm
  | regLookup =>
    obtain ⟨_, _, _, rfl⟩ := execRegLookup_cases h
    rfl
  | _ => exact absurd hi (by decide)

/-- Every other command ends the way `complete` says. -/
theorem exec_eq_complete (hi : i ∉ commandsAlwaysOk) : ∃ r, exec i s = complete s r := by
  cases i with
  | crcInit | crcUpd | crcPay | sumInit | sumUpd | vluLen | optBegin | msgReset | ctMap | sizeV0 | regLookup =>
    exact absurd (by decide) hi
  | _ => exact ⟨_, rfl⟩

/-- A command that does not end OK took an exception on the state it began with (60_exceptions.md R305). -/
theorem exec_takes_exception (h : exec i s = .next t) (hst : t.status ≠ .ok) : ∃ e, t = s.takeException e := by
  obtain ⟨r, hr⟩ := exec_eq_complete (s := s) fun hi => hst (exec_alwaysOk hi h)
  rcases complete_cases (hr.symm.trans h) with ⟨u, -, rfl⟩ | ⟨e, -, ht⟩
  · exact absurd rfl hst
  · exact ⟨e, ht⟩

/-! ### Where a command stores -/

/-- The bytes of FBUF a command stores when it ends OK: from the first offset up to below the second. -/
def frameStores (i : Instr) (s : State) : Nat × Nat :=
  match i with
  | .sumPatch => (7, 8)
  | .bfIns => (s.x0 / 8, bfBytes s.x0 s.x1)
  | .vluPut | .optPut | .optsEnc => (s.cursor, requiredEnd i s)
  | .hdr0Pack | .hdr1Pack | .hdr2Pack | .encV0 | .encV1 | .encV2 => (0, requiredEnd i s)
  | _ => (0, 0)

/-- The commands that store to FBUF. -/
abbrev frameWriters : List Instr :=
  [.sumPatch, .vluPut, .bfIns, .optPut, .optsEnc, .hdr0Pack, .hdr1Pack, .hdr2Pack, .encV0, .encV1, .encV2]

theorem frameStores_of_not_writer (h : i ∉ frameWriters) : frameStores i s = (0, 0) := by
  cases i with
  | sumPatch | vluPut | bfIns | optPut | optsEnc | hdr0Pack | hdr1Pack | hdr2Pack | encV0 | encV1 | encV2 =>
    exact absurd (by decide) h
  | _ => rfl

/-- The commands that store a payload in PBUF. -/
abbrev payloadDecoders : List Instr := [.decV0, .decV1, .decV2]

/-- The commands that store a token in TOKEN. -/
abbrev tokenDecoders : List Instr := [.decV1, .decV2]

/-- The commands that store option entries in the option table and option values in VBUF. -/
abbrev optionDecoders : List Instr := [.optsDec, .decV1, .decV2]

/-- The bytes of VBUF the entries of the message name, counted together. -/
def State.valueTotal (s : State) : Nat := ((s.opt.read 0 s.optCnt.toNat).map fun e => e.vlen.toNat).sum

/-- At address `a` each memory is kept unless `a` is among the bytes or entries the command `i` stores there. -/
structure State.StoresOnly (s : State) (i : Instr) (t : State) (a : Nat) : Prop where
  fbuf : a < (frameStores i s).1 ∨ (frameStores i s).2 ≤ a → t.fbuf.get a = s.fbuf.get a
  pbuf : (i ∈ payloadDecoders → t.plen.toNat ≤ a) → t.pbuf.get a = s.pbuf.get a
  token : (i ∈ tokenDecoders → t.mTkl.toNat ≤ a) → t.token.get a = s.token.get a
  opt : (i ∈ optionDecoders → t.optCnt.toNat ≤ a) → t.opt.get a = s.opt.get a
  vbuf : (i ∈ optionDecoders → t.valueTotal ≤ a) → t.vbuf.get a = s.vbuf.get a

/-! ### The bit-field slicer -/

/-- A byte that ends before the field begins is as it was (42_bitfield_slicer.md R171). -/
theorem bfSet_getElem?_of_lt {bs : List Byte} {k w n : Nat} {v : Word} (h : n < k / 8) :
    (bfSet bs k w v)[n]? = bs[n]? := by
  have byte : ∀ b : Byte, (byteOfBits fun q => bfSetBit k w v (8 * (0 + n) + q) (b.getLsbD (7 - q))) = b := by
    intro b
    apply BitVec.eq_of_getLsbD_eq
    intro j hj
    rw [byteOfBits_getLsbD _ j hj, bfSetBit, if_neg (by omega)]
    congr 1
    omega
  rw [bfSet, bfSetFrom_getElem?]
  simp only [byte, Option.map_id']

/-- Inserting a field in the first `n` bytes keeps the bytes before the field and those after the first `n`. -/
theorem Memory.get_write_bfSet {m : Memory} (hm : m.wf) {n k w : Nat} {v : Word} (ha : a < k / 8 ∨ n ≤ a) :
    (m.write 0 (bfSet (m.read 0 n) k w v)).get a = m.get a := by
  rcases ha with ha | ha
  · rw [Memory.get_write hm, if_pos (Nat.zero_le a), Nat.sub_zero, bfSet_getElem?_of_lt ha, Memory.read_getElem?,
      Nat.zero_add]
    split_ifs
    · rfl
    · rfl
  · exact Memory.get_write_outside hm (.inr (by simpa using ha))

/-! ### The stored options -/

/-- The entries of stored options name their value bytes, each byte once. -/
theorem storedEntries_valueTotal (o : Nat) {xs : List Stored} (h : (storedBytes xs).length < 2 ^ 32) :
    ((storedEntries o xs).map fun e => e.vlen.toNat).sum = (storedBytes xs).length := by
  induction xs generalizing o with
  | nil => rfl
  | cons x xs ih =>
    simp only [storedBytes, List.flatMap_cons, List.length_append] at h ih ⊢
    simp only [storedEntries, List.map_cons, List.sum_cons]
    rw [ih _ (by omega)]
    exact congrArg (· + _) (word_toNat_of_lt (by omega))

/-- The two memories options are stored in, once `OPTCNT` counts them. -/
theorem kept_of_storedOptions (hi : s.Inv) {xs : List Stored} (hroom : xs.length ≤ s.optCap.toNat)
    (hbytes : (storedBytes xs).length ≤ s.bufBytes.toNat) (hopt : t.opt = s.opt.write 0 (storedEntries 0 xs))
    (hvbuf : t.vbuf = s.vbuf.write 0 (storedBytes xs)) (hcnt : t.optCnt = word xs.length) :
    (t.optCnt.toNat ≤ a → t.opt.get a = s.opt.get a) ∧ (t.valueTotal ≤ a → t.vbuf.get a = s.vbuf.get a) := by
  obtain ⟨hw, ⟨-, -, cv, -, co⟩, -⟩ := hi
  have hcap : s.optCap.toNat ≤ 2 ^ 15 := hw.2.2.1
  have hbuf := State.bufBytes_le hw
  have count : t.optCnt.toNat = (storedEntries 0 xs).length := by
    rw [hcnt, storedEntries_length]
    exact word_toNat_of_lt (by omega)
  have total : t.valueTotal = (storedBytes xs).length := by
    rw [State.valueTotal, count, hopt, OptTable.read_write co]
    exact storedEntries_valueTotal 0 (by omega)
  rw [count, total, hopt, hvbuf]
  exact ⟨fun ha => OptTable.get_write_outside co (.inr (by omega)),
    fun ha => Memory.get_write_outside cv (.inr (by omega))⟩

/-! ### How a command ended -/

namespace State.StoresOnly

/-- A command after which every memory is as before. -/
theorem of_same (same : s.SameButFbuf t) (fbuf : t.fbuf = s.fbuf) : s.StoresOnly i t a where
  fbuf _ := by rw [fbuf]
  pbuf _ := by rw [same.pbuf]
  token _ := by rw [same.token]
  opt _ := by rw [same.opt]
  vbuf _ := by rw [same.vbuf]

/-- A command that ended OK on a state with the memories it began with. -/
theorem of_registers (h : EndedOk t u) (same : s.SameButFbuf u := by exact ⟨rfl, rfl, rfl, rfl, rfl, rfl⟩)
    (fbuf : u.fbuf = s.fbuf := by rfl) : s.StoresOnly i t a := by
  subst h
  obtain ⟨hp, hv, ht, ho, hb, hc⟩ := same
  exact of_same ⟨hp, hv, ht, ho, hb, hc⟩ fbuf

/-- A command that ended OK and stored to FBUF only, at the bytes its rule says. -/
theorem of_frame (h : EndedOk t u)
    (kept : a < (frameStores i s).1 ∨ (frameStores i s).2 ≤ a → u.fbuf.get a = s.fbuf.get a)
    (same : s.SameButFbuf u := by exact ⟨rfl, rfl, rfl, rfl, rfl, rfl⟩) : s.StoresOnly i t a := by
  subst h
  exact ⟨kept, fun _ => congrArg (·.get a) same.pbuf, fun _ => congrArg (·.get a) same.token,
    fun _ => congrArg (·.get a) same.opt, fun _ => congrArg (·.get a) same.vbuf⟩

/-- A command that ended OK and wrote the bytes `bs` to FBUF from offset `b`. -/
theorem of_write (hi : s.Inv) (b : Nat) (bs : List Byte) (h : EndedOk t u)
    (stores : (b, b + bs.length) = frameStores i s) (fbuf : u.fbuf = s.fbuf.write b bs := by rfl)
    (same : s.SameButFbuf u := by exact ⟨rfl, rfl, rfl, rfl, rfl, rfl⟩) : s.StoresOnly i t a := by
  obtain ⟨-, ⟨cf, -⟩, -⟩ := hi
  refine of_frame h (fun ha => ?_) same
  rw [← stores] at ha
  rw [fbuf]
  exact Memory.get_write_outside cf ha

theorem of_took {l : List Raise} (h : Took s t l) : s.StoresOnly i t a := by
  obtain ⟨e, -, rfl⟩ := h
  exact of_same (s.takeException_same e) (s.takeException_fbuf e)

theorem of_tooSmall (h : TookTooSmall i s t) : s.StoresOnly i t a := by
  obtain ⟨-, rfl⟩ := h
  exact of_same (s.takeException_same _) (s.takeException_fbuf _)

theorem of_validated {ok : Bool} (h : validated s ok = .next t) : s.StoresOnly i t a :=
  (validated_cases h).elim (fun ht => of_registers ht) of_took

/-! ### The decoders -/

theorem of_optsDec (hi : s.Inv) (h : execOptsDec s = .next t) : s.StoresOnly .optsDec t a := by
  rcases execOptsDec_cases h with ⟨p, -, hd, ht⟩ | ht
  · obtain ⟨hroom, hbytes⟩ := optsDecode_fits hd
    have hfl := s.flenEff_le
    simp only [List.length_drop, State.frame_length] at hbytes
    obtain ⟨hopt, hvbuf⟩ := kept_of_storedOptions (a := a) hi hroom (by omega) (congrArg State.opt ht)
      (congrArg State.vbuf ht) (congrArg State.optCnt ht)
    subst ht
    exact ⟨fun _ => rfl, fun _ => rfl, fun _ => rfl, fun ha => hopt (ha (by decide)),
      fun ha => hvbuf (ha (by decide))⟩
  · exact of_took ht

theorem of_decV0 (hi : s.Inv) (h : execDecV0 s = .next t) : s.StoresOnly .decV0 t a := by
  rcases execDecV0_cases h with ⟨-, -, -, rfl⟩ | ht
  · obtain ⟨hw, ⟨-, cp, -⟩, -⟩ := hi
    have hfl := s.flenEff_le
    have hbuf := State.bufBytes_le hw
    refine ⟨fun _ => rfl, fun ha => Memory.get_write_outside cp (.inr ?_), fun _ => rfl, fun _ => rfl, fun _ => rfl⟩
    have hplen := ha (by decide)
    simp only [State.storePayload_plen] at hplen
    rw [word_toNat_of_lt (by simp only [State.memRead, Memory.read_length]; omega)] at hplen
    omega
  · exact of_took ht

/-- DEC.V1 and DEC.V2 store the body of the frame, parsed from offset `n` on, in a state `u` that differs from `s` in
registers only. -/
theorem of_storeBody (hi : s.Inv) {n : Nat} {b : Body} {pos : Word}
    (hb : bodyParse s.optCap.toNat u.mTkl.toNat (s.frame.drop n) = .ok b)
    (ht : EndedOk t { u.storeBody b with pos := pos }) (same : s.SameButFbuf u) (fbuf : u.fbuf = s.fbuf)
    (decoder : i ∈ tokenDecoders) : s.StoresOnly i t a := by
  obtain ⟨htkl, htok, hroom, hbytes⟩ := bodyParse_fits hb
  obtain ⟨hp, hv, hk, ho, -, -⟩ := same
  have hfl := s.flenEff_le
  have hbuf := State.bufBytes_le hi.1
  simp only [List.length_drop, State.frame_length] at hbytes
  rw [State.storeBody_eq, hp, hv, hk, ho] at ht
  obtain ⟨hopt, hvbuf⟩ := kept_of_storedOptions (a := a) hi hroom (by omega) (congrArg State.opt ht)
    (congrArg State.vbuf ht) (congrArg State.optCnt ht)
  subst ht
  obtain ⟨-, ⟨-, cp, -, ck, -⟩, -⟩ := hi
  have hpay : i ∈ payloadDecoders := List.mem_cons_of_mem _ decoder
  have hops : i ∈ optionDecoders := List.mem_cons_of_mem _ decoder
  refine ⟨fun _ => congrArg (·.get a) fbuf, fun ha => Memory.get_write_outside cp (.inr ?_),
    fun ha => Memory.get_write_outside ck (.inr ?_), fun ha => hopt (ha hops), fun ha => hvbuf (ha hops)⟩
  · have hplen := ha hpay
    rw [word_toNat_of_lt (by omega)] at hplen
    omega
  · have htk : u.mTkl.toNat ≤ a := ha decoder
    rw [htok, List.length_take]
    omega

theorem of_decV1 (hi : s.Inv) (h : execDecV1 s = .next t) : s.StoresOnly .decV1 t a := by
  rcases execDecV1_cases h with ⟨b, -, -, -, hb, ht⟩ | ht
  · exact of_storeBody hi hb ht ⟨rfl, rfl, rfl, rfl, rfl, rfl⟩ rfl (by decide)
  · exact of_took ht

theorem of_decV2 (hi : s.Inv) (h : execDecV2 s = .next t) : s.StoresOnly .decV2 t a := by
  rcases execDecV2_cases h with ⟨b, -, -, -, -, hb, -, ht⟩ | ht
  · exact of_storeBody hi hb ht ⟨rfl, rfl, rfl, rfl, rfl, rfl⟩ rfl (by decide)
  · exact of_took ht

end State.StoresOnly

/-! ### Every command -/

theorem exec_storesOnly (hi : s.Inv) (h : exec i s = .next t) (a : Nat) : s.StoresOnly i t a := by
  cases i with
  | crcInit => exact .of_registers (execCrcInit_cases h)
  | crcUpd => exact .of_registers (execCrcUpd_cases h)
  | crcFrm => exact (execCrcFrm_cases h).elim (fun ⟨_, ht⟩ => .of_registers ht) .of_took
  | crcPay => exact .of_registers (execCrcPay_cases h)
  | sumInit => exact .of_registers (execSumInit_cases h)
  | sumUpd => exact .of_registers (execSumUpd_cases h)
  | sumFrm => exact (execSumFrm_cases h).elim (fun ⟨_, ht⟩ => .of_registers ht) .of_took
  | sumPatch =>
    exact (execSumPatch_cases h).elim3
      (fun ⟨_, _, ht⟩ => .of_write hi 7 [patchByte s.frame] ht rfl) .of_took .of_tooSmall
  | vluLen => exact .of_registers (execVluLen_cases h)
  | vluPut =>
    exact (execVluPut_cases h).elim
      (fun ⟨_, ht⟩ => .of_write hi s.cursor (vluEnc s.a0) ht (by rw [vluEnc_length]; rfl)) .of_tooSmall
  | vluGet => exact (execVluGet_cases h).elim (fun ⟨_, _, ht⟩ => .of_registers ht) .of_took
  | valType | valMid | valEid | valEtp | valVer => exact .of_validated h
  | bfExt => exact (execBfExt_cases h).elim (fun ⟨_, ht⟩ => .of_registers ht) .of_took
  | bfIns =>
    obtain ⟨-, ⟨cf, -⟩, -⟩ := hi
    exact (execBfIns_cases h).elim
      (fun ⟨_, _, _, ht⟩ => .of_frame ht (Memory.get_write_bfSet cf)) .of_took
  | regLookup =>
    obtain ⟨_, _, _, ht⟩ := execRegLookup_cases h
    exact .of_registers ht
  | regCheck => exact (execRegCheck_cases h).elim (fun ⟨_, ht⟩ => .of_registers ht) .of_took
  | optBegin => exact .of_registers (execOptBegin_cases h)
  | optSize => exact (execOptSize_cases h).elim (fun ht => .of_registers ht) .of_took
  | optPut =>
    exact (execOptPut_cases h).elim3
      (fun ⟨_, ht⟩ => .of_write hi s.cursor (optEncode s.prevId s.a0 (s.memRead .vbuf s.x1 s.x2)) ht
        (by rw [optEncode_length, State.memRead, Memory.read_length]; rfl)) .of_took .of_tooSmall
  | optGet =>
    rcases execOptGet_cases h with ⟨-, -, ht⟩ | ⟨_, -, -, ht⟩ | ⟨_, _, _, -, -, ht⟩ | ht
    · exact .of_registers ht
    · exact .of_registers ht
    · exact .of_registers ht
    · exact .of_took ht
  | optsSize => exact (execOptsSize_cases h).elim (fun ⟨_, _, ht⟩ => .of_registers ht) .of_took
  | optsEnc =>
    exact (execOptsEnc_cases h).elim3
      (fun ⟨_, _, _, ht⟩ => .of_write hi s.cursor (optsEncode 0#32 s.wireOptions) ht
        (by rw [optsEncode_length]; rfl))
      .of_took (fun ⟨_, _, ht⟩ => .of_tooSmall ht)
  | optsDec => exact .of_optsDec hi h
  | msgReset => exact .of_registers (execMsgReset_cases h)
  | ctMap => exact .of_registers (execCtMap_cases h)
  | hdr0Pack =>
    exact (execHdr0Pack_cases h).elim3
      (fun ⟨_, _, ht⟩ => .of_write hi 0 (s.hdr0 s.mCrc16) ht rfl) .of_took .of_tooSmall
  | hdr0Unpack => exact (execHdr0Unpack_cases h).elim (fun ⟨_, ht⟩ => .of_registers ht) .of_took
  | hdr1Pack =>
    exact (execHdr1Pack_cases h).elim3
      (fun ⟨_, _, _, ht⟩ => .of_write hi 0 s.hdr1 ht rfl) .of_took .of_tooSmall
  | hdr1Unpack => exact (execHdr1Unpack_cases h).elim (fun ⟨_, _, ht⟩ => .of_registers ht) .of_took
  | hdr2Pack =>
    exact (execHdr2Pack_cases h).elim3
      (fun ⟨_, _, _, ht⟩ => .of_write hi 0 (s.hdr2 s.mCrc16) ht rfl) .of_took .of_tooSmall
  | hdr2Unpack => exact (execHdr2Unpack_cases h).elim (fun ⟨_, _, ht⟩ => .of_registers ht) .of_took
  | sizeV0 => exact .of_registers (execSizeV0_cases h)
  | encV0 =>
    exact (execEncV0_cases h).elim3
      (fun ⟨_, _, ht⟩ => .of_write hi 0 s.frameV0 ht (by rw [State.frameV0_length, Nat.zero_add]; rfl))
      .of_took .of_tooSmall
  | decV0 => exact .of_decV0 hi h
  | sizeV1 => exact (execSizeV1_cases h).elim (fun ⟨_, _, ht⟩ => .of_registers ht) .of_took
  | encV1 =>
    exact (execEncV1_cases h).elim3
      (fun ⟨_, _, _, _, _, ht⟩ => .of_write hi 0 (s.frameV1 s.wireOptions) ht
        (by rw [State.frameV1_length, Nat.zero_add]; rfl))
      .of_took (fun ⟨_, _, ht⟩ => .of_tooSmall ht)
  | decV1 => exact .of_decV1 hi h
  | sizeV2 => exact (execSizeV2_cases h).elim (fun ⟨_, _, ht⟩ => .of_registers ht) .of_took
  | encV2 =>
    exact (execEncV2_cases h).elim3
      (fun ⟨_, _, _, _, _, ht⟩ => .of_write hi 0 (s.frameV2 s.wireOptions) ht
        (by rw [State.frameV2_length, Nat.zero_add]; rfl))
      .of_took (fun ⟨_, _, ht⟩ => .of_tooSmall ht)
  | decV2 => exact .of_decV2 hi h

/-! ### FBUF -/

/-- Settles O52: the extent of each command's store is the one its clause names. -/
theorem frameBufferBytesOutsideAreKept : Obligations.FrameBufferBytesOutsideAreKept := by
  intro i s t a hi h
  obtain ⟨kept, -, -, -, -⟩ := exec_storesOnly hi h a
  refine ⟨fun hn => kept (.inr ?_), fun hst => ?_, ?_, ?_, ?_, ?_, ?_, fun hm => ?_, ?_, ?_, ?_, ?_⟩
  · rw [frameStores_of_not_writer hn]
    exact Nat.zero_le a
  · obtain ⟨e, rfl⟩ := exec_takes_exception h hst
    rw [State.takeException_fbuf]
  · rintro rfl ha
    exact kept (Nat.lt_or_gt_of_ne ha)
  · rintro rfl ha
    exact kept ha
  · rintro rfl ha
    exact kept ha
  · rintro rfl ha
    exact kept ha
  · rintro rfl ha
    exact kept ha
  · have extent : frameStores i s = (0, 4) := by
      simp only [List.mem_cons, List.not_mem_nil, or_false] at hm
      rcases hm with rfl | rfl
      · rfl
      · rfl
    rw [extent] at kept
    exact fun ha => kept (.inr ha)
  · rintro rfl ha
    exact kept (.inr ha)
  · rintro rfl ha
    exact kept (.inr ha)
  · rintro rfl ha
    exact kept (.inr ha)
  · rintro rfl ha
    exact kept (.inr ha)

/-! ### The memories of a message -/

/-- DEC.V0 keeps the message registers a V0 frame has no field for. -/
theorem execDecV0_keeps (h : execDecV0 s = .next t) :
    t.optCnt = s.optCnt ∧ t.mTkl = s.mTkl ∧ t.mMid = s.mMid ∧ t.mCode = s.mCode ∧ t.mRsum8 = s.mRsum8 := by
  rcases execDecV0_cases h with ⟨-, -, -, rfl⟩ | ⟨e, -, rfl⟩
  · exact ⟨rfl, rfl, rfl, rfl, rfl⟩
  · simp

/-- DEC.V1 keeps the message registers a V1 frame has no field for. -/
theorem execDecV1_keeps (h : execDecV1 s = .next t) :
    t.mEid = s.mEid ∧ t.mEtp = s.mEtp ∧ t.mCrc16 = s.mCrc16 ∧ t.mRsum8 = s.mRsum8 := by
  rcases execDecV1_cases h with ⟨b, -, -, -, -, rfl⟩ | ⟨e, -, rfl⟩
  · simp
  · simp

/-- Settles O53: each memory has its own decoders, and PLEN, M_TKL, OPTCNT and the VLENs say how far they store. -/
theorem decodedMemoriesOutsideAreKept : Obligations.DecodedMemoriesOutsideAreKept := by
  intro i s t a hi h
  obtain ⟨-, pbuf, token, opt, vbuf⟩ := exec_storesOnly hi h a
  refine ⟨fun hn => ⟨pbuf (absurd · hn), token fun hm => absurd (List.mem_cons_of_mem _ hm) hn⟩,
    fun hn => ⟨vbuf (absurd · hn), opt (absurd · hn)⟩, ?decV0, ?decV1, ?optsDec, fun hst => ?notOk,
    fun _ ha => pbuf fun _ => ha, fun _ ha => token fun _ => ha,
    fun _ _ => ⟨fun ha => opt fun _ => ha, fun ha => vbuf fun _ => ha⟩⟩
  case decV0 =>
    rintro rfl
    exact ⟨token (absurd · (by decide)), execDecV0_keeps h⟩
  case decV1 =>
    rintro rfl
    exact execDecV1_keeps h
  case optsDec =>
    rintro rfl
    exact ⟨pbuf (absurd · (by decide)), token (absurd · (by decide))⟩
  case notOk =>
    obtain ⟨e, rfl⟩ := exec_takes_exception h hst
    simp

end Sys2Proof.Machine

/-! PROOFS. The command word and the extension coding of one option (30_encoding.md R90 to R92, R104). -/

namespace Sys2Proof.Machine

/-! ### The command word -/

theorem decodeOpcode_opcodeOf (i : Instr) : decodeOpcode (opcodeOf i) = some i := by cases i <;> rfl

theorem decodeOpcode_eq_some_iff {op : Byte} {i : Instr} : decodeOpcode op = some i ↔ op = opcodeOf i := by
  constructor
  · exact Laws.OpcodeRoundTrip.opcode_unique op i
  · rintro rfl
    exact decodeOpcode_opcodeOf i

theorem decode_cons_of_none {op : Byte} (h : decodeOpcode op = none) (rest : List Byte) :
    decode (op :: rest) = .error (.illegalOpcode op) := by
  simp [decode, h]

theorem decode_cons_of_some {op : Byte} {i : Instr} (h : decodeOpcode op = some i) (rest : List Byte) :
    decode (op :: rest) = .ok (i, rest) := by
  simp [decode, h]

theorem decode_cons_eq_ok_iff {op : Byte} {i : Instr} {rest : List Byte} :
    decode (op :: rest) = .ok (i, rest) ↔ op = opcodeOf i := by
  rw [← decodeOpcode_eq_some_iff]
  refine ⟨fun h => ?_, fun h => decode_cons_of_some h rest⟩
  cases hop : decodeOpcode op with
  | none => rw [decode_cons_of_none hop] at h; cases h
  | some j => rw [decode_cons_of_some hop] at h; cases h; rfl

theorem decode_and_encode_of_opcode {op : Byte} {i : Instr} (h : op = opcodeOf i) :
    decode [op] = .ok (i, []) ∧ encode i = [op] :=
  ⟨decode_cons_eq_ok_iff.mpr h, by rw [encode, h]⟩

/-- Settles O3: each row's byte is its command's opcode, and opcodes decode to their own command only. -/
theorem commandWordsDecode : Obligations.CommandWordsDecode := by
  refine ⟨fun r hr => decode_and_encode_of_opcode ?_, fun r hr => decode_and_encode_of_opcode ?_,
    fun _ _ _ => decode_cons_eq_ok_iff⟩
  · revert r; decide
  · revert r; decide

theorem runCommand_of_illegal {op : Byte} (h : decodeOpcode op = none) (rest : List Byte) (s : State) :
    runCommand (op :: rest) s = .next { s with status := .errIllegalCommand } := by
  rw [runCommand, decode_cons_of_none h]
  rfl

/-- Settles O2: a write to CMD runs its low byte, and an illegal byte raises ErrIllegalCommand. -/
theorem illegalOpcodeChangesOnlyStatus : Obligations.IllegalOpcodeChangesOnlyStatus := by
  refine ⟨by decide +kernel, by decide, by decide, fun s v rest hhost hnone => ?_⟩
  rw [step_command hhost, runCommand_of_illegal hnone]

/-! ### The extension coding -/

theorem hiByte_ofNat {n : Nat} (h : n < 2 ^ 16) : hiByte (BitVec.ofNat 16 n) = BitVec.ofNat 8 (n / 256) := by
  apply BitVec.eq_of_toNat_eq
  rw [hiByte_toNat, BitVec.toNat_ofNat, BitVec.toNat_ofNat]; omega

theorem loByte_ofNat (n : Nat) : loByte (BitVec.ofNat 16 n) = BitVec.ofNat 8 (n % 256) := by
  apply BitVec.eq_of_toNat_eq
  rw [loByte_toNat, BitVec.toNat_ofNat, BitVec.toNat_ofNat]; omega

/-- The form without extension bytes. -/
theorem extSplit_direct {a : Nat} (h : a ≤ 12) : extNibble a = BitVec.ofNat 4 a ∧ extBytes a = [] :=
  ⟨if_pos h, if_pos h⟩

/-- The form with one extension byte. -/
theorem extSplit_byte {a : Nat} (h1 : 13 ≤ a) (h2 : a ≤ 268) :
    extNibble a = 13#4 ∧ extBytes a = [BitVec.ofNat 8 (a - 13)] := by
  have h : ¬ a ≤ 12 := by omega
  simp [extNibble, extBytes, h, h2]

/-- The form with two extension bytes, as halves of one 16-bit number. -/
theorem extSplit_half {a : Nat} (h1 : 269 ≤ a) :
    extNibble a = 14#4 ∧
      extBytes a = [hiByte (BitVec.ofNat 16 (a - 269)), loByte (BitVec.ofNat 16 (a - 269))] := by
  have h : ¬ a ≤ 12 := by omega
  have h' : ¬ a ≤ 268 := by omega
  simp [extNibble, extBytes, h, h']

theorem nibble_form {n : BitVec 4} (h : n ≠ 15#4) : n.toNat ≤ 12 ∨ n = 13#4 ∨ n = 14#4 := by
  revert n; decide

theorem extLen_direct {n : BitVec 4} (h : n.toNat ≤ 12) : extLen n = 0 := by
  revert n; decide

theorem extJoin_direct {n : BitVec 4} (h : n.toNat ≤ 12) (ext : List Byte) : extJoin n ext = n.toNat := by
  have h13 : n ≠ 13#4 := by rintro rfl; simp at h
  have h14 : n ≠ 14#4 := by rintro rfl; simp at h
  rw [extJoin, if_neg h13, if_neg h14]

theorem extJoin_byte (b : Byte) : extJoin 13#4 [b] = 13 + b.toNat := rfl

theorem extJoin_half (b c : Byte) : extJoin 14#4 [b, c] = 269 + (be16 b c).toNat := rfl

/-- Joining undoes splitting, up to the largest representable value. -/
theorem extJoin_extSplit {a : Nat} (h : a ≤ maxRepresentable) :
    extNibble a ≠ 15#4 ∧ extJoin (extNibble a) (extBytes a) = a := by
  unfold maxRepresentable at h
  obtain h12 | ⟨h13, h268⟩ | h269 : a ≤ 12 ∨ (13 ≤ a ∧ a ≤ 268) ∨ 269 ≤ a := by omega
  · obtain ⟨hn, hb⟩ := extSplit_direct h12
    have hval : (BitVec.ofNat 4 a).toNat = a := by rw [BitVec.toNat_ofNat]; omega
    rw [hn, hb, extJoin_direct (by omega)]
    refine ⟨fun h15 => ?_, hval⟩
    rw [h15] at hval
    simp at hval; omega
  · obtain ⟨hn, hb⟩ := extSplit_byte h13 h268
    rw [hn, hb, extJoin_byte, BitVec.toNat_ofNat]
    exact ⟨by decide, by omega⟩
  · obtain ⟨hn, hb⟩ := extSplit_half h269
    rw [hn, hb, extJoin_half, be16_hi_lo, BitVec.toNat_ofNat]
    exact ⟨by decide, by omega⟩

/-- Splitting undoes joining, for a nibble up to 14 with as many extension bytes as it calls for. -/
theorem extSplit_extJoin {n : BitVec 4} {ext : List Byte} (hn : n ≠ 15#4) (hl : ext.length = extLen n) :
    extJoin n ext ≤ maxRepresentable ∧ extNibble (extJoin n ext) = n ∧ extBytes (extJoin n ext) = ext := by
  unfold maxRepresentable
  obtain h12 | rfl | rfl := nibble_form hn
  · obtain rfl : ext = [] := List.length_eq_zero_iff.mp (hl.trans (extLen_direct h12))
    obtain ⟨hs, hb⟩ := extSplit_direct h12
    rw [extJoin_direct h12, hs, hb]
    exact ⟨by omega, by simp, rfl⟩
  · obtain ⟨b, rfl⟩ := List.length_eq_one_iff.mp hl
    have := b.isLt
    obtain ⟨hs, hb⟩ := extSplit_byte (a := 13 + b.toNat) (by omega) (by omega)
    rw [extJoin_byte, hs, hb]
    exact ⟨by omega, rfl, by simp⟩
  · obtain ⟨b, c, rfl⟩ := List.length_eq_two.mp hl
    have := (be16 b c).isLt
    obtain ⟨hs, hb⟩ := extSplit_half (a := 269 + (be16 b c).toNat) (by omega)
    rw [extJoin_half, hs, hb]
    exact ⟨by omega, rfl, by simp⟩

/-- Settles O20: the three forms of a split and of a join, and that each undoes the other. -/
theorem extensionCodingIsBijective : Obligations.ExtensionCodingIsBijective := by
  refine ⟨fun _ h => extSplit_direct h, fun _ h1 h2 => extSplit_byte h1 h2, fun a h1 h2 => ?half,
    fun _ h => ⟨extLen_direct h, extJoin_direct h []⟩, fun b => ⟨rfl, extJoin_byte b⟩,
    fun b c => ⟨rfl, by rw [extJoin_half, be16_toNat]⟩, fun a h => ?join, fun _ _ hn hl => extSplit_extJoin hn hl⟩
  case half =>
    rw [← hiByte_ofNat (by omega), ← loByte_ofNat]
    exact extSplit_half h1
  case join =>
    obtain ⟨hn, hj⟩ := extJoin_extSplit h
    exact ⟨hn, by rw [extBytes_length, extLen_extNibble h], hj⟩

end Sys2Proof.Machine

/-! PROOFS. The checksum units (40_checksums.md): what RSUM8 and CRC16 detect, and what the commands on them do. -/

namespace Sys2Proof.Machine

variable {s : State}

/-! ### RSUM8 -/

/-- RSUM8 in closed form (40_checksums.md R133): a byte and its complement add up to 255, one short of a wrap. -/
theorem rsum8_closed_form (bs : List Byte) :
    ((rsum8 bs).toNat + bs.length + (bs.map BitVec.toNat).sum) % 256 = 0 := by
  induction bs with
  | nil => rfl
  | cons b bs ih =>
    have hb := b.isLt
    simp only [rsum8_cons, BitVec.toNat_add, BitVec.toNat_not, List.length_cons, List.map_cons, List.sum_cons]
    omega

/-- The patch identity (40_checksums.md R134). -/
theorem rsum8_set_rsum8 {f : List Byte} {p : Nat} (h : f[p]? = some 0#8) : rsum8 (f.set p (rsum8 f)) = 0#8 := by
  rw [rsum8_set h, BitVec.add_zero, BitVec.sub_self]

/-- RSUM8 detects any one changed byte. -/
theorem rsum8_set_eq_iff {f : List Byte} {p : Nat} {b : Byte} (h : f[p]? = some b) (c : Byte) :
    rsum8 (f.set p c) = rsum8 f ↔ c = b := by
  rw [rsum8_set h, sub_eq_iff_eq_add, add_right_inj, eq_comm]

theorem xor_twoPow_ne {k : Nat} (hk : k < 8) (b : Byte) : b ^^^ BitVec.twoPow 8 k ≠ b := by
  intro h
  have hbit := congrArg (BitVec.getLsbD · k) h
  simp [hk] at hbit

theorem rsum8_perm {f g : List Byte} (h : f.Perm g) : rsum8 f = rsum8 g := by
  induction h with
  | nil => rfl
  | cons b _ ih => rw [rsum8_cons, rsum8_cons, ih]
  | swap b c l => simp only [rsum8_cons, add_left_comm]
  | trans _ _ ih₁ ih₂ => exact ih₁.trans ih₂

theorem rsum8_insert_ff (f g : List Byte) : rsum8 (f ++ 0xFF#8 :: g) = rsum8 (f ++ g) := by
  have hff : ~~~0xFF#8 = 0#8 := by decide
  rw [rsum8_append, rsum8_append, rsum8_cons, hff, BitVec.zero_add]

/-- Settles O11: each clause is one law of RSUM8; a flipped bit is a changed byte. -/
theorem rsum8Properties : Obligations.Rsum8Properties :=
  ⟨rsum8_closed_form, fun _ _ => rsum8_set_rsum8,
    fun _ _ _ b hb hk h => xor_twoPow_ne hk b ((rsum8_set_eq_iff hb _).mp h),
    fun _ _ => rsum8_perm, rsum8_insert_ff⟩

/-! ### CRC16 -/

theorem crc16Step_injective_left (b : Byte) {c c' : Half} (h : crc16Step c b = crc16Step c' b) : c = c' :=
  (BitVec.xor_left_inj _).mp (crc16Repeat_injective 8 h)

theorem crc16Step_injective_right (c : Half) {b b' : Byte} (h : crc16Step c b = crc16Step c b') : b = b' := by
  have hwide : b.setWidth 16 = b'.setWidth 16 := (BitVec.xor_right_inj _).mp (crc16Repeat_injective 8 h)
  simpa using congrArg (BitVec.setWidth 8) hwide

/-- Running values that differ stay different over the same bytes. -/
theorem crc16_foldl_injective (bs : List Byte) {c c' : Half}
    (h : bs.foldl crc16Step c = bs.foldl crc16Step c') : c = c' := by
  induction bs generalizing c c' with
  | nil => exact h
  | cons b bs ih => exact crc16Step_injective_left b (ih h)

theorem crc16_append_cons (pre post : List Byte) (b : Byte) :
    crc16 (pre ++ b :: post) = post.foldl crc16Step (crc16Step (crc16 pre) b) := by
  rw [crc16, List.foldl_append, List.foldl_cons, ← crc16]

/-- Settles O12: the byte makes the running values differ, and the bytes after it keep them apart. -/
theorem crc16DetectsOneChangedByte : Obligations.Crc16DetectsOneChangedByte := by
  intro pre post b b' hne h
  rw [crc16_append_cons, crc16_append_cons] at h
  exact hne (crc16Step_injective_right _ (crc16_foldl_injective post h))

/-! ### The CRC commands and SUM.INIT, SUM.UPD and SUM.FRM -/

/-- A command whose rule only checks a condition, where it holds. -/
theorem complete_ite_pos {p : Prop} [Decidable p] (h : p) (t : State) (e : Raise) :
    complete s (if p then .ok t else .error e) = .next { t with status := .ok } := by
  rw [if_pos h, complete_ok]

/-- A command whose rule only checks a condition, where it fails. -/
theorem complete_ite_neg {p : Prop} [Decidable p] (h : ¬ p) (t : State) (e : Raise) :
    complete s (if p then .ok t else .error e) = .next (s.takeException e) := by
  rw [if_neg h, complete_error]

/-- Settles O8: CRC.FRM ends one of two ways, the other three commands one way each. -/
theorem crcRules : Obligations.CrcRules :=
  ⟨decodeOpcode_opcodeOf .crcInit, decodeOpcode_opcodeOf .crcUpd, decodeOpcode_opcodeOf .crcFrm,
    decodeOpcode_opcodeOf .crcPay, fun _ => ⟨rfl, rfl, fun h => complete_ite_pos h _ _,
      fun h => complete_ite_neg (Nat.not_le.mpr h) _ _, rfl⟩⟩

theorem rsum8Step_eq_ofNat (c : Byte) (a : Word) :
    rsum8Step c (a.setWidth 8) = BitVec.ofNat 8 ((c.toNat + (255 - a.toNat % 256)) % 256) := by
  apply BitVec.eq_of_toNat_eq
  simp only [rsum8Step, BitVec.toNat_add, BitVec.toNat_not, BitVec.toNat_setWidth, BitVec.toNat_ofNat]
  omega

/-- Settles O9: SUM.UPD in numbers, and the two ends of SUM.FRM. -/
theorem sumRules : Obligations.SumRules := by
  refine ⟨decodeOpcode_opcodeOf .sumInit, decodeOpcode_opcodeOf .sumUpd, decodeOpcode_opcodeOf .sumFrm,
    fun s => ⟨rfl, ?upd, fun h => complete_ite_pos h _ _, fun h => complete_ite_neg (Nat.not_le.mpr h) _ _⟩⟩
  case upd =>
    rw [← rsum8Step_eq_ofNat]
    rfl

/-! ### SUM.PATCH -/

theorem Memory.set_set {m : Memory} (hm : m.wf) (a : Nat) (v w : Byte) : (m.set a v).set a w = m.set a w := by
  have hv := Memory.set_wf hm a v
  refine Memory.ext (Memory.set_wf hv a w) (Memory.set_wf hm a w) fun b => ?_
  rw [Memory.get_set hv, Memory.get_set hm, Memory.get_set hm]
  split_ifs <;> rfl

/-- The state SUM.PATCH leaves when it ends OK (40_checksums.md R142). -/
def State.patched (s : State) : State :=
  { s with fbuf := s.fbuf.set 7 (patchByte s.frame), mRsum8 := patchByte s.frame, status := .ok }

theorem execSumPatch_of_truncated (h : s.flenEff < 8) :
    execSumPatch s = .next { s with status := .errMessageTruncated } := by
  rw [execSumPatch, if_pos h]
  rfl

theorem execSumPatch_of_no_room (h : 8 ≤ s.flenEff) (hroom : s.ocapEff < 8) :
    execSumPatch s = .next { s with status := .errTooSmall, reqSize := 8#32 } := by
  rw [execSumPatch, if_neg (Nat.not_lt.mpr h), if_pos hroom, complete_error,
    State.takeException_tooSmall s (by decide)]
  rfl

theorem execSumPatch_of_room (h : 8 ≤ s.flenEff) (hroom : 8 ≤ s.ocapEff) : execSumPatch s = .next s.patched := by
  rw [execSumPatch, if_neg (Nat.not_lt.mpr h), if_neg (Nat.not_lt.mpr hroom)]
  rfl

theorem State.patched_frame (hm : s.fbuf.wf) : s.patched.frame = s.frame.set 7 (patchByte s.frame) :=
  Memory.read_set (a := 0) hm s.flenEff 7 (patchByte s.frame)

theorem patchByte_set (f : List Byte) (c : Byte) : patchByte (f.set 7 c) = patchByte f := by
  rw [patchByte, List.set_set, ← patchByte]

theorem rsum8_set_patchByte {f : List Byte} (h : 8 ≤ f.length) : rsum8 (f.set 7 (patchByte f)) = 0#8 := by
  have hzero : (f.set 7 0#8)[7]? = some 0#8 := List.getElem?_set_self h
  rw [patchByte, ← List.set_set (a := 0#8)]
  exact rsum8_set_rsum8 hzero

/-- Patching a patched frame finds the same byte, and stores it where it stands. -/
theorem State.patched_patched (hm : s.fbuf.wf) : s.patched.patched = s.patched := by
  have hbyte : patchByte s.patched.frame = patchByte s.frame := by rw [State.patched_frame hm, patchByte_set]
  have hmem : s.patched.fbuf.set 7 (patchByte s.frame) = s.patched.fbuf := Memory.set_set hm 7 _ _
  rw [State.patched, hbyte, hmem]
  rfl

/-- Settles O10: SUM.PATCH ends one of three ways; patching is idempotent and makes the RSUM8 of the frame 0. -/
theorem sumPatchRule : Obligations.SumPatchRule := by
  refine ⟨decodeOpcode_opcodeOf .sumPatch, fun s => ⟨execSumPatch_of_truncated, execSumPatch_of_no_room,
    execSumPatch_of_room, fun ⟨_, ⟨hm, _⟩, _⟩ hlen hroom t ht => ?_⟩⟩
  obtain rfl : s.patched = t := next_inj ((execSumPatch_of_room hlen hroom).symm.trans ht)
  constructor
  · show rsum8 s.patched.frame = 0#8
    rw [State.patched_frame hm]
    exact rsum8_set_patchByte (by rwa [State.frame_length])
  · refine (execSumPatch_of_room (s := s.patched) hlen hroom).trans ?_
    rw [State.patched_patched hm]

end Sys2Proof.Machine

/-! PROOFS. Variable-length integers and the field validators (41_varuint_validators.md). -/

namespace Sys2Proof.Machine

variable {s : State}

/-! ### Bytes as a number -/

theorem beNat_cons_zero (bs : List Byte) : beNat (0#8 :: bs) = beNat bs := by simp [beNat]

theorem beNat_cons_ge {b : Byte} (hb : b ≠ 0#8) (bs : List Byte) : 256 ^ bs.length ≤ beNat (b :: bs) := by
  have hpos : 0 < b.toNat := Nat.pos_of_ne_zero fun h => hb (BitVec.eq_of_toNat_eq h)
  rw [beNat_cons]
  exact (Nat.le_mul_of_pos_left _ hpos).trans (Nat.le_add_right _ _)

/-- Byte sequences of one length are told apart by their numbers. -/
theorem beNat_injective_of_length_eq {bs cs : List Byte} (hl : bs.length = cs.length) (h : beNat bs = beNat cs) :
    bs = cs := by
  induction bs generalizing cs with
  | nil => exact (List.length_eq_zero_iff.mp hl.symm).symm
  | cons b bs ih =>
    obtain ⟨c, cs, rfl⟩ := List.exists_cons_of_length_eq_add_one hl.symm
    have hl : bs.length = cs.length := Nat.succ.inj hl
    have hbs : beNat bs < 256 ^ cs.length := hl ▸ beNat_lt bs
    rw [beNat_cons, beNat_cons, hl] at h
    have htail : beNat bs = beNat cs := by
      rw [← Nat.mul_add_mod_of_lt hbs, h, Nat.mul_add_mod_of_lt (beNat_lt cs)]
    have hhead : b.toNat = c.toNat :=
      Nat.eq_of_mul_eq_mul_right (Nat.pow_pos (Nat.succ_pos 255)) (Nat.add_right_cancel (htail ▸ h))
    rw [ih hl htail, BitVec.eq_of_toNat_eq hhead]

theorem beNat_wordBytesBe (v : Word) : beNat (wordBytesBe v) = v.toNat := by
  simp only [beNat, wordBytesBe, List.foldl_cons, List.foldl_nil, BitVec.extractLsb'_toNat,
    Nat.shiftRight_eq_div_pow]
  omega

/-! ### Leading zero bytes -/

/-- A byte sequence without its leading zero bytes. -/
def dropZeros (bs : List Byte) : List Byte := bs.dropWhile (fun x => x == 0#8)

@[simp] theorem dropZeros_cons_zero (bs : List Byte) : dropZeros (0#8 :: bs) = dropZeros bs := rfl

theorem dropZeros_cons_of_ne {b : Byte} (hb : b ≠ 0#8) (bs : List Byte) : dropZeros (b :: bs) = b :: bs :=
  List.dropWhile_cons_of_neg (by simpa using hb)

theorem dropZeros_eq_self_iff (bs : List Byte) : dropZeros bs = bs ↔ bs.head? ≠ some 0#8 := by
  rw [dropZeros, List.dropWhile_eq_self_iff]
  cases bs <;> simp

/-- Leading zero bytes do not count. -/
theorem beNat_dropZeros (bs : List Byte) : beNat (dropZeros bs) = beNat bs := by
  induction bs with
  | nil => rfl
  | cons b bs ih =>
    by_cases hb : b = 0#8
    · rw [hb, dropZeros_cons_zero, ih, beNat_cons_zero]
    · rw [dropZeros_cons_of_ne hb]

theorem dropZeros_replicate_append (n : Nat) (bs : List Byte) :
    dropZeros (List.replicate n 0#8 ++ bs) = dropZeros bs :=
  List.dropWhile_append_of_pos fun a ha => by simp [List.eq_of_mem_replicate ha]

theorem beNat_replicate_append (n : Nat) (bs : List Byte) : beNat (List.replicate n 0#8 ++ bs) = beNat bs := by
  rw [← beNat_dropZeros, dropZeros_replicate_append, beNat_dropZeros]

/-- The last `n` bytes are the sequence without its leading zero bytes when `n` bytes are the fewest that hold its
number. -/
theorem drop_eq_dropZeros {bs : List Byte} {n : Nat} (h : ∀ m ≤ bs.length, n ≤ m ↔ beNat bs < 256 ^ m) :
    bs.drop (bs.length - n) = dropZeros bs := by
  induction bs with
  | nil => simp [dropZeros]
  | cons b bs ih =>
    have hfew := h bs.length (Nat.le_succ _)
    by_cases hb : b = 0#8
    · subst hb
      rw [beNat_cons_zero] at h hfew
      have hn : n ≤ bs.length := hfew.mpr (beNat_lt bs)
      rw [dropZeros_cons_zero, ← ih fun m hm => h m (Nat.le_succ_of_le hm), List.length_cons, Nat.succ_sub hn,
        List.drop_succ_cons]
    · have hn : ¬ n ≤ bs.length := fun hn => Nat.not_lt.mpr (beNat_cons_ge hb bs) (hfew.mp hn)
      rw [dropZeros_cons_of_ne hb, List.length_cons, Nat.sub_eq_zero_of_le (by omega), List.drop_zero]

/-! ### Encoding and decoding -/

/-- `vluLen v` bytes are the fewest that hold `v`. -/
theorem vluLen_le_iff (v : Word) {n : Nat} (hn : n ≤ 4) : vluLen v ≤ n ↔ v.toNat < 256 ^ n := by
  unfold vluLen
  interval_cases n <;> split_ifs <;> omega

theorem vluEnc_eq_dropZeros (v : Word) : vluEnc v = dropZeros (wordBytesBe v) :=
  drop_eq_dropZeros (bs := wordBytesBe v) fun _ hm => by rw [beNat_wordBytesBe, vluLen_le_iff v hm]

theorem vluDec_vluEnc (v : Word) : vluDec (vluEnc v) = v := by
  rw [vluDec, vluEnc_eq_dropZeros, beNat_dropZeros, beNat_wordBytesBe, word_toNat_self]

/-- The word at most four bytes spell has those bytes, behind zero bytes. -/
theorem wordBytesBe_vluDec {bs : List Byte} (h : bs.length ≤ 4) :
    wordBytesBe (vluDec bs) = List.replicate (4 - bs.length) 0#8 ++ bs := by
  refine beNat_injective_of_length_eq ?_ ?_
  · rw [List.length_append, List.length_replicate, Nat.sub_add_cancel h]
    rfl
  · rw [beNat_wordBytesBe, vluDec_toNat h, beNat_replicate_append]

theorem vluEnc_vluDec {bs : List Byte} (h : bs.length ≤ 4) : vluEnc (vluDec bs) = dropZeros bs := by
  rw [vluEnc_eq_dropZeros, wordBytesBe_vluDec h, dropZeros_replicate_append]

/-- Settles O13: an encoding is the four bytes of the word without the leading zero bytes, which do not count. -/
theorem varUintInverseLaws : Obligations.VarUintInverseLaws :=
  ⟨fun v => ⟨vluDec_vluEnc v, vluEnc_length v⟩, fun _ h => vluEnc_vluDec h,
    fun b h => by rw [vluEnc_vluDec h, dropZeros_eq_self_iff]⟩

/-! ### VLU.PUT and VLU.GET -/

theorem execVluGet_of_badOperand (h : 4 < s.x1) : execVluGet s = .next { s with status := .errBadOperand } := by
  rw [execVluGet, if_pos h]
  rfl

theorem execVluGet_of_operand (h : s.x1 ≤ 4) :
    execVluGet s = complete s (if s.needIn s.cursor s.x1 then
      .ok { s with a0 := vluDec (s.memRead .fbuf s.cursor s.x1), pos := word (s.cursor + s.x1) }
      else .error .messageTruncated) := by
  rw [execVluGet, if_neg (Nat.not_lt.mpr h)]

theorem execVluPut_of_room (hw : s.params.wellFormed) (h : s.cursor + vluLen s.a0 ≤ s.ocapEff) :
    execVluPut s = .next { s with
      fbuf := s.fbuf.write s.cursor (vluEnc s.a0)
      a1 := word (vluLen s.a0)
      pos := word (s.cursor + vluLen s.a0)
      flen := word (max s.flen.toNat (s.cursor + vluLen s.a0))
      reqSize := word (s.cursor + vluLen s.a0)
      status := .ok } := by
  have hlt := State.lt_of_le_ocapEff hw h
  rw [execVluPut, roomFor_of_le h, State.putAtCursor_of_lt s _ (by rwa [vluEnc_length]), vluEnc_length]
  rfl

/-- Settles O14: VLU.GET checks the operand and then the frame; VLU.PUT needs room up to its end. -/
theorem varUintRules : Obligations.VarUintRules := by
  refine ⟨decodeOpcode_opcodeOf .vluLen, decodeOpcode_opcodeOf .vluPut, decodeOpcode_opcodeOf .vluGet, fun _ => rfl,
    fun s => ⟨execVluGet_of_badOperand, fun hop hin => ?truncated, fun hop hin => ?read⟩,
    fun s hw => ⟨execVluPut_of_room hw, fun hroom hlt => ?noRoom⟩⟩
  case truncated => exact (execVluGet_of_operand hop).trans (complete_ite_neg (Nat.not_le.mpr hin) _ _)
  case read => exact (execVluGet_of_operand hop).trans (complete_ite_pos hin _ _)
  case noRoom => exact (execVluPut_noRoom hroom).trans (congrArg _ (State.takeException_tooSmall s hlt))

/-! ### The validators -/

/-- A validator that checks the signed value of A0 against the bounds 0 and `b`. -/
theorem validated_signedOperand (s : State) (b : Int) :
    (0 ≤ s.signedOperand ∧ s.signedOperand ≤ b →
      validated s (decide (0 ≤ s.signedOperand ∧ s.signedOperand ≤ b)) = .next { s with status := .ok }) ∧
    (s.signedOperand < 0 ∨ b < s.signedOperand →
      validated s (decide (0 ≤ s.signedOperand ∧ s.signedOperand ≤ b)) = .next { s with status := .errInvalidField }) :=
  ⟨validated_of, fun h => validated_of_not (by omega)⟩

/-- Settles O15: the five validators are one check with different bounds. -/
theorem validatorRules : Obligations.ValidatorRules := by
  intro r hr
  simp only [List.mem_cons, List.not_mem_nil, or_false] at hr
  obtain rfl | rfl | rfl | rfl | rfl := hr
  · exact ⟨decodeOpcode_opcodeOf .valType, fun s => validated_signedOperand s 255⟩
  · exact ⟨decodeOpcode_opcodeOf .valMid, fun s => validated_signedOperand s 65535⟩
  · exact ⟨decodeOpcode_opcodeOf .valEid, fun s => validated_signedOperand s 15⟩
  · exact ⟨decodeOpcode_opcodeOf .valEtp, fun s => validated_signedOperand s 15⟩
  · exact ⟨decodeOpcode_opcodeOf .valVer, fun s => validated_signedOperand s 3⟩

end Sys2Proof.Machine

/-! PROOFS. The bit-field slicer (42_bitfield_slicer.md). -/

namespace Sys2Proof.Machine

variable {s : State}

/-! ### The bytes of a field -/

/-- The bytes a field needs hold each of its stream bits (42_bitfield_slicer.md R170). -/
theorem bfBytes_le_iff {k w n : Nat} : bfBytes k w ≤ n ↔ k + w ≤ 8 * n := by
  rw [bfBytes]
  omega

/-- A byte with no bit of the field ends before the field's first byte or lies past its last. -/
theorem lt_div_or_bfBytes_le_iff {k w a : Nat} :
    a < k / 8 ∨ bfBytes k w ≤ a ↔ 8 * (a + 1) ≤ k ∨ k + w ≤ 8 * a := by
  rw [bfBytes_le_iff]
  omega

/-! ### Reading back a field -/

/-- The field read is the low bits of `n` when its stream bits are those of `n`, the most significant first. -/
theorem bfNat_eq_mod {bs : List Byte} {k w n : Nat} (h : ∀ j < w, streamBit bs (k + j) = n.testBit (w - 1 - j)) :
    bfNat bs k w = n % 2 ^ w := by
  induction w generalizing n with
  | zero => simp [bfNat, Nat.mod_one]
  | succ w ih =>
    have high : bfNat bs k w = n / 2 % 2 ^ w := ih fun j hj => by
      rw [h j (by omega), ← Nat.testBit_succ, show w + 1 - 1 - j = w - 1 - j + 1 by omega]
    have low : (streamBit bs (k + w)).toNat = n % 2 := by
      rw [h w (by omega), show w + 1 - 1 - w = 0 by omega, Nat.toNat_testBit, pow_zero, Nat.div_one]
    rw [bfNat_succ, high, low, pow_succ', Nat.mod_mul, Nat.mul_comm, Nat.add_comm]

theorem bfGet_bfSet_self {bs : List Byte} {k w : Nat} (v : Word) (hw : w ≤ 32) (hend : bfBytes k w ≤ bs.length) :
    (bfGet (bfSet bs k w v) k w).toNat = v.toNat % 2 ^ w := by
  rw [bfBytes_le_iff] at hend
  rw [bfGet_toNat hw]
  refine bfNat_eq_mod fun j hj => ?_
  rw [streamBit_bfSet k w v (by omega), bfSetBit, if_pos (by omega), Nat.add_sub_cancel_left, BitVec.testBit_toNat]

theorem bfGet_bfSet_disjoint {bs : List Byte} {k w k' w' : Nat} (v : Word) (hend : bfBytes k' w' ≤ bs.length)
    (hdisj : k' + w' ≤ k ∨ k + w ≤ k') : bfGet (bfSet bs k w v) k' w' = bfGet bs k' w' := by
  rw [bfBytes_le_iff] at hend
  refine congrArg word (bfNat_congr fun m hlo hhi => ?_)
  rw [streamBit_bfSet k w v (by omega), bfSetBit, if_neg (by omega)]

/-- Settles O16: every stream bit of a field that was set is known, and those outside it are as before. -/
theorem bitFieldLaws : Obligations.BitFieldLaws := fun bs k w v _ hw hend =>
  ⟨bfSet_length bs k w v, bfGet_bfSet_self v hw hend, fun _ _ _ _ hend' => bfGet_bfSet_disjoint v hend'⟩

/-! ### BF.EXT and BF.INS -/

/-- Both commands check that the field has 1 to 32 bits and ends within the bytes they may use (42_bitfield_slicer.md
R172, R173). -/
abbrev State.fieldFits (s : State) (n : Nat) : Prop := 1 ≤ s.x1 ∧ s.x1 ≤ 32 ∧ bfBytes s.x0 s.x1 ≤ n

theorem fieldChecks_eq (s u : State) (n : Nat) :
    (if s.x1 < 1 ∨ s.x1 > 32 then .error .badOperand
      else if n < bfBytes s.x0 s.x1 then .error .badOperand else .ok u : Except Raise State) =
    if s.fieldFits n then .ok u else .error .badOperand := by
  rw [← ite_or, ← ite_not]
  exact if_congr (by omega) rfl rfl

theorem State.not_fieldFits_of_width {n : Nat} (h : s.x1 < 1 ∨ s.x1 > 32) : ¬ s.fieldFits n :=
  fun ⟨h1, h32, _⟩ => by omega

theorem State.not_fieldFits_of_end {n : Nat} (h : n < bfBytes s.x0 s.x1) : ¬ s.fieldFits n :=
  fun ⟨_, _, hend⟩ => Nat.not_le.mpr h hend

theorem execBfExt_of_fits (h : s.fieldFits s.flenEff) :
    execBfExt s = .next { s with a2 := bfGet s.frame s.x0 s.x1, status := .ok } := by
  rw [execBfExt, fieldChecks_eq, complete_ite_pos h]

theorem execBfExt_of_not_fits (h : ¬ s.fieldFits s.flenEff) :
    execBfExt s = .next { s with status := .errBadOperand } := by
  rw [execBfExt, fieldChecks_eq, complete_ite_neg h]
  rfl

/-- FBUF after BF.INS ended OK (42_bitfield_slicer.md R173). -/
def State.insertedField (s : State) : Memory :=
  s.fbuf.write 0 (bfSet (s.fbuf.read 0 (bfBytes s.x0 s.x1)) s.x0 s.x1 s.a2)

theorem execBfIns_of_fits (h : s.fieldFits s.ocapEff) :
    execBfIns s = .next { s with fbuf := s.insertedField, status := .ok } := by
  rw [execBfIns, fieldChecks_eq, complete_ite_pos h]
  rfl

theorem execBfIns_of_not_fits (h : ¬ s.fieldFits s.ocapEff) :
    execBfIns s = .next { s with status := .errBadOperand } := by
  rw [execBfIns, fieldChecks_eq, complete_ite_neg h]
  rfl

/-! ### The bits of FBUF -/

theorem Memory.streamBit_read (m : Memory) {n i : Nat} (h : i / 8 < n) :
    streamBit (m.read 0 n) i = (m.get (i / 8)).getLsbD (7 - i % 8) := by
  rw [streamBit, byteAt, Memory.byteAt_read m h, Nat.zero_add]

/-- Inserting a field that ends in the first `n` bytes sets its stream bits and keeps every other bit of the memory. -/
theorem Memory.getLsbD_write_bfSet {m : Memory} (hm : m.wf) {n k w : Nat} (v : Word) (hend : bfBytes k w ≤ n)
    (i : Nat) : ((m.write 0 (bfSet (m.read 0 n) k w v)).get (i / 8)).getLsbD (7 - i % 8) =
      bfSetBit k w v i ((m.get (i / 8)).getLsbD (7 - i % 8)) := by
  by_cases hi : i / 8 < n
  case pos =>
    have hread : (m.write 0 (bfSet (m.read 0 n) k w v)).read 0 n = bfSet (m.read 0 n) k w v := by
      simpa using Memory.read_write hm 0 (bfSet (m.read 0 n) k w v)
    rw [← Memory.streamBit_read _ hi, hread, streamBit_bfSet k w v (by rwa [Memory.read_length]),
      Memory.streamBit_read _ hi]
  case neg =>
    rw [bfBytes_le_iff] at hend
    rw [Memory.get_write_bfSet hm (.inr (by omega)), bfSetBit, if_neg (by omega)]

/-- Settles O17: each command ends one of two ways, and the bytes and bits of FBUF are those of the field set. -/
theorem bitFieldRules : Obligations.BitFieldRules := by
  refine ⟨decodeOpcode_opcodeOf .bfExt, decodeOpcode_opcodeOf .bfIns, fun s =>
    ⟨fun hw => execBfExt_of_not_fits (State.not_fieldFits_of_width hw),
      fun hend => execBfExt_of_not_fits (State.not_fieldFits_of_end hend),
      fun h1 h32 hend => execBfExt_of_fits ⟨h1, h32, hend⟩,
      fun hw => execBfIns_of_not_fits (State.not_fieldFits_of_width hw),
      fun hend => execBfIns_of_not_fits (State.not_fieldFits_of_end hend),
      fun h1 h32 hend => execBfIns_of_fits ⟨h1, h32, hend⟩, fun ⟨_, ⟨hm, _⟩, _⟩ h1 h32 hend t ht => ?_⟩⟩
  obtain rfl := next_inj ((execBfIns_of_fits ⟨h1, h32, hend⟩).symm.trans ht)
  exact ⟨fun a ha => Memory.get_write_bfSet hm (lt_div_or_bfBytes_le_iff.mpr ha),
    Memory.getLsbD_write_bfSet hm s.a2 (Nat.le_refl _)⟩

end Sys2Proof.Machine

/-! PROOFS. The option registry, the content-type table (43_option_registry.md), and how an option list is decoded and
stored (44_option_tlv.md R206). -/

namespace Sys2Proof.Machine

variable {s : State}

/-! ### CT.MAP -/

theorem ctMap_of_listed {etp eid : Word} (h : eid.toInt = 0 ∧ 0 ≤ etp.toInt ∧ etp.toInt ≤ 6) : ctMap etp eid = etp :=
  if_pos h

theorem ctMap_of_unlisted {etp eid : Word} (h : ¬ (eid.toInt = 0 ∧ 0 ≤ etp.toInt ∧ etp.toInt ≤ 6)) :
    ctMap etp eid = 0#32 := if_neg h

theorem execCtMap_of_eq {a : Word} (h : ctMap s.mEtp s.mEid = a) :
    execCtMap s = .next { s with a0 := a, status := .ok } := by
  rw [execCtMap, h, complete_ok]

/-- Settles O19: CT.MAP writes what the table gives, whichever of the two cases that is. -/
theorem contentTypeRule : Obligations.ContentTypeRule :=
  ⟨decodeOpcode_opcodeOf .ctMap, fun _ =>
    ⟨fun heid hlo hhi => execCtMap_of_eq (ctMap_of_listed ⟨heid, hlo, hhi⟩),
      fun h => execCtMap_of_eq (ctMap_of_unlisted (by omega))⟩⟩

/-! ### The registry -/

theorem reg_of_mem {r : RegRow} (hr : r ∈ registry) {id : Word} (hid : id.toNat = r.id) : reg id = some r := by
  have table : ∀ r ∈ registry, ¬ (65000 ≤ r.id ∧ r.id ≤ 65006) ∧ registry.find? (fun x => x.id == r.id) = some r := by
    decide
  obtain ⟨hvendor, hfind⟩ := table r hr
  rw [reg, dif_neg (hid ▸ hvendor), hid, hfind]

theorem reg_of_vendor {id : Word} {n : Fin 7} (hid : id.toNat = 65000 + n) :
    reg id = some (vendorRow id.toNat (Config.vendorFmt n)) := by
  have hn : (⟨id.toNat - 65000, by omega⟩ : Fin 7) = n := Fin.ext (by simp [hid])
  rw [reg, dif_pos (by omega), hn]

theorem reg_of_unlisted {id : Word} (hid : id.toNat ∉ registry.map RegRow.id)
    (hvendor : id.toNat < 65000 ∨ 65006 < id.toNat) : reg id = none := by
  rw [reg, dif_neg (by omega), List.find?_eq_none]
  exact fun r hr heq => hid (List.mem_map.mpr ⟨r, hr, beq_iff_eq.mp heq⟩)

/-- What a row says in numbers: ID, FMT code and bounds. -/
def RegRow.numbers (r : RegRow) : Nat × Nat × Nat × Nat := (r.id, r.fmt.code.toNat, r.min, r.max)

/-- The numbers of a row of the table of 43_option_registry.md R181 are those of the row `reg` gives for its ID. -/
theorem reg_of_numbers_mem {id : Word} {q : Nat × Nat × Nat} (h : (id.toNat, q) ∈ registry.map RegRow.numbers) :
    ∃ r, reg id = some r ∧ r.numbers = (id.toNat, q) := by
  obtain ⟨r, hr, hq⟩ := List.mem_map.mp h
  exact ⟨r, reg_of_mem hr (congrArg Prod.fst hq).symm, hq⟩

theorem Fmt.code_injective {f g : Fmt} (h : f.code = g.code) : f = g := by
  revert h; cases f <;> cases g <;> decide

theorem Fmt.code_ne_unknown (f : Fmt) : f.code ≠ fmtUnknown := by
  cases f <;> decide

/-! ### REG.LOOKUP and REG.CHECK -/

theorem execRegLookup_of_unknown (h : reg s.a0 = none) :
    execRegLookup s = .next { s with a1 := fmtUnknown, a2 := 0#32, a3 := 0#32, status := .ok } := by
  rw [execRegLookup, h, complete_ok]

theorem execRegLookup_of_row {r : RegRow} (h : reg s.a0 = some r) :
    execRegLookup s = .next { s with a1 := r.fmt.code, a2 := word r.min, a3 := word r.max, status := .ok } := by
  rw [execRegLookup, h, complete_ok]

theorem execRegCheck_of_unknown (h : reg s.a0 = none) :
    execRegCheck s = .next { s with a2 := fmtUnknown, status := .ok } := by
  rw [execRegCheck, h, complete_ok]

theorem execRegCheck_of_out_of_bounds {r : RegRow} (h : reg s.a0 = some r) (hlen : s.x1 < r.min ∨ r.max < s.x1) :
    execRegCheck s = .next { s with status := .errInvalidValueLength } := by
  simp only [execRegCheck, h]
  rw [if_pos hlen]
  rfl

theorem execRegCheck_of_in_bounds {r : RegRow} (h : reg s.a0 = some r) (hlo : r.min ≤ s.x1) (hhi : s.x1 ≤ r.max) :
    execRegCheck s = .next { s with a2 := r.fmt.code, status := .ok } := by
  simp only [execRegCheck, h]
  rw [if_neg (by omega)]
  rfl

/-- Settles O18: what the two commands do for an ID with a row, which the table or VENDOR_FMT gives, and for an ID
without one. -/
theorem registryRules : Obligations.RegistryRules := by
  refine ⟨decodeOpcode_opcodeOf .regLookup, decodeOpcode_opcodeOf .regCheck, fun s fmt min max =>
    ⟨fun hrow => ?row, fun hid hvendor => ?unknown⟩⟩
  case row =>
    obtain ⟨r, hr, hnum⟩ : ∃ r, reg s.a0 = some r ∧ r.numbers = (s.a0.toNat, fmt, min, max) := by
      obtain hlisted | ⟨n, hn, hq⟩ := hrow
      · exact reg_of_numbers_mem hlisted
      · refine ⟨_, reg_of_vendor hn, ?_⟩
        rw [hq]
        cases Config.vendorFmt n <;> rfl
    obtain ⟨rfl, rfl, rfl⟩ : r.fmt.code.toNat = fmt ∧ r.min = min ∧ r.max = max := by
      simpa [RegRow.numbers] using (Prod.mk.inj hnum).2
    rw [word_toNat_self]
    exact ⟨execRegLookup_of_row hr, execRegCheck_of_out_of_bounds hr, execRegCheck_of_in_bounds hr⟩
  case unknown =>
    have hr : reg s.a0 = none := reg_of_unlisted hid hvendor
    exact ⟨execRegLookup_of_unknown hr, execRegCheck_of_unknown hr⟩

/-! ### The registry filter is that of REG.CHECK -/

theorem regFilter_of_unknown {id : Word} (h : reg id = none) (n : Nat) : regFilter id n = none := by
  rw [regFilter, h]

theorem regFilter_of_row {id : Word} {r : RegRow} (h : reg id = some r) (n : Nat) :
    regFilter id n = if r.min ≤ n ∧ n ≤ r.max then some r.fmt else none := by
  rw [regFilter, h]

/-- REG.CHECK answers the code of a format exactly when the filter passes the length under that format
(43_option_registry.md R184). -/
theorem regFilter_eq_some_iff_execRegCheck (s : State) (fmt : Fmt) :
    regFilter s.a0 s.x1 = some fmt ↔ execRegCheck s = .next { s with a2 := fmt.code, status := .ok } := by
  cases hr : reg s.a0 with
  | none =>
    rw [regFilter_of_unknown hr, execRegCheck_of_unknown hr]
    exact iff_of_false nofun fun h => fmt.code_ne_unknown (congrArg State.a2 (next_inj h)).symm
  | some r =>
    rw [regFilter_of_row hr]
    by_cases hlen : r.min ≤ s.x1 ∧ s.x1 ≤ r.max
    · rw [if_pos hlen, execRegCheck_of_in_bounds hr hlen.1 hlen.2]
      exact ⟨fun h => by rw [Option.some.inj h],
        fun h => congrArg some (Fmt.code_injective (congrArg State.a2 (next_inj h)))⟩
    · rw [if_neg hlen, execRegCheck_of_out_of_bounds hr (by omega)]
      exact iff_of_false nofun fun h => nomatch congrArg State.status (next_inj h)

/-! ### The loop of `opts_decode`, item by item -/

section Loop

variable {room : Nat} {prev id : Word} {input val rest : List Byte} {fmt : Fmt}

theorem optsDecodeFrom_of_error {e : Raise} (h : optDecode prev input = .error e) :
    optsDecodeFrom room prev input = .error e := by
  rw [optsDecodeFrom, optsDecodeLoop, h]

theorem optsDecodeFrom_of_done (h : optDecode prev input = .ok .done) :
    optsDecodeFrom room prev input = .ok { stored := [], last := prev, stop := .frameEnd, rest := [] } := by
  rw [optsDecodeFrom, optsDecodeLoop, h]

theorem optsDecodeFrom_of_marker (h : optDecode prev input = .ok (.marker rest)) :
    optsDecodeFrom room prev input = .ok { stored := [], last := prev, stop := .marker, rest := rest } := by
  rw [optsDecodeFrom, optsDecodeLoop, h]

theorem optsDecodeFrom_of_dropped (hd : optDecode prev input = .ok (.option id val rest))
    (hf : regFilter id val.length = none) : optsDecodeFrom room prev input = optsDecodeFrom room id rest := by
  rw [optsDecodeFrom_option hd, hf]

theorem optsDecodeFrom_of_no_room (hd : optDecode prev input = .ok (.option id val rest))
    (hf : regFilter id val.length = some fmt) : optsDecodeFrom 0 prev input = .error .optionsTooSmall := by
  rw [optsDecodeFrom_option hd, hf]

theorem optsDecodeFrom_of_room (hd : optDecode prev input = .ok (.option id val rest))
    (hf : regFilter id val.length = some fmt) :
    optsDecodeFrom (room + 1) prev input = (optsDecodeFrom room id rest).map (Parsed.cons ⟨id, fmt, val⟩) := by
  rw [optsDecodeFrom_option hd, hf]

end Loop

/-! ### Where the stored options and their values stand -/

theorem storedEntries_getElem? (o : Nat) (l : List Stored) (n : Nat) :
    (storedEntries o l)[n]? = l[n]?.map (Stored.entry (o + (storedBytes (l.take n)).length)) := by
  induction l generalizing o n with
  | nil => rfl
  | cons x xs ih =>
    cases n with
    | zero => rfl
    | succ n => simp [storedEntries, storedBytes, ih, Nat.add_assoc]

theorem storedBytes_at {l : List Stored} {n : Nat} {x : Stored} (hx : l[n]? = some x) :
    ((storedBytes l).drop (storedBytes (l.take n)).length).take x.bytes.length = x.bytes := by
  have hsplit : l = l.take n ++ x :: l.drop (n + 1) := by
    obtain ⟨hn, rfl⟩ := List.getElem?_eq_some_iff.mp hx
    rw [← List.drop_eq_getElem_cons hn, List.take_append_drop]
  have hbytes : storedBytes l = storedBytes (l.take n) ++ (x.bytes ++ storedBytes (l.drop (n + 1))) := by
    conv_lhs => rw [hsplit, storedBytes, List.flatMap_append, List.flatMap_cons]
    rfl
  rw [hbytes, List.drop_left, List.take_left]

/-- Settles O60: one round of the loop for each item and each answer of the filter, and the place of the entries and of
their values among those stored before. -/
theorem optionListDecodeRule : Obligations.OptionListDecodeRule := by
  refine ⟨fun _ _ => rfl, fun room prev input => ⟨fun _ => optsDecodeFrom_of_error, optsDecodeFrom_of_done,
    fun _ => optsDecodeFrom_of_marker, fun id val rest hd => ⟨optsDecodeFrom_of_dropped hd, fun fmt hf => ?stored⟩⟩,
    regFilter_eq_some_iff_execRegCheck, fun l n x hx o ho => ?place⟩
  case stored =>
    cases room with
    | zero => exact ⟨fun _ => optsDecodeFrom_of_no_room hd hf, fun _ h => absurd rfl h, fun _ h => absurd rfl h⟩
    | succ room =>
      rw [optsDecodeFrom_of_room hd hf, Nat.add_sub_cancel]
      exact ⟨nofun, fun _ _ h => by rw [h]; rfl, fun _ _ h => by rw [h]; rfl⟩
  case place =>
    obtain rfl : o = (storedBytes (l.take n)).length := ho.trans List.length_flatMap.symm
    refine ⟨?_, storedBytes_at hx⟩
    rw [storedEntries_getElem?, hx, Nat.zero_add]
    rfl

end Sys2Proof.Machine

/-! PROOFS. One option item on the wire (44_option_tlv.md R200 to R202): what `opt_decode` answers, and that it reads
back what `opt_encode` wrote. -/

namespace Sys2Proof.Machine

variable {prev id : Word} {dn ln : BitVec 4} {val rest : List Byte}

/-! ### The checks of `opt_decode`, in the order of the rule -/

theorem takeBytes_of_le {n : Nat} (h : n ≤ rest.length) : takeBytes n rest = .ok (rest.take n, rest.drop n) :=
  if_neg (Nat.not_lt.mpr h)

/-- The payload marker is the header byte both of whose nibbles are 15. -/
theorem nibbles_eq_marker_iff : (dn ++ ln : Byte) = 0xFF#8 ↔ dn = 15#4 ∧ ln = 15#4 := by
  revert dn ln
  decide

theorem optDecode_reserved (hany : dn = 15#4 ∨ ln = 15#4) (hboth : ¬ (dn = 15#4 ∧ ln = 15#4)) :
    optDecode prev ((dn ++ ln : Byte) :: rest) = .error .optionUnexpectedExtendMarker := by
  rw [optDecode, if_neg (mt nibbles_eq_marker_iff.mp hboth), hiNibble_append, loNibble_append, if_pos hany]

/-- With fewer bytes than the two extensions need, the first or the second of them is cut off. -/
theorem optDecode_extensions_cut (hd : dn ≠ 15#4) (hl : ln ≠ 15#4) (hcut : rest.length < extLen dn + extLen ln) :
    optDecode prev ((dn ++ ln : Byte) :: rest) = .error .optionTruncated := by
  rw [optDecode, if_neg (mt nibbles_eq_marker_iff.mp fun h => hd h.1), hiNibble_append, loNibble_append,
    if_neg (not_or.mpr ⟨hd, hl⟩)]
  by_cases hdext : rest.length < extLen dn
  · rw [takeBytes_short hdext]
  · rw [takeBytes_of_le (Nat.not_lt.mp hdext)]
    dsimp only
    rw [takeBytes_short (by rw [List.length_drop]; omega)]

/-- Past the extensions the value is taken, and then the ID is checked. -/
theorem optDecode_extensions (hd : dn ≠ 15#4) (hl : ln ≠ 15#4) {dext lext : List Byte}
    (hdext : dext.length = extLen dn) (hlext : lext.length = extLen ln) (body : List Byte) :
    optDecode prev ((dn ++ ln : Byte) :: (dext ++ lext ++ body)) =
      if body.length < extJoin ln lext then .error .optionTruncated
      else if 2 ^ 32 - 1 < prev.toNat + extJoin dn dext then .error .unrepresentable
      else .ok (.option (word (prev.toNat + extJoin dn dext)) (body.take (extJoin ln lext))
        (body.drop (extJoin ln lext))) := by
  rw [optDecode, if_neg (mt nibbles_eq_marker_iff.mp fun h => hd h.1), hiNibble_append, loNibble_append,
    if_neg (not_or.mpr ⟨hd, hl⟩), List.append_assoc, takeBytes_append hdext]
  dsimp only
  rw [takeBytes_append hlext]
  by_cases hval : body.length < extJoin ln lext
  · rw [if_pos hval]
    dsimp only
    rw [takeBytes_short hval]
  · rw [if_neg hval]
    dsimp only
    rw [takeBytes_of_le (Nat.not_lt.mp hval)]

/-- Settles O21: the checks in the order of the rule, the last three behind the extensions. -/
theorem optionItemDecodeRule : Obligations.OptionItemDecodeRule := by
  refine fun prev => ⟨rfl, fun rest => rfl, fun dn ln rest => ⟨optDecode_reserved, optDecode_extensions_cut, ?_⟩⟩
  rintro dext lext body hd hl hdext hlext rfl
  rw [optDecode_extensions hd hl hdext hlext body]
  exact ⟨fun hcut => if_pos hcut, fun hfits hid => by rw [if_neg (Nat.not_lt.mpr hfits), if_pos hid],
    fun hfits hid => by rw [if_neg (Nat.not_lt.mpr hfits), if_neg (Nat.not_lt.mpr hid)]⟩

/-! ### Encoding and decoding one option -/

theorem optEncode_eq (prev id : Word) (val : List Byte) :
    optEncode prev id val = (extNibble (delta prev id) ++ extNibble val.length : Byte) ::
      (extBytes (delta prev id) ++ extBytes val.length ++ val) := rfl

/-- Neither nibble of a representable option is 15. -/
theorem optEncode_head?_ne_marker (hr : representable (delta prev id) val.length) :
    (optEncode prev id val).head? ≠ some 0xFF#8 := by
  obtain ⟨hne, -⟩ := extJoin_extSplit hr.1
  exact fun h => hne (nibbles_eq_marker_iff.mp (Option.some.inj h)).1

theorem extBytes_length_eq_extLen {a : Nat} (h : a ≤ maxRepresentable) : (extBytes a).length = extLen (extNibble a) := by
  rw [extBytes_length, extLen_extNibble h]

/-- Decoding an encoded option gives it back, whatever follows. -/
theorem optDecode_optEncode (hid : prev.toNat ≤ id.toNat) (hr : representable (delta prev id) val.length)
    (rest : List Byte) : optDecode prev (optEncode prev id val ++ rest) = .ok (.option id val rest) := by
  obtain ⟨hdelta, hlen⟩ := hr
  obtain ⟨hd, hdjoin⟩ := extJoin_extSplit hdelta
  obtain ⟨hl, hljoin⟩ := extJoin_extSplit hlen
  have hsum : prev.toNat + delta prev id = id.toNat := Nat.add_sub_of_le hid
  have hid32 := id.isLt
  rw [optEncode_eq, List.cons_append, List.append_assoc,
    optDecode_extensions hd hl (extBytes_length_eq_extLen hdelta) (extBytes_length_eq_extLen hlen), hdjoin, hljoin,
    hsum, if_neg (by simp), if_neg (by omega), word_toNat_self, List.take_left, List.drop_left]

/-- Settles O22: the header byte in numbers, and the round trip. -/
theorem oneOptionRoundTrip : Obligations.OneOptionRoundTrip := by
  intro prev id val rest hid hdelta hlen
  refine ⟨?_, optEncode_length prev id val, optEncode_head?_ne_marker ⟨hdelta, hlen⟩,
    optDecode_optEncode hid ⟨hdelta, hlen⟩ rest⟩
  rw [optEncode_eq, ← nibbles_toNat, BitVec.ofNat_toNat, BitVec.setWidth_eq]

end Sys2Proof.Machine

/-! PROOFS. The option sort (44_option_tlv.md R203), and that the option table is written by the decoders only. -/

namespace Sys2Proof.Machine

variable {s t u : State} {i : Instr}

/-! ### The sort -/

/-- The order the sort goes by. -/
abbrev OptEntry.idLe : OptEntry → OptEntry → Prop := Order.Preimage (fun e => e.id.toNat) (· ≤ ·)

theorem insertById_eq_orderedInsert (e : OptEntry) (l : List OptEntry) :
    insertById e l = l.orderedInsert OptEntry.idLe e := by
  induction l with
  | nil => rfl
  | cons x xs ih =>
    rw [insertById, ih]
    rfl

theorem sortById_eq_insertionSort (l : List OptEntry) : sortById l = l.insertionSort OptEntry.idLe := by
  induction l with
  | nil => rfl
  | cons e es ih => rw [sortById, ih, insertById_eq_orderedInsert, List.insertionSort_cons]

theorem sortById_perm (l : List OptEntry) : (sortById l).Perm l := by
  rw [sortById_eq_insertionSort]
  exact List.perm_insertionSort _ l

theorem sortById_pairwise (l : List OptEntry) : (sortById l).Pairwise fun a b => a.id.toNat ≤ b.id.toNat := by
  rw [sortById_eq_insertionSort]
  exact List.pairwise_insertionSort OptEntry.idLe l

/-- Entries of one ID are in order among themselves before the sort, so they are a sublist after it, and there are as
many of them. -/
theorem sortById_filter (l : List OptEntry) (id : Word) :
    (sortById l).filter (fun e => e.id == id) = l.filter fun e => e.id == id := by
  have same : ∀ e ∈ l.filter fun e => e.id == id, e.id = id := fun e he => beq_iff_eq.mp (List.mem_filter.mp he).2
  have ordered : (l.filter fun e => e.id == id).Pairwise OptEntry.idLe :=
    List.pairwise_of_forall_mem_list fun a ha b hb => show a.id.toNat ≤ b.id.toNat by rw [same a ha, same b hb]
  have sublist : (l.filter fun e => e.id == id).Sublist (sortById l) := by
    rw [sortById_eq_insertionSort]
    exact List.sublist_insertionSort ordered List.filter_sublist
  have filtered := sublist.filter fun e => e.id == id
  rw [List.filter_filter] at filtered
  simp only [Bool.and_self] at filtered
  exact (filtered.eq_of_length ((sortById_perm l).filter _).length_eq.symm).symm

/-! ### The option table -/

theorem EndedOk.opt_eq (h : EndedOk t u) (hu : u.opt = s.opt := by rfl) : t.opt = s.opt := by
  rw [h]
  exact hu

theorem Took.opt_eq {l : List Raise} (h : Took s t l) : t.opt = s.opt := by
  obtain ⟨e, -, rfl⟩ := h
  exact s.takeException_opt e

theorem TookTooSmall.opt_eq (h : TookTooSmall i s t) : t.opt = s.opt := by
  obtain ⟨-, rfl⟩ := h
  exact s.takeException_opt _

/-- No command but the option decoders writes the option table. -/
theorem exec_opt_eq (h : exec i s = .next t) (hi : i ∉ optionDecoders) : t.opt = s.opt := by
  cases i with
  | crcInit | crcUpd | crcPay | sumInit | sumUpd | vluLen | optBegin | msgReset | ctMap | sizeV0 =>
    exact (congrArg State.opt (next_inj h)).symm
  | crcFrm => exact (execCrcFrm_cases h).elim (fun ⟨_, ht⟩ => ht.opt_eq) Took.opt_eq
  | sumFrm => exact (execSumFrm_cases h).elim (fun ⟨_, ht⟩ => ht.opt_eq) Took.opt_eq
  | sumPatch => exact (execSumPatch_cases h).elim3 (fun ⟨_, _, ht⟩ => ht.opt_eq) Took.opt_eq TookTooSmall.opt_eq
  | vluPut => exact (execVluPut_cases h).elim (fun ⟨_, ht⟩ => ht.opt_eq) TookTooSmall.opt_eq
  | vluGet => exact (execVluGet_cases h).elim (fun ⟨_, _, ht⟩ => ht.opt_eq) Took.opt_eq
  | valType | valMid | valEid | valEtp | valVer => exact (validated_cases h).elim (fun ht => ht.opt_eq) Took.opt_eq
  | bfExt => exact (execBfExt_cases h).elim (fun ⟨_, ht⟩ => ht.opt_eq) Took.opt_eq
  | bfIns => exact (execBfIns_cases h).elim (fun ⟨_, _, _, ht⟩ => ht.opt_eq) Took.opt_eq
  | regLookup =>
    obtain ⟨_, _, _, ht⟩ := execRegLookup_cases h
    exact ht.opt_eq
  | regCheck => exact (execRegCheck_cases h).elim (fun ⟨_, ht⟩ => ht.opt_eq) Took.opt_eq
  | optSize => exact (execOptSize_cases h).elim (fun ht => ht.opt_eq) Took.opt_eq
  | optPut => exact (execOptPut_cases h).elim3 (fun ⟨_, ht⟩ => ht.opt_eq) Took.opt_eq TookTooSmall.opt_eq
  | optGet =>
    rcases execOptGet_cases h with ⟨-, -, ht⟩ | ⟨_, -, -, ht⟩ | ⟨_, _, _, -, -, ht⟩ | ht
    · exact ht.opt_eq
    · exact ht.opt_eq
    · exact ht.opt_eq
    · exact ht.opt_eq
  | optsSize => exact (execOptsSize_cases h).elim (fun ⟨_, _, ht⟩ => ht.opt_eq) Took.opt_eq
  | optsEnc =>
    exact (execOptsEnc_cases h).elim3 (fun ⟨_, _, _, ht⟩ => ht.opt_eq) Took.opt_eq fun ⟨_, _, ht⟩ => ht.opt_eq
  | hdr0Pack => exact (execHdr0Pack_cases h).elim3 (fun ⟨_, _, ht⟩ => ht.opt_eq) Took.opt_eq TookTooSmall.opt_eq
  | hdr0Unpack => exact (execHdr0Unpack_cases h).elim (fun ⟨_, ht⟩ => ht.opt_eq) Took.opt_eq
  | hdr1Pack => exact (execHdr1Pack_cases h).elim3 (fun ⟨_, _, _, ht⟩ => ht.opt_eq) Took.opt_eq TookTooSmall.opt_eq
  | hdr1Unpack => exact (execHdr1Unpack_cases h).elim (fun ⟨_, _, ht⟩ => ht.opt_eq) Took.opt_eq
  | hdr2Pack => exact (execHdr2Pack_cases h).elim3 (fun ⟨_, _, _, ht⟩ => ht.opt_eq) Took.opt_eq TookTooSmall.opt_eq
  | hdr2Unpack => exact (execHdr2Unpack_cases h).elim (fun ⟨_, _, ht⟩ => ht.opt_eq) Took.opt_eq
  | encV0 => exact (execEncV0_cases h).elim3 (fun ⟨_, _, ht⟩ => ht.opt_eq) Took.opt_eq TookTooSmall.opt_eq
  | decV0 => exact (execDecV0_cases h).elim (fun ⟨_, _, _, ht⟩ => ht.opt_eq) Took.opt_eq
  | sizeV1 => exact (execSizeV1_cases h).elim (fun ⟨_, _, ht⟩ => ht.opt_eq) Took.opt_eq
  | encV1 =>
    exact (execEncV1_cases h).elim3 (fun ⟨_, _, _, _, _, ht⟩ => ht.opt_eq) Took.opt_eq fun ⟨_, _, ht⟩ => ht.opt_eq
  | sizeV2 => exact (execSizeV2_cases h).elim (fun ⟨_, _, ht⟩ => ht.opt_eq) Took.opt_eq
  | encV2 =>
    exact (execEncV2_cases h).elim3 (fun ⟨_, _, _, _, _, ht⟩ => ht.opt_eq) Took.opt_eq fun ⟨_, _, ht⟩ => ht.opt_eq
  | optsDec | decV1 | decV2 => exact absurd (by decide) hi

/-- Settles O23: the sort is the library's insertion sort by ID, and only decoders write the table. -/
theorem optionSortIsStable : Obligations.OptionSortIsStable :=
  ⟨fun l => ⟨sortById_perm l, sortById_pairwise l, sortById_filter l⟩, fun _ _ _ => exec_opt_eq⟩

end Sys2Proof.Machine

/-! PROOFS. The option list (44_option_tlv.md R205 to R207): what a decoding that succeeds says of its result, and that
it reads back what `opts_encode` wrote. -/

namespace Sys2Proof.Machine

/-! ### A decoding that succeeds, item by item -/

/-- `DecodesTo room prev input p`: the loop of `opts_decode` (44_option_tlv.md R206) reads `input` to its end or marker
and answers `p`. -/
inductive DecodesTo : Nat → Word → List Byte → Parsed → Prop
  /-- The input is used up. -/
  | done {room prev input} (hd : optDecode prev input = .ok .done) :
      DecodesTo room prev input { stored := [], last := prev, stop := .frameEnd, rest := [] }
  /-- The payload marker. -/
  | marker {room prev input rest} (hd : optDecode prev input = .ok (.marker rest)) :
      DecodesTo room prev input { stored := [], last := prev, stop := .marker, rest := rest }
  /-- An option the registry filter drops. -/
  | dropped {room prev input id val rest p} (hd : optDecode prev input = .ok (.option id val rest))
      (hf : regFilter id val.length = none) (hp : DecodesTo room id rest p) : DecodesTo room prev input p
  /-- An option that is stored. -/
  | stored {room prev input id val rest fmt p} (hd : optDecode prev input = .ok (.option id val rest))
      (hf : regFilter id val.length = some fmt) (hp : DecodesTo room id rest p) :
      DecodesTo (room + 1) prev input (p.cons ⟨id, fmt, val⟩)

theorem optDecode_option_suffix {prev id : Word} {input val rest : List Byte}
    (hd : optDecode prev input = .ok (.option id val rest)) : rest <:+ input ∧ rest.length < input.length := by
  obtain ⟨b, dext, lext, rfl, -⟩ := optDecode_option hd
  refine ⟨⟨b :: (dext ++ (lext ++ val)), by simp⟩, ?_⟩
  simp only [List.length_cons, List.length_append]
  omega

theorem optDecode_option_id_le {prev id : Word} {input val rest : List Byte}
    (hd : optDecode prev input = .ok (.option id val rest)) : prev.toNat ≤ id.toNat := by
  obtain ⟨_, _, _, -, hid, -⟩ := optDecode_option hd
  exact hid

theorem DecodesTo.of_ok {room : Nat} {prev : Word} {input : List Byte} {p : Parsed}
    (h : optsDecodeFrom room prev input = .ok p) : DecodesTo room prev input p := by
  cases hd : optDecode prev input with
  | error e =>
    rw [optsDecodeFrom_of_error hd] at h
    cases h
  | ok item =>
    cases item with
    | done =>
      rw [optsDecodeFrom_of_done hd] at h
      cases h
      exact .done hd
    | marker rest =>
      rw [optsDecodeFrom_of_marker hd] at h
      cases h
      exact .marker hd
    | option id val rest =>
      have hless : rest.length < input.length := (optDecode_option_suffix hd).2
      cases hf : regFilter id val.length with
      | none =>
        rw [optsDecodeFrom_of_dropped hd hf] at h
        exact .dropped hd hf (of_ok h)
      | some fmt =>
        cases room with
        | zero =>
          rw [optsDecodeFrom_of_no_room hd hf] at h
          cases h
        | succ room =>
          rw [optsDecodeFrom_of_room hd hf] at h
          cases hq : optsDecodeFrom room id rest with
          | error e =>
            rw [hq] at h
            cases h
          | ok q =>
            rw [hq] at h
            cases h
            exact .stored hd hf (of_ok hq)
termination_by input.length

namespace DecodesTo

variable {room : Nat} {prev : Word} {input : List Byte} {p : Parsed}

theorem prev_le_last (h : DecodesTo room prev input p) : prev.toNat ≤ p.last.toNat := by
  induction h with
  | done | marker => exact le_rfl
  | dropped hd _ _ ih | stored hd _ _ ih => exact (optDecode_option_id_le hd).trans ih

theorem prev_le_stored (h : DecodesTo room prev input p) : ∀ x ∈ p.stored, prev.toNat ≤ x.id.toNat := by
  induction h with
  | done | marker => exact List.forall_mem_nil _
  | dropped hd _ _ ih => exact fun x hx => (optDecode_option_id_le hd).trans (ih x hx)
  | stored hd _ _ ih =>
    have hid := optDecode_option_id_le hd
    exact List.forall_mem_cons.mpr ⟨hid, fun x hx => hid.trans (ih x hx)⟩

theorem stored_ordered (h : DecodesTo room prev input p) :
    p.stored.Pairwise fun a b => a.id.toNat ≤ b.id.toNat := by
  induction h with
  | done | marker => exact List.Pairwise.nil
  | dropped _ _ _ ih => exact ih
  | stored _ _ hp ih => exact List.pairwise_cons.mpr ⟨hp.prev_le_stored, ih⟩

theorem stored_filtered (h : DecodesTo room prev input p) :
    ∀ x ∈ p.stored, regFilter x.id x.bytes.length = some x.fmt ∧ x.id.toNat ≤ p.last.toNat := by
  induction h with
  | done | marker => exact List.forall_mem_nil _
  | dropped _ _ _ ih => exact ih
  | stored _ hf hp ih => exact List.forall_mem_cons.mpr ⟨⟨hf, hp.prev_le_last⟩, ih⟩

theorem rest_suffix (h : DecodesTo room prev input p) : p.rest <:+ input := by
  induction h with
  | done => exact List.nil_suffix
  | marker hd =>
    rw [optDecode_marker hd]
    exact List.suffix_cons _ _
  | dropped hd _ _ ih | stored hd _ _ ih => exact ih.trans (optDecode_option_suffix hd).1

theorem rest_eq_nil (h : DecodesTo room prev input p) (hstop : p.stop = .frameEnd) : p.rest = [] := by
  induction h with
  | done => rfl
  | marker => cases hstop
  | dropped _ _ _ ih | stored _ _ _ ih => exact ih hstop

end DecodesTo

/-- Settles O24: the loop keeps each clause, item by item. -/
theorem decodedOptionListIsOrderedAndFiltered : Obligations.DecodedOptionListIsOrderedAndFiltered := by
  intro cap input p h
  have hp : DecodesTo cap 0#32 input p := .of_ok h
  obtain ⟨hroom, hbytes⟩ := optsDecode_fits h
  exact ⟨hroom, hp.stored_ordered, hp.stored_filtered, hbytes, hp.rest_suffix, hp.rest_eq_nil⟩

/-! ### The round trip of an option list -/

/-- A stored option as it goes on the wire. -/
def Stored.wire (x : Stored) : WireOption := (x.id, x.bytes)

/-- What `opts_decode` answers at `tail`, whatever came before, if it answers the stop `stop` and the rest `rest`. -/
def StopsAt (tail : List Byte) (stop : Stop) (rest : List Byte) : Prop :=
  ∀ room prev, optsDecodeFrom room prev tail = .ok { stored := [], last := prev, stop := stop, rest := rest }

theorem stopsAt_nil : StopsAt [] .frameEnd [] := fun _ _ => optsDecodeFrom_of_done rfl

theorem stopsAt_marker (pay : List Byte) : StopsAt (0xFF#8 :: pay) .marker pay :=
  fun _ _ => optsDecodeFrom_of_marker rfl

theorem getLast?_id_cons (x : Stored) (xs : List Stored) (prev : Word) :
    ((x :: xs).getLast?.map Stored.id).getD prev = (xs.getLast?.map Stored.id).getD x.id := by
  rw [List.getLast?_cons]
  cases xs.getLast? <;> rfl

/-- Decoding an encoded list, in ID order from the ID `prev` on, gives it back and goes on with what follows it. -/
theorem optsDecodeFrom_optsEncode {tail rest : List Byte} {stop : Stop} (htail : StopsAt tail stop rest)
    {l : List Stored} {room : Nat} {prev : Word} (hprev : ∀ x ∈ l, prev.toNat ≤ x.id.toNat)
    (hsorted : l.Pairwise fun a b => a.id.toNat ≤ b.id.toNat)
    (hr : optsRepresentable prev (l.map Stored.wire) = true)
    (hf : ∀ x ∈ l, regFilter x.id x.bytes.length = some x.fmt) (hroom : l.length ≤ room) :
    optsDecodeFrom room prev (optsEncode prev (l.map Stored.wire) ++ tail) =
      .ok { stored := l, last := (l.getLast?.map Stored.id).getD prev, stop := stop, rest := rest } := by
  induction l generalizing room prev with
  | nil => exact htail room prev
  | cons x xs ih =>
    obtain ⟨room, rfl⟩ := Nat.exists_eq_add_one_of_ne_zero (Nat.ne_zero_of_lt hroom)
    obtain ⟨hid, -⟩ := List.forall_mem_cons.mp hprev
    obtain ⟨hnext, hsorted⟩ := List.pairwise_cons.mp hsorted
    obtain ⟨hfx, hfxs⟩ := List.forall_mem_cons.mp hf
    simp only [List.map_cons, optsRepresentable, Bool.and_eq_true, decide_eq_true_eq] at hr
    obtain ⟨hrx, hrxs⟩ := hr
    rw [List.map_cons, optsEncode, List.append_assoc, getLast?_id_cons]
    exact (optsDecodeFrom_of_room (optDecode_optEncode hid hrx _) hfx).trans
      (congrArg _ (ih hnext hsorted hrxs hfxs (Nat.le_of_succ_le_succ hroom)))

/-- Settles O25: what follows the encoded list is nothing, or the marker and the payload. -/
theorem optionListRoundTrip : Obligations.OptionListRoundTrip := by
  intro cap l hsorted hr hf hroom
  have roundTrip {tail rest : List Byte} {stop : Stop} (htail : StopsAt tail stop rest) :=
    optsDecodeFrom_optsEncode htail (prev := 0#32) (fun _ _ => Nat.zero_le _) hsorted hr hf hroom
  refine ⟨?_, fun pay => roundTrip (stopsAt_marker pay)⟩
  have h := roundTrip stopsAt_nil
  rwa [List.append_nil] at h

end Sys2Proof.Machine

/-! PROOFS. The option commands (44_option_tlv.md R208 to R215): the next state of each outcome. -/

namespace Sys2Proof.Machine

variable {s : State} {e : Raise}

/-! ### OPT.BEGIN, OPT.SIZE and OPT.PUT -/

/-- OPT.SIZE and OPT.PUT check that the option has an encoding after the ID in PREVID (44_option_tlv.md R209, R210). -/
abbrev State.hasEncoding (s : State) : Prop :=
  s.prevId.toNat ≤ s.a0.toNat ∧ representable (delta s.prevId s.a0) s.x2

theorem State.not_hasEncoding
    (h : s.a0.toNat < s.prevId.toNat ∨ s.a0.toNat - s.prevId.toNat > 65804 ∨ s.a2.toNat > 65804) :
    ¬ s.hasEncoding := by
  rintro ⟨hid, (hdelta : s.a0.toNat - s.prevId.toNat ≤ 65804), (hlen : s.a2.toNat ≤ 65804)⟩
  omega

theorem encodingChecks_eq (s : State) (r : Except Raise State) :
    (if s.a0.toNat < s.prevId.toNat then .error .unrepresentable
      else if ¬ representable (delta s.prevId s.a0) s.x2 then .error .unrepresentable else r) =
    if s.hasEncoding then r else .error .unrepresentable := by
  by_cases hid : s.a0.toNat < s.prevId.toNat
  · rw [if_pos hid, if_neg fun h => Nat.not_lt.mpr h.1 hid]
  · rw [if_neg hid, ite_not]
    exact if_congr (iff_and_self.mpr fun _ => Nat.not_lt.mp hid) rfl rfl

theorem execOptSize_of_hasEncoding (h : s.hasEncoding) :
    execOptSize s = .next { s with a3 := word (optSize (delta s.prevId s.a0) s.x2), status := .ok } := by
  rw [execOptSize, encodingChecks_eq, complete_ite_pos h]

theorem execOptSize_of_not_hasEncoding (h : ¬ s.hasEncoding) :
    execOptSize s = .next { s with status := .errUnrepresentable } := by
  rw [execOptSize, encodingChecks_eq, complete_ite_neg h]
  rfl

/-- Settles O26: OPT.BEGIN ends one way, OPT.SIZE one of two ways. -/
theorem optionBeginAndSizeRules : Obligations.OptionBeginAndSizeRules :=
  ⟨decodeOpcode_opcodeOf .optBegin, decodeOpcode_opcodeOf .optSize, fun _ =>
    ⟨rfl, fun h => execOptSize_of_not_hasEncoding (State.not_hasEncoding h),
      fun hid hdelta hlen => execOptSize_of_hasEncoding ⟨hid, hdelta, hlen⟩⟩⟩

theorem execOptPut_of_badOperand (h : s.bufBytes.toNat < s.x1 + s.x2) :
    execOptPut s = .next { s with status := .errBadOperand } := by
  rw [execOptPut, if_pos h]
  rfl

theorem execOptPut_of_not_hasEncoding (hval : s.x1 + s.x2 ≤ s.bufBytes.toNat) (h : ¬ s.hasEncoding) :
    execOptPut s = .next { s with status := .errUnrepresentable } := by
  rw [execOptPut, if_neg (Nat.not_lt.mpr hval), encodingChecks_eq, if_neg h]
  rfl

theorem execOptPut_of_room (hw : s.params.wellFormed) (hval : s.x1 + s.x2 ≤ s.bufBytes.toNat) (h : s.hasEncoding)
    (hroom : s.cursor + optSize (delta s.prevId s.a0) s.x2 ≤ s.ocapEff) :
    execOptPut s = .next { s with
      fbuf := s.fbuf.write s.cursor (optEncode s.prevId s.a0 (s.vbuf.read s.x1 s.x2))
      a3 := word (optSize (delta s.prevId s.a0) s.x2)
      prevId := s.a0
      pos := word (s.cursor + optSize (delta s.prevId s.a0) s.x2)
      flen := word (max s.flen.toNat (s.cursor + optSize (delta s.prevId s.a0) s.x2))
      reqSize := word (s.cursor + optSize (delta s.prevId s.a0) s.x2)
      status := .ok } := by
  have hlen : (optEncode s.prevId s.a0 (s.memRead .vbuf s.x1 s.x2)).length = optSize (delta s.prevId s.a0) s.x2 := by
    rw [optEncode_length, State.memRead, Memory.read_length]
  have hlt := State.lt_of_le_ocapEff hw hroom
  rw [execOptPut, if_neg (Nat.not_lt.mpr hval), encodingChecks_eq, if_pos h]
  dsimp only
  rw [roomFor_of_le hroom, State.putAtCursor_of_lt s _ (by rwa [hlen]), hlen]
  rfl

/-- Settles O27: the operand, then the encoding, then the room. -/
theorem optionPutRule : Obligations.OptionPutRule := by
  refine ⟨decodeOpcode_opcodeOf .optPut, fun s hw => ⟨execOptPut_of_badOperand, fun hval =>
    ⟨fun h => execOptPut_of_not_hasEncoding hval (State.not_hasEncoding h), ?_⟩⟩⟩
  rintro hid hdelta hlen sz rfl
  exact ⟨execOptPut_of_room hw hval ⟨hid, hdelta, hlen⟩, fun hroom hlt =>
    (execOptPut_noRoom hval hid ⟨hdelta, hlen⟩ hroom).trans (congrArg _ (State.takeException_tooSmall s hlt))⟩

/-! ### OPT.GET -/

theorem execOptGet_of_badOperand (h : s.flenEff < s.cursor) :
    execOptGet s = .next { s with status := .errBadOperand } := by
  rw [execOptGet, if_pos h]
  rfl

section OptGet

variable (hpos : s.cursor ≤ s.flenEff)
include hpos

theorem execOptGet_of_error (hd : optDecode s.prevId (s.frame.drop s.cursor) = .error e) :
    execOptGet s = .next { s with status := e.status } := by
  rw [execOptGet, if_neg (Nat.not_lt.mpr hpos), hd]
  rcases optDecode_error hd with rfl | rfl | rfl
  · rfl
  · rfl
  · rfl

theorem execOptGet_of_done (hd : optDecode s.prevId (s.frame.drop s.cursor) = .ok .done) :
    execOptGet s = .next { s with a3 := 1#32, status := .ok } := by
  rw [execOptGet, if_neg (Nat.not_lt.mpr hpos), hd]
  rfl

theorem execOptGet_of_marker {rest : List Byte}
    (hd : optDecode s.prevId (s.frame.drop s.cursor) = .ok (.marker rest)) :
    execOptGet s = .next { s with a3 := 2#32, pos := word (s.flenEff - rest.length), status := .ok } := by
  rw [execOptGet, if_neg (Nat.not_lt.mpr hpos), hd]
  rfl

theorem execOptGet_of_option {id : Word} {val rest : List Byte}
    (hd : optDecode s.prevId (s.frame.drop s.cursor) = .ok (.option id val rest)) :
    execOptGet s = .next { s with
      a3 := 0#32
      a0 := id
      a1 := word (s.flenEff - rest.length - val.length)
      a2 := word val.length
      prevId := id
      pos := word (s.flenEff - rest.length)
      status := .ok } := by
  rw [execOptGet, if_neg (Nat.not_lt.mpr hpos), hd]
  rfl

end OptGet

/-- Settles O28: one outcome for a cursor past the frame, and one for each answer of `opt_decode`. -/
theorem optionGetRule : Obligations.OptionGetRule := by
  refine ⟨decodeOpcode_opcodeOf .optGet, fun s => ⟨execOptGet_of_badOperand, ?_⟩⟩
  rintro hpos input rfl
  rw [← State.frame_drop]
  exact ⟨fun e => execOptGet_of_error hpos, execOptGet_of_done hpos, fun rest => execOptGet_of_marker hpos,
    fun id val rest => execOptGet_of_option hpos⟩

/-! ### The option table check and OPTS.SIZE -/

/-- KIND 0 to 2 are the kinds whose value is in VBUF. -/
theorem State.entryOk_iff (s : State) (x : OptEntry) :
    s.entryOk x = true ↔
      x.kind.toNat ≤ 4 ∧ (x.kind.toNat ∈ [0, 1, 2] → x.voff.toNat + x.vlen.toNat ≤ s.bufBytes.toNat) := by
  simp only [State.entryOk, Bool.and_eq_true, Bool.or_eq_true, decide_eq_true_eq, List.mem_cons, List.not_mem_nil,
    or_false]
  omega

theorem State.forall_mem_options (s : State) (P : OptEntry → Prop) :
    (∀ x ∈ s.options, P x) ↔ ∀ i < s.optCnt.toNat, P (s.opt.get i) := by
  have entry : ∀ i x, s.options[i]? = some x ↔ i < s.optCnt.toNat ∧ s.opt.get i = x := fun i x => by
    rw [State.options, OptTable.read_getElem?, Nat.zero_add, Option.ite_none_right_eq_some, Option.some.injEq]
  simp only [List.mem_iff_getElem?, entry]
  exact ⟨fun h i hi => h _ ⟨i, hi, rfl⟩, fun h x ⟨i, hi, hx⟩ => hx ▸ h i hi⟩

theorem State.optTableOk_iff (s : State) :
    s.optTableOk = true ↔ s.optCnt.toNat ≤ s.optCap.toNat ∧ (∀ i < s.optCnt.toNat, (s.opt.get i).kind.toNat ≤ 4) ∧
      ∀ i < s.optCnt.toNat, (s.opt.get i).kind.toNat ∈ [0, 1, 2] →
        (s.opt.get i).voff.toNat + (s.opt.get i).vlen.toNat ≤ s.bufBytes.toNat := by
  rw [State.optTableOk, Bool.and_eq_true, decide_eq_true_eq, List.all_eq_true, State.forall_mem_options,
    ← forall₂_and]
  simp only [State.entryOk_iff]

theorem execOptsSize_of_error (h : s.checkedOptions = .error e) : execOptsSize s = .next (s.takeException e) := by
  rw [execOptsSize, h, complete_error]

theorem execOptsSize_of_ok (hok : s.optTableOk = true) (hr : optsRepresentable 0#32 s.wireOptions = true) :
    execOptsSize s = .next { s with a0 := word (optsSize 0#32 s.wireOptions), status := .ok } := by
  rw [execOptsSize, State.checkedOptions_of_ok hok hr, complete_ok]

/-- Settles O29: the check entry by entry, and the three ends of OPTS.SIZE. -/
theorem optionTableSizeRule : Obligations.OptionTableSizeRule :=
  ⟨decodeOpcode_opcodeOf .optsSize, fun s => ⟨s.optTableOk_iff,
    fun hok => execOptsSize_of_error (State.checkedOptions_of_not_ok hok),
    fun hok hr => execOptsSize_of_error (State.checkedOptions_of_not_representable hok hr), execOptsSize_of_ok⟩⟩

/-! ### OPTS.ENC -/

theorem execOptsEnc_of_error (h : s.checkedOptions = .error e) : execOptsEnc s = .next (s.takeException e) := by
  rw [execOptsEnc, h, complete_error]

theorem execOptsEnc_of_room (hw : s.params.wellFormed) (hok : s.optTableOk = true)
    (hr : optsRepresentable 0#32 s.wireOptions = true)
    (hroom : s.cursor + optsSize 0#32 s.wireOptions ≤ s.ocapEff) :
    execOptsEnc s = .next { s with
      fbuf := s.fbuf.write s.cursor (optsEncode 0#32 s.wireOptions)
      a0 := word (optsSize 0#32 s.wireOptions)
      prevId := lastId s.wireOptions
      pos := word (s.cursor + optsSize 0#32 s.wireOptions)
      flen := word (max s.flen.toNat (s.cursor + optsSize 0#32 s.wireOptions))
      reqSize := word (s.cursor + optsSize 0#32 s.wireOptions)
      status := .ok } := by
  have hlt := State.lt_of_le_ocapEff hw hroom
  rw [execOptsEnc, State.checkedOptions_of_ok hok hr]
  dsimp only
  rw [roomFor_of_le hroom, State.putAtCursor_of_lt s _ (by rwa [optsEncode_length]), optsEncode_length]
  rfl

/-- Settles O30: the two checks of the table, then the room. -/
theorem optionTableEncodeRule : Obligations.OptionTableEncodeRule := by
  refine ⟨decodeOpcode_opcodeOf .optsEnc, fun s hw =>
    ⟨fun hok => execOptsEnc_of_error (State.checkedOptions_of_not_ok hok),
      fun hok hr => execOptsEnc_of_error (State.checkedOptions_of_not_representable hok hr), ?_⟩⟩
  rintro hok hr sz rfl
  exact ⟨optsEncode_length 0#32 s.wireOptions, execOptsEnc_of_room hw hok hr, fun hroom hlt =>
    (execOptsEnc_noRoom hok hr hroom).trans (congrArg _ (State.takeException_tooSmall s hlt))⟩

/-! ### OPTS.DEC -/

theorem execOptsDec_of_badOperand (h : s.flenEff < s.cursor) :
    execOptsDec s = .next { s with status := .errBadOperand } := by
  rw [execOptsDec, if_pos h]
  rfl

theorem execOptsDec_of_error (hpos : s.cursor ≤ s.flenEff)
    (hd : optsDecode s.optCap.toNat (s.frame.drop s.cursor) = .error e) :
    execOptsDec s = .next { s with status := e.status } := by
  rw [execOptsDec, if_neg (Nat.not_lt.mpr hpos), hd]
  rcases optsDecode_error hd with rfl | rfl | rfl | rfl
  · rfl
  · rfl
  · rfl
  · rfl

theorem execOptsDec_of_ok (hpos : s.cursor ≤ s.flenEff) {p : Parsed}
    (hd : optsDecode s.optCap.toNat (s.frame.drop s.cursor) = .ok p) :
    execOptsDec s = .next { s with
      opt := s.opt.write 0 (storedEntries 0 p.stored)
      vbuf := s.vbuf.write 0 (storedBytes p.stored)
      optCnt := word p.stored.length
      a3 := p.stop.code
      prevId := p.last
      pos := word (s.flenEff - p.rest.length)
      status := .ok } := by
  rw [execOptsDec, if_neg (Nat.not_lt.mpr hpos), hd]
  rfl

/-- Settles O31: one outcome for a cursor past the frame, and one for each answer of `opts_decode`. -/
theorem optionTableDecodeRule : Obligations.OptionTableDecodeRule := by
  refine ⟨decodeOpcode_opcodeOf .optsDec, fun s => ⟨execOptsDec_of_badOperand, ?_⟩⟩
  rintro hpos input rfl
  rw [← State.frame_drop]
  exact ⟨fun e => execOptsDec_of_error hpos, fun p => execOptsDec_of_ok hpos⟩

end Sys2Proof.Machine

/-! PROOFS. MSG.RESET and the message headers (45_message_headers.md R240 to R252): each header as numbers, packed and
loaded, and the next state of each outcome. -/

namespace Sys2Proof.Machine

variable {s : State}

/-- Settles O32: MSG.RESET checks nothing, so it ends one way. -/
theorem messageResetRule : Obligations.MessageResetRule := ⟨decodeOpcode_opcodeOf .msgReset, fun _ => rfl⟩

/-! ### The bytes of a header as numbers -/

theorem eq_ofNat_of_toNat {w n : Nat} {v : BitVec w} (h : v.toNat = n) : v = BitVec.ofNat w n := by
  rw [← h, BitVec.ofNat_toNat, BitVec.setWidth_eq]

theorem hiByte_eq_ofNat (v : Half) : hiByte v = BitVec.ofNat 8 (v.toNat / 256) :=
  eq_ofNat_of_toNat (hiByte_toNat v)

theorem loByte_eq_ofNat (v : Half) : loByte v = BitVec.ofNat 8 (v.toNat % 256) :=
  eq_ofNat_of_toNat (loByte_toNat v)

theorem hiByte_setWidth {v : Word} (h : validateMid v.toInt) :
    hiByte (v.setWidth 16) = BitVec.ofNat 8 (v.toNat / 256) := by
  rw [hiByte_eq_ofNat, setWidth_toNat_of_lt (validateMid_lt h)]

theorem loByte_setWidth {v : Word} (h : validateMid v.toInt) :
    loByte (v.setWidth 16) = BitVec.ofNat 8 (v.toNat % 256) := by
  rw [loByte_eq_ofNat, setWidth_toNat_of_lt (validateMid_lt h)]

/-- Byte 1 of a V0 or V2 header. -/
theorem eidEtp_eq_ofNat {eid etp : Word} (heid : validateEid eid.toInt) (hetp : validateEtp etp.toInt) :
    (eid.setWidth 4 ++ etp.setWidth 4 : Byte) = BitVec.ofNat 8 (eid.toNat * 16 + etp.toNat) := by
  apply eq_ofNat_of_toNat
  rw [nibbles_toNat, setWidth_toNat_of_lt (validateEid_lt heid), setWidth_toNat_of_lt (validateEtp_lt hetp)]

theorem State.typeOk_toNat (h : s.typeOk) : (s.mType.setWidth 2).toNat = s.mType.toNat :=
  setWidth_toNat_of_lt (State.typeOk_lt h)

theorem State.hdr0_eq (h : s.fieldsOk0) (crc : Half) :
    s.hdr0 crc = [BitVec.ofNat 8 s.mType.toNat, BitVec.ofNat 8 (s.mEid.toNat * 16 + s.mEtp.toNat),
      BitVec.ofNat 8 (crc.toNat % 256), BitVec.ofNat 8 (crc.toNat / 256)] := by
  obtain ⟨htype, heid, hetp⟩ := h
  have hbyte0 : (0b00#2 ++ 0b0000#4 ++ s.mType.setWidth 2 : Byte) = BitVec.ofNat 8 s.mType.toNat := by
    apply eq_ofNat_of_toNat
    rw [byte242_toNat, State.typeOk_toNat htype]
    simp
  rw [State.hdr0, hdr0Bytes, hbyte0, eidEtp_eq_ofNat heid hetp, crcLe, loByte_eq_ofNat, hiByte_eq_ofNat]
  rfl

theorem State.hdr1_eq (h : s.fieldsOk1) :
    s.hdr1 = [BitVec.ofNat 8 (64 + s.mType.toNat * 16 + s.mTkl.toNat), s.mCode,
      BitVec.ofNat 8 (s.mMid.toNat / 256), BitVec.ofNat 8 (s.mMid.toNat % 256)] := by
  obtain ⟨hmid, htype⟩ := h
  have hbyte0 : (0b01#2 ++ s.mType.setWidth 2 ++ s.mTkl : Byte) =
      BitVec.ofNat 8 (64 + s.mType.toNat * 16 + s.mTkl.toNat) := by
    apply eq_ofNat_of_toNat
    rw [byte224_toNat, State.typeOk_toNat htype]
    rfl
  rw [State.hdr1, hdr1Bytes, hbyte0, hiByte_setWidth hmid, loByte_setWidth hmid]

theorem State.hdr2_eq (h : s.fieldsOk2) (crc : Half) :
    s.hdr2 crc = [BitVec.ofNat 8 (128 + s.mTkl.toNat * 4 + s.mType.toNat),
      BitVec.ofNat 8 (s.mEid.toNat * 16 + s.mEtp.toNat),
      BitVec.ofNat 8 (crc.toNat / 256), BitVec.ofNat 8 (crc.toNat % 256),
      BitVec.ofNat 8 (s.mMid.toNat / 256), BitVec.ofNat 8 (s.mMid.toNat % 256), s.mCode, 0#8] := by
  obtain ⟨hmid, htype, heid, hetp⟩ := h
  have hbyte0 : (0b10#2 ++ s.mTkl ++ s.mType.setWidth 2 : Byte) =
      BitVec.ofNat 8 (128 + s.mTkl.toNat * 4 + s.mType.toNat) := by
    apply eq_ofNat_of_toNat
    rw [byte242_toNat, State.typeOk_toNat htype]
    rfl
  rw [State.hdr2, hdr2Bytes, hbyte0, eidEtp_eq_ofNat heid hetp, crcBe, hiByte_eq_ofNat, loByte_eq_ofNat,
    hiByte_setWidth hmid, loByte_setWidth hmid]
  rfl

/-! ### The fields of a header as register values -/

theorem be16_eq_ofNat (b0 b1 : Byte) : be16 b0 b1 = BitVec.ofNat 16 (b0.toNat * 256 + b1.toNat) :=
  eq_ofNat_of_toNat (be16_toNat b0 b1)

theorem zext_be16 (b0 b1 : Byte) : zext (be16 b0 b1) = word (b0.toNat * 256 + b1.toNat) := by
  rw [zext_eq_word, be16_toNat]

theorem zext_hiNibble (b : Byte) : zext (hiNibble b) = word (b.toNat / 16) := by rw [zext_eq_word, hiNibble_toNat]

theorem zext_loNibble (b : Byte) : zext (loNibble b) = word (b.toNat % 16) := by rw [zext_eq_word, loNibble_toNat]

/-- M_TYPE from the low end of byte 0 (V0 and V2). -/
theorem zext_lowType (b : Byte) : zext (b.extractLsb' 0 2) = word (b.toNat % 4) := by
  rw [zext_extract, pow_zero, Nat.div_one]
  rfl

theorem State.loadHdr0_frame (s : State) :
    s.loadHdr0 (hdr0Parse (s.memRead .fbuf 0 4)) = { s with
      mVer := 0#32
      mType := word ((s.fbuf.get 0).toNat % 4)
      mEid := word ((s.fbuf.get 1).toNat / 16)
      mEtp := word ((s.fbuf.get 1).toNat % 16)
      mCrc16 := BitVec.ofNat 16 ((s.fbuf.get 3).toNat * 256 + (s.fbuf.get 2).toNat) } := by
  rw [← zext_lowType, ← zext_hiNibble, ← zext_loNibble, ← be16_eq_ofNat]
  rfl

theorem State.loadHdr1_frame (s : State) :
    s.loadHdr1 (hdr1Parse (s.memRead .fbuf 0 4)) = { s with
      mVer := 1#32
      mType := word ((s.fbuf.get 0).toNat / 16 % 4)
      mTkl := BitVec.ofNat 4 ((s.fbuf.get 0).toNat % 16)
      mCode := s.fbuf.get 1
      mMid := word ((s.fbuf.get 2).toNat * 256 + (s.fbuf.get 3).toNat) } := by
  have htype : zext ((s.fbuf.get 0).extractLsb' 4 2) = word ((s.fbuf.get 0).toNat / 16 % 4) := zext_extract _ 4 2
  rw [← htype, ← eq_ofNat_of_toNat (loNibble_toNat (s.fbuf.get 0)), ← zext_be16]
  rfl

theorem hdr1Parse_tkl_toNat (s : State) :
    (hdr1Parse (s.memRead .fbuf 0 4)).tkl.toNat = (s.fbuf.get 0).toNat % 16 := loNibble_toNat (s.fbuf.get 0)

theorem hdr2Parse_tkl_toNat (s : State) :
    (hdr2Parse (s.memRead .fbuf 0 8)).tkl.toNat = (s.fbuf.get 0).toNat / 4 % 16 := by
  rw [← Nat.shiftRight_eq_div_pow _ 2]
  exact BitVec.extractLsb'_toNat 2 4 (s.fbuf.get 0)

theorem State.loadHdr2_frame (s : State) :
    s.loadHdr2 (hdr2Parse (s.memRead .fbuf 0 8)) = { s with
      mVer := 2#32
      mTkl := BitVec.ofNat 4 ((s.fbuf.get 0).toNat / 4 % 16)
      mType := word ((s.fbuf.get 0).toNat % 4)
      mEid := word ((s.fbuf.get 1).toNat / 16)
      mEtp := word ((s.fbuf.get 1).toNat % 16)
      mCrc16 := BitVec.ofNat 16 ((s.fbuf.get 2).toNat * 256 + (s.fbuf.get 3).toNat)
      mMid := word ((s.fbuf.get 4).toNat * 256 + (s.fbuf.get 5).toNat)
      mCode := s.fbuf.get 6
      mRsum8 := s.fbuf.get 7 } := by
  rw [← eq_ofNat_of_toNat (hdr2Parse_tkl_toNat s), ← zext_lowType, ← zext_hiNibble, ← zext_loNibble,
    ← be16_eq_ofNat, ← zext_be16]
  rfl

/-! ### The checks of a header command, one after another -/

/-- A check that fails ends the command; no check but the one for room records a size. -/
theorem complete_check_fails {p : Prop} [Decidable p] (h : p) (e : Raise) (r : Except Raise State) :
    complete s (if p then .error e else r) = .next (s.takeException e) := by
  rw [if_pos h, complete_error]

/-- A check that passes leaves the command to the rest of its rule. -/
theorem complete_check_passes {p : Prop} [Decidable p] (h : ¬ p) (e : Raise) (r : Except Raise State) :
    complete s (if p then .error e else r) = complete s r := by
  rw [if_neg h]

theorem complete_header_noRoom {n : Nat} (hn : n < 2 ^ 32) (hroom : s.ocapEff < n) (r : Except Raise State) :
    complete s (if s.ocapEff < n then .error (.tooSmall n) else r) =
      .next { s with status := .errTooSmall, reqSize := word n } := by
  rw [complete_check_fails hroom, State.takeException_tooSmall s hn]

theorem complete_header_room {n : Nat} {hdr : List Byte} (hlen : hdr.length = n) (hn : n < 2 ^ 32)
    (hroom : n ≤ s.ocapEff) :
    complete s (if s.ocapEff < n then .error (.tooSmall n) else .ok (s.packHeader hdr)) =
      .next { s with
        fbuf := s.fbuf.write 0 hdr
        pos := word n
        flen := word (max s.flen.toNat n)
        reqSize := word n
        status := .ok } := by
  subst hlen
  rw [complete_check_passes (Nat.not_lt.mpr hroom), State.packHeader_of_lt s hdr hn, complete_ok]

/-- The checks of a V1 or V2 packer before the one for room. -/
theorem complete_fields_and_tokenLen {p : Prop} [Decidable p] (hf : p) (htkl : s.mTkl.toNat ≤ 8)
    (r : Except Raise State) :
    complete s (if ¬ p then .error .invalidField
      else if s.mTkl.toNat > 8 then .error .invalidTokenLen else r) = complete s r := by
  rw [complete_check_passes (not_not_intro hf), complete_check_passes (Nat.not_lt.mpr htkl)]

section Unpack

variable {n : Nat} {v : BitVec 2} {r : Except Raise State}

theorem complete_version_wrong (hlen : n ≤ s.flenEff) (hver : (s.fbuf.get 0).toNat / 64 ≠ v.toNat) :
    complete s (if s.flenEff < n then .error .messageTruncated
      else if versionBits (s.fbuf.get 0) ≠ v then .error .messageInvalidVersion else r) =
        .next { s with status := .errMessageInvalidVersion } := by
  rw [complete_check_passes (Nat.not_lt.mpr hlen), complete_check_fails (mt (versionBits_eq_iff _ v).mp hver)]
  rfl

theorem complete_version_right (hlen : n ≤ s.flenEff) (hver : (s.fbuf.get 0).toNat / 64 = v.toNat) :
    complete s (if s.flenEff < n then .error .messageTruncated
      else if versionBits (s.fbuf.get 0) ≠ v then .error .messageInvalidVersion else r) = complete s r := by
  rw [complete_check_passes (Nat.not_lt.mpr hlen),
    complete_check_passes (not_not_intro ((versionBits_eq_iff _ v).mpr hver))]

end Unpack

/-! ### The headers -/

/-- Settles O33: packing checks the fields and then the room, unpacking the length and then the version. -/
theorem headerV0Rules : Obligations.HeaderV0Rules := by
  refine ⟨decodeOpcode_opcodeOf .hdr0Pack, decodeOpcode_opcodeOf .hdr0Unpack, fun s =>
    ⟨fun hf => complete_check_fails hf _ _, fun hf hroom => ?noRoom, fun hf hroom => ?packed,
      fun hlen => complete_check_fails hlen _ _, fun hlen hver => complete_version_wrong (v := 0b00#2) hlen hver,
      fun hlen hver => ?loaded⟩⟩
  case noRoom =>
    exact (complete_check_passes (not_not_intro hf) _ _).trans (complete_header_noRoom (by decide) hroom _)
  case packed =>
    rw [← State.hdr0_eq hf]
    exact (complete_check_passes (not_not_intro hf) _ _).trans
      (complete_header_room (s.hdr0_length s.mCrc16) (by decide) hroom)
  case loaded =>
    refine (complete_version_right (v := 0b00#2) hlen hver).trans ?_
    rw [complete_ok, State.loadHdr0_frame]

/-- Settles O34: packing checks the fields, M_TKL and then the room, unpacking the length, the version and then TKL. -/
theorem headerV1Rules : Obligations.HeaderV1Rules := by
  refine ⟨decodeOpcode_opcodeOf .hdr1Pack, decodeOpcode_opcodeOf .hdr1Unpack, fun s =>
    ⟨fun hf => complete_check_fails hf _ _, fun hf htkl => ?tokenLen, fun hf htkl hroom => ?noRoom,
      fun hf htkl hroom => ?packed, fun hlen => complete_check_fails hlen _ _,
      fun hlen hver => complete_version_wrong (v := 0b01#2) hlen hver, fun hlen hver htkl => ?headerTokenLen,
      fun hlen hver htkl => ?loaded⟩⟩
  case tokenLen => exact (complete_check_passes (not_not_intro hf) _ _).trans (complete_check_fails htkl _ _)
  case noRoom => exact (complete_fields_and_tokenLen hf htkl _).trans (complete_header_noRoom (by decide) hroom _)
  case packed =>
    rw [← State.hdr1_eq hf]
    exact (complete_fields_and_tokenLen hf htkl _).trans (complete_header_room s.hdr1_length (by decide) hroom)
  case headerTokenLen =>
    rw [← hdr1Parse_tkl_toNat] at htkl
    exact (complete_version_right (v := 0b01#2) hlen hver).trans (complete_check_fails htkl _ _)
  case loaded =>
    rw [← hdr1Parse_tkl_toNat] at htkl
    refine (complete_version_right (v := 0b01#2) hlen hver).trans
      ((complete_check_passes (Nat.not_lt.mpr htkl) _ _).trans ?_)
    rw [complete_ok, State.loadHdr1_frame]

/-- Settles O35: the checks are those of V1, on the eight bytes of a V2 header. -/
theorem headerV2Rules : Obligations.HeaderV2Rules := by
  refine ⟨decodeOpcode_opcodeOf .hdr2Pack, decodeOpcode_opcodeOf .hdr2Unpack, fun s =>
    ⟨fun hf => complete_check_fails hf _ _, fun hf htkl => ?tokenLen, fun hf htkl hroom => ?noRoom,
      fun hf htkl hroom => ?packed, fun hlen => complete_check_fails hlen _ _,
      fun hlen hver => complete_version_wrong (v := 0b10#2) hlen hver, fun hlen hver htkl => ?headerTokenLen,
      fun hlen hver htkl => ?loaded⟩⟩
  case tokenLen => exact (complete_check_passes (not_not_intro hf) _ _).trans (complete_check_fails htkl _ _)
  case noRoom => exact (complete_fields_and_tokenLen hf htkl _).trans (complete_header_noRoom (by decide) hroom _)
  case packed =>
    rw [← State.hdr2_eq hf]
    exact (complete_fields_and_tokenLen hf htkl _).trans
      (complete_header_room (s.hdr2_length s.mCrc16) (by decide) hroom)
  case headerTokenLen =>
    rw [← hdr2Parse_tkl_toNat] at htkl
    exact (complete_version_right (v := 0b10#2) hlen hver).trans (complete_check_fails htkl _ _)
  case loaded =>
    rw [← hdr2Parse_tkl_toNat] at htkl
    refine (complete_version_right (v := 0b10#2) hlen hver).trans
      ((complete_check_passes (Nat.not_lt.mpr htkl) _ _).trans ?_)
    rw [complete_ok, State.loadHdr2_frame]

end Sys2Proof.Machine

/-! PROOFS. The SIZE and ENC commands (46_frames.md R272 to R289): the checks and the size of a frame of each version,
said once for the three versions, and what the command does when the checks pass. -/

namespace Sys2Proof.Machine

variable {s t : State} {v : Version} {e : Raise}

/-! ### The encoder of each version -/

/-- ENC.Vn (46_frames.md R273, R279, R285). -/
def Version.encoder : Version → Instr
  | .v0 => .encV0
  | .v1 => .encV1
  | .v2 => .encV2

/-- SIZE.Vn (46_frames.md R272, R278, R284). -/
def Version.sizer : Version → Instr
  | .v0 => .sizeV0
  | .v1 => .sizeV1
  | .v2 => .sizeV2

/-- The option table passes the two checks of 46_frames.md R276. -/
abbrev State.optionsOk (s : State) : Prop :=
  s.optTableOk = true ∧ optsRepresentable 0#32 s.wireOptions = true

/-- ENC.Vn passes every check before the one for room (46_frames.md R273, R276). -/
def State.encodable (s : State) : Version → Prop
  | .v0 => s.fieldsOk0
  | .v1 => s.fieldsOk1 ∧ s.mTkl.toNat ≤ 8 ∧ s.optionsOk
  | .v2 => s.fieldsOk2 ∧ s.mTkl.toNat ≤ 8 ∧ s.optionsOk

/-- The frame ENC.Vn writes. -/
def State.wireFrame (s : State) : Version → List Byte
  | .v0 => s.frameV0
  | .v1 => s.frameV1 s.wireOptions
  | .v2 => s.frameV2 s.wireOptions

/-- The checksum registers as ENC.Vn leaves them. -/
def State.withChecksums (s : State) : Version → State
  | .v0 => { s with mCrc16 := crc16 s.payload }
  | .v1 => s
  | .v2 => { s with mCrc16 := crc16 s.payload, mRsum8 := rsum8 (s.layoutV2 s.wireOptions) }

/-- The state ENC.Vn leaves when it ends OK. -/
def State.encoded (s : State) (v : Version) : State :=
  { s.withChecksums v with
    fbuf := s.fbuf.write 0 (s.wireFrame v)
    flen := word (requiredEnd v.encoder s)
    pos := word (requiredEnd v.encoder s)
    reqSize := word (requiredEnd v.encoder s)
    status := .ok }

/-- The state ENC.V2 leaves, its frame as the layout with byte 7 set (46_frames.md R283). -/
theorem State.encoded_v2 (s : State) :
    s.encoded .v2 = { s with
      fbuf := s.fbuf.write 0 ((s.layoutV2 s.wireOptions).set 7 (rsum8 (s.layoutV2 s.wireOptions)))
      mCrc16 := crc16 s.payload
      mRsum8 := rsum8 (s.layoutV2 s.wireOptions)
      flen := word (requiredEnd .encV2 s)
      pos := word (requiredEnd .encV2 s)
      reqSize := word (requiredEnd .encV2 s)
      status := .ok } := rfl

@[simp] theorem State.wireFrame_length (s : State) (v : Version) :
    (s.wireFrame v).length = requiredEnd v.encoder s := by
  cases v with
  | v0 => exact s.frameV0_length
  | v1 => exact s.frameV1_length _
  | v2 => exact s.frameV2_length _

/-- Every frame size fits a register. -/
theorem requiredEnd_encoder_lt (hw : s.params.wellFormed) (hc : s.encodable v) :
    requiredEnd v.encoder s < 2 ^ 32 := by
  cases v with
  | v0 => exact State.sizeV0_lt hw
  | v1 =>
    obtain ⟨-, -, hok, hr⟩ := hc
    exact State.headerAndBody_lt hw hok hr (h := 4) (by decide)
  | v2 =>
    obtain ⟨-, -, hok, hr⟩ := hc
    exact State.headerAndBody_lt hw hok hr (h := 8) le_rfl

/-- Once the other checks pass, the room decides. -/
theorem exec_encoder_of_encodable (hc : s.encodable v) :
    exec v.encoder s = complete s ((roomFor s (requiredEnd v.encoder s)).map fun _ =>
      (s.withChecksums v).emitFrame (requiredEnd v.encoder s) (s.wireFrame v)) := by
  cases v with
  | v0 =>
    replace hc : s.fieldsOk0 := hc
    refine (complete_check_passes (not_not_intro hc) _ _).trans ?_
    change _ = complete s ((roomFor s (4 + s.plenEff)).map _)
    cases roomFor s (4 + s.plenEff) <;> rfl
  | v1 =>
    obtain ⟨hf, htkl, hok, hr⟩ := hc
    refine (complete_fields_and_tokenLen hf htkl _).trans ?_
    rw [State.checkedOptions_of_ok hok hr]
    dsimp only
    change _ = complete s ((roomFor s (4 + bodySize s.mTkl.toNat s.wireOptions s.plenEff)).map _)
    cases roomFor s (4 + bodySize s.mTkl.toNat s.wireOptions s.plenEff) <;> rfl
  | v2 =>
    obtain ⟨hf, htkl, hok, hr⟩ := hc
    refine (complete_fields_and_tokenLen hf htkl _).trans ?_
    rw [State.checkedOptions_of_ok hok hr]
    dsimp only
    change _ = complete s ((roomFor s (8 + bodySize s.mTkl.toNat s.wireOptions s.plenEff)).map _)
    cases roomFor s (8 + bodySize s.mTkl.toNat s.wireOptions s.plenEff) <;> rfl

theorem exec_encoder_of_room (hw : s.params.wellFormed) (hc : s.encodable v)
    (hroom : requiredEnd v.encoder s ≤ s.ocapEff) : exec v.encoder s = .next (s.encoded v) := by
  rw [exec_encoder_of_encodable hc, roomFor_of_le hroom]
  change complete s (.ok _) = _
  rw [State.emitFrame_of_lt _ _ _ (requiredEnd_encoder_lt hw hc), complete_ok]
  cases v <;> rfl

theorem exec_encoder_noRoom (hw : s.params.wellFormed) (hc : s.encodable v)
    (hroom : s.ocapEff < requiredEnd v.encoder s) :
    exec v.encoder s =
      .next { s with status := .errTooSmall, reqSize := word (requiredEnd v.encoder s) } := by
  rw [exec_encoder_of_encodable hc, roomFor_of_gt hroom,
    ← State.takeException_tooSmall s (requiredEnd_encoder_lt hw hc)]
  rfl

/-- An encoder that ended OK passed its checks and had room. -/
theorem exec_encoder_ok (hw : s.params.wellFormed) (h : exec v.encoder s = .next t) (hok : t.status = .ok) :
    s.encodable v ∧ requiredEnd v.encoder s ≤ s.ocapEff ∧ t = s.encoded v := by
  have hpass : s.encodable v ∧ requiredEnd v.encoder s ≤ s.ocapEff := by
    cases v with
    | v0 =>
      obtain ⟨hf, hroom, -⟩ | ht | ht := execEncV0_cases h
      · exact ⟨hf, hroom⟩
      · exact absurd hok ht.status_ne_ok
      · exact absurd hok ht.status_ne_ok
    | v1 =>
      obtain ⟨hf, htkl, htab, hr, hroom, -⟩ | ht | ⟨-, -, ht⟩ := execEncV1_cases h
      · exact ⟨⟨hf, htkl, htab, hr⟩, hroom⟩
      · exact absurd hok ht.status_ne_ok
      · exact absurd hok ht.status_ne_ok
    | v2 =>
      obtain ⟨hf, htkl, htab, hr, hroom, -⟩ | ht | ⟨-, -, ht⟩ := execEncV2_cases h
      · exact ⟨⟨hf, htkl, htab, hr⟩, hroom⟩
      · exact absurd hok ht.status_ne_ok
      · exact absurd hok ht.status_ne_ok
  obtain ⟨hc, hroom⟩ := hpass
  exact ⟨hc, hroom, next_inj (h.symm.trans (exec_encoder_of_room hw hc hroom))⟩

/-! ### The SIZE commands -/

theorem execSizeV0_eq (hw : s.params.wellFormed) :
    execSizeV0 s = .next { s with reqSize := word (4 + s.plenEff), status := .ok } := by
  rw [execSizeV0, State.recordSize_of_lt s (State.sizeV0_lt hw), complete_ok]

/-- SIZE.V1 and SIZE.V2 differ in the length of the header. -/
theorem exec_sizer_eq {r : Instr × Nat} (hr : r ∈ [(Instr.sizeV1, 4), (.sizeV2, 8)]) (s : State) :
    exec r.1 s = complete s (s.checkedOptions.map fun l => s.recordSize (r.2 + bodySize s.mTkl.toNat l s.plenEff)) := by
  have hside : r = (.sizeV1, 4) ∨ r = (.sizeV2, 8) := by simpa using hr
  obtain rfl | rfl := hside
  · change execSizeV1 s = _
    rw [execSizeV1]
    cases s.checkedOptions <;> rfl
  · change execSizeV2 s = _
    rw [execSizeV2]
    cases s.checkedOptions <;> rfl

theorem exec_sizer_of_error {r : Instr × Nat} (hr : r ∈ [(Instr.sizeV1, 4), (.sizeV2, 8)])
    (h : s.checkedOptions = .error e) : exec r.1 s = .next (s.takeException e) := by
  rw [exec_sizer_eq hr, h]
  rfl

theorem exec_sizer_of_ok {r : Instr × Nat} (hr : r ∈ [(Instr.sizeV1, 4), (.sizeV2, 8)]) (hw : s.params.wellFormed)
    (h : s.optionsOk) :
    r.2 + bodySize s.mTkl.toNat s.wireOptions s.plenEff < 2 ^ 32 ∧
      exec r.1 s = .next { s with
        reqSize := word (r.2 + bodySize s.mTkl.toNat s.wireOptions s.plenEff)
        status := .ok } := by
  obtain ⟨hok, hrep⟩ := h
  have h8 : r.2 ≤ 8 := by
    revert r
    decide
  have hlt := State.headerAndBody_lt hw hok hrep h8
  refine ⟨hlt, ?_⟩
  rw [exec_sizer_eq hr, State.checkedOptions_of_ok hok hrep]
  change complete s (.ok (s.recordSize (r.2 + bodySize s.mTkl.toNat s.wireOptions s.plenEff))) = _
  rw [State.recordSize_of_lt s hlt, complete_ok]

/-- Settles O36: SIZE.V0 checks nothing, the other two check the option table. -/
theorem sizeRules : Obligations.SizeRules := by
  refine ⟨decodeOpcode_opcodeOf .sizeV0, decodeOpcode_opcodeOf .sizeV1, decodeOpcode_opcodeOf .sizeV2,
    fun _ => execSizeV0_eq, fun r hr s hw => ⟨fun hok => exec_sizer_of_error hr (State.checkedOptions_of_not_ok hok),
      fun hok hrep => exec_sizer_of_error hr (State.checkedOptions_of_not_representable hok hrep), ?_⟩⟩
  rintro hok hrep size rfl
  exact exec_sizer_of_ok hr hw ⟨hok, hrep⟩

/-- SIZE.Vn reports the size ENC.Vn needs. -/
theorem exec_sizer_of_encodable (hw : s.params.wellFormed) (hc : s.encodable v) :
    exec v.sizer s = .next { s with reqSize := word (requiredEnd v.encoder s), status := .ok } := by
  cases v with
  | v0 => exact execSizeV0_eq hw
  | v1 =>
    obtain ⟨-, -, hopts⟩ := hc
    obtain ⟨-, hsize⟩ := exec_sizer_of_ok (r := (.sizeV1, 4)) (by decide) hw hopts
    exact hsize
  | v2 =>
    obtain ⟨-, -, hopts⟩ := hc
    obtain ⟨-, hsize⟩ := exec_sizer_of_ok (r := (.sizeV2, 8)) (by decide) hw hopts
    exact hsize

/-! ### The ENC commands -/

/-- Settles O37: the fields, then the room. -/
theorem encodeV0Rule : Obligations.EncodeV0Rule := by
  refine ⟨decodeOpcode_opcodeOf .encV0, ?_⟩
  rintro s hw pay rfl
  refine ⟨fun hf => complete_check_fails hf _ _, fun hf hroom => exec_encoder_noRoom (v := .v0) hw hf hroom,
    fun hf hroom => ?_⟩
  rw [← State.hdr0_eq hf]
  exact exec_encoder_of_room (v := .v0) hw hf hroom

theorem execEncV1_of_tableError (hf : s.fieldsOk1) (htkl : s.mTkl.toNat ≤ 8) (h : s.checkedOptions = .error e) :
    execEncV1 s = .next (s.takeException e) := by
  refine (complete_fields_and_tokenLen hf htkl _).trans ?_
  rw [h, complete_error]

theorem execEncV2_of_tableError (hf : s.fieldsOk2) (htkl : s.mTkl.toNat ≤ 8) (h : s.checkedOptions = .error e) :
    execEncV2 s = .next (s.takeException e) := by
  refine (complete_fields_and_tokenLen hf htkl _).trans ?_
  rw [h, complete_error]

/-- Settles O39: the fields, M_TKL, the two checks of the option table, then the room. -/
theorem encodeV1Rule : Obligations.EncodeV1Rule := by
  refine ⟨decodeOpcode_opcodeOf .encV1, ?_⟩
  rintro s hw pay rfl
  refine ⟨fun hf => complete_check_fails hf _ _, fun hf htkl => ?tokenLen,
    fun hf htkl hok => execEncV1_of_tableError hf htkl (State.checkedOptions_of_not_ok hok),
    fun hf htkl hok hr => execEncV1_of_tableError hf htkl (State.checkedOptions_of_not_representable hok hr), ?sized⟩
  case tokenLen => exact (complete_check_passes (not_not_intro hf) _ _).trans (complete_check_fails htkl _ _)
  case sized =>
    rintro hf htkl hok hr size rfl
    refine ⟨exec_encoder_noRoom (v := .v1) hw ⟨hf, htkl, hok, hr⟩, fun hroom => ?_⟩
    rw [← State.hdr1_eq hf]
    exact exec_encoder_of_room (v := .v1) hw ⟨hf, htkl, hok, hr⟩ hroom

/-- Settles O41: the checks are those of V1; the layout is the frame before byte 7 is set. -/
theorem encodeV2Rule : Obligations.EncodeV2Rule := by
  refine ⟨decodeOpcode_opcodeOf .encV2, ?_⟩
  rintro s hw pay rfl layout hlayout
  refine ⟨fun hf => complete_check_fails hf _ _, fun hf htkl => ?tokenLen,
    fun hf htkl hok => execEncV2_of_tableError hf htkl (State.checkedOptions_of_not_ok hok),
    fun hf htkl hok hr => execEncV2_of_tableError hf htkl (State.checkedOptions_of_not_representable hok hr), ?sized⟩
  case tokenLen => exact (complete_check_passes (not_not_intro hf) _ _).trans (complete_check_fails htkl _ _)
  case sized =>
    rintro hf htkl hok hr size rfl
    refine ⟨exec_encoder_noRoom (v := .v2) hw ⟨hf, htkl, hok, hr⟩, fun hroom => ?_⟩
    rw [← State.hdr2_eq hf] at hlayout
    obtain rfl : layout = s.layoutV2 s.wireOptions := hlayout
    exact (exec_encoder_of_room (v := .v2) hw ⟨hf, htkl, hok, hr⟩ hroom).trans (congrArg _ (State.encoded_v2 s))

/-! ### Probing for the size -/

theorem State.ocapEff_lt_of_ocap_lt {c : Word} {n : Nat} (h : c.toNat < n) : { s with ocap := c }.ocapEff < n :=
  lt_of_le_of_lt (Nat.min_le_left _ _) h

/-- The size probe law for one version (46_frames.md R289): the checks do not look at OCAP. -/
theorem encoder_probe (hi : s.Inv) (h : exec v.encoder s = .next t) (hok : t.status = .ok) :
    (∀ c : Word, c.toNat < t.reqSize.toNat →
      exec v.encoder { s with ocap := c } =
        .next { s with ocap := c, status := .errTooSmall, reqSize := t.reqSize }) ∧
    exec v.sizer s = .next { s with reqSize := t.reqSize, status := .ok } ∧
    exec v.encoder { s with ocap := t.reqSize } = .next { t with ocap := t.reqSize } ∧
    t.flen = t.reqSize ∧ ∀ a, t.reqSize.toNat ≤ a → t.fbuf.get a = s.fbuf.get a := by
  obtain ⟨hw, ⟨hm, -⟩, -⟩ := hi
  obtain ⟨hc, hroom, rfl⟩ := exec_encoder_ok hw h hok
  have hlt := requiredEnd_encoder_lt hw hc
  have hn : (s.encoded v).reqSize.toNat = requiredEnd v.encoder s := word_toNat_of_lt hlt
  have hreq (c : Word) : requiredEnd v.encoder { s with ocap := c } = requiredEnd v.encoder s := by cases v <;> rfl
  have hcan (c : Word) : { s with ocap := c }.encodable v := by cases v <;> exact hc
  refine ⟨fun c hless => ?_, exec_sizer_of_encodable hw hc, ?_, rfl, fun a ha => ?_⟩
  · rw [hn] at hless
    refine (exec_encoder_noRoom (s := { s with ocap := c }) hw (hcan c) ?_).trans ?_
    · rw [hreq]
      exact State.ocapEff_lt_of_ocap_lt hless
    · rw [hreq]
      rfl
  · refine (exec_encoder_of_room (s := { s with ocap := (s.encoded v).reqSize }) hw (hcan _) ?_).trans ?_
    · rw [hreq]
      exact le_min hn.ge (hroom.trans s.ocapEff_le)
    · cases v <;> rfl
  · exact Memory.get_write_outside hm (.inr (by rwa [Nat.zero_add, State.wireFrame_length, ← hn]))

/-- Settles O47: each pair of the list is the encoder and the sizer of one version. -/
theorem sizeProbeLaw : Obligations.SizeProbeLaw := by
  simp only [Obligations.SizeProbeLaw, List.forall_mem_cons]
  exact ⟨fun _ _ => encoder_probe (v := .v0), fun _ _ => encoder_probe (v := .v1),
    fun _ _ => encoder_probe (v := .v2), List.forall_mem_nil _⟩

end Sys2Proof.Machine

/-! PROOFS. The DEC commands (46_frames.md R271 to R288): the next state of each outcome, in the order of the checks. -/

namespace Sys2Proof.Machine

variable {s : State} {e : Raise} {n tkl cap : Nat}

/-! ### Parsing the body of FBUF -/

theorem bodyParse_frame_short (h : s.flenEff < n + tkl) (hn : n ≤ s.flenEff) :
    bodyParse cap tkl (s.frame.drop n) = .error .messageTruncated := by
  apply bodyParse_short
  rw [List.length_drop, State.frame_length]
  omega

/-- The frame holds the token: the option list decides. -/
theorem bodyParse_frame (h : n + tkl ≤ s.flenEff) :
    bodyParse cap tkl (s.frame.drop n) =
      (optsDecode cap (s.fbuf.read (n + tkl) (s.flenEff - (n + tkl)))).map fun p =>
        { tok := s.fbuf.read n tkl, stored := p.stored, pay := p.rest } := by
  have htok : (s.frame.drop n).take tkl = s.fbuf.read n tkl := by
    rw [State.frame_drop, Memory.read_take, Nat.min_eq_left (by omega)]
  have hopts : (s.frame.drop n).drop tkl = s.fbuf.read (n + tkl) (s.flenEff - (n + tkl)) := by
    rw [List.drop_drop, State.frame_drop]
  rw [bodyParse_of_le (by rw [List.length_drop, State.frame_length]; omega), htok, hopts]
  cases optsDecode cap (s.fbuf.read (n + tkl) (s.flenEff - (n + tkl))) <;> rfl

/-- A body that does not parse records no size. -/
theorem State.takeException_of_bodyParse {input : List Byte} (h : bodyParse cap tkl input = .error e) :
    s.takeException e = { s with status := e.status } := by
  refine State.takeException_of_ne s fun n hn => ?_
  subst hn
  simpa using bodyParse_error h

/-! ### DEC.V0 -/

theorem hdr0Parse_crc (s : State) :
    (hdr0Parse (s.memRead .fbuf 0 4)).crc =
      BitVec.ofNat 16 ((s.fbuf.get 3).toNat * 256 + (s.fbuf.get 2).toNat) := be16_eq_ofNat _ _

theorem execDecV0_of_crc_wrong (hlen : 4 ≤ s.flenEff) (hver : (s.fbuf.get 0).toNat / 64 = 0)
    (hcrc : crc16 (s.memRead .fbuf 4 (s.flenEff - 4)) ≠ (hdr0Parse (s.memRead .fbuf 0 4)).crc) :
    execDecV0 s = .next { s with status := .errInvalidRCRC16 } :=
  (complete_version_right (v := 0b00#2) hlen hver).trans (complete_check_fails hcrc _ _)

theorem execDecV0_of_crc_right (hlen : 4 ≤ s.flenEff) (hver : (s.fbuf.get 0).toNat / 64 = 0)
    (hcrc : crc16 (s.memRead .fbuf 4 (s.flenEff - 4)) = (hdr0Parse (s.memRead .fbuf 0 4)).crc) :
    execDecV0 s = .next { (s.loadHdr0 (hdr0Parse (s.memRead .fbuf 0 4))).storePayload
        (s.memRead .fbuf 4 (s.flenEff - 4)) with
      pos := word s.flenEff
      status := .ok } :=
  (complete_version_right (v := 0b00#2) hlen hver).trans (complete_check_passes (not_not_intro hcrc) _ _)

/-- Settles O38: the length, the version, then the CRC. -/
theorem decodeV0Rule : Obligations.DecodeV0Rule := by
  refine ⟨decodeOpcode_opcodeOf .decV0, ?_⟩
  rintro s pay rfl crc rfl
  rw [← hdr0Parse_crc]
  refine ⟨fun hlen => complete_check_fails hlen _ _,
    fun hlen hver => complete_version_wrong (v := 0b00#2) hlen hver, execDecV0_of_crc_wrong,
    fun hlen hver hcrc => (execDecV0_of_crc_right hlen hver hcrc).trans ?_⟩
  rw [State.loadHdr0_frame, hdr0Parse_crc, State.storePayload, State.memRead_fbuf, Memory.read_length]
  rfl

/-! ### DEC.V1 -/

theorem execDecV1_of_tokenLen (hlen : 4 ≤ s.flenEff) (hver : (s.fbuf.get 0).toNat / 64 = 1)
    (htkl : 8 < (hdr1Parse (s.memRead .fbuf 0 4)).tkl.toNat) :
    execDecV1 s = .next { s with status := .errInvalidTokenLen } :=
  (complete_version_right (v := 0b01#2) hlen hver).trans (complete_check_fails htkl _ _)

/-- Once the header passes, the body decides. -/
theorem execDecV1_of_header (hlen : 4 ≤ s.flenEff) (hver : (s.fbuf.get 0).toNat / 64 = 1)
    (htkl : (hdr1Parse (s.memRead .fbuf 0 4)).tkl.toNat ≤ 8) :
    execDecV1 s = complete s
      ((bodyParse s.optCap.toNat (hdr1Parse (s.memRead .fbuf 0 4)).tkl.toNat (s.frame.drop 4)).map fun b =>
        { (s.loadHdr1 (hdr1Parse (s.memRead .fbuf 0 4))).storeBody b with pos := word s.flenEff }) := by
  refine (complete_version_right (v := 0b01#2) hlen hver).trans
    ((complete_check_passes (Nat.not_lt.mpr htkl) _ _).trans ?_)
  cases bodyParse s.optCap.toNat (hdr1Parse (s.memRead .fbuf 0 4)).tkl.toNat (s.frame.drop 4) <;> rfl

theorem execDecV1_of_body_error (hlen : 4 ≤ s.flenEff) (hver : (s.fbuf.get 0).toNat / 64 = 1)
    (htkl : (hdr1Parse (s.memRead .fbuf 0 4)).tkl.toNat ≤ 8)
    (hb : bodyParse s.optCap.toNat (hdr1Parse (s.memRead .fbuf 0 4)).tkl.toNat (s.frame.drop 4) = .error e) :
    execDecV1 s = .next { s with status := e.status } := by
  rw [execDecV1_of_header hlen hver htkl, hb, ← State.takeException_of_bodyParse hb]
  rfl

theorem execDecV1_of_body (hlen : 4 ≤ s.flenEff) (hver : (s.fbuf.get 0).toNat / 64 = 1)
    (htkl : (hdr1Parse (s.memRead .fbuf 0 4)).tkl.toNat ≤ 8) {b : Body}
    (hb : bodyParse s.optCap.toNat (hdr1Parse (s.memRead .fbuf 0 4)).tkl.toNat (s.frame.drop 4) = .ok b) :
    execDecV1 s = .next { (s.loadHdr1 (hdr1Parse (s.memRead .fbuf 0 4))).storeBody b with
      pos := word s.flenEff
      status := .ok } := by
  rw [execDecV1_of_header hlen hver htkl, hb]
  rfl

/-- Settles O40: the length, the version, TKL, the token, then the option list. -/
theorem decodeV1Rule : Obligations.DecodeV1Rule := by
  refine ⟨decodeOpcode_opcodeOf .decV1, ?_⟩
  rintro s tkl rfl
  rw [← hdr1Parse_tkl_toNat]
  refine ⟨fun hlen => complete_check_fails hlen _ _,
    fun hlen hver => complete_version_wrong (v := 0b01#2) hlen hver, execDecV1_of_tokenLen,
    fun hlen hver htkl hshort => execDecV1_of_body_error hlen hver htkl (bodyParse_frame_short hshort hlen), ?parsed⟩
  case parsed =>
    rintro hlen hver htkl hfits input rfl
    refine ⟨fun e hd => execDecV1_of_body_error hlen hver htkl (by rw [bodyParse_frame hfits, hd]; rfl),
      fun p hd => (execDecV1_of_body hlen hver htkl (by rw [bodyParse_frame hfits, hd]; rfl)).trans ?_⟩
    rw [State.storeBody_eq, State.loadHdr1_frame, hdr1Parse_tkl_toNat]
    rfl

/-! ### DEC.V2 -/

theorem hdr2Parse_crc (s : State) :
    (hdr2Parse (s.memRead .fbuf 0 8)).crc =
      BitVec.ofNat 16 ((s.fbuf.get 2).toNat * 256 + (s.fbuf.get 3).toNat) := be16_eq_ofNat _ _

theorem execDecV2_of_sum_wrong (hlen : 8 ≤ s.flenEff) (hsum : rsum8 s.frame ≠ 0#8) :
    execDecV2 s = .next { s with status := .errMessageInvalidRSUM8 } :=
  (complete_check_passes (Nat.not_lt.mpr hlen) _ _).trans (complete_check_fails hsum _ _)

/-- The length and the RSUM8 are checked before the version (46_frames.md R286). -/
theorem complete_length_and_sum (hlen : 8 ≤ s.flenEff) (hsum : rsum8 s.frame = 0#8) (r : Except Raise State) :
    complete s (if s.flenEff < 8 then .error .messageTruncated
      else if rsum8 s.frame ≠ 0#8 then .error .messageInvalidRSUM8 else r) = complete s r := by
  rw [complete_check_passes (Nat.not_lt.mpr hlen), complete_check_passes (not_not_intro hsum)]

theorem execDecV2_of_version_wrong (hlen : 8 ≤ s.flenEff) (hsum : rsum8 s.frame = 0#8)
    (hver : (s.fbuf.get 0).toNat / 64 ≠ 2) : execDecV2 s = .next { s with status := .errMessageInvalidVersion } :=
  (complete_length_and_sum hlen hsum _).trans (complete_check_fails (mt (versionBits_eq_iff _ 0b10#2).mp hver) _ _)

theorem execDecV2_of_tokenLen (hlen : 8 ≤ s.flenEff) (hsum : rsum8 s.frame = 0#8)
    (hver : (s.fbuf.get 0).toNat / 64 = 2) (htkl : 8 < (hdr2Parse (s.memRead .fbuf 0 8)).tkl.toNat) :
    execDecV2 s = .next { s with status := .errInvalidTokenLen } :=
  (complete_length_and_sum hlen hsum _).trans
    ((complete_check_passes (not_not_intro ((versionBits_eq_iff _ 0b10#2).mpr hver)) _ _).trans
      (complete_check_fails htkl _ _))

/-- Once the header passes, the body and its CRC decide. -/
theorem execDecV2_of_header (hlen : 8 ≤ s.flenEff) (hsum : rsum8 s.frame = 0#8)
    (hver : (s.fbuf.get 0).toNat / 64 = 2) (htkl : (hdr2Parse (s.memRead .fbuf 0 8)).tkl.toNat ≤ 8) :
    execDecV2 s = complete s
      ((bodyParse s.optCap.toNat (hdr2Parse (s.memRead .fbuf 0 8)).tkl.toNat (s.frame.drop 8)).bind fun b =>
        if crc16 b.pay ≠ (hdr2Parse (s.memRead .fbuf 0 8)).crc then .error .invalidRCRC16
        else .ok { (s.loadHdr2 (hdr2Parse (s.memRead .fbuf 0 8))).storeBody b with pos := word s.flenEff }) := by
  refine (complete_length_and_sum hlen hsum _).trans
    ((complete_check_passes (not_not_intro ((versionBits_eq_iff _ 0b10#2).mpr hver)) _ _).trans
      ((complete_check_passes (Nat.not_lt.mpr htkl) _ _).trans ?_))
  cases bodyParse s.optCap.toNat (hdr2Parse (s.memRead .fbuf 0 8)).tkl.toNat (s.frame.drop 8) <;> rfl

theorem execDecV2_of_body_error (hlen : 8 ≤ s.flenEff) (hsum : rsum8 s.frame = 0#8)
    (hver : (s.fbuf.get 0).toNat / 64 = 2) (htkl : (hdr2Parse (s.memRead .fbuf 0 8)).tkl.toNat ≤ 8)
    (hb : bodyParse s.optCap.toNat (hdr2Parse (s.memRead .fbuf 0 8)).tkl.toNat (s.frame.drop 8) = .error e) :
    execDecV2 s = .next { s with status := e.status } := by
  rw [execDecV2_of_header hlen hsum hver htkl, hb, ← State.takeException_of_bodyParse hb]
  rfl

theorem execDecV2_of_crc_wrong (hlen : 8 ≤ s.flenEff) (hsum : rsum8 s.frame = 0#8)
    (hver : (s.fbuf.get 0).toNat / 64 = 2) (htkl : (hdr2Parse (s.memRead .fbuf 0 8)).tkl.toNat ≤ 8) {b : Body}
    (hb : bodyParse s.optCap.toNat (hdr2Parse (s.memRead .fbuf 0 8)).tkl.toNat (s.frame.drop 8) = .ok b)
    (hcrc : crc16 b.pay ≠ (hdr2Parse (s.memRead .fbuf 0 8)).crc) :
    execDecV2 s = .next { s with status := .errInvalidRCRC16 } := by
  rw [execDecV2_of_header hlen hsum hver htkl, hb]
  exact complete_check_fails hcrc _ _

theorem execDecV2_of_body (hlen : 8 ≤ s.flenEff) (hsum : rsum8 s.frame = 0#8)
    (hver : (s.fbuf.get 0).toNat / 64 = 2) (htkl : (hdr2Parse (s.memRead .fbuf 0 8)).tkl.toNat ≤ 8) {b : Body}
    (hb : bodyParse s.optCap.toNat (hdr2Parse (s.memRead .fbuf 0 8)).tkl.toNat (s.frame.drop 8) = .ok b)
    (hcrc : crc16 b.pay = (hdr2Parse (s.memRead .fbuf 0 8)).crc) :
    execDecV2 s = .next { (s.loadHdr2 (hdr2Parse (s.memRead .fbuf 0 8))).storeBody b with
      pos := word s.flenEff
      status := .ok } := by
  rw [execDecV2_of_header hlen hsum hver htkl, hb]
  exact complete_check_passes (not_not_intro hcrc) _ _

/-- Settles O42: the length, the RSUM8, the version, TKL, the token, the option list, then the CRC. -/
theorem decodeV2Rule : Obligations.DecodeV2Rule := by
  refine ⟨decodeOpcode_opcodeOf .decV2, ?_⟩
  rintro s tkl rfl
  rw [← hdr2Parse_tkl_toNat]
  refine ⟨fun hlen => complete_check_fails hlen _ _, execDecV2_of_sum_wrong, fun hlen hsum =>
    ⟨execDecV2_of_version_wrong hlen hsum, execDecV2_of_tokenLen hlen hsum, fun hver htkl hshort =>
      execDecV2_of_body_error hlen hsum hver htkl (bodyParse_frame_short hshort hlen), ?parsed⟩⟩
  case parsed =>
    rintro hver htkl hfits input rfl crc rfl
    rw [← hdr2Parse_crc]
    have hbody {p : Parsed} (hd : optsDecode s.optCap.toNat _ = .ok p) :=
      (bodyParse_frame hfits).trans (congrArg _ hd)
    refine ⟨fun e hd => execDecV2_of_body_error hlen hsum hver htkl (by rw [bodyParse_frame hfits, hd]; rfl),
      fun p hd => execDecV2_of_crc_wrong hlen hsum hver htkl (hbody hd),
      fun p hd hcrc => (execDecV2_of_body hlen hsum hver htkl (hbody hd) hcrc).trans ?_⟩
    rw [State.storeBody_eq, State.loadHdr2_frame, hdr2Parse_tkl_toNat, hdr2Parse_crc]
    rfl

/-- Settles O46: DEC.V2 looks at the RSUM8 before it looks at the version. -/
theorem otherVersionsAreRefused : Obligations.OtherVersionsAreRefused := by
  refine fun s => ⟨fun hlen hver => complete_version_wrong (v := 0b00#2) hlen hver,
    fun hlen hver => complete_version_wrong (v := 0b01#2) hlen hver, fun hlen => complete_check_fails hlen _ _,
    fun hlen hver => ?_⟩
  split_ifs with hsum
  · exact execDecV2_of_sum_wrong hlen hsum
  · exact execDecV2_of_version_wrong hlen (not_not.mp hsum) hver

end Sys2Proof.Machine

/-! PROOFS. Decoding what was encoded (46_frames.md R275, R281, R287): the header and the body of a frame give the
message back, and RSUM8 catches a flipped bit. -/

namespace Sys2Proof.Machine

variable {s t : State} {v : Version}

/-! ### A header that was packed -/

theorem zext_setWidth_of_lt {n : Nat} {x : Word} (h : x.toNat < 2 ^ n) : zext (x.setWidth n) = x := by
  rw [zext_setWidth, Nat.mod_eq_of_lt h, word_toNat_self]

theorem zext_mType (h : s.typeOk) : zext (s.mType.setWidth 2) = s.mType := zext_setWidth_of_lt (State.typeOk_lt h)

theorem zext_mMid (h : validateMid s.mMid.toInt) : zext (s.mMid.setWidth 16) = s.mMid :=
  zext_setWidth_of_lt (validateMid_lt h)

theorem zext_mEid (h : validateEid s.mEid.toInt) : zext (s.mEid.setWidth 4) = s.mEid :=
  zext_setWidth_of_lt (validateEid_lt h)

theorem zext_mEtp (h : validateEtp s.mEtp.toInt) : zext (s.mEtp.setWidth 4) = s.mEtp :=
  zext_setWidth_of_lt (validateEtp_lt h)

/-- The fields of byte 0 of a V1 header. -/
theorem byte224_fields (a b : BitVec 2) (c : BitVec 4) :
    versionBits (a ++ b ++ c : Byte) = a ∧ (a ++ b ++ c : Byte).extractLsb' 4 2 = b ∧
      loNibble (a ++ b ++ c : Byte) = c := by
  revert a b c
  decide

/-- The fields of byte 0 of a V0 or V2 header. -/
theorem byte242_fields (a : BitVec 2) (b : BitVec 4) (c : BitVec 2) :
    versionBits (a ++ b ++ c : Byte) = a ∧ (a ++ b ++ c : Byte).extractLsb' 2 4 = b ∧
      (a ++ b ++ c : Byte).extractLsb' 0 2 = c := by
  revert a b c
  decide

theorem hdr0Parse_hdr0Bytes (type : BitVec 2) (eid etp : BitVec 4) (crc : Half) :
    hdr0Parse (hdr0Bytes type eid etp crc) = ⟨type, eid, etp, crc⟩ := by
  obtain ⟨-, -, htype⟩ := byte242_fields 0b00#2 0b0000#4 type
  exact (Hdr0.mk.injEq ..).mpr ⟨htype, hiNibble_append eid etp, loNibble_append eid etp, le16_lo_hi crc⟩

theorem hdr1Parse_hdr1Bytes (type : BitVec 2) (tkl : BitVec 4) (code : Byte) (mid : Half) :
    hdr1Parse (hdr1Bytes type tkl code mid) = ⟨type, tkl, code, mid⟩ := by
  obtain ⟨-, htype, htkl⟩ := byte224_fields 0b01#2 type tkl
  exact (Hdr1.mk.injEq ..).mpr ⟨htype, htkl, rfl, be16_hi_lo mid⟩

/-- Byte 7 is the one byte of a V2 header that the packer leaves zero. -/
theorem hdr2Parse_hdr2Bytes (type : BitVec 2) (tkl eid etp : BitVec 4) (crc mid : Half) (code rsum : Byte) :
    hdr2Parse ((hdr2Bytes type tkl eid etp crc mid code).set 7 rsum) =
      ⟨tkl, type, eid, etp, crc, mid, code, rsum⟩ := by
  obtain ⟨-, htkl, htype⟩ := byte242_fields 0b10#2 tkl type
  exact (Hdr2.mk.injEq ..).mpr ⟨htkl, htype, hiNibble_append eid etp, loNibble_append eid etp, be16_hi_lo crc,
    be16_hi_lo mid, rfl, rfl⟩

/-- Loading the message's own header changes M_VER alone. -/
theorem State.loadHdr0_hdr0 (h : s.fieldsOk0) : s.loadHdr0 (hdr0Parse (s.hdr0 s.mCrc16)) = { s with mVer := 0#32 } := by
  obtain ⟨htype, heid, hetp⟩ := h
  rw [State.hdr0, hdr0Parse_hdr0Bytes, State.loadHdr0, zext_mType htype, zext_mEid heid, zext_mEtp hetp]

theorem State.loadHdr1_hdr1 (h : s.fieldsOk1) : s.loadHdr1 (hdr1Parse s.hdr1) = { s with mVer := 1#32 } := by
  obtain ⟨hmid, htype⟩ := h
  rw [State.hdr1, hdr1Parse_hdr1Bytes, State.loadHdr1, zext_mType htype, zext_mMid hmid]

theorem State.loadHdr2_hdr2 (h : s.fieldsOk2) :
    s.loadHdr2 (hdr2Parse ((s.hdr2 s.mCrc16).set 7 s.mRsum8)) = { s with mVer := 2#32 } := by
  obtain ⟨hmid, htype, heid, hetp⟩ := h
  rw [State.hdr2, hdr2Parse_hdr2Bytes, State.loadHdr2, zext_mType htype, zext_mEid heid, zext_mEtp hetp, zext_mMid hmid]

/-! ### A body that was written -/

/-- Every option passes the registry filter, as 46_frames.md R281 asks. -/
abbrev State.optionsInBounds (s : State) : Prop := ∀ e ∈ s.options, inBounds e.id (s.valueBytes e).length = true

/-- The option a decoder stores for an entry in bounds. -/
def State.storedOption (s : State) (e : OptEntry) : Stored :=
  { id := e.id, fmt := (regFilter e.id (s.valueBytes e).length).getD .empty, bytes := s.valueBytes e }

/-- The options of the message as a decoder stores them. -/
def State.storedOptions (s : State) : List Stored := (sortById s.options).map s.storedOption

/-- The message after the header, as `body_parse` returns it. -/
def State.body (s : State) : Body := { tok := s.tokenBytes, stored := s.storedOptions, pay := s.payload }

theorem State.storedOptions_length (s : State) : s.storedOptions.length = s.optCnt.toNat := by
  simp [State.storedOptions, State.options]

theorem State.storedOptions_wire (s : State) : s.storedOptions.map Stored.wire = s.wireOptions := List.map_map

theorem State.storedOptions_ordered (s : State) :
    s.storedOptions.Pairwise fun a b => a.id.toNat ≤ b.id.toNat :=
  List.pairwise_map.mpr (sortById_pairwise s.options)

theorem State.storedOptions_filtered (h : s.optionsInBounds) :
    ∀ x ∈ s.storedOptions, regFilter x.id x.bytes.length = some x.fmt := by
  refine List.forall_mem_map.mpr fun e he => ?_
  obtain ⟨fmt, hfmt⟩ := Option.isSome_iff_exists.mp (h e (mem_sortById.mp he))
  simp only [State.storedOption, hfmt, Option.getD_some]

/-- The payload ends an option list, with the marker before it or as nothing. -/
theorem stopsAt_payloadBytes (pay : List Byte) : ∃ stop, StopsAt (payloadBytes pay) stop pay := by
  cases pay with
  | nil => exact ⟨.frameEnd, stopsAt_nil⟩
  | cons b bs => exact ⟨.marker, stopsAt_marker (b :: bs)⟩

/-- `body_parse` reads back what `body_bytes` wrote. -/
theorem bodyParse_bodyBytes (h : s.optionsOk) (hin : s.optionsInBounds) :
    bodyParse s.optCap.toNat s.mTkl.toNat (bodyBytes s.tokenBytes s.wireOptions s.payload) = .ok s.body := by
  obtain ⟨hok, hr⟩ := h
  obtain ⟨hcount, -⟩ := State.optTableOk_entries hok
  obtain ⟨stop, hstop⟩ := stopsAt_payloadBytes s.payload
  have hlen := s.tokenBytes_length
  have hopts := optsDecodeFrom_optsEncode hstop (prev := 0#32) (fun _ _ => Nat.zero_le _) s.storedOptions_ordered
    (by rwa [State.storedOptions_wire]) (State.storedOptions_filtered hin) (s.storedOptions_length.trans_le hcount)
  rw [State.storedOptions_wire] at hopts
  rw [bodyBytes, List.append_assoc, ← hlen, bodyParse_of_le (by simp), List.drop_left, List.take_left,
    optsDecode, hopts]
  rfl

/-! ### The stored options -/

/-- The entry `d` holds the stored option `x`, its value in the VBUF contents `m` (43_option_registry.md R186). -/
def Stored.HeldBy (m : Memory) (x : Stored) (d : OptEntry) : Prop :=
  d.id = x.id ∧ m.read d.voff.toNat d.vlen.toNat = x.bytes ∧ d.kind = storedKind x.id x.fmt ∧
    d.uval = storedUval x.bytes x.fmt

theorem storedEntries_held {m : Memory} {xs : List Stored} {o : Nat}
    (hm : m.read o (storedBytes xs).length = storedBytes xs) (hlt : o + (storedBytes xs).length < 2 ^ 32) :
    List.Forall₂ (Stored.HeldBy m) xs (storedEntries o xs) := by
  induction xs generalizing o with
  | nil => exact .nil
  | cons x xs ih =>
    have hcons : storedBytes (x :: xs) = x.bytes ++ storedBytes xs := rfl
    rw [hcons, List.length_append] at hlt
    rw [hcons, List.length_append, Memory.read_add] at hm
    obtain ⟨hx, hxs⟩ := List.append_inj hm (m.read_length _ _)
    refine .cons ⟨rfl, ?_, rfl, rfl⟩ (ih hxs (by omega))
    change m.read (word o).toNat (word x.bytes.length).toNat = x.bytes
    rw [word_toNat_of_lt (by omega), word_toNat_of_lt (by omega), hx]

/-- The entry `d` of the state `u` gives the entry `e` of `s` back, as far as the wire carries it (46_frames.md
R281). -/
def State.GivesBack (s u : State) (e d : OptEntry) : Prop :=
  d.id = e.id ∧ u.vbuf.read d.voff.toNat d.vlen.toNat = s.valueBytes e ∧
    ∀ fmt, regFilter e.id (s.valueBytes e).length = some fmt →
      d.kind = storedKind e.id fmt ∧ (fmt = .uint → e.kind = 3#3 ∨ e.kind = 4#3 → d.uval = e.uval)

theorem State.givesBack_congr (h : t.valueBytes = s.valueBytes) : t.GivesBack = s.GivesBack := by
  unfold State.GivesBack
  rw [h]

theorem Stored.HeldBy.givesBack {u : State} {e d : OptEntry} (h : (s.storedOption e).HeldBy u.vbuf d) :
    s.GivesBack u e d := by
  obtain ⟨hid, hval, hkind, huval⟩ := h
  refine ⟨hid, hval, fun fmt hfmt => ?_⟩
  have hstored : (s.storedOption e).fmt = fmt := by rw [State.storedOption, hfmt, Option.getD_some]
  rw [hstored] at hkind huval
  refine ⟨hkind, ?_⟩
  rintro rfl hk
  have hbytes : (s.storedOption e).bytes = vluEnc e.uval := if_pos hk
  rw [huval, hbytes]
  exact vluDec_vluEnc e.uval

/-! ### The message after its body was stored -/

theorem State.plenEff_of_lt (h : s.plenEff < s.bufBytes.toNat) : s.plenEff = s.plen.toNat := by
  unfold State.plenEff at h ⊢
  omega

theorem Memory.read_write_of_length {m : Memory} (hm : m.wf) {vs : List Byte} {n : Nat} (h : vs.length = n) :
    (m.write 0 vs).read 0 n = vs := by
  rw [← h]
  exact Memory.read_write hm 0 vs

theorem State.word_payload_length (h : s.plenEff < s.bufBytes.toNat) : word s.payload.length = s.plen := by
  rw [State.payload_length, State.plenEff_of_lt h, word_toNat_self]

/-- Storing the message's own payload changes nothing of it. -/
theorem State.read_payload_written (hm : s.pbuf.wf) (h : s.plenEff < s.bufBytes.toNat) :
    (s.pbuf.write 0 s.payload).read 0 s.plen.toNat = s.pbuf.read 0 s.plen.toNat := by
  rw [← State.plenEff_of_lt h]
  exact Memory.read_write_of_length hm s.payload_length

/-- The state DEC.V1 and DEC.V2 leave when they read back the message's own frame. -/
def State.decoded (t : State) (ver : Word) : State :=
  { t with
    mVer := ver
    token := t.token.write 0 t.tokenBytes
    vbuf := t.vbuf.write 0 (storedBytes t.storedOptions)
    opt := t.opt.write 0 (storedEntries 0 t.storedOptions)
    optCnt := word t.storedOptions.length
    pbuf := t.pbuf.write 0 t.payload
    plen := word t.payload.length
    pos := word t.flenEff
    status := .ok }

theorem State.storeBody_body (t : State) (ver : Word) :
    { ({ t with mVer := ver } : State).storeBody t.body with pos := word t.flenEff, status := .ok } =
      t.decoded ver := by
  rw [State.storeBody_eq]
  rfl

theorem State.decoded_optCnt (t : State) (ver : Word) : (t.decoded ver).optCnt = t.optCnt := by
  rw [State.decoded, State.storedOptions_length, word_toNat_self]

theorem State.decoded_options (hm : t.opt.wf) (ver : Word) :
    (t.decoded ver).options = storedEntries 0 t.storedOptions := by
  have hread := OptTable.read_write hm 0 (storedEntries 0 t.storedOptions)
  rw [storedEntries_length, State.storedOptions_length] at hread
  rw [State.options, State.decoded_optCnt]
  exact hread

/-- What DEC.V1 and DEC.V2 give back of the message of `t` behind the header. -/
def State.BodyGivenBack (t u : State) : Prop :=
  u.token.read 0 u.mTkl.toNat = t.token.read 0 t.mTkl.toNat ∧
  u.plen = t.plen ∧ u.pbuf.read 0 u.plen.toNat = t.pbuf.read 0 t.plen.toNat ∧
  u.optCnt = t.optCnt ∧
  List.Forall₂ (t.GivesBack u) (sortById t.options) u.options

/-- A body that parses as the message's own is given back. -/
theorem State.decoded_givesBack (hi : t.Inv) {n tkl : Nat} (hn : 0 < n)
    (hb : bodyParse t.optCap.toNat tkl (t.frame.drop n) = .ok t.body) (ver : Word) :
    t.BodyGivenBack (t.decoded ver) := by
  obtain ⟨⟨h8, hbuf, -⟩, ⟨-, hpbuf, hvbuf, htoken, hopt⟩, -⟩ := hi
  replace h8 : 8 ≤ t.bufBytes.toNat := h8
  replace hbuf : t.bufBytes.toNat ≤ 2 ^ 24 := hbuf
  obtain ⟨-, -, -, hfits⟩ := bodyParse_fits hb
  have hfl := t.flenEff_le
  have hbytes : (storedBytes t.storedOptions).length + t.plenEff < t.bufBytes.toNat := by
    simp only [State.body, List.length_drop, State.frame_length, State.payload_length] at hfits
    omega
  have hlt : t.plenEff < t.bufBytes.toNat := by omega
  have hplen : (t.decoded ver).plen = t.plen := State.word_payload_length hlt
  refine ⟨Memory.read_write_of_length htoken t.tokenBytes_length, hplen, ?pbuf, t.decoded_optCnt ver, ?options⟩
  case pbuf =>
    rw [hplen]
    exact State.read_payload_written hpbuf hlt
  case options =>
    have hheld := storedEntries_held (Memory.read_write hvbuf 0 (storedBytes t.storedOptions)) (by omega)
    rw [State.decoded_options hopt]
    exact (List.forall₂_map_left_iff.mp hheld).imp fun _ _ => Stored.HeldBy.givesBack

/-! ### A frame that was encoded -/

/-- FBUF holds the frame of the message in the registers, as ENC.Vn leaves it. -/
structure State.HoldsOwnFrame (t : State) (v : Version) : Prop where
  inv : t.Inv
  encodable : t.encodable v
  flen : t.flen.toNat = t.flenEff
  frame : t.frame = t.wireFrame v
  checksums : t.withChecksums v = t

theorem State.encoded_holdsOwnFrame (hi : s.Inv) (hc : s.encodable v) (hroom : requiredEnd v.encoder s ≤ s.ocapEff)
    (hit : (s.encoded v).Inv) : (s.encoded v).HoldsOwnFrame v := by
  obtain ⟨hw, ⟨hm, -⟩, -⟩ := hi
  have hflen : (s.encoded v).flen.toNat = requiredEnd v.encoder s := word_toNat_of_lt (requiredEnd_encoder_lt hw hc)
  have hbuf : (s.encoded v).bufBytes = s.bufBytes := by cases v <;> rfl
  have hown : (s.encoded v).wireFrame v = s.wireFrame v := by cases v <;> rfl
  have heff : (s.encoded v).flenEff = requiredEnd v.encoder s := by
    rw [State.flenEff, hflen, hbuf]
    exact Nat.min_eq_left (hroom.trans s.ocapEff_le)
  refine ⟨hit, by cases v <;> exact hc, hflen.trans heff.symm, ?_, by cases v <;> rfl⟩
  rw [hown, State.frame, heff]
  exact Memory.read_write_of_length hm (s.wireFrame_length v)

/-- An encoder that ended OK leaves the message's own frame, and the options as they were. -/
theorem exec_encoder_holdsOwnFrame (hi : s.Inv) (h : exec v.encoder s = .next t) (hok : t.status = .ok) :
    t.HoldsOwnFrame v ∧ t.options = s.options ∧ t.valueBytes = s.valueBytes := by
  obtain ⟨hit, -⟩ := hi.of_memoryEffect (exec_memoryEffect h)
  obtain ⟨hc, hroom, rfl⟩ := exec_encoder_ok hi.1 h hok
  exact ⟨State.encoded_holdsOwnFrame hi hc hroom hit, by cases v <;> rfl, by cases v <;> rfl⟩

/-- A frame split behind its header. -/
theorem State.frame_split {hdr body : List Byte} (h : t.frame = hdr ++ body) :
    hdr.length ≤ t.flenEff ∧ t.memRead .fbuf 0 hdr.length = hdr ∧ t.frame.drop hdr.length = body := by
  have hlen : hdr.length ≤ t.flenEff := by
    rw [← t.frame_length, h, List.length_append]
    omega
  have hread : t.frame.take hdr.length = t.memRead .fbuf 0 hdr.length := by
    rw [State.frame, State.memRead_fbuf, Memory.read_take, Nat.min_eq_left hlen]
    rfl
  exact ⟨hlen, by rw [← hread, h, List.take_left], by rw [h, List.drop_left]⟩

/-- Byte 7 is in the header. -/
theorem State.frameV2_eq (s : State) (l : List WireOption) :
    s.frameV2 l = (s.hdr2 (crc16 s.payload)).set 7 (rsum8 (s.layoutV2 l)) ++ bodyBytes s.tokenBytes l s.payload :=
  List.set_append_left 7 _ (Nat.lt_add_one 7)

namespace State.HoldsOwnFrame

/-! ### V0 -/

theorem plenEff_lt (h : t.HoldsOwnFrame .v0) : t.plenEff < t.bufBytes.toNat := by
  have hlen : t.flenEff = 4 + t.plenEff := by
    rw [← t.frame_length, h.frame]
    exact t.frameV0_length
  have hfl := t.flenEff_le
  omega

theorem execDecV0_eq (h : t.HoldsOwnFrame .v0) :
    execDecV0 t = .next { ({ t with mVer := 0#32 } : State).storePayload t.payload with
      pos := word t.flenEff
      status := .ok } := by
  obtain ⟨-, hf, -, hframe, hsums⟩ := h
  have hcrc : crc16 t.payload = t.mCrc16 := congrArg State.mCrc16 hsums
  rw [State.wireFrame, State.frameV0, hcrc] at hframe
  obtain ⟨hlen, hhdr, hbody⟩ : 4 ≤ t.flenEff ∧ t.memRead .fbuf 0 4 = t.hdr0 t.mCrc16 ∧ t.frame.drop 4 = _ :=
    State.frame_split hframe
  have hbyte0 : t.fbuf.get 0 = 0b00#2 ++ 0b0000#4 ++ t.mType.setWidth 2 := congrArg (byteAt · 0) hhdr
  obtain ⟨hbits, -⟩ := byte242_fields 0b00#2 0b0000#4 (t.mType.setWidth 2)
  have hver : (t.fbuf.get 0).toNat / 64 = 0 := (versionBits_eq_iff _ 0b00#2).mp (hbyte0 ▸ hbits)
  have hpay : t.memRead .fbuf 4 (t.flenEff - 4) = t.payload := by rw [← hbody, State.frame_drop, State.memRead_fbuf]
  have hsum : crc16 (t.memRead .fbuf 4 (t.flenEff - 4)) = (hdr0Parse (t.memRead .fbuf 0 4)).crc := by
    rw [hpay, hhdr, State.hdr0, hdr0Parse_hdr0Bytes, hcrc]
  rw [execDecV0_of_crc_right hlen hver hsum, hhdr, hpay, State.loadHdr0_hdr0 hf]

/-! ### V1 -/

theorem execDecV1_eq (h : t.HoldsOwnFrame .v1) (hin : t.optionsInBounds) :
    bodyParse t.optCap.toNat t.mTkl.toNat (t.frame.drop 4) = .ok t.body ∧
    execDecV1 t = .next (t.decoded 1#32) := by
  obtain ⟨-, ⟨hf, htkl, hopts⟩, -, hframe, -⟩ := h
  obtain ⟨hlen, hhdr, hbody⟩ : 4 ≤ t.flenEff ∧ t.memRead .fbuf 0 4 = t.hdr1 ∧ t.frame.drop 4 = _ :=
    State.frame_split hframe
  have hbyte0 : t.fbuf.get 0 = 0b01#2 ++ t.mType.setWidth 2 ++ t.mTkl := congrArg (byteAt · 0) hhdr
  obtain ⟨hbits, -⟩ := byte224_fields 0b01#2 (t.mType.setWidth 2) t.mTkl
  have hver : (t.fbuf.get 0).toNat / 64 = 1 := (versionBits_eq_iff _ 0b01#2).mp (hbyte0 ▸ hbits)
  have hptkl : (hdr1Parse (t.memRead .fbuf 0 4)).tkl = t.mTkl := by rw [hhdr, State.hdr1, hdr1Parse_hdr1Bytes]
  have hb : bodyParse t.optCap.toNat t.mTkl.toNat (t.frame.drop 4) = .ok t.body := by
    rw [hbody]
    exact bodyParse_bodyBytes hopts hin
  refine ⟨hb, ?_⟩
  rw [execDecV1_of_body hlen hver (by rwa [hptkl]) (by rwa [hptkl]), hhdr, State.loadHdr1_hdr1 hf,
    State.storeBody_body]

/-! ### V2 -/

/-- Byte 7 of the layout is zero (46_frames.md R283). -/
theorem rsum8_frame (h : t.HoldsOwnFrame .v2) : rsum8 t.frame = 0#8 := by
  have hbyte7 : (t.layoutV2 t.wireOptions)[7]? = some 0#8 := rfl
  rw [h.frame]
  exact rsum8_set_rsum8 hbyte7

theorem eight_le_flenEff (h : t.HoldsOwnFrame .v2) : 8 ≤ t.flenEff := by
  rw [← t.frame_length, h.frame, State.wireFrame, State.frameV2_length]
  exact Nat.le_add_right 8 _

theorem execDecV2_eq (h : t.HoldsOwnFrame .v2) (hin : t.optionsInBounds) :
    bodyParse t.optCap.toNat t.mTkl.toNat (t.frame.drop 8) = .ok t.body ∧
    execDecV2 t = .next (t.decoded 2#32) := by
  have hzero := h.rsum8_frame
  obtain ⟨-, ⟨hf, htkl, hopts⟩, -, hframe, hsums⟩ := h
  have hcrc : crc16 t.payload = t.mCrc16 := congrArg State.mCrc16 hsums
  have hsum : rsum8 (t.layoutV2 t.wireOptions) = t.mRsum8 := congrArg State.mRsum8 hsums
  rw [State.wireFrame, State.frameV2_eq, hcrc, hsum] at hframe
  obtain ⟨hlen, hhdr, hbody⟩ : 8 ≤ t.flenEff ∧ t.memRead .fbuf 0 8 = (t.hdr2 t.mCrc16).set 7 t.mRsum8 ∧
      t.frame.drop 8 = _ := State.frame_split hframe
  have hbyte0 : t.fbuf.get 0 = 0b10#2 ++ t.mTkl ++ t.mType.setWidth 2 := congrArg (byteAt · 0) hhdr
  obtain ⟨hbits, -⟩ := byte242_fields 0b10#2 t.mTkl (t.mType.setWidth 2)
  have hver : (t.fbuf.get 0).toNat / 64 = 2 := (versionBits_eq_iff _ 0b10#2).mp (hbyte0 ▸ hbits)
  have hptkl : (hdr2Parse (t.memRead .fbuf 0 8)).tkl = t.mTkl := by rw [hhdr, State.hdr2, hdr2Parse_hdr2Bytes]
  have hpcrc : (hdr2Parse (t.memRead .fbuf 0 8)).crc = t.mCrc16 := by rw [hhdr, State.hdr2, hdr2Parse_hdr2Bytes]
  have hb : bodyParse t.optCap.toNat t.mTkl.toNat (t.frame.drop 8) = .ok t.body := by
    rw [hbody]
    exact bodyParse_bodyBytes hopts hin
  refine ⟨hb, ?_⟩
  rw [execDecV2_of_body hlen hzero hver (by rwa [hptkl]) (by rwa [hptkl]) (hcrc.trans hpcrc.symm), hhdr,
    State.loadHdr2_hdr2 hf, State.storeBody_body]

/-- RSUM8 sees any one flipped bit of the frame. -/
theorem execDecV2_of_flipped_bit (h : t.HoldsOwnFrame .v2) {a k : Nat} (ha : a < t.flenEff) (hk : k < 8) {t' : State}
    (ht : t' = { t with fbuf := t.fbuf.set a (t.fbuf.get a ^^^ BitVec.twoPow 8 k) }) :
    execDecV2 t' = .next { t' with status := .errMessageInvalidRSUM8 } := by
  obtain ⟨-, ⟨hm, -⟩, -⟩ := h.inv
  have hlen : t'.flenEff = t.flenEff := by
    rw [ht]
    rfl
  have hframe : t'.frame = t.frame.set a (t.fbuf.get a ^^^ BitVec.twoPow 8 k) := by
    have hset := Memory.read_set (a := 0) hm t.flenEff a (t.fbuf.get a ^^^ BitVec.twoPow 8 k)
    rw [Nat.zero_add] at hset
    rw [ht]
    exact hset
  have hbyte : t.frame[a]? = some (t.fbuf.get a) := by
    rw [State.frame, State.memRead_fbuf, Memory.read_getElem?, if_pos ha, Nat.zero_add]
  refine execDecV2_of_sum_wrong (hlen ▸ h.eight_le_flenEff) ?_
  rw [hframe, ← h.rsum8_frame]
  exact mt (rsum8_set_eq_iff hbyte _).mp (xor_twoPow_ne hk _)

end State.HoldsOwnFrame

/-! ### The round trips -/

/-- Settles O43: DEC.V0 loads the header the message has and stores the payload it has. -/
theorem v0RoundTrip : Obligations.V0RoundTrip := by
  intro s t hi h hok
  obtain ⟨hown, -⟩ := exec_encoder_holdsOwnFrame (v := .v0) hi h hok
  obtain ⟨-, ⟨-, hpbuf, -⟩, -⟩ := hown.inv
  have hplen := State.word_payload_length hown.plenEff_lt
  refine ⟨_, hown.execDecV0_eq, rfl, rfl, rfl, rfl, rfl, hplen, ?_⟩
  rw [State.storePayload_plen, State.storePayload_pbuf, hplen]
  exact State.read_payload_written hpbuf hown.plenEff_lt

/-- Settles O44: DEC.V1 loads the header the message has and stores the body it has. -/
theorem v1RoundTrip : Obligations.V1RoundTrip := by
  intro s t hi h hok hin
  obtain ⟨hown, hopts, hvals⟩ := exec_encoder_holdsOwnFrame (v := .v1) hi h hok
  rw [← hopts, ← hvals] at hin
  obtain ⟨hb, hdec⟩ := hown.execDecV1_eq hin
  have hback := State.decoded_givesBack hown.inv (by decide) hb 1#32
  rw [State.BodyGivenBack, hopts, State.givesBack_congr hvals] at hback
  exact ⟨_, hdec, rfl, rfl, rfl, rfl, rfl, rfl, hback⟩

/-- Settles O45: the round trip is that of V1 with the checksums; a flipped bit is a changed byte. -/
theorem v2RoundTripAndBitFlips : Obligations.V2RoundTripAndBitFlips := by
  intro s t hi h hok
  obtain ⟨hown, hopts, hvals⟩ := exec_encoder_holdsOwnFrame (v := .v2) hi h hok
  rw [hown.flen]
  refine ⟨hown.rsum8_frame, fun hin => ?_, fun a k ha hk t' ht => hown.execDecV2_of_flipped_bit ha hk ht⟩
  rw [← hopts, ← hvals] at hin
  obtain ⟨hb, hdec⟩ := hown.execDecV2_eq hin
  have hback := State.decoded_givesBack hown.inv (by decide) hb 2#32
  rw [State.BodyGivenBack, hopts, State.givesBack_congr hvals] at hback
  exact ⟨_, hdec, rfl, rfl, rfl, rfl, rfl, rfl, rfl, rfl, rfl, rfl, hback⟩

end Sys2Proof.Machine

/-! PROOFS. How a command ends, said once for all commands: with which status, and which accumulators and operand
registers it may write (60_exceptions.md R303, R305; 70_reset_and_hazards.md R336; 10_state.md R22). -/

namespace Sys2Proof.Machine

variable {s t u : State} {i : Instr}

/-! ### Exceptions -/

/-- A taken exception but ErrTooSmall changes STATUS only. -/
theorem State.takeException_of_not_tooSmall {e : Raise} (h : e.status ≠ .errTooSmall) :
    s.takeException e = { s with status := e.status } :=
  s.takeException_of_ne fun _ he => h (congrArg Raise.status he)

/-- Settles O48: a command that does not end OK found no room for its required end, or took another exception. -/
theorem exceptionEntryChangesNothingElse : Obligations.ExceptionEntryChangesNothingElse := by
  intro i s t h hst
  cases exec_sizeEffect h with
  | recorded ok => exact absurd ok hst
  | silent ok => exact absurd ok hst
  | noRoom took =>
    refine ⟨fun hne => absurd took.status_eq hne, fun _ => ?_⟩
    obtain ⟨hroom, rfl⟩ := took
    exact ⟨hroom, State.takeException_tooSmall s⟩
  | raised _ notTooSmall =>
    refine ⟨fun _ => ?_, fun hts => absurd hts notTooSmall⟩
    obtain ⟨e, rfl⟩ := exec_takes_exception h hst
    rw [State.takeException_status] at notTooSmall ⊢
    exact State.takeException_of_not_tooSmall notTooSmall

/-! ### Who may write what -/

/-- The commands that may write CRCACC. -/
abbrev crcAccWriters : List Instr := [.crcInit, .crcUpd, .crcFrm, .crcPay]

/-- The commands that may write SUMACC. -/
abbrev sumAccWriters : List Instr := [.sumInit, .sumUpd, .sumFrm]

/-- The commands that may write PREVID. -/
abbrev prevIdWriters : List Instr := [.optBegin, .optPut, .optGet, .optsEnc, .optsDec]

/-- The commands that may write A0. -/
abbrev a0Writers : List Instr := [.vluGet, .optGet, .optsSize, .optsEnc, .ctMap]

/-- The commands that may write A1. -/
abbrev a1Writers : List Instr := [.vluLen, .vluPut, .regLookup, .optGet]

/-- The commands that may write A2. -/
abbrev a2Writers : List Instr := [.bfExt, .regLookup, .regCheck, .optGet]

/-- The commands that may write A3. -/
abbrev a3Writers : List Instr := [.regLookup, .optSize, .optPut, .optGet, .optsDec]

/-- The registers no command writes, and the model's own fields that no command touches. -/
structure State.SameHostSide (s t : State) : Prop where
  ocap : t.ocap = s.ocap
  bufBytes : t.bufBytes = s.bufBytes
  optCap : t.optCap = s.optCap
  host : t.host = s.host
  rdata : t.rdata = s.rdata

/-- Each accumulator and operand register is kept unless the command `i` is one of its writers. -/
structure State.WritesOnly (s : State) (i : Instr) (t : State) : Prop where
  crcAcc : t.crcAcc = s.crcAcc ∨ i ∈ crcAccWriters
  sumAcc : t.sumAcc = s.sumAcc ∨ i ∈ sumAccWriters
  prevId : t.prevId = s.prevId ∨ i ∈ prevIdWriters
  a0 : t.a0 = s.a0 ∨ i ∈ a0Writers
  a1 : t.a1 = s.a1 ∨ i ∈ a1Writers
  a2 : t.a2 = s.a2 ∨ i ∈ a2Writers
  a3 : t.a3 = s.a3 ∨ i ∈ a3Writers
  hostSide : s.SameHostSide t

/-- A taken exception writes none of them. -/
theorem State.writesOnly_takeException (s : State) (i : Instr) (e : Raise) : s.WritesOnly i (s.takeException e) :=
  ⟨.inl (s.takeException_crcAcc e), .inl (s.takeException_sumAcc e), .inl (s.takeException_prevId e),
    .inl (s.takeException_a0 e), .inl (s.takeException_a1 e), .inl (s.takeException_a2 e),
    .inl (s.takeException_a3 e),
    ⟨s.takeException_ocap e, s.takeException_bufBytes e, s.takeException_optCap e, s.takeException_host e,
      s.takeException_rdata e⟩⟩

/-! ### How a command ends -/

/-- Every way a command can end: OK, with the registers of others kept; or with an exception the table lists for it. -/
inductive State.Ending (i : Instr) (s t : State) : Prop
  | endedOk (ok : t.status = .ok) (writes : s.WritesOnly i t)
  | raised (e : Raise) (listed : i ∈ commandsEndingWith e.status) (took : t = s.takeException e)

namespace State.Ending

/-- A command that ended OK: a register its rule leaves changed is given by name, with `i` among the writers of it. -/
theorem of_ok (h : EndedOk t u)
    (crcAcc : u.crcAcc = s.crcAcc ∨ i ∈ crcAccWriters := by exact .inl (by simp))
    (sumAcc : u.sumAcc = s.sumAcc ∨ i ∈ sumAccWriters := by exact .inl (by simp))
    (prevId : u.prevId = s.prevId ∨ i ∈ prevIdWriters := by exact .inl (by simp))
    (a0 : u.a0 = s.a0 ∨ i ∈ a0Writers := by exact .inl (by simp))
    (a1 : u.a1 = s.a1 ∨ i ∈ a1Writers := by exact .inl (by simp))
    (a2 : u.a2 = s.a2 ∨ i ∈ a2Writers := by exact .inl (by simp))
    (a3 : u.a3 = s.a3 ∨ i ∈ a3Writers := by exact .inl (by simp))
    (hostSide : s.SameHostSide u := by exact ⟨by simp, by simp, by simp, by simp, by simp⟩) : s.Ending i t := by
  subst h
  obtain ⟨hocap, hbufBytes, hoptCap, hhost, hrdata⟩ := hostSide
  exact .endedOk rfl ⟨crcAcc, sumAcc, prevId, a0, a1, a2, a3, ⟨hocap, hbufBytes, hoptCap, hhost, hrdata⟩⟩

theorem of_took {l : List Raise} (h : Took s t l)
    (listed : ∀ e ∈ l, i ∈ commandsEndingWith e.status := by decide) : s.Ending i t := by
  obtain ⟨e, he, ht⟩ := h
  exact .raised e (listed e he) ht

theorem of_tooSmall (h : TookTooSmall i s t) (listed : i ∈ commandsEndingWith .errTooSmall := by decide) :
    s.Ending i t := by
  obtain ⟨-, ht⟩ := h
  exact .raised (.tooSmall (requiredEnd i s)) listed ht

theorem of_validated {ok : Bool} (h : validated s ok = .next t)
    (listed : ∀ e ∈ [Raise.invalidField], i ∈ commandsEndingWith e.status := by decide) : s.Ending i t :=
  (validated_cases h).elim (fun ht => of_ok ht) (of_took · listed)

end State.Ending

theorem exec_ending (h : exec i s = .next t) : s.Ending i t := by
  cases i with
  | crcInit => exact .of_ok (execCrcInit_cases h) (crcAcc := .inr (by decide))
  | crcUpd => exact .of_ok (execCrcUpd_cases h) (crcAcc := .inr (by decide))
  | crcFrm => exact (execCrcFrm_cases h).elim (fun ⟨_, ht⟩ => .of_ok ht (crcAcc := .inr (by decide))) .of_took
  | crcPay => exact .of_ok (execCrcPay_cases h) (crcAcc := .inr (by decide))
  | sumInit => exact .of_ok (execSumInit_cases h) (sumAcc := .inr (by decide))
  | sumUpd => exact .of_ok (execSumUpd_cases h) (sumAcc := .inr (by decide))
  | sumFrm => exact (execSumFrm_cases h).elim (fun ⟨_, ht⟩ => .of_ok ht (sumAcc := .inr (by decide))) .of_took
  | sumPatch => exact (execSumPatch_cases h).elim3 (fun ⟨_, _, ht⟩ => .of_ok ht) .of_took .of_tooSmall
  | vluLen => exact .of_ok (execVluLen_cases h) (a1 := .inr (by decide))
  | vluPut => exact (execVluPut_cases h).elim (fun ⟨_, ht⟩ => .of_ok ht (a1 := .inr (by decide))) .of_tooSmall
  | vluGet => exact (execVluGet_cases h).elim (fun ⟨_, _, ht⟩ => .of_ok ht (a0 := .inr (by decide))) .of_took
  | valType | valMid | valEid | valEtp | valVer => exact .of_validated h
  | bfExt => exact (execBfExt_cases h).elim (fun ⟨_, ht⟩ => .of_ok ht (a2 := .inr (by decide))) .of_took
  | bfIns => exact (execBfIns_cases h).elim (fun ⟨_, _, _, ht⟩ => .of_ok ht) .of_took
  | regLookup =>
    obtain ⟨_, _, _, ht⟩ := execRegLookup_cases h
    exact .of_ok ht (a1 := .inr (by decide)) (a2 := .inr (by decide)) (a3 := .inr (by decide))
  | regCheck => exact (execRegCheck_cases h).elim (fun ⟨_, ht⟩ => .of_ok ht (a2 := .inr (by decide))) .of_took
  | optBegin => exact .of_ok (execOptBegin_cases h) (prevId := .inr (by decide))
  | optSize => exact (execOptSize_cases h).elim (fun ht => .of_ok ht (a3 := .inr (by decide))) .of_took
  | optPut =>
    exact (execOptPut_cases h).elim3
      (fun ⟨_, ht⟩ => .of_ok ht (a3 := .inr (by decide)) (prevId := .inr (by decide))) .of_took .of_tooSmall
  | optGet =>
    rcases execOptGet_cases h with ⟨-, -, ht⟩ | ⟨_, -, -, ht⟩ | ⟨_, _, _, -, -, ht⟩ | ht
    · exact .of_ok ht (a3 := .inr (by decide))
    · exact .of_ok ht (a3 := .inr (by decide))
    · exact .of_ok ht (a0 := .inr (by decide)) (a1 := .inr (by decide)) (a2 := .inr (by decide))
        (a3 := .inr (by decide)) (prevId := .inr (by decide))
    · exact .of_took ht
  | optsSize => exact (execOptsSize_cases h).elim (fun ⟨_, _, ht⟩ => .of_ok ht (a0 := .inr (by decide))) .of_took
  | optsEnc =>
    exact (execOptsEnc_cases h).elim3
      (fun ⟨_, _, _, ht⟩ => .of_ok ht (a0 := .inr (by decide)) (prevId := .inr (by decide)))
      .of_took (fun ⟨_, _, ht⟩ => .of_tooSmall ht)
  | optsDec =>
    exact (execOptsDec_cases h).elim
      (fun ⟨_, _, _, ht⟩ => .of_ok ht (a3 := .inr (by decide)) (prevId := .inr (by decide))) .of_took
  | msgReset => exact .of_ok (execMsgReset_cases h)
  | ctMap => exact .of_ok (execCtMap_cases h) (a0 := .inr (by decide))
  | hdr0Pack => exact (execHdr0Pack_cases h).elim3 (fun ⟨_, _, ht⟩ => .of_ok ht) .of_took .of_tooSmall
  | hdr0Unpack => exact (execHdr0Unpack_cases h).elim (fun ⟨_, ht⟩ => .of_ok ht) .of_took
  | hdr1Pack => exact (execHdr1Pack_cases h).elim3 (fun ⟨_, _, _, ht⟩ => .of_ok ht) .of_took .of_tooSmall
  | hdr1Unpack => exact (execHdr1Unpack_cases h).elim (fun ⟨_, _, ht⟩ => .of_ok ht) .of_took
  | hdr2Pack => exact (execHdr2Pack_cases h).elim3 (fun ⟨_, _, _, ht⟩ => .of_ok ht) .of_took .of_tooSmall
  | hdr2Unpack => exact (execHdr2Unpack_cases h).elim (fun ⟨_, _, ht⟩ => .of_ok ht) .of_took
  | sizeV0 => exact .of_ok (execSizeV0_cases h)
  | encV0 => exact (execEncV0_cases h).elim3 (fun ⟨_, _, ht⟩ => .of_ok ht) .of_took .of_tooSmall
  | decV0 => exact (execDecV0_cases h).elim (fun ⟨_, _, _, ht⟩ => .of_ok ht) .of_took
  | sizeV1 => exact (execSizeV1_cases h).elim (fun ⟨_, _, ht⟩ => .of_ok ht) .of_took
  | encV1 =>
    exact (execEncV1_cases h).elim3 (fun ⟨_, _, _, _, _, ht⟩ => .of_ok ht) .of_took
      (fun ⟨_, _, ht⟩ => .of_tooSmall ht)
  | decV1 => exact (execDecV1_cases h).elim (fun ⟨_, _, _, _, _, ht⟩ => .of_ok ht) .of_took
  | sizeV2 => exact (execSizeV2_cases h).elim (fun ⟨_, _, ht⟩ => .of_ok ht) .of_took
  | encV2 =>
    exact (execEncV2_cases h).elim3 (fun ⟨_, _, _, _, _, ht⟩ => .of_ok ht) .of_took
      (fun ⟨_, _, ht⟩ => .of_tooSmall ht)
  | decV2 => exact (execDecV2_cases h).elim (fun ⟨_, _, _, _, _, _, _, ht⟩ => .of_ok ht) .of_took

/-- No command faults or is refused (60_exceptions.md R300). -/
theorem exec_next (i : Instr) (s : State) : ∃ t, exec i s = .next t := by
  cases i with
  | crcInit | crcUpd | crcPay | sumInit | sumUpd | vluLen | optBegin | msgReset | ctMap | sizeV0 => exact ⟨_, rfl⟩
  | _ => exact complete_next s _

/-- Settles O49: the exceptions of each command are those of its row, and none is ErrMessageNil. -/
theorem statusesAreThoseOfTheTable : Obligations.StatusesAreThoseOfTheTable := by
  intro i s
  obtain ⟨t, h⟩ := exec_next i s
  refine ⟨t, h, ?_⟩
  cases exec_ending h with
  | endedOk ok =>
    refine ⟨.inl ok, ?_, fun _ => ok⟩
    rw [ok]
    decide
  | raised e listed took =>
    have hst : t.status = e.status := by rw [took, State.takeException_status]
    refine ⟨.inr ?_, ?_, fun hi => exec_alwaysOk hi h⟩
    · rwa [hst]
    · rw [hst]
      exact e.status_ne_nil

theorem exec_writesOnly (h : exec i s = .next t) : s.WritesOnly i t := by
  cases exec_ending h with
  | endedOk _ writes => exact writes
  | raised e _ took =>
    rw [took]
    exact s.writesOnly_takeException i e

/-- Settles O51: a command outside a register's list of writers keeps the register. -/
theorem accumulatorsAndOperandsHaveFewWriters : Obligations.AccumulatorsAndOperandsHaveFewWriters := by
  intro i s t h
  obtain ⟨crcAcc, sumAcc, prevId, a0, a1, a2, a3, ocap, bufBytes, optCap, host, rdata⟩ := exec_writesOnly h
  exact ⟨crcAcc.resolve_right, sumAcc.resolve_right, prevId.resolve_right, a0.resolve_right, a1.resolve_right,
    a2.resolve_right, a3.resolve_right, ocap, bufBytes, optCap, host, rdata⟩

end Sys2Proof.Machine

/-! PROOFS. The first SIZE, ENC or DEC command after reset (70_reset_and_hazards.md R331, 10_state.md R38, R44). -/

namespace Sys2Proof.Machine

variable {s : State} {v : Version}

/-! ### The checksum invariants -/

/-- A V2 frame carries its own RSUM8 (46_frames.md R283): byte 7 of the layout is zero. -/
theorem State.rsum8_frameV2 (s : State) (l : List WireOption) : rsum8 (s.frameV2 l) = 0#8 :=
  rsum8_set_rsum8 (show (s.layoutV2 l)[7]? = some 0#8 from rfl)

theorem State.checksumsOk_of_crc (h : s.mCrc16 = crc16 s.payload) (v : Version) : s.checksumsOk v := by
  cases v with
  | v0 => exact h
  | v1 => exact trivial
  | v2 => exact ⟨h, s.rsum8_frameV2 _⟩

/-- An encoder establishes the checksum invariants of its version and keeps the ranges (10_state.md R38). -/
theorem State.encoded_msgValid (h : s.rangesOk v) : (s.encoded v).msgValid v := by
  cases v with
  | v0 => exact ⟨h, rfl⟩
  | v1 => exact ⟨h, trivial⟩
  | v2 => exact ⟨h, rfl, State.rsum8_frameV2 _ _⟩

/-! ### The message after reset -/

/-- The registers describe the empty message and there is no frame, as after reset (10_state.md R44); OCAP is free. -/
structure State.HoldsEmptyMessage (s : State) : Prop where
  wellFormed : s.params.wellFormed
  flen : s.flen = 0#32
  plen : s.plen = 0#32
  optCnt : s.optCnt = 0#32
  mTkl : s.mTkl = 0#4
  mType : s.mType = 0#32
  mMid : s.mMid = 0#32
  mEid : s.mEid = 0#32
  mEtp : s.mEtp = 0#32

/-- The header of a frame of each version (30_encoding.md R97 to R99). -/
def Version.headerLength : Version → Nat
  | .v0 | .v1 => 4
  | .v2 => 8

theorem State.resetWith_holdsEmptyMessage {p : Params} (hp : p.wellFormed) (c : ResetContents) (cap : Word) :
    State.HoldsEmptyMessage { State.resetWith p c with ocap := cap } :=
  ⟨hp, rfl, rfl, rfl, rfl, rfl, rfl, rfl, rfl⟩

namespace State.HoldsEmptyMessage

theorem flenEff_eq (h : s.HoldsEmptyMessage) : s.flenEff = 0 := by
  rw [State.flenEff, h.flen]
  exact Nat.zero_min _

theorem plenEff_eq (h : s.HoldsEmptyMessage) : s.plenEff = 0 := by
  rw [State.plenEff, h.plen]
  exact Nat.zero_min _

theorem payload_eq (h : s.HoldsEmptyMessage) : s.payload = [] := by
  rw [State.payload, h.plenEff_eq]
  rfl

theorem tokenBytes_eq (h : s.HoldsEmptyMessage) : s.tokenBytes = [] := by
  rw [State.tokenBytes, h.mTkl]
  rfl

theorem options_eq (h : s.HoldsEmptyMessage) : s.options = [] := by
  rw [State.options, h.optCnt]
  rfl

theorem wireOptions_eq (h : s.HoldsEmptyMessage) : s.wireOptions = [] := by
  rw [State.wireOptions, h.options_eq]
  rfl

theorem rangesOk (h : s.HoldsEmptyMessage) (v : Version) : s.rangesOk v := by
  have htkl : s.mTkl.toNat ≤ 8 := by simp [h.mTkl]
  have htype : s.typeOk := by simp [State.typeOk, h.mType]
  have hmid : validateMid s.mMid.toInt := by
    rw [h.mMid]
    decide
  have heid : validateEid s.mEid.toInt := by
    rw [h.mEid]
    decide
  have hetp : validateEtp s.mEtp.toInt := by
    rw [h.mEtp]
    decide
  cases v with
  | v0 => exact ⟨htkl, htype, heid, hetp⟩
  | v1 => exact ⟨htkl, hmid, htype⟩
  | v2 => exact ⟨htkl, hmid, htype, heid, hetp⟩

theorem optionsOk (h : s.HoldsEmptyMessage) : s.optionsOk := by
  simp [State.optionsOk, State.optTableOk, h.options_eq, h.wireOptions_eq, h.optCnt, optsRepresentable]

theorem encodable (h : s.HoldsEmptyMessage) (v : Version) : s.encodable v := by
  cases v with
  | v0 =>
    obtain ⟨-, hf⟩ := h.rangesOk .v0
    exact hf
  | v1 =>
    obtain ⟨htkl, hf⟩ := h.rangesOk .v1
    exact ⟨hf, htkl, h.optionsOk⟩
  | v2 =>
    obtain ⟨htkl, hf⟩ := h.rangesOk .v2
    exact ⟨hf, htkl, h.optionsOk⟩

/-- The frame of the empty message is a header. -/
theorem requiredEnd_encoder (h : s.HoldsEmptyMessage) (v : Version) :
    requiredEnd v.encoder s = v.headerLength := by
  have hbody : bodySize s.mTkl.toNat s.wireOptions s.plenEff = 0 := by
    rw [h.mTkl, h.wireOptions_eq, h.plenEff_eq]
    rfl
  cases v with
  | v0 => exact congrArg (4 + ·) h.plenEff_eq
  | v1 => exact congrArg (4 + ·) hbody
  | v2 => exact congrArg (8 + ·) hbody

theorem exec_sizer (h : s.HoldsEmptyMessage) (v : Version) :
    exec v.sizer s = .next { s with reqSize := word v.headerLength, status := .ok } := by
  rw [exec_sizer_of_encodable h.wellFormed (h.encodable v), h.requiredEnd_encoder]

theorem exec_encoder_of_ocap_zero (h : s.HoldsEmptyMessage) (hcap : s.ocap = 0#32) (v : Version) :
    exec v.encoder s = .next { s with reqSize := word v.headerLength, status := .errTooSmall } := by
  have hroom : s.ocapEff < requiredEnd v.encoder s := by
    rw [State.ocapEff, hcap, h.requiredEnd_encoder]
    cases v <;> simp [Version.headerLength]
  rw [exec_encoder_noRoom h.wellFormed (h.encodable v) hroom, h.requiredEnd_encoder]

/-- With the room the longest header needs, each encoder ends OK. -/
theorem exec_encoder_of_ocap_ge (h : s.HoldsEmptyMessage) (hcap : 8 ≤ s.ocap.toNat) (v : Version) :
    ∃ t, exec v.encoder s = .next t ∧ t.status = .ok ∧ t.msgValid v := by
  obtain ⟨hbuf, -⟩ := h.wellFormed
  have hroom : requiredEnd v.encoder s ≤ s.ocapEff := by
    rw [h.requiredEnd_encoder]
    refine le_trans ?_ (le_min hcap hbuf)
    cases v <;> decide
  exact ⟨_, exec_encoder_of_room h.wellFormed (h.encodable v) hroom, rfl, State.encoded_msgValid (h.rangesOk v)⟩

/-- There is no frame to decode. -/
theorem exec_decoder (h : s.HoldsEmptyMessage) {i : Instr} (hi : i ∈ [Instr.decV0, .decV1, .decV2]) :
    exec i s = .next { s with status := .errMessageTruncated } := by
  have hlen : ∀ n, 0 < n → s.flenEff < n := fun n hn => h.flenEff_eq.trans_lt hn
  simp only [List.mem_cons, List.not_mem_nil, or_false] at hi
  obtain rfl | rfl | rfl := hi
  · exact complete_check_fails (hlen 4 (by decide)) _ _
  · exact complete_check_fails (hlen 4 (by decide)) _ _
  · exact complete_check_fails (hlen 8 (by decide)) _ _

/-- The CRC of no bytes is 0xFFFF (40_checksums.md R131). -/
theorem crc16_payload (h : s.HoldsEmptyMessage) : crc16 s.payload = 0xFFFF#16 := by
  rw [h.payload_eq]
  rfl

/-- M_CRC16 is 0 after reset (10_state.md R44), so neither V0 nor V2 is valid. -/
theorem crc_wrong (h : s.HoldsEmptyMessage) (hcrc : s.mCrc16 = 0#16) : s.mCrc16 ≠ crc16 s.payload := by
  rw [h.crc16_payload, hcrc]
  decide

end State.HoldsEmptyMessage

/-- Settles O56: after reset the block holds the empty message, whose frame is a header, and grants no room for it. -/
theorem firstCommandAfterReset : Obligations.FirstCommandAfterReset := by
  rintro p c hp s rfl
  have h : (State.resetWith p c).HoldsEmptyMessage := State.resetWith_holdsEmptyMessage hp c 0#32
  have hcrc := h.crc_wrong rfl
  simp only [List.forall_mem_cons]
  refine ⟨⟨h.exec_sizer .v0, h.exec_sizer .v1, h.exec_sizer .v2, List.forall_mem_nil _⟩,
    ⟨h.exec_encoder_of_ocap_zero rfl .v0, h.exec_encoder_of_ocap_zero rfl .v1, h.exec_encoder_of_ocap_zero rfl .v2,
      List.forall_mem_nil _⟩,
    ⟨h.exec_decoder (by decide), h.exec_decoder (by decide), h.exec_decoder (by decide), List.forall_mem_nil _⟩,
    rfl, rfl, rfl, rfl, rfl, h.tokenBytes_eq, h.options_eq, h.payload_eq, h.rangesOk,
    ⟨h.rangesOk .v1, trivial⟩, fun ⟨_, hsum⟩ => hcrc hsum, fun ⟨_, hsum, _⟩ => hcrc hsum,
    fun v => ⟨?ranges, ?checksums⟩, fun cap hcap => ?ocapRaised⟩
  case ranges =>
    have hr := h.rangesOk v
    cases v <;> exact hr
  case checksums => exact State.checksumsOk_of_crc h.crc16_payload.symm v
  case ocapRaised =>
    have hcapped := State.resetWith_holdsEmptyMessage hp c cap
    exact ⟨hcapped.exec_encoder_of_ocap_ge hcap .v0, hcapped.exec_encoder_of_ocap_ge hcap .v1,
      hcapped.exec_encoder_of_ocap_ge hcap .v2, List.forall_mem_nil _⟩

end Sys2Proof.Machine
